-- ==== Sys2Proof/Word.lean ====
section
/-! DEFINITION. The word types of the OpenPAYGO-Link protocol core, named after the widths the spec writes as
`uN` (00_scope.md R13). All values are unsigned. -/

namespace Sys2Proof

/-- `u8`: one byte on the wire or in a storage array. -/
abbrev Byte := BitVec 8

/-- `u4`: a bus node address (20_memory.md R57). -/
abbrev Nibble := BitVec 4

/-- `u16`: the CRC accumulator and every tick counter. -/
abbrev Half := BitVec 16

/-- `u32`: a nonce, the seed, the RX_STATUS word. -/
abbrev Wide := BitVec 32

end Sys2Proof
end

