-- ==== Sys2Proof/Machine/Crc.lean ====
section
/-! DEFINITION. The stateless codec functions (40_codec.md R76 to R79, R82). -/

namespace Sys2Proof.Machine

/-- One of the eight shifts of `CRC_UPD`: polynomial 0x1021, most significant bit first (R77). -/
def crcShift (c : Half) : Half := if c.msb then (c <<< 1) ^^^ 0x1021#16 else c <<< 1

/-- `n` shifts. -/
def crcShifts : Nat → Half → Half
  | 0, c => c
  | n + 1, c => crcShifts n (crcShift c)

/-- `CRC_UPD(crc, b)` (R77). -/
def crcUpd (crc : Half) (b : Byte) : Half := crcShifts 8 (crc ^^^ (b.setWidth 16 <<< 8))

/-- The bytes folded one after another into a running CRC. -/
def crcFold (crc : Half) (bs : List Byte) : Half := bs.foldl crcUpd crc

/-- `CRC16` of a byte sequence (R78). -/
def crc16 (bs : List Byte) : Half := crcFold 0xFFFF#16 bs

/-- `BSWAP16` (R82). -/
def bswap16 (x : Half) : Half := x.extractLsb' 0 8 ++ x.extractLsb' 8 8

/-- `BSWAP32` (R82). -/
def bswap32 (x : Wide) : Wide :=
  x.extractLsb' 0 8 ++ x.extractLsb' 8 8 ++ x.extractLsb' 16 8 ++ x.extractLsb' 24 8

end Sys2Proof.Machine
end

