-- ==== Sys2Proof/Config.lean ====
section
/-! DEFINITION. What an implementation fixes: the parameters of 00_scope.md R12, the persisted configuration a
slave reads at RESET (R10, R179), and the one open predicate over it. -/

namespace Sys2Proof

/-- `ROLE`, fixed per instance (00_scope.md R3, 60_exceptions.md R175). -/
inductive Role where
  | master
  | slave
deriving DecidableEq, Repr

/-- The OPEN parameters of 00_scope.md R12, except `CONFIG_VALID`. A model takes each of them as an argument: they
stand in State as a record that no step writes, so a statement over every state is a statement over every choice. -/
structure Params where
  /-- `ROLE` -/
  role : Role
  /-- `QUEUE_SLOTS` -/
  queueSlots : Nat
  /-- `ROSTER_SLOTS` -/
  rosterSlots : Nat
  /-- `BUSY_TIMEOUT`, ticks -/
  busyTimeout : Nat
  /-- `REPLY_TIMEOUT`, ticks -/
  replyTimeout : Nat
  /-- `HS_TIMEOUT`, ticks -/
  hsTimeout : Nat
  /-- `NOPING_TIMEOUT`, ticks -/
  nopingTimeout : Nat
  /-- `PING_PERIOD`, liveness periods -/
  pingPeriod : Nat
  /-- `LIVENESS_DIV`, ticks per liveness period -/
  livenessDiv : Nat
  /-- `PING_ERR_MAX` -/
  pingErrMax : Nat
  /-- `PRESENCE_DEBOUNCE`, ticks -/
  presenceDebounce : Nat
  /-- `BACKOFF_MAX`, ticks -/
  backoffMax : Nat
  /-- `HOST_BIG_ENDIAN` -/
  hostBigEndian : Bool
deriving DecidableEq, Repr

/-- A timing parameter lies in `1 ..= 65534` (00_scope.md R12). -/
abbrev Params.timing (n : Nat) : Prop := 1 ≤ n ∧ n ≤ 65534

/-- The legal ranges of R12, with `PING_ERR_MAX` in the range U5 of 93_implementation_defined.md gives it with the
timing parameters. -/
abbrev Params.wf (p : Params) : Prop :=
  (2 ≤ p.queueSlots ∧ p.queueSlots ≤ 255) ∧ (1 ≤ p.rosterSlots ∧ p.rosterSlots ≤ 14) ∧
  Params.timing p.busyTimeout ∧ Params.timing p.replyTimeout ∧ Params.timing p.hsTimeout ∧
  Params.timing p.nopingTimeout ∧ Params.timing p.pingPeriod ∧ Params.timing p.livenessDiv ∧
  Params.timing p.pingErrMax ∧ Params.timing p.presenceDebounce ∧ Params.timing p.backoffMax

/-- `MAX_PAYLOAD`: the largest payload length (R12). -/
def maxPayload : Nat := 124

/-- `UID_MAX`: the largest identity length (R12). -/
def uidMax : Nat := 12

/-- `HS_VERSION`: the version byte a slave sends in SIGNAL, decided 1 (R12, 92_eei_decisions.md D21). -/
def hsVersion : Byte := 1#8

/-- `RESET.cfg`: the persisted-configuration read (00_scope.md R10, 70_reset_and_hazards.md R179). -/
structure BootConfig where
  /-- `cfg_ok`: 0 when the read failed or returned missing data -/
  cfgOk : Bool
  /-- the mode byte, stored and never interpreted (R40) -/
  mode : Byte
  /-- the random seed, stored and never interpreted (R40) -/
  seed : Wide
  /-- whether the node has a factory identity -/
  uidPresent : Bool
  /-- the fixed-length identity -/
  uid : Vector Byte 12
deriving DecidableEq, Repr

/-- What an implementation requires of a configuration beyond `cfg_ok = 1` (R179: "An implementation may require
more"). OPEN: a value without a body, so no proof can use what it answers (log 4). -/
opaque Config.furtherRequirement : BootConfig → Bool

/-- `CONFIG_VALID` (R12, R179): at minimum it requires `cfg_ok = 1`. -/
def Config.configValid (c : BootConfig) : Bool := c.cfgOk && Config.furtherRequirement c

/-- The parameters of State.reset. DESIGN CHOICE (log 2): the test-vector column of R12, in the master role. The spec
gives the product no values; no statement rests on these. -/
def Config.resetParams : Params where
  role := .master
  queueSlots := 5
  rosterSlots := 14
  busyTimeout := 10
  replyTimeout := 5
  hsTimeout := 20
  nopingTimeout := 30
  pingPeriod := 4
  livenessDiv := 1
  pingErrMax := 3
  presenceDebounce := 3
  backoffMax := 4
  hostBigEndian := false

end Sys2Proof
end

