-- ==== Sys2Proof/Syntax.lean ====
section
/-! DEFINITION. The instructions of the core: one constructor per row of spec/opcode_table.json. They are of two kinds
(00_scope.md R1): the wire commands carried in CMD frames (30_encoding.md R68, 46_commands.md) and the host operations
(30_encoding.md R71). A row that stands for a range of codes carries the free low bits of its code. A wire command
carries its payload after the command code, whatever its length: a length other than the command's own is a malformed
command (46_commands.md R157), which the receiver still handles. -/

namespace Sys2Proof

/-- The two encodings of the opcode table (30_encoding.md parts A and B): their codes overlap, and where a code stands
says which one it is. -/
inductive Format where
  /-- payload byte 0 of a CMD frame -/
  | cmd
  /-- the `op` field of a HOST_OP event -/
  | hostOp
deriving DecidableEq, Repr

/-- The instructions, in the order of spec/opcode_table.json. -/
inductive Instr where
  /-- SIGNAL `[0x00, version, nonce (4 bytes)]` (46_commands.md R150) -/
  | signal (args : List Byte)
  /-- FIND `[0x01, nonce echo (4 bytes), address]` (R151) -/
  | find (args : List Byte)
  /-- GET_UID `[0x02]` (R152) -/
  | getUid (args : List Byte)
  /-- PING `[0x03]` (R153) -/
  | ping (args : List Byte)
  /-- ALERT `[0x04, ...]` (R154) -/
  | alert (args : List Byte)
  /-- ACK `[0x06] ‖ reply` (R155) -/
  | ack (args : List Byte)
  /-- NACK `[0x0F, ...]` (R156) -/
  | nack (args : List Byte)
  /-- reserved command code 0x05 (R157) -/
  | reservedCmd05 (args : List Byte)
  /-- reserved command code 0x07 (R157) -/
  | reservedCmd07 (args : List Byte)
  /-- reserved command codes 0x08 to 0x0B (R157) -/
  | reservedCmd08To0B (low : BitVec 2) (args : List Byte)
  /-- reserved command codes 0x0C to 0x0D (R157) -/
  | reservedCmd0CTo0D (low : BitVec 1) (args : List Byte)
  /-- reserved command code 0x0E (R157) -/
  | reservedCmd0E (args : List Byte)
  /-- reserved command codes 0x10 to 0x1F (R157) -/
  | reservedCmd10To1F (low : BitVec 4) (args : List Byte)
  /-- reserved command codes 0x20 to 0x3F (R157) -/
  | reservedCmd20To3F (low : BitVec 5) (args : List Byte)
  /-- reserved command codes 0x40 to 0x7F (R157) -/
  | reservedCmd40To7F (low : BitVec 6) (args : List Byte)
  /-- reserved command codes 0x80 to 0xFF (R157) -/
  | reservedCmd80ToFF (low : BitVec 7) (args : List Byte)
  /-- a CMD frame of length 0: it has no command code (R157) -/
  | reservedCmdEmpty
  /-- NOP, op 0x00 (R162) -/
  | nop
  /-- CRC_UPDATE, op 0x01 (R81) -/
  | crcUpdate (crc : Half) (b : Byte)
  /-- HTON16, op 0x02 (R83) -/
  | hton16 (x : Half)
  /-- HTON32, op 0x03 (R84) -/
  | hton32 (x : Wide)
  /-- NTOH16, op 0x04 (R85) -/
  | ntoh16 (x : Half)
  /-- NTOH32, op 0x05 (R86) -/
  | ntoh32 (x : Wide)
  /-- PARSE, op 0x10 (R104) -/
  | parse
  /-- READ, op 0x11 (R105) -/
  | read (n : Byte)
  /-- SEND, op 0x12 (R106) -/
  | send (dst : Byte) (data : List Byte)
  /-- CMD_SEND, op 0x13 (R107) -/
  | cmdSend (dst : Byte) (cmd : Byte) (args : List Byte)
  /-- RX_STATUS, op 0x14 (R108) -/
  | rxStatus
  /-- PUSH, op 0x20 (R114) -/
  | push (dst : Byte) (wait : Bool) (data : List Byte)
  /-- PUSH_UID, op 0x21 (R115) -/
  | pushUid (uid : List Byte) (wait : Bool) (data : List Byte)
  /-- QUEUE_STATUS, op 0x22 (R116) -/
  | queueStatus
  /-- ROSTER_READ, op 0x30 (R127) -/
  | rosterRead (slot : Byte)
  /-- RESOLVE_UID, op 0x31 (R128) -/
  | resolveUid (uid : List Byte)
  /-- NODE_STATUS, op 0x40 (R163) -/
  | nodeStatus
  /-- REPLY_STATUS, op 0x41 (R164) -/
  | replyStatus
  /-- reserved operation codes 0x06 to 0x07 (R74) -/
  | reservedOp06To07 (low : BitVec 1)
  /-- reserved operation codes 0x08 to 0x0F (R74) -/
  | reservedOp08To0F (low : BitVec 3)
  /-- reserved operation code 0x15 (R74) -/
  | reservedOp15
  /-- reserved operation codes 0x16 to 0x17 (R74) -/
  | reservedOp16To17 (low : BitVec 1)
  /-- reserved operation codes 0x18 to 0x1F (R74) -/
  | reservedOp18To1F (low : BitVec 3)
  /-- reserved operation code 0x23 (R74) -/
  | reservedOp23
  /-- reserved operation codes 0x24 to 0x27 (R74) -/
  | reservedOp24To27 (low : BitVec 2)
  /-- reserved operation codes 0x28 to 0x2F (R74) -/
  | reservedOp28To2F (low : BitVec 3)
  /-- reserved operation codes 0x32 to 0x33 (R74) -/
  | reservedOp32To33 (low : BitVec 1)
  /-- reserved operation codes 0x34 to 0x37 (R74) -/
  | reservedOp34To37 (low : BitVec 2)
  /-- reserved operation codes 0x38 to 0x3F (R74) -/
  | reservedOp38To3F (low : BitVec 3)
  /-- reserved operation codes 0x42 to 0x43 (R74) -/
  | reservedOp42To43 (low : BitVec 1)
  /-- reserved operation codes 0x44 to 0x47 (R74) -/
  | reservedOp44To47 (low : BitVec 2)
  /-- reserved operation codes 0x48 to 0x4F (R74) -/
  | reservedOp48To4F (low : BitVec 3)
  /-- reserved operation codes 0x50 to 0x5F (R74) -/
  | reservedOp50To5F (low : BitVec 4)
  /-- reserved operation codes 0x60 to 0x7F (R74) -/
  | reservedOp60To7F (low : BitVec 5)
  /-- reserved operation codes 0x80 to 0xFF (R74) -/
  | reservedOp80ToFF (low : BitVec 7)
deriving DecidableEq, Repr

/-- Which of the two encodings an instruction has. -/
def Instr.format : Instr → Format
  | .signal _ => .cmd
  | .find _ => .cmd
  | .getUid _ => .cmd
  | .ping _ => .cmd
  | .alert _ => .cmd
  | .ack _ => .cmd
  | .nack _ => .cmd
  | .reservedCmd05 _ => .cmd
  | .reservedCmd07 _ => .cmd
  | .reservedCmd08To0B _ _ => .cmd
  | .reservedCmd0CTo0D _ _ => .cmd
  | .reservedCmd0E _ => .cmd
  | .reservedCmd10To1F _ _ => .cmd
  | .reservedCmd20To3F _ _ => .cmd
  | .reservedCmd40To7F _ _ => .cmd
  | .reservedCmd80ToFF _ _ => .cmd
  | .reservedCmdEmpty => .cmd
  | .nop => .hostOp
  | .crcUpdate _ _ => .hostOp
  | .hton16 _ => .hostOp
  | .hton32 _ => .hostOp
  | .ntoh16 _ => .hostOp
  | .ntoh32 _ => .hostOp
  | .parse => .hostOp
  | .read _ => .hostOp
  | .send _ _ => .hostOp
  | .cmdSend _ _ _ => .hostOp
  | .rxStatus => .hostOp
  | .push _ _ _ => .hostOp
  | .pushUid _ _ _ => .hostOp
  | .queueStatus => .hostOp
  | .rosterRead _ => .hostOp
  | .resolveUid _ => .hostOp
  | .nodeStatus => .hostOp
  | .replyStatus => .hostOp
  | .reservedOp06To07 _ => .hostOp
  | .reservedOp08To0F _ => .hostOp
  | .reservedOp15 => .hostOp
  | .reservedOp16To17 _ => .hostOp
  | .reservedOp18To1F _ => .hostOp
  | .reservedOp23 => .hostOp
  | .reservedOp24To27 _ => .hostOp
  | .reservedOp28To2F _ => .hostOp
  | .reservedOp32To33 _ => .hostOp
  | .reservedOp34To37 _ => .hostOp
  | .reservedOp38To3F _ => .hostOp
  | .reservedOp42To43 _ => .hostOp
  | .reservedOp44To47 _ => .hostOp
  | .reservedOp48To4F _ => .hostOp
  | .reservedOp50To5F _ => .hostOp
  | .reservedOp60To7F _ => .hostOp
  | .reservedOp80ToFF _ => .hostOp

end Sys2Proof
end

