-- ==== Sys2Proof/WellFormed.lean ====
section
/-! DEFINITION. Which instructions have an encoding. A counted operand (`data`, `args`, `uid`) is preceded by an 8-bit
count (30_encoding.md R71), so it holds at most 255 bytes; a longer payload than the core can send is a legal operand
and answers TOO_LONG (R106, R114). A wire command with its code is a CMD payload of at most 124 bytes (R65). Every
other operand's range is its type's. -/

namespace Sys2Proof

/-- A byte array an 8-bit count can precede. -/
def countable (bs : List Byte) : Bool := decide (bs.length ≤ 255)

/-- The arguments of a wire command: with the code byte they fit a payload. -/
def payloadArgs (args : List Byte) : Bool := decide (args.length + 1 ≤ maxPayload)

/-- The instructions that an encoding stands for. -/
def Instr.wellFormed : Instr → Bool
  | .signal args => payloadArgs args
  | .find args => payloadArgs args
  | .getUid args => payloadArgs args
  | .ping args => payloadArgs args
  | .alert args => payloadArgs args
  | .ack args => payloadArgs args
  | .nack args => payloadArgs args
  | .reservedCmd05 args => payloadArgs args
  | .reservedCmd07 args => payloadArgs args
  | .reservedCmd08To0B _ args => payloadArgs args
  | .reservedCmd0CTo0D _ args => payloadArgs args
  | .reservedCmd0E args => payloadArgs args
  | .reservedCmd10To1F _ args => payloadArgs args
  | .reservedCmd20To3F _ args => payloadArgs args
  | .reservedCmd40To7F _ args => payloadArgs args
  | .reservedCmd80ToFF _ args => payloadArgs args
  | .reservedCmdEmpty => true
  | .nop => true
  | .crcUpdate _ _ => true
  | .hton16 _ => true
  | .hton32 _ => true
  | .ntoh16 _ => true
  | .ntoh32 _ => true
  | .parse => true
  | .read _ => true
  | .send _ data => countable data
  | .cmdSend _ _ args => countable args
  | .rxStatus => true
  | .push _ _ data => countable data
  | .pushUid uid _ data => countable uid && countable data
  | .queueStatus => true
  | .rosterRead _ => true
  | .resolveUid uid => countable uid
  | .nodeStatus => true
  | .replyStatus => true
  | .reservedOp06To07 _ => true
  | .reservedOp08To0F _ => true
  | .reservedOp15 => true
  | .reservedOp16To17 _ => true
  | .reservedOp18To1F _ => true
  | .reservedOp23 => true
  | .reservedOp24To27 _ => true
  | .reservedOp28To2F _ => true
  | .reservedOp32To33 _ => true
  | .reservedOp34To37 _ => true
  | .reservedOp38To3F _ => true
  | .reservedOp42To43 _ => true
  | .reservedOp44To47 _ => true
  | .reservedOp48To4F _ => true
  | .reservedOp50To5F _ => true
  | .reservedOp60To7F _ => true
  | .reservedOp80ToFF _ => true

end Sys2Proof
end

