-- ==== Sys2Proof/Decode.lean ====
section
/-! DEFINITION. The decoder and the encoder. A CMD payload decodes by its first byte (30_encoding.md R68, R69): every
payload is some command. A host operation decodes by its op byte and then its operands, in the order of R71's row
(R71, R74). The spec gives host operands as typed fields, not bytes; the byte form is the model's (log 5): the op byte,
then each operand in R71's order, a number of more than one byte most significant byte first, a u1 as a byte 0 or 1, an
array as its count byte and its bytes. -/

namespace Sys2Proof

/-- Why a byte string is no host operation. -/
inductive DecodeReject where
  /-- there is no op byte -/
  | noOpcode
  /-- the string ends inside the operands of the operation named -/
  | truncated (mnemonic : String)
  /-- the byte of a u1 operand is neither 0 nor 1 -/
  | notABit (mnemonic : String)
deriving DecidableEq, Repr

/-- The low `n` bits of a code: the free bits of a row that stands for a range. -/
def lowBits (n : Nat) (code : Byte) : BitVec n := code.setWidth n

/-- The command a CMD payload carries (R68, R69). Total: a payload without a byte is the empty command, and every code
is in one row. -/
def decodeCommand : List Byte → Instr
  | [] => .reservedCmdEmpty
  | code :: args =>
    if code = 0x00#8 then .signal args
    else if code = 0x01#8 then .find args
    else if code = 0x02#8 then .getUid args
    else if code = 0x03#8 then .ping args
    else if code = 0x04#8 then .alert args
    else if code = 0x06#8 then .ack args
    else if code = 0x0F#8 then .nack args
    else if code = 0x05#8 then .reservedCmd05 args
    else if code = 0x07#8 then .reservedCmd07 args
    else if code &&& 0xFC#8 = 0x08#8 then .reservedCmd08To0B (lowBits 2 code) args
    else if code &&& 0xFE#8 = 0x0C#8 then .reservedCmd0CTo0D (lowBits 1 code) args
    else if code = 0x0E#8 then .reservedCmd0E args
    else if code &&& 0xF0#8 = 0x10#8 then .reservedCmd10To1F (lowBits 4 code) args
    else if code &&& 0xE0#8 = 0x20#8 then .reservedCmd20To3F (lowBits 5 code) args
    else if code &&& 0xC0#8 = 0x40#8 then .reservedCmd40To7F (lowBits 6 code) args
    else .reservedCmd80ToFF (lowBits 7 code) args

/-- One byte of operands. -/
def takeByte (mn : String) : List Byte → Except DecodeReject (Byte × List Byte)
  | b :: r => .ok (b, r)
  | [] => .error (.truncated mn)

/-- A u16 operand, most significant byte first. -/
def takeHalf (mn : String) : List Byte → Except DecodeReject (Half × List Byte)
  | b1 :: b0 :: r => .ok (b1 ++ b0, r)
  | _ => .error (.truncated mn)

/-- A u32 operand, most significant byte first. -/
def takeWide (mn : String) : List Byte → Except DecodeReject (Wide × List Byte)
  | b3 :: b2 :: b1 :: b0 :: r => .ok (b3 ++ b2 ++ b1 ++ b0, r)
  | _ => .error (.truncated mn)

/-- A u1 operand: the byte 0 or 1. -/
def takeBit (mn : String) : List Byte → Except DecodeReject (Bool × List Byte)
  | b :: r => if b = 0x00#8 then .ok (false, r) else if b = 0x01#8 then .ok (true, r) else .error (.notABit mn)
  | [] => .error (.truncated mn)

/-- A counted byte array: its count byte, then that many bytes. -/
def takeCounted (mn : String) : List Byte → Except DecodeReject (List Byte × List Byte)
  | n :: r => if n.toNat ≤ r.length then .ok (r.take n.toNat, r.drop n.toNat) else .error (.truncated mn)
  | [] => .error (.truncated mn)

/-- The operation of an op byte `code` followed by `rest` (R71, R74), and the bytes after its operands. -/
def decodeOperation (code : Byte) (rest : List Byte) : Except DecodeReject (Instr × List Byte) :=
  if code = 0x00#8 then .ok (.nop, rest)
  else if code = 0x01#8 then
    do
      let (crc, r1) ← takeHalf "CRC_UPDATE" rest
      let (b, r2) ← takeByte "CRC_UPDATE" r1
      .ok (.crcUpdate crc b, r2)
  else if code = 0x02#8 then
    (takeHalf "HTON16" rest).map fun (x, r) => (.hton16 x, r)
  else if code = 0x03#8 then
    (takeWide "HTON32" rest).map fun (x, r) => (.hton32 x, r)
  else if code = 0x04#8 then
    (takeHalf "NTOH16" rest).map fun (x, r) => (.ntoh16 x, r)
  else if code = 0x05#8 then
    (takeWide "NTOH32" rest).map fun (x, r) => (.ntoh32 x, r)
  else if code = 0x10#8 then .ok (.parse, rest)
  else if code = 0x11#8 then
    (takeByte "READ" rest).map fun (n, r) => (.read n, r)
  else if code = 0x12#8 then
    do
      let (dst, r1) ← takeByte "SEND" rest
      let (data, r2) ← takeCounted "SEND" r1
      .ok (.send dst data, r2)
  else if code = 0x13#8 then
    do
      let (dst, r1) ← takeByte "CMD_SEND" rest
      let (cmd, r2) ← takeByte "CMD_SEND" r1
      let (args, r3) ← takeCounted "CMD_SEND" r2
      .ok (.cmdSend dst cmd args, r3)
  else if code = 0x14#8 then .ok (.rxStatus, rest)
  else if code = 0x20#8 then
    do
      let (dst, r1) ← takeByte "PUSH" rest
      let (wait, r2) ← takeBit "PUSH" r1
      let (data, r3) ← takeCounted "PUSH" r2
      .ok (.push dst wait data, r3)
  else if code = 0x21#8 then
    do
      let (uid, r1) ← takeCounted "PUSH_UID" rest
      let (wait, r2) ← takeBit "PUSH_UID" r1
      let (data, r3) ← takeCounted "PUSH_UID" r2
      .ok (.pushUid uid wait data, r3)
  else if code = 0x22#8 then .ok (.queueStatus, rest)
  else if code = 0x30#8 then
    (takeByte "ROSTER_READ" rest).map fun (slot, r) => (.rosterRead slot, r)
  else if code = 0x31#8 then
    (takeCounted "RESOLVE_UID" rest).map fun (uid, r) => (.resolveUid uid, r)
  else if code = 0x40#8 then .ok (.nodeStatus, rest)
  else if code = 0x41#8 then .ok (.replyStatus, rest)
  else if code &&& 0xFE#8 = 0x06#8 then .ok (.reservedOp06To07 (lowBits 1 code), rest)
  else if code &&& 0xF8#8 = 0x08#8 then .ok (.reservedOp08To0F (lowBits 3 code), rest)
  else if code = 0x15#8 then .ok (.reservedOp15, rest)
  else if code &&& 0xFE#8 = 0x16#8 then .ok (.reservedOp16To17 (lowBits 1 code), rest)
  else if code &&& 0xF8#8 = 0x18#8 then .ok (.reservedOp18To1F (lowBits 3 code), rest)
  else if code = 0x23#8 then .ok (.reservedOp23, rest)
  else if code &&& 0xFC#8 = 0x24#8 then .ok (.reservedOp24To27 (lowBits 2 code), rest)
  else if code &&& 0xF8#8 = 0x28#8 then .ok (.reservedOp28To2F (lowBits 3 code), rest)
  else if code &&& 0xFE#8 = 0x32#8 then .ok (.reservedOp32To33 (lowBits 1 code), rest)
  else if code &&& 0xFC#8 = 0x34#8 then .ok (.reservedOp34To37 (lowBits 2 code), rest)
  else if code &&& 0xF8#8 = 0x38#8 then .ok (.reservedOp38To3F (lowBits 3 code), rest)
  else if code &&& 0xFE#8 = 0x42#8 then .ok (.reservedOp42To43 (lowBits 1 code), rest)
  else if code &&& 0xFC#8 = 0x44#8 then .ok (.reservedOp44To47 (lowBits 2 code), rest)
  else if code &&& 0xF8#8 = 0x48#8 then .ok (.reservedOp48To4F (lowBits 3 code), rest)
  else if code &&& 0xF0#8 = 0x50#8 then .ok (.reservedOp50To5F (lowBits 4 code), rest)
  else if code &&& 0xE0#8 = 0x60#8 then .ok (.reservedOp60To7F (lowBits 5 code), rest)
  else .ok (.reservedOp80ToFF (lowBits 7 code), rest)

/-- The host operation a byte string starts with, and what follows it. -/
def decodeHostOp : List Byte → Except DecodeReject (Instr × List Byte)
  | [] => .error .noOpcode
  | code :: rest => decodeOperation code rest

/-- The instruction a byte string starts with in one of the two encodings, and what follows it. A CMD payload has the
length its frame's META byte gives (R67), so it is one command with nothing after it. -/
def decode : Format → List Byte → Except DecodeReject (Instr × List Byte)
  | .cmd, payload => .ok (decodeCommand payload, [])
  | .hostOp, bytes => decodeHostOp bytes

/-- A code of a row that stands for a range: its base and its free low bits. -/
def codeOf {n : Nat} (base : Byte) (low : BitVec n) : Byte := base ||| low.setWidth 8

/-- Two bytes, most significant first. -/
def bytesOfHalf (x : Half) : List Byte := [x.extractLsb' 8 8, x.extractLsb' 0 8]

/-- Four bytes, most significant first. -/
def bytesOfWide (x : Wide) : List Byte :=
  [x.extractLsb' 24 8, x.extractLsb' 16 8, x.extractLsb' 8 8, x.extractLsb' 0 8]

/-- The byte of a u1. -/
def byteOfBit (b : Bool) : Byte := if b then 0x01#8 else 0x00#8

/-- A counted array: the count byte and the bytes. -/
def counted (bs : List Byte) : List Byte := BitVec.ofNat 8 bs.length :: bs

/-- The bytes of an instruction: a wire command's CMD payload (R68, R69), a host operation's op byte and its
operands (R71). -/
def encode : Instr → List Byte
  | .signal args => 0x00#8 :: args
  | .find args => 0x01#8 :: args
  | .getUid args => 0x02#8 :: args
  | .ping args => 0x03#8 :: args
  | .alert args => 0x04#8 :: args
  | .ack args => 0x06#8 :: args
  | .nack args => 0x0F#8 :: args
  | .reservedCmd05 args => 0x05#8 :: args
  | .reservedCmd07 args => 0x07#8 :: args
  | .reservedCmd08To0B low args => codeOf 0x08#8 low :: args
  | .reservedCmd0CTo0D low args => codeOf 0x0C#8 low :: args
  | .reservedCmd0E args => 0x0E#8 :: args
  | .reservedCmd10To1F low args => codeOf 0x10#8 low :: args
  | .reservedCmd20To3F low args => codeOf 0x20#8 low :: args
  | .reservedCmd40To7F low args => codeOf 0x40#8 low :: args
  | .reservedCmd80ToFF low args => codeOf 0x80#8 low :: args
  | .reservedCmdEmpty => []
  | .nop => [0x00#8]
  | .crcUpdate crc b => 0x01#8 :: (bytesOfHalf crc ++ [b])
  | .hton16 x => 0x02#8 :: (bytesOfHalf x)
  | .hton32 x => 0x03#8 :: (bytesOfWide x)
  | .ntoh16 x => 0x04#8 :: (bytesOfHalf x)
  | .ntoh32 x => 0x05#8 :: (bytesOfWide x)
  | .parse => [0x10#8]
  | .read n => 0x11#8 :: ([n])
  | .send dst data => 0x12#8 :: ([dst] ++ counted data)
  | .cmdSend dst cmd args => 0x13#8 :: ([dst] ++ [cmd] ++ counted args)
  | .rxStatus => [0x14#8]
  | .push dst wait data => 0x20#8 :: ([dst] ++ [byteOfBit wait] ++ counted data)
  | .pushUid uid wait data => 0x21#8 :: (counted uid ++ [byteOfBit wait] ++ counted data)
  | .queueStatus => [0x22#8]
  | .rosterRead slot => 0x30#8 :: ([slot])
  | .resolveUid uid => 0x31#8 :: (counted uid)
  | .nodeStatus => [0x40#8]
  | .replyStatus => [0x41#8]
  | .reservedOp06To07 low => [codeOf 0x06#8 low]
  | .reservedOp08To0F low => [codeOf 0x08#8 low]
  | .reservedOp15 => [0x15#8]
  | .reservedOp16To17 low => [codeOf 0x16#8 low]
  | .reservedOp18To1F low => [codeOf 0x18#8 low]
  | .reservedOp23 => [0x23#8]
  | .reservedOp24To27 low => [codeOf 0x24#8 low]
  | .reservedOp28To2F low => [codeOf 0x28#8 low]
  | .reservedOp32To33 low => [codeOf 0x32#8 low]
  | .reservedOp34To37 low => [codeOf 0x34#8 low]
  | .reservedOp38To3F low => [codeOf 0x38#8 low]
  | .reservedOp42To43 low => [codeOf 0x42#8 low]
  | .reservedOp44To47 low => [codeOf 0x44#8 low]
  | .reservedOp48To4F low => [codeOf 0x48#8 low]
  | .reservedOp50To5F low => [codeOf 0x50#8 low]
  | .reservedOp60To7F low => [codeOf 0x60#8 low]
  | .reservedOp80ToFF low => [codeOf 0x80#8 low]

/-- The bytes of a word of `nbits` bits as the opcode table numbers its bits (bits 7..0 are the first byte), then zero
bytes for the operands the table gives no bits. The longest operation with all operands zero has 6 bytes. -/
def bytesOfTableWord (nbits w : Nat) : List Byte :=
  (List.range ((nbits + 7) / 8)).map (fun k => BitVec.ofNat 8 (w % 2 ^ nbits / 256 ^ k)) ++ List.replicate 8 0x00#8

/-- The instruction of a table word. The codes of the table's two formats overlap (0x00 is SIGNAL as a command and
NOP as an operation), and a word says nothing of its format: it is read as the op of a HOST_OP event, the form in which
the core is handed instructions (log 6). -/
def decodeTableWord (nbits w : Nat) : Option Instr :=
  match decodeHostOp (bytesOfTableWord nbits w) with
  | .ok (i, _) => some i
  | .error _ => none

end Sys2Proof
end

