-- ==== Sys2Proof/Machine/State.lean ====
section
/-! DEFINITION. The state of one core instance (10_state.md R17 to R45), the events that drive it (00_scope.md R8), the
symbols and result records it emits (R9, 30_encoding.md R73), the ways a step can stop, and the state after RESET.

State is plain data, grouped by the component that owns it. Both roles' fields are held in every state: R178 allows a
model to leave out the other role's, and no rule reads them (log 7). -/

namespace Sys2Proof.Machine

/-- A byte array of the core (20_memory.md R51), as a list of (index, byte) cells in one canonical form: indices
strictly rising, and no cell equal to what an unlisted index reads as (Machine/Memory.lean). -/
abbrev Memory := List Host.Cell

/-- `fstate` (R23). -/
inductive FState where
  | idle
  | ready
  | processing
deriving DecidableEq, Repr

/-- `crc_st` (R27). -/
inductive CrcStatus where
  | none
  | pending
  | valid
  | invalid
deriving DecidableEq, Repr

/-- `rw_state` (R31). -/
inductive WaitState where
  | none
  | pending
  | received
  | timedOut
deriving DecidableEq, Repr

/-- `rw_kind` (R31): who armed the reply wait. -/
inductive WaitKind where
  | app
  | hsFind
  | hsUid
  | hsPing
  | ping
deriving DecidableEq, Repr

/-- `app_st` (R32). -/
inductive AppState where
  | none
  | received
  | timedOut
deriving DecidableEq, Repr

/-- `hs_state` (R36): the master's handshake. -/
inductive HsState where
  | idle
  | waitAddrAck
  | sendGetUid
  | waitUidAck
  | sendPing
  | waitPingAck
deriving DecidableEq, Repr

/-- `sl_state` (R37): the slave's join state. -/
inductive SlState where
  | disconnected
  | pluggedIn
  | signalSent
  | addrSet
  | uidSent
  | connected
deriving DecidableEq, Repr

/-- The frame engine's registers (R19 to R28). -/
structure FrameEngine where
  /-- `rx_buf[0 ..= 127]` (R19) -/
  rxBuf : Memory
  /-- `rx_cnt` (R20) -/
  rxCnt : Byte
  /-- `rx_active` (R21) -/
  rxActive : Bool
  /-- `rx_en` (R22), a level output -/
  rxEn : Bool
  /-- `fstate` (R23) -/
  fstate : FState
  /-- `f_src` (R24) -/
  fSrc : Nibble
  /-- `f_dst` (R24) -/
  fDst : Nibble
  /-- `f_mode` (R24): false DATA, true CMD -/
  fMode : Bool
  /-- `f_len` (R24) -/
  fLen : BitVec 7
  /-- `rd_idx` (R25) -/
  rdIdx : BitVec 7
  /-- `crc_acc` (R26) -/
  crcAcc : Half
  /-- `crc_st` (R27) -/
  crcSt : CrcStatus
  /-- `busy_cnt` (R28) -/
  busyCnt : Half
deriving DecidableEq, Repr

/-- The reply wait (R31). -/
structure ReplyWait where
  /-- `rw_state` -/
  state : WaitState
  /-- `rw_dst` -/
  dst : Nibble
  /-- `rw_kind` -/
  kind : WaitKind
  /-- `rw_cnt` -/
  cnt : Half
deriving DecidableEq, Repr

/-- The application reply latch (R32). -/
structure AppLatch where
  /-- `app_st` -/
  st : AppState
  /-- `app_src` -/
  src : Nibble
deriving DecidableEq, Repr

/-- One queue entry (R33). -/
structure QueueEntry where
  /-- a bus address `0 ..= 15` or the sentinel 0xFF -/
  dst : Byte
  /-- the payload length, `0 ..= 124` -/
  len : BitVec 7
  /-- the wait-for-reply flag -/
  wait : Bool
  /-- `data[0 ..= 123]`, the payload copy -/
  data : Memory
deriving DecidableEq, Repr

/-- The request queue (R33). -/
structure Queue where
  /-- `q[0 ..= QUEUE_SLOTS-1]` -/
  slots : List QueueEntry
  /-- `q_head` -/
  head : Byte
  /-- `q_tail` -/
  tail : Byte
deriving DecidableEq, Repr

/-- One roster slot (R34). -/
structure Slot where
  /-- `addr`, 0 when free -/
  addr : Nibble
  /-- `uid_len`, `0 ..= 12` -/
  uidLen : Nibble
  /-- `uid[0 ..= 11]` -/
  uid : Memory
  /-- `ping_cd` -/
  pingCd : Half
  /-- `ping_err`. DEDUCED (log 3): 16 bits, as R12 has every counter that a parameter bounds; R34 lists it as a u8. -/
  pingErr : Half
  /-- `needs_ping` -/
  needsPing : Bool
deriving DecidableEq, Repr

/-- The roster and its two counters (R34, R35), master only. -/
structure Roster where
  /-- `roster[0 ..= ROSTER_SLOTS-1]` -/
  slots : List Slot
  /-- `rr_pos` -/
  rrPos : Nibble
  /-- `live_cnt` -/
  liveCnt : Half
deriving DecidableEq, Repr

/-- The master's handshake registers (R36). -/
structure Handshake where
  /-- `hs_state` -/
  state : HsState
  /-- `hs_addr` -/
  addr : Nibble
  /-- `hs_nonce` -/
  nonce : Wide
  /-- `hs_uid_len` -/
  uidLen : Nibble
  /-- `hs_uid[0 ..= 11]` -/
  uid : Memory
deriving DecidableEq, Repr

/-- The slave's registers (R37 to R44). -/
structure SlaveCtl where
  /-- `sl_state` (R37) -/
  state : SlState
  /-- `nonce` (R38) -/
  nonce : Wide
  /-- `uid_len` (R39) -/
  uidLen : Nibble
  /-- `uid[0 ..= 11]` (R39) -/
  uid : Memory
  /-- `mode_byte` (R40) -/
  modeByte : Byte
  /-- `seed` (R40) -/
  seed : Wide
  /-- `pres_cnt` (R41) -/
  presCnt : Half
  /-- `abs_cnt` (R41) -/
  absCnt : Half
  /-- `hs_cnt` (R42) -/
  hsCnt : Half
  /-- `noping_cnt` (R42) -/
  nopingCnt : Half
  /-- `backoff` (R43) -/
  backoff : Half
  /-- `ping_rx` (R44) -/
  pingRx : Bool
deriving DecidableEq, Repr

/-- A transmit symbol (00_scope.md R9). -/
inductive Symbol where
  /-- the transceiver's transmit-enable pin set to `v` -/
  | txen (v : Bool)
  /-- the break/sync marker -/
  | brk
  /-- one byte; `mark` on the address-marked first byte of a frame -/
  | byte (b : Byte) (mark : Bool)
deriving DecidableEq, Repr

/-- The `status` of a result record (60_exceptions.md R166). -/
inductive Status where
  | ok
  | busy
  | tooLong
  | queueFull
  | unknownUid
  | badArg
  | badOpcode
  | wrongRole
  | halted
  | noFrame
deriving DecidableEq, Repr

/-- The fields of a result record after its status (30_encoding.md R71). They are defined only with status OK (R73),
so a record of any other status holds `none`. -/
inductive ResultFields where
  /-- no further field, or none defined -/
  | none
  /-- a u8: PARSE's `r`, REPLY_STATUS's `w` -/
  | word8 (w : Byte)
  /-- a u16: CRC_UPDATE's `crc'`, the `y` of HTON16 and NTOH16, QUEUE_STATUS's `w` -/
  | word16 (w : Half)
  /-- a u32: the `y` of HTON32 and NTOH32, RX_STATUS's `w` -/
  | word32 (w : Wide)
  /-- a u64: NODE_STATUS's `w` -/
  | word64 (w : BitVec 64)
  /-- READ's `k`, `bytes[k]` and `crc_st` -/
  | bytes (k : Byte) (bytes : List Byte) (crcSt : CrcStatus)
  /-- RESOLVE_UID's `addr` -/
  | address (addr : Nibble)
  /-- ROSTER_READ's slot record -/
  | slot (addr uidLen : Nibble) (uid : List Byte) (pingCd : Half) (pingErr : Half) (needsPing : Bool)
deriving DecidableEq, Repr

/-- The result record of a host operation (R73). -/
structure HostResult where
  status : Status
  fields : ResultFields
deriving DecidableEq, Repr

/-- The four events that drive the core (00_scope.md R8). A HOST_OP carries its op byte and its operands as bytes, in
the form Decode.lean reads. -/
inductive Event where
  /-- `RESET(cfg, nonce0)` -/
  | reset (cfg : BootConfig) (nonce0 : Wide)
  /-- `RX_BYTE(b, mark)` -/
  | rxByte (b : Byte) (mark : Bool)
  /-- `TICK(presence, busy, bo, nonce)` -/
  | tick (presence busy : Bool) (bo : Half) (nonce : Wide)
  /-- `HOST_OP(op, operands)` -/
  | hostOp (op : Byte) (operands : List Byte)
deriving DecidableEq, Repr

/-- The state of one core instance. The fields up to `halted` are the spec's (10_state.md); `params`, `inputs`,
`txOut` and `result` are the model's: the parameters the instance is built with, the events the environment has still to
deliver in their order, and what the event under way has emitted so far (R9, R17: operands and results are no state of
the core). -/
structure State where
  /-- the parameters of R12; no step writes them -/
  params : Params
  /-- R19 to R28 -/
  fe : FrameEngine
  /-- `own_addr` (R29) as stored; read it through `own`, which the master's constant overrides -/
  ownAddr : Nibble
  /-- `last_addr` (R30) -/
  lastAddr : Nibble
  /-- R31 -/
  rw : ReplyWait
  /-- R32 -/
  app : AppLatch
  /-- R33 -/
  queue : Queue
  /-- R34, R35 -/
  roster : Roster
  /-- R36 -/
  hs : Handshake
  /-- R37 to R44 -/
  sl : SlaveCtl
  /-- `halted` (R45), a level output -/
  halted : Bool
  /-- the events still to be delivered, the next one first -/
  inputs : List Event
  /-- the transmit symbols of the last event, in order -/
  txOut : List Symbol
  /-- the result record of the last event, when it was a host operation -/
  result : Option HostResult
deriving DecidableEq, Repr

/-- Why the machine stops with a fault. -/
inductive Fault where
  /-- Raised by the events and operations that index a storage array (20_memory.md R51) when a register holds an index
  or a length outside the array, which R19 to R36 exclude and no reachable state has. Safe: the spec gives such a state
  no meaning, and no next state is claimed. -/
  | indexOutsideArray
deriving DecidableEq, Repr

/-- Why the model refuses a step. -/
inductive Refusal where
  /-- Raised by the dispatch of an instruction that has no meaning in the model yet. Safe. -/
  | notModelled (mnemonic : String)
  /-- Raised by the step on a HOST_OP whose operand bytes are no operands of its op code: R71's operands are typed
  fields, so such a string is no HOST_OP event of the spec. Safe. -/
  | malformedOperation (why : DecodeReject)
  /-- Raised by the step on a TICK whose backoff draw lies outside `1 ..= BACKOFF_MAX`: no TICK event of the spec
  (R11, R158). Safe. -/
  | drawOutOfRange
deriving DecidableEq, Repr

/-- A queue entry after RESET. Its contents are any value (R33, R178): DESIGN CHOICE all zero (log 8). -/
def QueueEntry.blank : QueueEntry := ⟨0#8, 0#7, false, []⟩

/-- A free roster slot: every field 0 (R34, R120). -/
def Slot.blank : Slot := ⟨0#4, 0#4, [], 0#16, 0#16, false⟩

/-- The frame engine after RESET (R178). The receive buffer's contents are any value: DESIGN CHOICE no byte listed
(log 8). -/
def FrameEngine.reset : FrameEngine where
  rxBuf := []
  rxCnt := 0#8
  rxActive := false
  rxEn := true
  fstate := .idle
  fSrc := 0#4
  fDst := 0#4
  fMode := false
  fLen := 0#7
  rdIdx := 0#7
  crcAcc := 0xFFFF#16
  crcSt := .none
  busyCnt := 0#16

/-- The reply wait after RESET (R178). -/
def ReplyWait.reset : ReplyWait := ⟨.none, 0#4, .app, 0#16⟩

/-- The application latch after RESET (R178). -/
def AppLatch.reset : AppLatch := ⟨.none, 0#4⟩

/-- An empty queue of `n` slots (R178). -/
def Queue.reset (n : Nat) : Queue := ⟨List.replicate n QueueEntry.blank, 0#8, 0#8⟩

/-- An empty roster of `n` slots (R178). -/
def Roster.reset (n : Nat) : Roster := ⟨List.replicate n Slot.blank, 0#4, 0#16⟩

/-- The master's handshake after RESET (R178). -/
def Handshake.reset : Handshake := ⟨.idle, 0#4, 0#32, 0#4, []⟩

/-- The slave's registers after RESET, less what R179 loads from the configuration. In the master role they do not
exist (R178); DESIGN CHOICE they hold these values there (log 7). -/
def SlaveCtl.reset : SlaveCtl where
  state := .disconnected
  nonce := 0#32
  uidLen := 0#4
  uid := []
  modeByte := 0#8
  seed := 0#32
  presCnt := 0#16
  absCnt := 0#16
  hsCnt := 0#16
  nopingCnt := 0#16
  backoff := 0#16
  pingRx := false

/-- The machine right after RESET in the master role (R178: the master ignores the configuration and the draw), with
the parameters of Config.resetParams (log 2) and no event delivered yet. The slave's state after RESET is that of
`resetState` (Machine/Events.lean), of which this is an instance. -/
def State.reset : State where
  params := Config.resetParams
  fe := FrameEngine.reset
  ownAddr := 15#4
  lastAddr := 0#4
  rw := ReplyWait.reset
  app := AppLatch.reset
  queue := Queue.reset 5
  roster := Roster.reset 14
  hs := Handshake.reset
  sl := SlaveCtl.reset
  halted := false
  inputs := []
  txOut := []
  result := none

end Sys2Proof.Machine
end

