-- ==== Sys2Proof/Machine/Memory.lean ====
section
/-! DEFINITION. The byte arrays of the core: `rx_buf` (128 bytes), the `data` of a queue entry (124), every identity
(12). One byte moves at a time (20_memory.md R52, R55). -/

namespace Sys2Proof.Machine

/-- What an index nothing has written reads as. The spec gives `rx_buf` and queue entries any value after RESET (R19,
R33), so this is a DESIGN CHOICE there (log 8); the roster's and the handshake's identities are 0 (R34, R36). -/
def Memory.unlisted : Byte := 0#8

/-- `MemRead(i, 1)`: one byte of an array (R52). -/
def Memory.read : Memory → Nat → Byte
  | [], _ => Memory.unlisted
  | c :: m, i => if c.1 = i then c.2 else Memory.read m i

/-- The array without a cell for index `i`. -/
def Memory.erase (m : Memory) (i : Nat) : Memory := m.filter (fun c => c.1 != i)

/-- A cell put at its place among the rising indices. -/
def Memory.place : Memory → Host.Cell → Memory
  | [], c => [c]
  | d :: m, c => if c.1 < d.1 then c :: d :: m else d :: Memory.place m c

/-- `MemWrite(i, 1, b)` (R52). Writing what an unlisted index reads as removes the cell, so equal arrays are equal
lists. -/
def Memory.write (m : Memory) (i : Nat) (b : Byte) : Memory :=
  if b = Memory.unlisted then Memory.erase m i else Memory.place (Memory.erase m i) (i, b)

/-- The `n` bytes from index `i` on, in order. -/
def Memory.readFrom (m : Memory) (i : Nat) : Nat → List Byte
  | 0 => []
  | n + 1 => Memory.read m i :: Memory.readFrom m (i + 1) n

/-- The bytes written one after another from index `i` on; every other index keeps its byte. -/
def Memory.writeFrom (m : Memory) (i : Nat) : List Byte → Memory
  | [] => m
  | b :: bs => Memory.writeFrom (Memory.write m i b) (i + 1) bs

/-- The canonical form: indices strictly rising, no cell equal to what an unlisted index reads as. -/
abbrev Memory.wf (m : Memory) : Prop :=
  m.Pairwise (fun c d => c.1 < d.1) ∧ ∀ c ∈ m, c.2 ≠ Memory.unlisted

/-- Every cell lies in an array of `n` bytes. -/
abbrev Memory.within (n : Nat) (m : Memory) : Prop := ∀ c ∈ m, c.1 < n

end Sys2Proof.Machine
end

