-- ==== Sys2Proof/Machine/Operands.lean ====
section
/-! DEFINITION. The operand forms: the header bytes of a frame (30_encoding.md R63 to R67), the destination operand
(R72), big-endian nonces (20_memory.md R53, 40_codec.md R87), identity lengths (60_exceptions.md R166). -/

namespace Sys2Proof.Machine

/-- The ADDR byte: source in bits 7:4, destination in bits 3:0 (R64). -/
def addrByte (src dst : Nibble) : Byte := src ++ dst

/-- `src` of an ADDR byte (R64). -/
def addrSrc (a : Byte) : Nibble := a.extractLsb' 4 4

/-- `dst` of an ADDR byte (R64). -/
def addrDst (a : Byte) : Nibble := a.extractLsb' 0 4

/-- The META byte: mode in bit 7 (true CMD), length in bits 6:0 (R65). -/
def metaByte (mode : Bool) (len : Nat) : Byte := BitVec.ofBool mode ++ BitVec.ofNat 7 len

/-- `mode` of a META byte (R65). -/
def metaMode (m : Byte) : Bool := m.msb

/-- `len` of a META byte (R65). -/
def metaLen (m : Byte) : BitVec 7 := m.extractLsb' 0 7

/-- A CRC as it goes on the wire, high byte first (R66). -/
def crcBytes (c : Half) : List Byte := [c.extractLsb' 8 8, c.extractLsb' 0 8]

/-- The bytes of a frame, ADDR to the second CRC byte (R63, R66). -/
def frameBytes (src dst : Nibble) (mode : Bool) (p : List Byte) : List Byte :=
  let body := addrByte src dst :: metaByte mode p.length :: p
  body ++ crcBytes (crc16 body)

/-- The symbols of a frame: the break, the address-marked first byte, the other bytes (R63). -/
def frameSymbols (src dst : Nibble) (mode : Bool) (p : List Byte) : List Symbol :=
  match frameBytes src dst mode p with
  | [] => []
  | a :: rest => .brk :: .byte a true :: rest.map (fun b => .byte b false)

/-- The sentinel REPLY_TO_LAST (R72). -/
def replyToLast : Byte := 0xFF#8

/-- A legal destination operand: a bus address or the sentinel (R72). -/
def destOk (dst : Byte) : Bool := decide (dst.toNat ≤ 15) || dst == replyToLast

/-- The address a destination stands for: the sentinel is the last addresser (R72, 41_frame_engine.md R98). -/
def resolveDest (dst : Byte) (last : Nibble) : Nibble :=
  if dst = replyToLast then last else dst.setWidth 4

/-- A bus address as a destination operand. -/
def destOf (a : Nibble) : Byte := a.setWidth 8

/-- A legal identity length, 1 to 12 (R166). -/
def uidLenOk (u : List Byte) : Bool := decide (1 ≤ u.length) && decide (u.length ≤ uidMax)

/-- A nonce from its four bytes, most significant first (R53). -/
def nonceOf (n3 n2 n1 n0 : Byte) : Wide := n3 ++ n2 ++ n1 ++ n0

/-- A nonce as its four bytes, most significant first (R87). -/
def nonceBytes (n : Wide) : List Byte :=
  [n.extractLsb' 24 8, n.extractLsb' 16 8, n.extractLsb' 8 8, n.extractLsb' 0 8]

/-- The command codes the core itself sends (R68). -/
def codeSignal : Byte := 0x00#8
def codeFind : Byte := 0x01#8
def codeGetUid : Byte := 0x02#8
def codePing : Byte := 0x03#8
def codeAck : Byte := 0x06#8

/-- The master's constant address (20_memory.md R57). -/
def masterAddr : Nibble := 15#4

end Sys2Proof.Machine
end

