-- ==== Sys2Proof/Machine/Flags.lean ====
section
/-! DEFINITION. The role and address registers' accessors, the predicates over the state that the rules name, the
encodings of the state enumerations, and the four status words (10_state.md R46 to R49). -/

namespace Sys2Proof.Machine

/-- `ROLE = MASTER`. -/
def isMaster (s : State) : Bool := decide (s.params.role = .master)

/-- `own_addr` (R29): in the master role the constant 15, else the register. -/
def own (s : State) : Nibble := if isMaster s then masterAddr else s.ownAddr

/-- A write of `own_addr` (R29): ignored in the master role. -/
def setOwn (a : Nibble) (s : State) : State := if isMaster s then s else { s with ownAddr := a }

/-- `channel_idle` (41_frame_engine.md R90). -/
def channelIdle (s : State) : Bool := decide (s.fe.fstate = .idle) && !s.fe.rxActive && s.fe.rxEn

/-- `IS_REPLY()` (R92). -/
def isReply (s : State) : Bool :=
  decide (s.rw.state = .pending) && decide (s.fe.fSrc = s.rw.dst) && decide (s.fe.fDst = own s)

/-- `QCOUNT()` (42_request_queue.md R110). -/
def qcount (s : State) : Nat :=
  (s.queue.tail.toNat + s.params.queueSlots - s.queue.head.toNat) % s.params.queueSlots

/-- The encoding of `fstate` (R23). -/
def fstateCode : FState → BitVec 2
  | .idle => 0#2
  | .ready => 1#2
  | .processing => 2#2

/-- The encoding of `crc_st` (R27). -/
def crcStCode : CrcStatus → BitVec 2
  | .none => 0#2
  | .pending => 1#2
  | .valid => 2#2
  | .invalid => 3#2

/-- The encoding of `rw_state` (R31). -/
def rwStateCode : WaitState → BitVec 2
  | .none => 0#2
  | .pending => 1#2
  | .received => 2#2
  | .timedOut => 3#2

/-- The encoding of `rw_kind` (R31). -/
def rwKindCode : WaitKind → BitVec 3
  | .app => 0#3
  | .hsFind => 1#3
  | .hsUid => 2#3
  | .hsPing => 3#3
  | .ping => 4#3

/-- The encoding of `app_st` (R32). -/
def appStCode : AppState → BitVec 2
  | .none => 0#2
  | .received => 2#2
  | .timedOut => 3#2

/-- The encoding of `hs_state` (R36). -/
def hsStateCode : HsState → BitVec 3
  | .idle => 0#3
  | .waitAddrAck => 1#3
  | .sendGetUid => 2#3
  | .waitUidAck => 3#3
  | .sendPing => 4#3
  | .waitPingAck => 5#3

/-- The encoding of `sl_state` (R37). -/
def slStateCode : SlState → BitVec 3
  | .disconnected => 0#3
  | .pluggedIn => 1#3
  | .signalSent => 2#3
  | .addrSet => 3#3
  | .uidSent => 4#3
  | .connected => 5#3

/-- The number of a status (60_exceptions.md R166). -/
def statusCode : Status → Byte
  | .ok => 0#8
  | .busy => 1#8
  | .tooLong => 2#8
  | .queueFull => 3#8
  | .unknownUid => 4#8
  | .badArg => 5#8
  | .badOpcode => 6#8
  | .wrongRole => 7#8
  | .halted => 8#8
  | .noFrame => 9#8

/-- The RX_STATUS word (R46). -/
def rxStatusWord (s : State) : Wide :=
  0#3 ++ BitVec.ofBool s.fe.rxActive ++ BitVec.ofBool s.fe.rxEn ++ (s.fe.fLen - s.fe.rdIdx) ++ s.fe.fLen ++
    BitVec.ofBool s.fe.fMode ++ s.fe.fDst ++ s.fe.fSrc ++ crcStCode s.fe.crcSt ++ fstateCode s.fe.fstate

/-- The NODE_STATUS word (R47). -/
def nodeStatusWord (s : State) : BitVec 64 :=
  let master := isMaster s
  let nonce := if master then s.hs.nonce else s.sl.nonce
  let modeByte := if master then 0#8 else s.sl.modeByte
  let pingRx := !master && s.sl.pingRx
  let ctl := if master then hsStateCode s.hs.state else slStateCode s.sl.state
  nonce ++ modeByte ++ 0#5 ++ s.rw.dst ++ rwKindCode s.rw.kind ++ rwStateCode s.rw.state ++ BitVec.ofBool pingRx ++
    ctl ++ own s ++ BitVec.ofBool s.halted ++ BitVec.ofBool (!master)

/-- The QUEUE_STATUS word (R48). -/
def queueStatusWord (s : State) : Half :=
  BitVec.ofNat 8 (s.params.queueSlots - 1) ++ BitVec.ofNat 8 (qcount s)

/-- The REPLY_STATUS word of an application outcome or wait: the address in bits 5:2, the state in bits 1:0 (R49). -/
def replyWord (addr : Nibble) (st : BitVec 2) : Byte := 0#2 ++ addr ++ st

end Sys2Proof.Machine
end

