-- ==== Sys2Proof/Machine/Ops.lean ====
section
/-! DEFINITION. The procedures of the core (00_scope.md R14), each once: results and transmission, the frame engine
(41_frame_engine.md), the request queue (42), the roster (43), the consumption of a reply (47_tick_schedule.md R160),
the two controllers' command handling (44, 45), and the course of a CMD frame through FINISH and the dispatcher (R95).

The core has no trap (60_exceptions.md R171): no event saves state or jumps. A failing condition of a host operation is
a result code, and `refuse` is the one operation that answers it (R166, R168). -/

namespace Sys2Proof.Machine

/-- The result record of the host operation under way (30_encoding.md R73). -/
def answer (r : HostResult) (s : State) : State := { s with result := some r }

/-- Status OK with the operation's result fields (R71). -/
def succeed (f : ResultFields) (s : State) : State := answer ⟨.ok, f⟩ s

/-- A result code other than OK; the other fields are then undefined and not held (R73, R166). -/
def refuse (st : Status) (s : State) : State := answer ⟨st, .none⟩ s

/-- A status alone: the record of the operations without further result fields. -/
def report (r : State × Status) : State := answer ⟨r.2, .none⟩ r.1

/-- `emit`: transmit symbols appended to the event's output list (R14). -/
def emit (syms : List Symbol) (s : State) : State := { s with txOut := s.txOut ++ syms }

/-- Every index and length the rules form stays inside its array (R19 to R36, 20_memory.md R51). Every reachable state
has this; a state without it gives the storage accesses no meaning. -/
abbrev IndicesOk (s : State) : Prop :=
  (s.fe.fLen.toNat ≤ maxPayload ∧ s.fe.rdIdx.toNat ≤ s.fe.fLen.toNat) ∧
  (s.fe.fstate = .ready → (metaLen (s.fe.rxBuf.read 1)).toNat ≤ maxPayload) ∧
  (s.fe.rxActive = true → s.fe.rxCnt.toNat ≤ 127) ∧
  (s.queue.slots.length = s.params.queueSlots ∧ s.queue.head.toNat < s.params.queueSlots ∧
    s.queue.tail.toNat < s.params.queueSlots ∧ ∀ e ∈ s.queue.slots, e.len.toNat ≤ maxPayload) ∧
  (s.roster.slots.length = s.params.rosterSlots ∧ ∀ e ∈ s.roster.slots, e.uidLen.toNat ≤ uidMax) ∧
  (s.hs.uidLen.toNat ≤ uidMax ∧ s.sl.uidLen.toNat ≤ uidMax) ∧
  (s.rw.state ≠ .none → s.rw.kind = .hsPing → 1 ≤ s.hs.addr.toNat ∧ s.hs.addr.toNat ≤ s.params.rosterSlots)

/-- An effect that indexes the storage arrays: from a state whose indices lie inside them the next state, else the
fault. -/
def guarded (s t : State) : Host.Outcome State Fault Refusal :=
  if IndicesOk s then .next t else .fault .indexOutsideArray

/-! ### The frame engine -/

/-- `DISCARD()` (41_frame_engine.md R89). -/
def discard (s : State) : State :=
  { s with fe := { s.fe with fstate := .idle, rxActive := false, rxCnt := 0#8, rxEn := true, busyCnt := 0#16 } }

/-- The running CRC after the bytes `bs`, `rd_idx` moved to `i`. -/
def foldBytes (bs : List Byte) (i : BitVec 7) (s : State) : State :=
  { s with fe := { s.fe with crcAcc := crcFold s.fe.crcAcc bs, rdIdx := i } }

/-- The two trailing CRC bytes of the current frame, at offsets `2 + f_len` and `3 + f_len` (30_encoding.md R63). -/
def trailer (s : State) : List Byte := s.fe.rxBuf.readFrom (2 + s.fe.fLen.toNat) 2

/-- `CHECK_CRC()` (R91). -/
def checkCrc (s : State) : State :=
  let c := crcFold s.fe.crcAcc (trailer s)
  { s with fe := { s.fe with crcAcc := c, crcSt := if c = 0x0000#16 then .valid else .invalid } }

/-- `rw_state <- RECEIVED`. -/
def markReceived (s : State) : State := { s with rw := { s.rw with state := .received } }

/-- The outcome of FINISH (R93). -/
inductive FinishOutcome where
  | invalid
  | bcast
  | reply
  | held
deriving DecidableEq, Repr

/-- `FINISH()` (R93): the CRC, then the release rules in their order. -/
def finish (s : State) : State × FinishOutcome :=
  let s1 := checkCrc s
  if s1.fe.crcSt = .invalid then (discard s1, .invalid)
  else if s1.fe.fDst = 0#4 ∧ own s1 ≠ 0#4 then (discard s1, .bcast)
  else if isReply s1 then (discard (markReceived s1), .reply)
  else (s1, .held)

/-- The payload bytes of the current frame not yet folded. -/
def unread (s : State) : List Byte :=
  s.fe.rxBuf.readFrom (2 + s.fe.rdIdx.toNat) (s.fe.fLen.toNat - s.fe.rdIdx.toNat)

/-- The drain of RELEASE (R94): the unread payload and the CRC are folded, and a valid awaited reply is recorded. -/
def drain (s : State) : State :=
  let s1 := checkCrc (foldBytes (unread s) s.fe.fLen s)
  if s1.fe.crcSt = .valid ∧ isReply s1 then markReceived s1 else s1

/-- `RELEASE()` (R94). -/
def release (s : State) : State :=
  discard (if s.fe.fstate = .processing ∧ s.fe.crcSt = .pending then drain s else s)

/-- `TRANSMIT(d, mode, p)` (R97): reception off for the write, TXEN around it in the slave role only. -/
def transmit (d : Nibble) (mode : Bool) (p : List Byte) (s : State) : State :=
  let syms := frameSymbols (own s) d mode p
  emit (if isMaster s then syms else .txen true :: syms ++ [.txen false])
    { s with fe := { s.fe with rxEn := false } }

/-- The frame being answered, if one is held, ends (R98). -/
def endHeld (s : State) : State := if s.fe.fstate = .processing then release s else s

/-- `SEND(dst, mode, p)` (R98). DEDUCED (log 12): an oversized one runs RELEASE only where a frame is held, since R166
lets TOO_LONG change state there only. -/
def sendFrame (dst : Byte) (mode : Bool) (p : List Byte) (s : State) : State × Status :=
  let d := resolveDest dst s.lastAddr
  if p.length > maxPayload then (endHeld s, .tooLong)
  else (discard (transmit d mode p (endHeld s)), .ok)

/-- `ARM(kind, d)` (R99). -/
def arm (kind : WaitKind) (d : Nibble) (s : State) : State :=
  { s with rw := { state := .pending, dst := d, kind := kind, cnt := 0#16 } }

/-- `BUSY_TICK()` (R100). -/
def busyTick (s : State) : State :=
  if s.fe.fstate ≠ .idle ∨ s.fe.rxActive = true then
    let s1 := { s with fe := { s.fe with busyCnt := s.fe.busyCnt + 1#16 } }
    if s.fe.busyCnt.toNat + 1 > s.params.busyTimeout then
      if s.fe.fstate = .processing then release s1 else discard s1
    else s1
  else s

/-- `RW_TICK()` (R101). -/
def rwTick (s : State) : State :=
  if s.rw.state = .pending then
    { s with rw := { s.rw with
        cnt := s.rw.cnt + 1#16
        state := if s.rw.cnt.toNat + 1 > s.params.replyTimeout then .timedOut else .pending } }
  else s

/-! ### The request queue -/

/-- The ring index after `i` (42_request_queue.md R111, R112). -/
def nextIndex (s : State) (i : Byte) : Byte := BitVec.ofNat 8 ((i.toNat + 1) % s.params.queueSlots)

/-- A queue entry with a destination, a wait flag and a copy of the payload (R109, R111). R111 writes
`data[0 .. len-1]` only; the bytes beyond the payload stay those of the slot's last entry, which is popped (log 8). -/
def fillEntry (dst : Byte) (wait : Bool) (p : List Byte) (e : QueueEntry) : QueueEntry :=
  { dst := dst, len := BitVec.ofNat 7 p.length, wait := wait, data := e.data.writeFrom 0 p }

/-- `ENQUEUE(dst, wait, p)` (R111). -/
def enqueue (dst : Byte) (wait : Bool) (p : List Byte) (s : State) : State × Status :=
  if p.length > maxPayload then (s, .tooLong)
  else if qcount s = s.params.queueSlots - 1 then (s, .queueFull)
  else
    ({ s with queue := { s.queue with
        slots := s.queue.slots.modify s.queue.tail.toNat (fillEntry dst wait p)
        tail := nextIndex s s.queue.tail } }, .ok)

/-- The entry at the head of the queue. -/
def headEntry (s : State) : QueueEntry := s.queue.slots.getD s.queue.head.toNat QueueEntry.blank

/-- The payload of a queue entry: `data[0 .. len-1]`. -/
def entryPayload (e : QueueEntry) : List Byte := e.data.readFrom 0 e.len.toNat

/-- `DISPATCH_QUEUE()` (R112): the head entry is popped and sent, and its wait armed when it asks for one.
The pop moves `q_head` only. The contents of an entry already popped are any value (U18): DESIGN CHOICE they stay in its
slot as they were, until a push fills the slot again (log 8). -/
def dispatchQueue (s : State) : State :=
  let e := headEntry s
  let s1 := { s with queue := { s.queue with head := nextIndex s s.queue.head } }
  let d := resolveDest e.dst s.lastAddr
  let s2 := (sendFrame (destOf d) false (entryPayload e) s1).1
  if e.wait then arm .app d s2 else s2

/-! ### The roster -/

/-- Slot `k` of the roster. -/
def slotAt (s : State) (k : Nat) : Slot := s.roster.slots.getD k Slot.blank

/-- Slot `k` changed by `f`. -/
def modifySlot (k : Nat) (f : Slot → Slot) (s : State) : State :=
  { s with roster := { s.roster with slots := s.roster.slots.modify k f } }

/-- Slot `d - 1` exists and is occupied by address `d` (43_roster.md R124, 47_tick_schedule.md R160). -/
abbrev occupiedBy (s : State) (d : Nibble) : Prop :=
  1 ≤ d.toNat ∧ d.toNat ≤ s.params.rosterSlots ∧ (slotAt s (d.toNat - 1)).addr = d

/-- `ALLOC()` (R118): the lowest free slot. -/
def alloc (s : State) : Option Nat := s.roster.slots.findIdx? (fun e => e.addr == 0#4)

/-- `COMMIT(a, uid_len, uid)` (R119), `uid` being the `uid_len` bytes latched. -/
def commit (a uidLen : Nibble) (uid : List Byte) (s : State) : State :=
  modifySlot (a.toNat - 1) (fun e =>
    { addr := a, uidLen := uidLen, uid := e.uid.writeFrom 0 uid,
      pingCd := BitVec.ofNat 16 s.params.pingPeriod, pingErr := 0#16, needsPing := false }) s

/-- `EVICT(k)` (R120). -/
def evict (k : Nat) (s : State) : State := modifySlot k (fun _ => Slot.blank) s

/-- One slot's liveness period (R121): an occupied slot's countdown falls, and marks the slot when it reaches 0. -/
def liveSlot (e : Slot) : Slot :=
  if e.addr ≠ 0#4 ∧ e.pingCd.toNat > 0 then
    { e with pingCd := e.pingCd - 1#16, needsPing := e.needsPing || e.pingCd == 1#16 }
  else e

/-- `LIVENESS()` (R121). -/
def liveness (s : State) : State :=
  if s.roster.liveCnt.toNat + 1 ≥ s.params.livenessDiv then
    { s with roster := { s.roster with liveCnt := 0#16, slots := s.roster.slots.map liveSlot } }
  else { s with roster := { s.roster with liveCnt := s.roster.liveCnt + 1#16 } }

/-- Slot `k` is due a ping (R122). -/
def due (s : State) (k : Nat) : Bool := (slotAt s k).addr != 0#4 && (slotAt s k).needsPing

/-- The slots in the order SCAN visits them (R122). -/
def scanOrder (s : State) : List Nat :=
  (List.range s.params.rosterSlots).map (fun i => (s.roster.rrPos.toNat + i) % s.params.rosterSlots)

/-- `SCAN()` (R122): the address of the first slot due a ping in round-robin order, and the moved position; 0 and no
move when none is due. -/
def scan (s : State) : State × Nibble :=
  match (scanOrder s).find? (due s) with
  | some k =>
    ({ s with roster := { s.roster with rrPos := BitVec.ofNat 4 ((k + 1) % s.params.rosterSlots) } }, (slotAt s k).addr)
  | none => (s, 0#4)

/-- A roster slot that holds the identity `u` (R125): exact over the stored length and every stored byte. -/
def holdsUid (u : List Byte) (e : Slot) : Bool :=
  e.addr != 0#4 && decide (e.uidLen.toNat = u.length) && decide (e.uid.readFrom 0 u.length = u)

/-- `RESOLVE(u)` (R125): the address of the lowest slot that holds the identity, 0 for an unknown one. -/
def resolve (u : List Byte) (s : State) : Nibble :=
  match s.roster.slots.find? (holdsUid u) with
  | some e => e.addr
  | none => 0#4

/-! ### Reply outcomes -/

/-- The outcome CONSUME_REPLY is given (47_tick_schedule.md R160). -/
inductive WaitOutcome where
  /-- a valid CMD frame that is the awaited reply, with its payload -/
  | cmd (p : List Byte)
  /-- a valid DATA frame that is the awaited reply -/
  | data
  /-- no reply within the ceiling -/
  | timeout
deriving DecidableEq, Repr

/-- `ack` (R160): a CMD frame whose payload starts with ACK. -/
def isAck : WaitOutcome → Bool
  | .cmd (code :: _) => code == codeAck
  | _ => false

/-- `hs_state <- st`. -/
def setHs (st : HsState) (s : State) : State := { s with hs := { s.hs with state := st } }

/-- The identity latched at step 3 (44_master_controller.md R132). -/
def latchUid (uid : List Byte) (s : State) : State :=
  { s with hs := { s.hs with uidLen := BitVec.ofNat 4 uid.length, uid := s.hs.uid.writeFrom 0 uid } }

/-- The outcome of a wait of kind APP (R160). -/
def consumeApp (o : WaitOutcome) (d : Nibble) (s : State) : State :=
  let s1 := { s with app := { st := if o = .timeout then .timedOut else .received, src := d } }
  if isMaster s ∧ o ≠ .timeout ∧ occupiedBy s d then
    modifySlot (d.toNat - 1) (fun e => { e with pingErr := 0#16 }) s1
  else s1

/-- The outcome of a wait of kind HS_FIND (44_master_controller.md R131, R134). -/
def consumeHsFind (o : WaitOutcome) (s : State) : State :=
  if isAck o then setHs .sendGetUid s else setHs .idle s

/-- The outcome of a wait of kind HS_UID (R132, R134): an ACK of at most 12 identity bytes is latched, an empty one as
the one-byte stand-in. -/
def consumeHsUid (o : WaitOutcome) (s : State) : State :=
  match o with
  | .cmd (code :: uid) =>
    if code = codeAck ∧ uid.length ≤ uidMax then
      setHs .sendPing (latchUid (if uid = [] then [destOf s.hs.addr] else uid) s)
    else setHs .idle s
  | _ => setHs .idle s

/-- The outcome of a wait of kind HS_PING (R133): an ACK commits the slot; every outcome ends the handshake. -/
def consumeHsPing (o : WaitOutcome) (s : State) : State :=
  setHs .idle
    (if isAck o then commit s.hs.addr s.hs.uidLen (s.hs.uid.readFrom 0 s.hs.uidLen.toNat) s else s)

/-- The outcome of a wait of kind PING (43_roster.md R124). -/
def consumePing (o : WaitOutcome) (d : Nibble) (s : State) : State :=
  if occupiedBy s d then
    let k := d.toNat - 1
    if o = .timeout then
      if (slotAt s k).pingErr.toNat + 1 ≥ s.params.pingErrMax then evict k s
      else modifySlot k (fun e => { e with pingErr := e.pingErr + 1#16 }) s
    else modifySlot k (fun e => { e with pingErr := 0#16 }) s
  else s

/-- `CONSUME_REPLY(o)` (R160). -/
def consumeReply (o : WaitOutcome) (s : State) : State :=
  let s1 := { s with rw := { s.rw with state := .none, cnt := 0#16 } }
  match s.rw.kind with
  | .app => consumeApp o s.rw.dst s1
  | .hsFind => consumeHsFind o s1
  | .hsUid => consumeHsUid o s1
  | .hsPing => consumeHsPing o s1
  | .ping => consumePing o s.rw.dst s1

/-! ### Command handling -/

/-- What the dispatcher does with an accepted or refused SIGNAL (44_master_controller.md R130), `args` being the
payload after its code; no effect in the slave role (46_commands.md R150). The FIND answers the held frame, so the
allocation is written first and the wait armed after it. -/
def handleSignal (args : List Byte) (s : State) : State :=
  match isMaster s, args, alloc s with
  | true, [_, n3, n2, n1, n0], some k =>
    if s.hs.state = .idle ∧ s.rw.state = .none then
      let a : Nibble := BitVec.ofNat 4 (k + 1)
      let s1 := { s with hs := { s.hs with addr := a, nonce := nonceOf n3 n2 n1 n0 } }
      let s2 := (sendFrame (destOf s.fe.fSrc) true [codeFind, n3, n2, n1, n0, destOf a] s1).1
      setHs .waitAddrAck (arm .hsFind s.fe.fSrc s2)
    else s
  | _, _, _ => s

/-- The slave's registers changed by `f`. -/
def modifySlave (f : SlaveCtl → SlaveCtl) (s : State) : State := { s with sl := f s.sl }

/-- What the dispatcher does with a FIND (45_slave_controller.md R145, R146); no effect in the master role. -/
def handleFind (args : List Byte) (s : State) : State :=
  match isMaster s, args with
  | false, [n3, n2, n1, n0, a] =>
    if s.sl.state = .signalSent ∧ nonceOf n3 n2 n1 n0 = s.sl.nonce ∧ 1 ≤ a.toNat ∧ a.toNat ≤ 14 then
      let s1 := (sendFrame (destOf s.fe.fSrc) true [codeAck] s).1
      modifySlave (fun c => { c with state := .addrSet, hsCnt := 0#16 }) (setOwn (a.setWidth 4) s1)
    else s
  | _, _ => s

/-- What the dispatcher does with a GET_UID (R145, R147); no effect in the master role. -/
def handleGetUid (args : List Byte) (s : State) : State :=
  if isMaster s = false ∧ args = [] ∧ s.sl.state = .addrSet then
    let s1 := (sendFrame (destOf s.fe.fSrc) true (codeAck :: s.sl.uid.readFrom 0 s.sl.uidLen.toNat) s).1
    modifySlave (fun c => { c with state := .uidSent, hsCnt := 0#16 }) s1
  else s

/-- What the dispatcher does with a PING (R145, R148); no effect in the master role. -/
def handlePing (args : List Byte) (s : State) : State :=
  if isMaster s = false ∧ args = [] ∧ (s.sl.state = .uidSent ∨ s.sl.state = .connected) then
    let s1 := (sendFrame (destOf s.fe.fSrc) true [codeAck] s).1
    modifySlave (fun c => { c with state := .connected, nopingCnt := 0#16, pingRx := true }) s1
  else s

/-- The end of PARSE's CMD arm (R95): a frame nothing has released is released. -/
def endCommand (s : State) : State := if s.fe.fstate = .processing then discard s else s

/-- The course of a CMD frame addressed to this node or broadcast, from its header latched (R95, 46_commands.md): the
payload `p` is folded, FINISH checks and releases it, an awaited reply is consumed, a held frame goes to `handle`, and
what is still held is released. -/
def commandFrame (p : List Byte) (handle : State → State) (s : State) : State :=
  match finish (foldBytes p s.fe.fLen s) with
  | (s1, .reply) => endCommand (consumeReply (.cmd p) s1)
  | (s1, .held) => endCommand (handle s1)
  | (s1, _) => endCommand s1

/-! ### Ping and slave reset -/

/-- The one-byte CMD frames the master's step sends (44_master_controller.md R135): sent to `d`, with a wait armed. -/
def sendRequest (code : Byte) (kind : WaitKind) (d : Nibble) (s : State) : State :=
  arm kind d (sendFrame (destOf d) true [code] s).1

/-- `SLAVE_RESET(n)` (45_slave_controller.md R139). The queue, `abs_cnt`, the header latches and the configuration are
kept. -/
def slaveReset (n : Wide) (s : State) : State :=
  let s1 := discard (setOwn 0#4 s)
  { s1 with
    fe := { s1.fe with crcSt := .none }
    lastAddr := 0#4
    rw := { s1.rw with state := .none, cnt := 0#16 }
    app := { s1.app with st := .none }
    sl := { s1.sl with
      state := .disconnected, nonce := n, hsCnt := 0#16, nopingCnt := 0#16, presCnt := 0#16,
      pingRx := false, backoff := 0#16 } }

end Sys2Proof.Machine
end

