-- ==== Sys2Proof/Machine/Codec.lean ====
section
/-! DEFINITION. The codec's host operations (40_codec.md R81, R83 to R86). They read and write no state of the core and
answer OK also while it is halted (60_exceptions.md R167). -/

namespace Sys2Proof.Machine

/-- Host order to network order or back, 16 bits (R83): the identity on a big-endian host. -/
def hostSwap16 (s : State) (x : Half) : Half := if s.params.hostBigEndian then x else bswap16 x

/-- Host order to network order or back, 32 bits (R84). -/
def hostSwap32 (s : State) (x : Wide) : Wide := if s.params.hostBigEndian then x else bswap32 x

/-- CRC_UPDATE (R81). -/
def execCrcUpdate (crc : Half) (b : Byte) (s : State) : Host.Outcome State Fault Refusal :=
  .next (succeed (.word16 (crcUpd crc b)) s)

/-- HTON16 (R83). -/
def execHton16 (x : Half) (s : State) : Host.Outcome State Fault Refusal :=
  .next (succeed (.word16 (hostSwap16 s x)) s)

/-- HTON32 (R84). -/
def execHton32 (x : Wide) (s : State) : Host.Outcome State Fault Refusal :=
  .next (succeed (.word32 (hostSwap32 s x)) s)

/-- NTOH16 (R85): the same function as HTON16. -/
def execNtoh16 (x : Half) (s : State) : Host.Outcome State Fault Refusal :=
  .next (succeed (.word16 (hostSwap16 s x)) s)

/-- NTOH32 (R86): the same function as HTON32. -/
def execNtoh32 (x : Wide) (s : State) : Host.Outcome State Fault Refusal :=
  .next (succeed (.word32 (hostSwap32 s x)) s)

end Sys2Proof.Machine
end

