-- ==== Sys2Proof/Machine/Commands.lean ====
section
/-! DEFINITION. The wire commands (46_commands.md): what a CMD frame does at its receiver, from the moment PARSE has
latched its header and accepted its destination (41_frame_engine.md R95). `cmdX` is the effect on the state; `execX` is
the instruction's meaning over it. Each is the course of a CMD frame with that command's payload: a frame that fails its
CRC, a broadcast at an addressed node and an awaited reply are FINISH's and CONSUME_REPLY's (R93, R160); a held frame is
handled as the command says. -/

namespace Sys2Proof.Machine

/-- A held command that has no effect (R145, R157): PARSE releases the channel. -/
def ignoreCommand (s : State) : State := s

/-- SIGNAL at its receiver (R150, R130). -/
def cmdSignal (args : List Byte) (s : State) : State := commandFrame (0x00#8 :: args) (handleSignal args) s
/-- SIGNAL (R150, R130). -/
def execSignal (args : List Byte) (s : State) : Host.Outcome State Fault Refusal := guarded s (cmdSignal args s)

/-- FIND at its receiver (R151, R146). -/
def cmdFind (args : List Byte) (s : State) : State := commandFrame (0x01#8 :: args) (handleFind args) s
/-- FIND (R151, R146). -/
def execFind (args : List Byte) (s : State) : Host.Outcome State Fault Refusal := guarded s (cmdFind args s)

/-- GET_UID at its receiver (R152, R147). -/
def cmdGetUid (args : List Byte) (s : State) : State := commandFrame (0x02#8 :: args) (handleGetUid args) s
/-- GET_UID (R152, R147). -/
def execGetUid (args : List Byte) (s : State) : Host.Outcome State Fault Refusal := guarded s (cmdGetUid args s)

/-- PING at its receiver (R153, R148). -/
def cmdPing (args : List Byte) (s : State) : State := commandFrame (0x03#8 :: args) (handlePing args) s
/-- PING (R153, R148). -/
def execPing (args : List Byte) (s : State) : Host.Outcome State Fault Refusal := guarded s (cmdPing args s)

/-- ALERT: ignored, or a reply that is not an ACK when it is the awaited one (R154). -/
def cmdAlert (args : List Byte) (s : State) : State := commandFrame (0x04#8 :: args) ignoreCommand s
/-- ALERT (R154). -/
def execAlert (args : List Byte) (s : State) : Host.Outcome State Fault Refusal := guarded s (cmdAlert args s)

/-- ACK: the outcome of a handshake step or a ping when it is the awaited reply (R131 to R133, R124), else ignored
(R155). -/
def cmdAck (args : List Byte) (s : State) : State := commandFrame (0x06#8 :: args) ignoreCommand s
/-- ACK (R155). -/
def execAck (args : List Byte) (s : State) : Host.Outcome State Fault Refusal := guarded s (cmdAck args s)

/-- NACK: ignored, or a reply that is not an ACK when it is the awaited one (R156). -/
def cmdNack (args : List Byte) (s : State) : State := commandFrame (0x0F#8 :: args) ignoreCommand s
/-- NACK (R156). -/
def execNack (args : List Byte) (s : State) : Host.Outcome State Fault Refusal := guarded s (cmdNack args s)

/-- A reserved command code: ignored, or a reply that is not an ACK (R157). -/
def cmdReservedCmd05 (args : List Byte) (s : State) : State := commandFrame (0x05#8 :: args) ignoreCommand s
/-- RESERVED_CMD_05 (R157). -/
def execReservedCmd05 (args : List Byte) (s : State) : Host.Outcome State Fault Refusal :=
    guarded s (cmdReservedCmd05 args s)

/-- A reserved command code: ignored, or a reply that is not an ACK (R157). -/
def cmdReservedCmd07 (args : List Byte) (s : State) : State := commandFrame (0x07#8 :: args) ignoreCommand s
/-- RESERVED_CMD_07 (R157). -/
def execReservedCmd07 (args : List Byte) (s : State) : Host.Outcome State Fault Refusal :=
    guarded s (cmdReservedCmd07 args s)

/-- A reserved command code: ignored, or a reply that is not an ACK (R157). -/
def cmdReservedCmd08To0B (low : BitVec 2) (args : List Byte) (s : State) : State :=
    commandFrame (codeOf 0x08#8 low :: args) ignoreCommand s
/-- RESERVED_CMD_08_0B (R157). -/
def execReservedCmd08To0B (low : BitVec 2) (args : List Byte) (s : State) : Host.Outcome State Fault Refusal :=
    guarded s (cmdReservedCmd08To0B low args s)

/-- A reserved command code: ignored, or a reply that is not an ACK (R157). -/
def cmdReservedCmd0CTo0D (low : BitVec 1) (args : List Byte) (s : State) : State :=
    commandFrame (codeOf 0x0C#8 low :: args) ignoreCommand s
/-- RESERVED_CMD_0C_0D (R157). -/
def execReservedCmd0CTo0D (low : BitVec 1) (args : List Byte) (s : State) : Host.Outcome State Fault Refusal :=
    guarded s (cmdReservedCmd0CTo0D low args s)

/-- A reserved command code: ignored, or a reply that is not an ACK (R157). -/
def cmdReservedCmd0E (args : List Byte) (s : State) : State := commandFrame (0x0E#8 :: args) ignoreCommand s
/-- RESERVED_CMD_0E (R157). -/
def execReservedCmd0E (args : List Byte) (s : State) : Host.Outcome State Fault Refusal :=
    guarded s (cmdReservedCmd0E args s)

/-- A reserved command code: ignored, or a reply that is not an ACK (R157). -/
def cmdReservedCmd10To1F (low : BitVec 4) (args : List Byte) (s : State) : State :=
    commandFrame (codeOf 0x10#8 low :: args) ignoreCommand s
/-- RESERVED_CMD_10_1F (R157). -/
def execReservedCmd10To1F (low : BitVec 4) (args : List Byte) (s : State) : Host.Outcome State Fault Refusal :=
    guarded s (cmdReservedCmd10To1F low args s)

/-- A reserved command code: ignored, or a reply that is not an ACK (R157). -/
def cmdReservedCmd20To3F (low : BitVec 5) (args : List Byte) (s : State) : State :=
    commandFrame (codeOf 0x20#8 low :: args) ignoreCommand s
/-- RESERVED_CMD_20_3F (R157). -/
def execReservedCmd20To3F (low : BitVec 5) (args : List Byte) (s : State) : Host.Outcome State Fault Refusal :=
    guarded s (cmdReservedCmd20To3F low args s)

/-- A reserved command code: ignored, or a reply that is not an ACK (R157). -/
def cmdReservedCmd40To7F (low : BitVec 6) (args : List Byte) (s : State) : State :=
    commandFrame (codeOf 0x40#8 low :: args) ignoreCommand s
/-- RESERVED_CMD_40_7F (R157). -/
def execReservedCmd40To7F (low : BitVec 6) (args : List Byte) (s : State) : Host.Outcome State Fault Refusal :=
    guarded s (cmdReservedCmd40To7F low args s)

/-- A reserved command code: ignored, or a reply that is not an ACK (R157). -/
def cmdReservedCmd80ToFF (low : BitVec 7) (args : List Byte) (s : State) : State :=
    commandFrame (codeOf 0x80#8 low :: args) ignoreCommand s
/-- RESERVED_CMD_80_FF (R157). -/
def execReservedCmd80ToFF (low : BitVec 7) (args : List Byte) (s : State) : Host.Outcome State Fault Refusal :=
    guarded s (cmdReservedCmd80ToFF low args s)

/-- A CMD frame of length 0: ignored, or a reply that is not an ACK (R157). -/
def cmdReservedCmdEmpty (s : State) : State := commandFrame [] ignoreCommand s
/-- RESERVED_CMD_EMPTY (R157). -/
def execReservedCmdEmpty (s : State) : Host.Outcome State Fault Refusal := guarded s (cmdReservedCmdEmpty s)

/-- The wire command a payload decoded to, run on the held frame. A host operation is no wire command and
`decodeCommand` answers none. -/
def runCommand (i : Instr) (s : State) : State :=
  match i with
  | .signal args => cmdSignal args s
  | .find args => cmdFind args s
  | .getUid args => cmdGetUid args s
  | .ping args => cmdPing args s
  | .alert args => cmdAlert args s
  | .ack args => cmdAck args s
  | .nack args => cmdNack args s
  | .reservedCmd05 args => cmdReservedCmd05 args s
  | .reservedCmd07 args => cmdReservedCmd07 args s
  | .reservedCmd08To0B low args => cmdReservedCmd08To0B low args s
  | .reservedCmd0CTo0D low args => cmdReservedCmd0CTo0D low args s
  | .reservedCmd0E args => cmdReservedCmd0E args s
  | .reservedCmd10To1F low args => cmdReservedCmd10To1F low args s
  | .reservedCmd20To3F low args => cmdReservedCmd20To3F low args s
  | .reservedCmd40To7F low args => cmdReservedCmd40To7F low args s
  | .reservedCmd80ToFF low args => cmdReservedCmd80ToFF low args s
  | .reservedCmdEmpty => cmdReservedCmdEmpty s
  | .nop | .crcUpdate _ _ | .hton16 _ | .hton32 _ | .ntoh16 _ | .ntoh32 _ | .parse | .read _ | .send _ _
  | .cmdSend _ _ _ | .rxStatus | .push _ _ _ | .pushUid _ _ _ | .queueStatus | .rosterRead _
  | .resolveUid _ | .nodeStatus | .replyStatus | .reservedOp06To07 _ | .reservedOp08To0F _ | .reservedOp15
  | .reservedOp16To17 _ | .reservedOp18To1F _ | .reservedOp23 | .reservedOp24To27 _ | .reservedOp28To2F _
  | .reservedOp32To33 _ | .reservedOp34To37 _ | .reservedOp38To3F _ | .reservedOp42To43 _
  | .reservedOp44To47 _ | .reservedOp48To4F _ | .reservedOp50To5F _ | .reservedOp60To7F _
  | .reservedOp80ToFF _ => s

end Sys2Proof.Machine
end

