-- ==== Sys2Proof/Machine/Directory.lean ====
section
/-! DEFINITION. The roster's host operations (43_roster.md R127, R128), master role only. -/

namespace Sys2Proof.Machine

/-- The slot record ROSTER_READ returns (R127). -/
def slotRecord (e : Slot) : ResultFields :=
  .slot e.addr e.uidLen (e.uid.readFrom 0 uidMax) e.pingCd e.pingErr e.needsPing

/-- ROSTER_READ (R127). -/
def execRosterRead (slot : Byte) (s : State) : Host.Outcome State Fault Refusal :=
  if s.halted then .next (refuse .halted s)
  else if isMaster s = false then .next (refuse .wrongRole s)
  else if slot.toNat ≥ s.params.rosterSlots then .next (refuse .badArg s)
  else guarded s (succeed (slotRecord (slotAt s slot.toNat)) s)

/-- RESOLVE_UID (R128). -/
def execResolveUid (uid : List Byte) (s : State) : Host.Outcome State Fault Refusal :=
  if s.halted then .next (refuse .halted s)
  else if isMaster s = false then .next (refuse .wrongRole s)
  else if uidLenOk uid = false then .next (refuse .badArg s)
  else guarded s (succeed (.address (resolve uid s)) s)

end Sys2Proof.Machine
end

