-- ==== Sys2Proof/Machine/NodeOps.lean ====
section
/-! DEFINITION. NOP, NODE_STATUS and REPLY_STATUS (47_tick_schedule.md R162 to R164). -/

namespace Sys2Proof.Machine

/-- NOP (R162): OK in every state, also while halted. -/
def execNop (s : State) : Host.Outcome State Fault Refusal := .next (succeed .none s)

/-- NODE_STATUS (R163): OK in every state, so that the host can see the halt. -/
def execNodeStatus (s : State) : Host.Outcome State Fault Refusal :=
  .next (succeed (.word64 (nodeStatusWord s)) s)

/-- REPLY_STATUS (R164): an outcome is cleared by reading it; an application wait reads PENDING until its outcome is
consumed; a controller's wait reads NONE. -/
def execReplyStatus (s : State) : Host.Outcome State Fault Refusal :=
  if s.halted then .next (refuse .halted s)
  else if s.app.st ≠ .none then
    .next (succeed (.word8 (replyWord s.app.src (appStCode s.app.st))) { s with app := { s.app with st := .none } })
  else if (s.rw.state = .pending ∨ s.rw.state = .received) ∧ s.rw.kind = .app then
    .next (succeed (.word8 (replyWord s.rw.dst (rwStateCode .pending))) s)
  else .next (succeed (.word8 0x00#8) s)

end Sys2Proof.Machine
end

