-- ==== Sys2Proof/Machine/Parse.lean ====
section
/-! DEFINITION. PARSE and READ (41_frame_engine.md R95, R96) and the frame engine's host operations (R104 to R108). -/

namespace Sys2Proof.Machine

/-- `NOT_READY` (R95). -/
def notReady : Byte := 0xFF#8

/-- `NO_BYTES` (R95). -/
def noBytes : Byte := 0xFE#8

/-- The start of PARSE (R95): the header is latched and folded, and the frame becomes the one being processed. -/
def latchHeader (s : State) : State :=
  let a := s.fe.rxBuf.read 0
  let m := s.fe.rxBuf.read 1
  { s with fe := { s.fe with
      fstate := .processing
      fSrc := addrSrc a, fDst := addrDst a, fMode := metaMode m, fLen := metaLen m
      crcAcc := crcFold 0xFFFF#16 [a, m], rdIdx := 0#7, crcSt := .pending } }

/-- The latched frame's destination is neither this node nor broadcast (R95). -/
abbrev foreign (s : State) : Prop := s.fe.fDst ≠ own s ∧ s.fe.fDst ≠ 0#4

/-- A frame for another node is dropped without a CRC check (R95). -/
def dropForeign (s : State) : State := discard { s with fe := { s.fe with crcSt := .none } }

/-- `last_addr <- f_src` (R95). -/
def noteSender (s : State) : State := { s with lastAddr := s.fe.fSrc }

/-- The payload of the current frame, `rx_buf[2 .. 1 + f_len]`. -/
def framePayload (s : State) : List Byte := s.fe.rxBuf.readFrom 2 s.fe.fLen.toNat

/-- `PARSE()` (R95). A CMD payload is decoded and the command runs on the held frame; a DATA frame waits for READ, but
for an empty one, whose CRC is checked at once. -/
def parseFrame (s : State) : State × Byte :=
  if s.fe.fstate ≠ .ready then (s, notReady)
  else
    let s1 := latchHeader s
    if foreign s1 then (dropForeign s1, noBytes)
    else
      let s2 := noteSender s1
      if s2.fe.fMode then (runCommand (decodeCommand (framePayload s2)) s2, noBytes)
      else (if s2.fe.fLen = 0#7 then (finish s2).1 else s2, s2.fe.fLen.setWidth 8)

/-- `READ(n)` (R96): the bytes read and the state after; FINISH runs when no byte is left. -/
def readBytes (n : Byte) (s : State) : State × List Byte :=
  let k := min n.toNat (s.fe.fLen.toNat - s.fe.rdIdx.toNat)
  let out := s.fe.rxBuf.readFrom (2 + s.fe.rdIdx.toNat) k
  let s1 := foldBytes out (s.fe.rdIdx + BitVec.ofNat 7 k) s
  (if s1.fe.rdIdx = s1.fe.fLen then (finish s1).1 else s1, out)

/-- A node may write: it holds a frame to answer, or the channel is idle (R106, 92_eei_decisions.md D17). -/
abbrev mayWrite (s : State) : Prop := s.fe.fstate = .processing ∨ channelIdle s = true

/-- PARSE (R104). -/
def execParse (s : State) : Host.Outcome State Fault Refusal :=
  if s.halted then .next (refuse .halted s)
  else guarded s (succeed (.word8 (parseFrame s).2) (parseFrame s).1)

/-- READ (R105). -/
def execRead (n : Byte) (s : State) : Host.Outcome State Fault Refusal :=
  if s.halted then .next (refuse .halted s)
  else if s.fe.fstate ≠ .processing ∨ s.fe.fMode = true ∨ s.fe.crcSt ≠ .pending then .next (refuse .noFrame s)
  else
    let r := readBytes n s
    guarded s (succeed (.bytes (BitVec.ofNat 8 r.2.length) r.2 r.1.fe.crcSt) r.1)

/-- SEND, in DATA mode (R106). -/
def execSend (dst : Byte) (data : List Byte) (s : State) : Host.Outcome State Fault Refusal :=
  if s.halted then .next (refuse .halted s)
  else if destOk dst = false then .next (refuse .badArg s)
  else if ¬ mayWrite s then .next (refuse .busy s)
  else guarded s (report (sendFrame dst false data s))

/-- CMD_SEND (R107): a SEND in CMD mode of the code and its arguments. -/
def execCmdSend (dst cmd : Byte) (args : List Byte) (s : State) : Host.Outcome State Fault Refusal :=
  if s.halted then .next (refuse .halted s)
  else if destOk dst = false then .next (refuse .badArg s)
  else if ¬ mayWrite s then .next (refuse .busy s)
  else guarded s (report (sendFrame dst true (cmd :: args) s))

/-- RX_STATUS (R108). -/
def execRxStatus (s : State) : Host.Outcome State Fault Refusal :=
  if s.halted then .next (refuse .halted s) else .next (succeed (.word32 (rxStatusWord s)) s)

end Sys2Proof.Machine
end

