-- ==== Sys2Proof/Machine/Requests.lean ====
section
/-! DEFINITION. The request queue's host operations (42_request_queue.md R114 to R116). -/

namespace Sys2Proof.Machine

/-- PUSH (R114). -/
def execPush (dst : Byte) (wait : Bool) (data : List Byte) (s : State) : Host.Outcome State Fault Refusal :=
  if s.halted then .next (refuse .halted s)
  else if destOk dst = false then .next (refuse .badArg s)
  else guarded s (report (enqueue dst wait data s))

/-- PUSH_UID (R115), master role only: the identity is resolved when the entry is pushed. -/
def execPushUid (uid : List Byte) (wait : Bool) (data : List Byte) (s : State) :
    Host.Outcome State Fault Refusal :=
  if s.halted then .next (refuse .halted s)
  else if isMaster s = false then .next (refuse .wrongRole s)
  else if uidLenOk uid = false then .next (refuse .badArg s)
  else if resolve uid s = 0#4 then guarded s (refuse .unknownUid s)
  else guarded s (report (enqueue (destOf (resolve uid s)) wait data s))

/-- QUEUE_STATUS (R116). -/
def execQueueStatus (s : State) : Host.Outcome State Fault Refusal :=
  if s.halted then .next (refuse .halted s) else .next (succeed (.word16 (queueStatusWord s)) s)

end Sys2Proof.Machine
end

