-- ==== Sys2Proof/Machine/Reserved.lean ====
section
/-! DEFINITION. The reserved operation codes (30_encoding.md R74): each answers BAD_OPCODE and changes no state, also
while halted (60_exceptions.md R168). -/

namespace Sys2Proof.Machine

/-- Reserved operation codes 0x06 to 0x07 (R74). -/
def execReservedOp06To07 (_low : BitVec 1) (s : State) : Host.Outcome State Fault Refusal := .next (refuse .badOpcode s)

/-- Reserved operation codes 0x08 to 0x0F (R74). -/
def execReservedOp08To0F (_low : BitVec 3) (s : State) : Host.Outcome State Fault Refusal := .next (refuse .badOpcode s)

/-- Reserved operation code 0x15 (R74). -/
def execReservedOp15 (s : State) : Host.Outcome State Fault Refusal := .next (refuse .badOpcode s)

/-- Reserved operation codes 0x16 to 0x17 (R74). -/
def execReservedOp16To17 (_low : BitVec 1) (s : State) : Host.Outcome State Fault Refusal := .next (refuse .badOpcode s)

/-- Reserved operation codes 0x18 to 0x1F (R74). -/
def execReservedOp18To1F (_low : BitVec 3) (s : State) : Host.Outcome State Fault Refusal := .next (refuse .badOpcode s)

/-- Reserved operation code 0x23 (R74). -/
def execReservedOp23 (s : State) : Host.Outcome State Fault Refusal := .next (refuse .badOpcode s)

/-- Reserved operation codes 0x24 to 0x27 (R74). -/
def execReservedOp24To27 (_low : BitVec 2) (s : State) : Host.Outcome State Fault Refusal := .next (refuse .badOpcode s)

/-- Reserved operation codes 0x28 to 0x2F (R74). -/
def execReservedOp28To2F (_low : BitVec 3) (s : State) : Host.Outcome State Fault Refusal := .next (refuse .badOpcode s)

/-- Reserved operation codes 0x32 to 0x33 (R74). -/
def execReservedOp32To33 (_low : BitVec 1) (s : State) : Host.Outcome State Fault Refusal := .next (refuse .badOpcode s)

/-- Reserved operation codes 0x34 to 0x37 (R74). -/
def execReservedOp34To37 (_low : BitVec 2) (s : State) : Host.Outcome State Fault Refusal := .next (refuse .badOpcode s)

/-- Reserved operation codes 0x38 to 0x3F (R74). -/
def execReservedOp38To3F (_low : BitVec 3) (s : State) : Host.Outcome State Fault Refusal := .next (refuse .badOpcode s)

/-- Reserved operation codes 0x42 to 0x43 (R74). -/
def execReservedOp42To43 (_low : BitVec 1) (s : State) : Host.Outcome State Fault Refusal := .next (refuse .badOpcode s)

/-- Reserved operation codes 0x44 to 0x47 (R74). -/
def execReservedOp44To47 (_low : BitVec 2) (s : State) : Host.Outcome State Fault Refusal := .next (refuse .badOpcode s)

/-- Reserved operation codes 0x48 to 0x4F (R74). -/
def execReservedOp48To4F (_low : BitVec 3) (s : State) : Host.Outcome State Fault Refusal := .next (refuse .badOpcode s)

/-- Reserved operation codes 0x50 to 0x5F (R74). -/
def execReservedOp50To5F (_low : BitVec 4) (s : State) : Host.Outcome State Fault Refusal := .next (refuse .badOpcode s)

/-- Reserved operation codes 0x60 to 0x7F (R74). -/
def execReservedOp60To7F (_low : BitVec 5) (s : State) : Host.Outcome State Fault Refusal := .next (refuse .badOpcode s)

/-- Reserved operation codes 0x80 to 0xFF (R74). -/
def execReservedOp80ToFF (_low : BitVec 7) (s : State) : Host.Outcome State Fault Refusal := .next (refuse .badOpcode s)

end Sys2Proof.Machine
end

