-- ==== Sys2Proof/Machine/Dispatch.lean ====
section
/-! DEFINITION. Dispatch: one arm per constructor of Instr, each a direct call of that instruction's meaning. -/

namespace Sys2Proof.Machine

def exec (i : Instr) (s : State) : Host.Outcome State Fault Refusal :=
  match i with
  | .signal args => Sys2Proof.Machine.execSignal args s
  | .find args => Sys2Proof.Machine.execFind args s
  | .getUid args => Sys2Proof.Machine.execGetUid args s
  | .ping args => Sys2Proof.Machine.execPing args s
  | .alert args => Sys2Proof.Machine.execAlert args s
  | .ack args => Sys2Proof.Machine.execAck args s
  | .nack args => Sys2Proof.Machine.execNack args s
  | .reservedCmd05 args => Sys2Proof.Machine.execReservedCmd05 args s
  | .reservedCmd07 args => Sys2Proof.Machine.execReservedCmd07 args s
  | .reservedCmd08To0B low args => Sys2Proof.Machine.execReservedCmd08To0B low args s
  | .reservedCmd0CTo0D low args => Sys2Proof.Machine.execReservedCmd0CTo0D low args s
  | .reservedCmd0E args => Sys2Proof.Machine.execReservedCmd0E args s
  | .reservedCmd10To1F low args => Sys2Proof.Machine.execReservedCmd10To1F low args s
  | .reservedCmd20To3F low args => Sys2Proof.Machine.execReservedCmd20To3F low args s
  | .reservedCmd40To7F low args => Sys2Proof.Machine.execReservedCmd40To7F low args s
  | .reservedCmd80ToFF low args => Sys2Proof.Machine.execReservedCmd80ToFF low args s
  | .reservedCmdEmpty => Sys2Proof.Machine.execReservedCmdEmpty s
  | .nop => Sys2Proof.Machine.execNop s
  | .crcUpdate crc b => Sys2Proof.Machine.execCrcUpdate crc b s
  | .hton16 x => Sys2Proof.Machine.execHton16 x s
  | .hton32 x => Sys2Proof.Machine.execHton32 x s
  | .ntoh16 x => Sys2Proof.Machine.execNtoh16 x s
  | .ntoh32 x => Sys2Proof.Machine.execNtoh32 x s
  | .parse => Sys2Proof.Machine.execParse s
  | .read n => Sys2Proof.Machine.execRead n s
  | .send dst data => Sys2Proof.Machine.execSend dst data s
  | .cmdSend dst cmd args => Sys2Proof.Machine.execCmdSend dst cmd args s
  | .rxStatus => Sys2Proof.Machine.execRxStatus s
  | .push dst wait data => Sys2Proof.Machine.execPush dst wait data s
  | .pushUid uid wait data => Sys2Proof.Machine.execPushUid uid wait data s
  | .queueStatus => Sys2Proof.Machine.execQueueStatus s
  | .rosterRead slot => Sys2Proof.Machine.execRosterRead slot s
  | .resolveUid uid => Sys2Proof.Machine.execResolveUid uid s
  | .nodeStatus => Sys2Proof.Machine.execNodeStatus s
  | .replyStatus => Sys2Proof.Machine.execReplyStatus s
  | .reservedOp06To07 low => Sys2Proof.Machine.execReservedOp06To07 low s
  | .reservedOp08To0F low => Sys2Proof.Machine.execReservedOp08To0F low s
  | .reservedOp15 => Sys2Proof.Machine.execReservedOp15 s
  | .reservedOp16To17 low => Sys2Proof.Machine.execReservedOp16To17 low s
  | .reservedOp18To1F low => Sys2Proof.Machine.execReservedOp18To1F low s
  | .reservedOp23 => Sys2Proof.Machine.execReservedOp23 s
  | .reservedOp24To27 low => Sys2Proof.Machine.execReservedOp24To27 low s
  | .reservedOp28To2F low => Sys2Proof.Machine.execReservedOp28To2F low s
  | .reservedOp32To33 low => Sys2Proof.Machine.execReservedOp32To33 low s
  | .reservedOp34To37 low => Sys2Proof.Machine.execReservedOp34To37 low s
  | .reservedOp38To3F low => Sys2Proof.Machine.execReservedOp38To3F low s
  | .reservedOp42To43 low => Sys2Proof.Machine.execReservedOp42To43 low s
  | .reservedOp44To47 low => Sys2Proof.Machine.execReservedOp44To47 low s
  | .reservedOp48To4F low => Sys2Proof.Machine.execReservedOp48To4F low s
  | .reservedOp50To5F low => Sys2Proof.Machine.execReservedOp50To5F low s
  | .reservedOp60To7F low => Sys2Proof.Machine.execReservedOp60To7F low s
  | .reservedOp80ToFF low => Sys2Proof.Machine.execReservedOp80ToFF low s

end Sys2Proof.Machine
end

