-- ==== Sys2Proof/Machine/Events.lean ====
section
/-! DEFINITION. The events RESET (70_reset_and_hazards.md R178, R179), RX_BYTE (41_frame_engine.md R88) and TICK
(47_tick_schedule.md R158, 44_master_controller.md R135, 45_slave_controller.md R140 to R143). -/

namespace Sys2Proof.Machine

/-! ### RESET -/

/-- The identity of a configuration as an array (R179): absent when the node has none. -/
def bootUid (cfg : BootConfig) : Memory := if cfg.uidPresent then Memory.writeFrom [] 0 cfg.uid.toList else []

/-- The slave's registers after RESET with a valid configuration (R179). -/
def bootSlave (cfg : BootConfig) (nonce0 : Wide) : SlaveCtl :=
  { SlaveCtl.reset with
    nonce := nonce0, modeByte := cfg.mode, seed := cfg.seed
    uidLen := if cfg.uidPresent then 12#4 else 0#4, uid := bootUid cfg }

/-- The state after RESET of a core built with the parameters `p` (R178), `valid` being whether the slave's
configuration is valid (R179); the master ignores the configuration and the draw. -/
def resetState (p : Params) (valid : Bool) (cfg : BootConfig) (nonce0 : Wide) : State :=
  let halts := decide (p.role = .slave) && !valid
  { params := p
    fe := { FrameEngine.reset with rxEn := !halts }
    ownAddr := if p.role = .master then masterAddr else 0#4
    lastAddr := 0#4
    rw := ReplyWait.reset
    app := AppLatch.reset
    queue := Queue.reset p.queueSlots
    roster := Roster.reset p.rosterSlots
    hs := Handshake.reset
    sl := if p.role = .slave ∧ valid = true then bootSlave cfg nonce0 else SlaveCtl.reset
    halted := halts
    inputs := []
    txOut := []
    result := none }

/-- The event RESET (R178): the whole core restarts; its role and parameters (R175) and the events still to come are
not its state. -/
def resetEvent (cfg : BootConfig) (nonce0 : Wide) (s : State) : State :=
  { resetState s.params (Config.configValid cfg) cfg nonce0 with inputs := s.inputs }

/-! ### RX_BYTE -/

/-- An address mark starts a frame (R88). Bytes of `rx_buf` beyond the current frame are any value (U17): DESIGN CHOICE
they keep what earlier frames left there (log 8). -/
def startFrame (b : Byte) (s : State) : State :=
  { s with fe := { s.fe with
      rxBuf := s.fe.rxBuf.write 0 b, rxCnt := 1#8, rxActive := true, busyCnt := 0#16 } }

/-- A byte of the frame being accumulated (R88): stored and counted; a reserved length abandons the frame, the full
count hands it over. -/
def appendByte (b : Byte) (s : State) : State :=
  let n := s.fe.rxCnt + 1#8
  let buf := s.fe.rxBuf.write s.fe.rxCnt.toNat b
  let fe := { s.fe with rxBuf := buf, rxCnt := n }
  if n = 2#8 ∧ (metaLen b).toNat > maxPayload then { s with fe := { fe with rxActive := false, rxCnt := 0#8 } }
  else if n.toNat ≥ 2 ∧ n.toNat = (metaLen (buf.read 1)).toNat + 4 then
    { s with fe := { fe with fstate := .ready, rxEn := false, rxActive := false } }
  else { s with fe := fe }

/-- The event RX_BYTE (R88): refused while halted or muted, dropped outside a frame. -/
def rxByteEvent (b : Byte) (mark : Bool) (s : State) : Host.Outcome State Fault Refusal :=
  if s.halted = true ∨ s.fe.rxEn = false then .next s
  else if mark then .next (startFrame b s)
  else if s.fe.rxActive = false then .next s
  else guarded s (appendByte b s)

/-! ### TICK -/

/-- Presence supervision (45_slave_controller.md R140), and whether it ends the tick. -/
def presenceStep (presence : Bool) (nonce : Wide) (s : State) : State × Bool :=
  if presence then
    let cnt := if s.sl.presCnt.toNat < 65535 then s.sl.presCnt + 1#16 else s.sl.presCnt
    let st := if s.sl.state = .disconnected ∧ cnt.toNat ≥ s.params.presenceDebounce then .pluggedIn else s.sl.state
    (modifySlave (fun c => { c with absCnt := 0#16, presCnt := cnt, state := st }) s, false)
  else if s.sl.absCnt.toNat < s.params.presenceDebounce then
    let s1 := modifySlave (fun c => { c with presCnt := 0#16, absCnt := c.absCnt + 1#16 }) s
    if s.sl.absCnt.toNat + 1 = s.params.presenceDebounce then (slaveReset nonce s1, true) else (s1, false)
  else (modifySlave (fun c => { c with presCnt := 0#16 }) s, false)

/-- The randomized pre-send delay (R141). -/
def backoffStep (busy : Bool) (bo : Half) (s : State) : State :=
  if busy then modifySlave (fun c => { c with backoff := bo }) s
  else if s.sl.backoff.toNat > 0 then modifySlave (fun c => { c with backoff := c.backoff - 1#16 }) s
  else s

/-- Steps 4 and 5 of the tick (47_tick_schedule.md R158): PARSE if a frame is ready, then the two engine timers. -/
def engineStep (s : State) : State :=
  rwTick (busyTick (if s.fe.fstate = .ready then (parseFrame s).1 else s))

/-- Step 6 of the tick: a resolved wait is consumed. -/
def outcomeStep (s : State) : State :=
  if s.rw.state = .received then consumeReply .data s
  else if s.rw.state = .timedOut then consumeReply .timeout s
  else s

/-- A ping of the slot that SCAN returned (44_master_controller.md R135, 43_roster.md R123). -/
def pingSlot (a : Nibble) (s : State) : State :=
  modifySlot (a.toNat - 1) (fun e => { e with needsPing := false, pingCd := BitVec.ofNat 16 s.params.pingPeriod })
    (sendRequest codePing .ping a s)

/-- What the master initiates on an idle channel (R135): the handshake's next request, a due ping, the queue head. -/
def masterInitiate (s : State) : State :=
  match s.hs.state with
  | .sendGetUid => setHs .waitUidAck (sendRequest codeGetUid .hsUid s.hs.addr s)
  | .sendPing => setHs .waitPingAck (sendRequest codePing .hsPing s.hs.addr s)
  | .idle =>
    let r := scan s
    if r.2 ≠ 0#4 then pingSlot r.2 r.1
    else if qcount s > 0 then dispatchQueue s
    else s
  | .waitAddrAck | .waitUidAck | .waitPingAck => s

/-- The master's step (R135). -/
def masterStep (s : State) : State :=
  let s1 := liveness s
  if channelIdle s1 = true ∧ s1.rw.state ≠ .pending then masterInitiate s1 else s1

/-- `SL_TIMERS` (45_slave_controller.md R142), and whether it ends the tick. -/
def slaveTimers (nonce : Wide) (s : State) : State × Bool :=
  match s.sl.state with
  | .signalSent | .addrSet | .uidSent =>
    let s1 := modifySlave (fun c => { c with hsCnt := c.hsCnt + 1#16 }) s
    if s.sl.hsCnt.toNat + 1 > s.params.hsTimeout then (slaveReset nonce s1, true) else (s1, false)
  | .connected =>
    let s1 := modifySlave (fun c => { c with nopingCnt := c.nopingCnt + 1#16 }) s
    if s.sl.nopingCnt.toNat + 1 > s.params.nopingTimeout then (slaveReset nonce s1, true) else (s1, false)
  | .disconnected | .pluggedIn => (s, false)

/-- The SIGNAL of a slave that is plugged in (R144). -/
def sendSignal (s : State) : State :=
  modifySlave (fun c => { c with state := .signalSent, hsCnt := 0#16 })
    (sendFrame (destOf masterAddr) true (codeSignal :: hsVersion :: nonceBytes s.sl.nonce) s).1

/-- What the slave initiates (R143). -/
def slaveInitiate (s : State) : State :=
  if channelIdle s = true ∧ s.rw.state ≠ .pending ∧ s.sl.backoff = 0#16 then
    if s.sl.state = .pluggedIn then sendSignal s
    else if s.sl.state = .connected ∧ qcount s > 0 then dispatchQueue s
    else s
  else s

/-- The slave's step (R143). -/
def slaveStep (nonce : Wide) (s : State) : State :=
  match slaveTimers nonce s with
  | (s1, true) => s1
  | (s1, false) => slaveInitiate s1

/-- The work of one tick (R158). -/
def tick (presence busy : Bool) (bo : Half) (nonce : Wide) (s : State) : State :=
  if isMaster s then masterStep (outcomeStep (engineStep s))
  else
    match presenceStep presence nonce s with
    | (s1, true) => s1
    | (s1, false) => slaveStep nonce (outcomeStep (engineStep (backoffStep busy bo s1)))

/-- A legal backoff draw, `1 ..= BACKOFF_MAX` (00_scope.md R11). -/
abbrev legalDraw (s : State) (bo : Half) : Prop := 1 ≤ bo.toNat ∧ bo.toNat ≤ s.params.backoffMax

/-- The event TICK (R158): nothing while halted. -/
def tickEvent (presence busy : Bool) (bo : Half) (nonce : Wide) (s : State) : Host.Outcome State Fault Refusal :=
  if ¬ legalDraw s bo then .refused .drawOutOfRange
  else if s.halted then .next s
  else guarded s (tick presence busy bo nonce s)

end Sys2Proof.Machine
end

