-- ==== Sys2Proof/Machine/Step.lean ====
section
/-! DEFINITION. The step: the next event the environment delivers, run whole (00_scope.md R8, 20_memory.md R56). -/

namespace Sys2Proof.Machine

/-- The state an event starts from: the event taken off the list, the last event's outputs gone. -/
def beginEvent (rest : List Event) (s : State) : State := { s with inputs := rest, txOut := [], result := none }

/-- One event (00_scope.md R8). A HOST_OP is fetched from its op byte and operand bytes and executed (R161). -/
def runEvent (e : Event) (s : State) : Host.Outcome State Fault Refusal :=
  match e with
  | .reset cfg nonce0 => .next (resetEvent cfg nonce0 s)
  | .rxByte b mark => rxByteEvent b mark s
  | .tick presence busy bo nonce => tickEvent presence busy bo nonce s
  | .hostOp op operands =>
    match decodeHostOp (op :: operands) with
    | .ok (i, _) => exec i s
    | .error why => .refused (.malformedOperation why)

/-- One step: the next event in full. Between events the core does nothing (70_reset_and_hazards.md R180), so without
an event to come the state stays as it is. -/
def step (s : State) : Host.Outcome State Fault Refusal :=
  match s.inputs with
  | [] => .next s
  | e :: rest => runEvent e (beginEvent rest s)

/-- The HOST_OP event of a table word, its operand bytes zero, as the next event (log 6). -/
def State.withFetchWord (s : State) (nbits w : Nat) : State :=
  match bytesOfTableWord nbits w with
  | op :: operands => { s with inputs := .hostOp op operands :: s.inputs }
  | [] => s

end Sys2Proof.Machine
end

