-- ==== Sys2Proof/Safety.lean ====
section
/-! DEFINITION. The terms the statements use: the invariants over the state (10_state.md R50 and the ranges of R19 to
R44), where a CMD frame stands when a wire command runs, the contents of the queue as a list, and the delivery of a
transmitted frame. -/

namespace Sys2Proof.Machine

/-! ### Invariants -/

/-- R50 items 1, 2 and 7, and the ranges of R20, R24 and R25. -/
structure EngineInv (s : State) : Prop where
  /-- R50 item 1 -/
  muted : s.fe.fstate ≠ .idle → s.fe.rxEn = false
  /-- R50 item 2 -/
  accumulating : s.fe.rxActive = true → s.fe.fstate = .idle ∧ s.fe.rxEn = true
  /-- a frame being accumulated has its mark's byte, a legal length once the META byte is there, and is not complete -/
  counted : s.fe.rxActive = true → 1 ≤ s.fe.rxCnt.toNat ∧
    (2 ≤ s.fe.rxCnt.toNat → (metaLen (s.fe.rxBuf.read 1)).toNat ≤ maxPayload ∧
      s.fe.rxCnt.toNat < (metaLen (s.fe.rxBuf.read 1)).toNat + 4)
  /-- a frame that is READY has a legal length (R65, R88) -/
  buffered : s.fe.fstate = .ready → (metaLen (s.fe.rxBuf.read 1)).toNat ≤ maxPayload
  /-- the ranges of `rx_cnt` (R20), `f_len` (R24) and `rd_idx` (R25) -/
  counts : s.fe.rxCnt.toNat ≤ 128 ∧ s.fe.fLen.toNat ≤ maxPayload ∧ s.fe.rdIdx.toNat ≤ s.fe.fLen.toNat
  /-- R50 item 7 -/
  haltMutes : s.halted = true → s.fe.rxEn = false

/-- The ring of R33: its size, its indices, the length of every entry. -/
structure QueueInv (s : State) : Prop where
  size : s.queue.slots.length = s.params.queueSlots
  head : s.queue.head.toNat < s.params.queueSlots
  tail : s.queue.tail.toNat < s.params.queueSlots
  lens : ∀ e ∈ s.queue.slots, e.len.toNat ≤ maxPayload

/-- The wait kind of each of the handshake's three WAIT states (44_master_controller.md R129). -/
def waitKindOf : HsState → Option WaitKind
  | .waitAddrAck => some .hsFind
  | .waitUidAck => some .hsUid
  | .waitPingAck => some .hsPing
  | .idle | .sendGetUid | .sendPing => none

/-- A wait kind armed by the handshake. -/
def isHsKind : WaitKind → Bool
  | .hsFind | .hsUid | .hsPing => true
  | .app | .ping => false

/-- The roster and the handshake: R50 items 4 and 5, the waits of R129, and the ranges of R34 to R36. -/
structure RosterInv (s : State) : Prop where
  size : s.roster.slots.length = s.params.rosterSlots
  /-- R50 item 4 -/
  addrs : ∀ k < s.params.rosterSlots, (slotAt s k).addr = 0#4 ∨ (slotAt s k).addr.toNat = k + 1
  uidLens : ∀ e ∈ s.roster.slots, e.uidLen.toNat ≤ uidMax
  /-- a free slot is all zeros, because EVICT and RESET clear every field (43_roster.md R120, R127) -/
  free : ∀ e ∈ s.roster.slots, e.addr = 0#4 → e = Slot.blank
  /-- R50 item 5 -/
  allocated : s.hs.state ≠ .idle → 1 ≤ s.hs.addr.toNat ∧ s.hs.addr.toNat ≤ s.params.rosterSlots ∧
    (slotAt s (s.hs.addr.toNat - 1)).addr = 0#4
  /-- in a WAIT state a wait of its kind is outstanding (R129) -/
  waiting : ∀ kind, waitKindOf s.hs.state = some kind → s.rw.state ≠ .none ∧ s.rw.kind = kind
  /-- outside them no handshake wait is outstanding (R129) -/
  noOther : s.rw.state ≠ .none → isHsKind s.rw.kind = true → waitKindOf s.hs.state = some s.rw.kind
  hsUidLen : s.hs.uidLen.toNat ≤ uidMax
  /-- the handshake is the master's (R36) -/
  slaveHasNone : isMaster s = false → s.hs.state = .idle

/-- R50 item 6 and the ranges of R39. -/
structure SlaveInv (s : State) : Prop where
  /-- no operational address before FIND -/
  unaddressed : isMaster s = false →
    s.sl.state = .disconnected ∨ s.sl.state = .pluggedIn ∨ s.sl.state = .signalSent → own s = 0#4
  /-- an operational address from FIND on -/
  addressed : isMaster s = false →
    s.sl.state = .addrSet ∨ s.sl.state = .uidSent ∨ s.sl.state = .connected →
    1 ≤ (own s).toNat ∧ (own s).toNat ≤ 14
  uidLen : s.sl.uidLen = 0#4 ∨ s.sl.uidLen = 12#4

/-- Every counter stays within the bound its parameter sets (00_scope.md R12, R13; R28, R31, R34, R35, R41 to R43). -/
structure CounterInv (s : State) : Prop where
  busy : s.fe.busyCnt.toNat ≤ s.params.busyTimeout
  reply : s.rw.cnt.toNat ≤ s.params.replyTimeout
  live : s.roster.liveCnt.toNat < s.params.livenessDiv
  position : s.roster.rrPos.toNat < s.params.rosterSlots
  countdown : ∀ e ∈ s.roster.slots, e.pingCd.toNat ≤ s.params.pingPeriod
  errors : ∀ e ∈ s.roster.slots, e.pingErr.toNat < s.params.pingErrMax
  absence : s.sl.absCnt.toNat ≤ s.params.presenceDebounce
  handshake : s.sl.hsCnt.toNat ≤ s.params.hsTimeout
  noPing : s.sl.nopingCnt.toNat ≤ s.params.nopingTimeout
  delay : s.sl.backoff.toNat ≤ s.params.backoffMax

/-- The array is in canonical form and has no index of `n` or more. -/
abbrev Memory.good (n : Nat) (m : Memory) : Prop := Memory.wf m ∧ Memory.within n m

/-- Every byte array is in canonical form and within its size (R19, R33, R34, R36, R39). -/
structure MemoryInv (s : State) : Prop where
  rxBuf : Memory.good 128 s.fe.rxBuf
  queue : ∀ e ∈ s.queue.slots, Memory.good maxPayload e.data
  roster : ∀ e ∈ s.roster.slots, Memory.good uidMax e.uid
  hs : Memory.good uidMax s.hs.uid
  sl : Memory.good uidMax s.sl.uid

/-- The whole invariant. -/
structure Inv (s : State) : Prop where
  params : s.params.wf
  engine : EngineInv s
  queue : QueueInv s
  roster : RosterInv s
  slave : SlaveInv s
  counters : CounterInv s
  memory : MemoryInv s

/-! ### Where a wire command runs -/

/-- The payload `p` and the frame's two CRC bytes leave the running CRC at zero (30_encoding.md R66). -/
def FrameValid (p : List Byte) (s : State) : Prop := crcFold s.fe.crcAcc (p ++ trailer s) = 0x0000#16

/-- A valid CMD frame with payload `p`, its header latched, is held for this node and is not the awaited reply. -/
structure HeldCommand (p : List Byte) (s : State) : Prop where
  indices : IndicesOk s
  processing : s.fe.fstate = .processing
  valid : FrameValid p s
  mine : s.fe.fDst = own s
  notReply : isReply s = false

/-- A valid CMD frame with payload `p`, its header latched, is the awaited reply. -/
structure AwaitedCommand (p : List Byte) (s : State) : Prop where
  indices : IndicesOk s
  processing : s.fe.fstate = .processing
  valid : FrameValid p s
  mine : s.fe.fDst = own s
  reply : isReply s = true

/-- The state after a valid frame has been folded, checked and released (R91, R93, R89): the frame engine idle and
receiving, the verdict VALID, everything else as it was. -/
def released (s : State) : State :=
  { s with fe := { s.fe with
      crcAcc := 0x0000#16, rdIdx := s.fe.fLen, crcSt := .valid
      fstate := .idle, rxActive := false, rxCnt := 0#8, rxEn := true, busyCnt := 0#16 } }

/-- The symbols of one transmission of this node (41_frame_engine.md R97): TXEN around them in the slave role only. -/
def transmission (s : State) (d : Nibble) (mode : Bool) (p : List Byte) : List Symbol :=
  if isMaster s then frameSymbols (own s) d mode p
  else .txen true :: frameSymbols (own s) d mode p ++ [.txen false]

/-- The state after a push of `p` for `dst` is accepted (42_request_queue.md R111, R114): the entry at `q_tail` filled,
`q_tail` moved on, OK answered, everything else as it was. -/
def pushed (dst : Byte) (wait : Bool) (p : List Byte) (s : State) : State :=
  { s with
    queue := { s.queue with
      slots := s.queue.slots.modify s.queue.tail.toNat (fun e =>
        { dst := dst, len := BitVec.ofNat 7 p.length, wait := wait, data := e.data.writeFrom 0 p })
      tail := BitVec.ofNat 8 ((s.queue.tail.toNat + 1) % s.params.queueSlots) }
    result := some ⟨.ok, .none⟩ }

/-- A quiet node between frames: not halted, the channel idle (41_frame_engine.md R90), no reply awaited. -/
structure Quiet (s : State) : Prop where
  indices : IndicesOk s
  running : s.halted = false
  idle : s.fe.fstate = .idle
  noFrame : s.fe.rxActive = false
  open_ : s.fe.rxEn = true
  noWait : s.rw.state = .none

/-- The frame engine after DISCARD (41_frame_engine.md R89). -/
def idleEngine (fe : FrameEngine) : FrameEngine :=
  { fe with fstate := .idle, rxActive := false, rxCnt := 0#8, rxEn := true, busyCnt := 0#16 }

/-- The state after SLAVE_RESET with the draw `n` (45_slave_controller.md R139), field by field. -/
def slaveAfterReset (n : Wide) (s : State) : State :=
  { s with
    fe := { idleEngine s.fe with crcSt := .none }
    ownAddr := 0#4
    lastAddr := 0#4
    rw := { s.rw with state := .none, cnt := 0#16 }
    app := { s.app with st := .none }
    sl := { s.sl with
      state := .disconnected, nonce := n, hsCnt := 0#16, nopingCnt := 0#16, presCnt := 0#16,
      pingRx := false, backoff := 0#16 } }

/-- The presence sample does not complete a loss of presence, so the tick goes on after the supervision
(45_slave_controller.md R140). -/
abbrev tickGoesOn (presence : Bool) (s : State) : Prop :=
  s.params.role = .slave → presence = true ∨ s.sl.absCnt.toNat + 1 ≠ s.params.presenceDebounce

/-- A slave after the first steps of a tick that goes on (45_slave_controller.md R140, R141, 47_tick_schedule.md R158),
but for the move from DISCONNECTED to PLUGGED_IN: the presence and the absence count moved on, the backoff `b`. -/
def supervisedSlave (presence : Bool) (b : Half) (rest : List Event) (s : State) : State :=
  { s with
    inputs := rest, txOut := [], result := none
    sl := { s.sl with
      backoff := b
      presCnt := if presence then if s.sl.presCnt.toNat < 65535 then s.sl.presCnt + 1#16 else s.sl.presCnt else 0#16
      absCnt := if presence then 0#16
        else if s.sl.absCnt.toNat < s.params.presenceDebounce then s.sl.absCnt + 1#16 else s.sl.absCnt } }

/-- The commands a held frame makes a slave act on (45_slave_controller.md R138, R145, R146). -/
def slaveActsOn (s : State) : Instr → Prop
  | .find args => ∃ n3 n2 n1 n0 a, args = [n3, n2, n1, n0, a] ∧ s.sl.state = .signalSent ∧
      n3 ++ n2 ++ n1 ++ n0 = s.sl.nonce ∧ 1 ≤ a.toNat ∧ a.toNat ≤ 14
  | .getUid args => args = [] ∧ s.sl.state = .addrSet
  | .ping args => args = [] ∧ (s.sl.state = .uidSent ∨ s.sl.state = .connected)
  | _ => False

/-- The SIGNAL a held frame makes the master accept (44_master_controller.md R130). -/
def masterActsOn (s : State) : Instr → Prop
  | .signal args => args.length = 5 ∧ s.hs.state = .idle ∧ s.rw.state = .none ∧
      ∃ k < s.params.rosterSlots, (slotAt s k).addr = 0#4
  | _ => False

/-! ### The queue as a list -/

/-- A queue entry as the host gave it: destination, wait flag, payload. -/
abbrev Request := Byte × Bool × List Byte

/-- The request an entry holds. -/
def requestOf (e : QueueEntry) : Request := (e.dst, e.wait, entryPayload e)

/-- The requests in the queue, oldest first (R33, 42_request_queue.md R110). -/
def queueContents (s : State) : List Request :=
  (List.range (qcount s)).map (fun i =>
    requestOf (s.queue.slots.getD ((s.queue.head.toNat + i) % s.params.queueSlots) QueueEntry.blank))

/-! ### Delivery of a transmitted frame -/

/-- The RX_BYTE events of a transmission that the channel delivers unchanged (20_memory.md R59). -/
def rxEvents : List Symbol → List Event
  | [] => []
  | .byte b mark :: syms => .rxByte b mark :: rxEvents syms
  | .brk :: syms => rxEvents syms
  | .txen _ :: syms => rxEvents syms

end Sys2Proof.Machine
end

