-- ==== Sys2Proof/Certificates/Slice0/Obligations.lean ====
section
/-! DEFINITION. The statements for the provers, from the numbered rules of spec/. -/

open Sys2Proof Sys2Proof.Machine

/-! ### Codec (40_codec.md) -/

/-- R77 and R81: CRC_UPD is eight shifts of the sum, and CRC_UPDATE returns it in every state and changes nothing. -/
def Obligations.CrcUpdateReturnsEightShifts : Prop :=
  ∀ (crc : Half) (b : Byte) (s : State),
    crcUpd crc b =
      (fun c : Half => if c.getLsbD 15 then (c <<< 1) ^^^ 0x1021#16 else c <<< 1)^[8]
        (crc ^^^ (b.setWidth 16 <<< 8)) ∧
    exec (.crcUpdate crc b) s = .next { s with result := some ⟨.ok, .word16 (crcUpd crc b)⟩ }

/-- The residue property that R79 derives from R77. -/
def Obligations.AppendedCrcLeavesResidueZero : Prop :=
  ∀ x : List Byte, crc16 (x ++ [(crc16 x).extractLsb' 8 8, (crc16 x).extractLsb' 0 8]) = 0x0000#16

/-- The detection property that R80 derives from R77. -/
def Obligations.SingleByteCorruptionIsDetected : Prop :=
  ∀ (x : List Byte) (i : Nat) (v : Byte) (h : i < x.length),
    crc16 x = 0x0000#16 → v ≠ x[i] → crc16 (x.set i v) ≠ 0x0000#16

/-- R162 and R83 to R86: NOP and the four byte-order operations answer OK in every state and write nothing; a byte-order
operation returns the number or its bytes swapped. -/
def Obligations.NopAndByteOrderOperationsAnswerOk : Prop :=
  ∀ (x : Half) (y : Wide) (s : State),
    let x' : Half := if s.params.hostBigEndian then x else x.extractLsb' 0 8 ++ x.extractLsb' 8 8
    let y' : Wide := if s.params.hostBigEndian then y
      else y.extractLsb' 0 8 ++ y.extractLsb' 8 8 ++ y.extractLsb' 16 8 ++ y.extractLsb' 24 8
    exec .nop s = .next { s with result := some ⟨.ok, .none⟩ } ∧
    exec (.hton16 x) s = .next { s with result := some ⟨.ok, .word16 x'⟩ } ∧
    exec (.hton32 y) s = .next { s with result := some ⟨.ok, .word32 y'⟩ } ∧
    exec (.ntoh16 x) s = .next { s with result := some ⟨.ok, .word16 x'⟩ } ∧
    exec (.ntoh32 y) s = .next { s with result := some ⟨.ok, .word32 y'⟩ }

/-! ### Encodings (30_encoding.md) -/

/-- Every well-formed host operation decodes from its bytes, whatever follows them (the byte form is the model's, log
5). A reserved code has no operands of its own, so what follows it is left over as it stands. -/
def Obligations.HostOperationDecodesFromItsEncoding : Prop :=
  ∀ (i : Instr) (rest : List Byte), i.wellFormed = true → i.format = .hostOp →
    decode .hostOp (encode i ++ rest) = .ok (i, rest)

/-- R68 and R69: a wire command decodes from its payload, and every payload is the encoding of the command it decodes
to, so each payload has exactly one reading. -/
def Obligations.CommandsAndPayloadsCorrespond : Prop :=
  (∀ i : Instr, i.format = .cmd → decodeCommand (encode i) = i) ∧
  (∀ p : List Byte, encode (decodeCommand p) = p ∧ (decodeCommand p).format = .cmd)

/-- Words decode to what they stand for: payloads written out from R68; host operations from R71, in the byte form that
is the model's (log 5); table words, which the model reads as host operations (log 6). -/
def Obligations.SampleWordsDecode : Prop :=
  decodeCommand [0x00#8, 0x01#8, 0xAA#8, 0xBB#8, 0xCC#8, 0xDD#8] = .signal [0x01#8, 0xAA#8, 0xBB#8, 0xCC#8, 0xDD#8] ∧
  decodeCommand [0x0F#8] = .nack [] ∧
  decodeCommand [0x0D#8, 0x07#8] = .reservedCmd0CTo0D 1#1 [0x07#8] ∧
  decodeTableWord 8 0x10 = some .parse ∧
  decodeTableWord 32 0x05561201 = some (.crcUpdate 0x1256#16 0x05#8) ∧
  decodeTableWord 8 0x47 = some (.reservedOp44To47 3#2) ∧
  decodeHostOp [0x20#8, 0x01#8, 0x01#8, 0x02#8, 0x41#8, 0x42#8] = .ok (.push 0x01#8 true [0x41#8, 0x42#8], [])

/-- R74: a code outside R71's map answers BAD_OPCODE and changes nothing, as an event and as an instruction; in the
slave role the master's operations answer WRONG_ROLE and change nothing. -/
def Obligations.ReservedCodesAnswerBadOpcode : Prop :=
  (∀ (s : State) (op : Byte) (operands : List Byte) (rest : List Event),
    op.toNat ∉ [0x00, 0x01, 0x02, 0x03, 0x04, 0x05, 0x10, 0x11, 0x12, 0x13, 0x14, 0x20, 0x21, 0x22, 0x30, 0x31,
      0x40, 0x41] →
    s.inputs = .hostOp op operands :: rest →
    step s = .next { s with inputs := rest, txOut := [], result := some ⟨.badOpcode, .none⟩ }) ∧
  (∀ s : State,
    let t : Host.Outcome State Fault Refusal := .next { s with result := some ⟨.badOpcode, .none⟩ }
    (∀ l, exec (.reservedOp06To07 l) s = t) ∧ (∀ l, exec (.reservedOp08To0F l) s = t) ∧
    exec .reservedOp15 s = t ∧ (∀ l, exec (.reservedOp16To17 l) s = t) ∧ (∀ l, exec (.reservedOp18To1F l) s = t) ∧
    exec .reservedOp23 s = t ∧ (∀ l, exec (.reservedOp24To27 l) s = t) ∧ (∀ l, exec (.reservedOp28To2F l) s = t) ∧
    (∀ l, exec (.reservedOp32To33 l) s = t) ∧ (∀ l, exec (.reservedOp34To37 l) s = t) ∧
    (∀ l, exec (.reservedOp38To3F l) s = t) ∧ (∀ l, exec (.reservedOp42To43 l) s = t) ∧
    (∀ l, exec (.reservedOp44To47 l) s = t) ∧ (∀ l, exec (.reservedOp48To4F l) s = t) ∧
    (∀ l, exec (.reservedOp50To5F l) s = t) ∧ (∀ l, exec (.reservedOp60To7F l) s = t) ∧
    (∀ l, exec (.reservedOp80ToFF l) s = t)) ∧
  (∀ (s : State) (uid data : List Byte) (wait : Bool) (slot : Byte),
    s.params.role = .slave → s.halted = false →
    let t : Host.Outcome State Fault Refusal := .next { s with result := some ⟨.wrongRole, .none⟩ }
    exec (.pushUid uid wait data) s = t ∧ exec (.rosterRead slot) s = t ∧ exec (.resolveUid uid) s = t)

/-! ### The step and the frame engine (41_frame_engine.md) -/

/-- R161: a HOST_OP event is its decoded operation's meaning. The list of events, the outputs of the last event that
the next one clears, and the step that stays where it is while no event is to come, as R180 has a core do nothing
between events, are the model's form of it (log 9). -/
def Obligations.StepRunsTheDecodedOperation : Prop :=
  (∀ (s : State) (op : Byte) (operands tail : List Byte) (rest : List Event) (i : Instr),
    s.inputs = .hostOp op operands :: rest → decodeHostOp (op :: operands) = .ok (i, tail) →
    step s = exec i { s with inputs := rest, txOut := [], result := none }) ∧
  (∀ s : State, s.inputs = [] → step s = .next s)

/-- R88, whole: what one received byte does. -/
def Obligations.ReceivedByteAccumulates : Prop :=
  ∀ (s : State) (b : Byte) (mark : Bool) (rest : List Event), s.inputs = .rxByte b mark :: rest →
    let s0 : State := { s with inputs := rest, txOut := [], result := none }
    let buf := s.fe.rxBuf.write s.fe.rxCnt.toNat b
    let len := (metaLen (buf.read 1)).toNat
    (s.halted = true ∨ s.fe.rxEn = false → step s = .next s0) ∧
    (s.halted = false → s.fe.rxEn = true →
      (mark = true → step s = .next { s0 with fe := { s.fe with
        rxBuf := s.fe.rxBuf.write 0 b, rxCnt := 1#8, rxActive := true, busyCnt := 0#16 } }) ∧
      (mark = false → s.fe.rxActive = false → step s = .next s0) ∧
      (mark = false → s.fe.rxActive = true → IndicesOk s →
        (s.fe.rxCnt = 1#8 → (metaLen b).toNat > 124 →
          step s = .next { s0 with fe := { s.fe with rxBuf := buf, rxCnt := 0#8, rxActive := false } }) ∧
        (¬ (s.fe.rxCnt = 1#8 ∧ (metaLen b).toNat > 124) →
          (1 ≤ s.fe.rxCnt.toNat → s.fe.rxCnt.toNat + 1 = len + 4 → step s = .next { s0 with fe := { s.fe with
            rxBuf := buf, rxCnt := s.fe.rxCnt + 1#8, fstate := .ready, rxEn := false, rxActive := false } }) ∧
          (¬ (1 ≤ s.fe.rxCnt.toNat ∧ s.fe.rxCnt.toNat + 1 = len + 4) → step s = .next { s0 with fe := { s.fe with
            rxBuf := buf, rxCnt := s.fe.rxCnt + 1#8 } }))))

/-- E1 of 95_test_vectors.md, from R63, R88, R95 and R96: a DATA frame that one node transmits and the channel delivers
unchanged to an idle node it is addressed to becomes READY on its last byte, PARSE returns its length, and READ returns
its payload with the verdict VALID. -/
def Obligations.TransmittedDataFrameIsReadBack : Prop :=
  ∀ (src d : Nibble) (p : List Byte) (s : State) (n : Byte),
    p.length ≤ 124 → p.length ≤ n.toNat → IndicesOk s → s.halted = false → channelIdle s = true →
    (d = own s ∨ d = 0#4) →
    s.inputs = rxEvents (frameSymbols src d false p) ++ [.hostOp 0x10#8 [], .hostOp 0x11#8 [n]] →
    ∃ t1 t2 : State, Host.Core.run Sys2Proof.core (p.length + 4) s = .next t1 ∧
      t1.fe.fstate = .ready ∧ t1.fe.rxEn = false ∧ t1.lastAddr = s.lastAddr ∧
      step t1 = .next t2 ∧ t2.result = some ⟨.ok, .word8 (BitVec.ofNat 8 p.length)⟩ ∧ t2.lastAddr = src ∧
      (p = [] → t2.fe.crcSt = .valid) ∧
      (p ≠ [] → ∃ t3 : State, step t2 = .next t3 ∧
        t3.result = some ⟨.ok, .bytes (BitVec.ofNat 8 p.length) p .valid⟩)

/-- R95 and R104, where PARSE meets no command: no frame ready, a frame for another node, a DATA frame with a payload.
-/
def Obligations.ParseLatchesDataFrames : Prop :=
  ∀ s : State, s.halted = false → IndicesOk s →
    let a := s.fe.rxBuf.read 0
    let m := s.fe.rxBuf.read 1
    let latched : FrameEngine := { s.fe with
      fstate := .processing, fSrc := addrSrc a, fDst := addrDst a, fMode := metaMode m, fLen := metaLen m,
      crcAcc := crcUpd (crcUpd 0xFFFF#16 a) m, rdIdx := 0#7, crcSt := .pending }
    (s.fe.fstate ≠ .ready → exec .parse s = .next { s with result := some ⟨.ok, .word8 0xFF#8⟩ }) ∧
    (s.fe.fstate = .ready → addrDst a ≠ own s → addrDst a ≠ 0#4 →
      exec .parse s = .next { s with
        fe := { idleEngine latched with crcSt := .none }, result := some ⟨.ok, .word8 0xFE#8⟩ }) ∧
    (s.fe.fstate = .ready → addrDst a = own s ∨ addrDst a = 0#4 → metaMode m = false → metaLen m ≠ 0#7 →
      exec .parse s = .next { s with
        fe := latched, lastAddr := addrSrc a, result := some ⟨.ok, .word8 ((metaLen m).setWidth 8)⟩ })

/-- From R95 with FINISH of R93: an empty DATA frame for this node or broadcast has its CRC checked by PARSE. Invalid,
it is discarded; valid, a broadcast at a node with an address is released, the awaited reply is recorded and released,
and every other frame is held. -/
def Obligations.ParseChecksEmptyDataFrames : Prop :=
  ∀ s : State, s.halted = false → IndicesOk s → s.fe.fstate = .ready →
    let a := s.fe.rxBuf.read 0
    let m := s.fe.rxBuf.read 1
    let c := crcFold 0xFFFF#16 [a, m, s.fe.rxBuf.read 2, s.fe.rxBuf.read 3]
    let checked : FrameEngine := { s.fe with
      fstate := .processing, fSrc := addrSrc a, fDst := addrDst a, fMode := false, fLen := 0#7
      crcAcc := c, rdIdx := 0#7, crcSt := if c = 0x0000#16 then .valid else .invalid }
    let awaited := s.rw.state = .pending ∧ s.rw.dst = addrSrc a ∧ addrDst a = own s
    let t : State := { s with lastAddr := addrSrc a, result := some ⟨.ok, .word8 0x00#8⟩ }
    metaMode m = false → metaLen m = 0#7 → addrDst a = own s ∨ addrDst a = 0#4 →
    (c ≠ 0x0000#16 → exec .parse s = .next { t with fe := idleEngine checked }) ∧
    (c = 0x0000#16 → addrDst a ≠ own s → exec .parse s = .next { t with fe := idleEngine checked }) ∧
    (c = 0x0000#16 → awaited →
      exec .parse s = .next { t with fe := idleEngine checked, rw := { s.rw with state := .received } }) ∧
    (c = 0x0000#16 → addrDst a = own s → ¬ awaited → exec .parse s = .next { t with fe := checked })

/-- From R95 and R68: PARSE of a ready CMD frame addressed to this node or broadcast is the meaning of the command its
payload decodes to, on the state with the header latched and the sender noted. From R158, step 4: a tick that finds a
frame ready is a PARSE and then the tick on what PARSE left, the symbols of the two in that order; in the slave role
where the tick completes no loss of presence. -/
def Obligations.ParseRunsTheDecodedCommand : Prop :=
  (∀ s : State, s.halted = false → IndicesOk s → s.fe.fstate = .ready →
    let a := s.fe.rxBuf.read 0
    let m := s.fe.rxBuf.read 1
    let l : State := { s with lastAddr := addrSrc a, fe := { s.fe with
      fstate := .processing, fSrc := addrSrc a, fDst := addrDst a, fMode := metaMode m, fLen := metaLen m,
      crcAcc := crcUpd (crcUpd 0xFFFF#16 a) m, rdIdx := 0#7, crcSt := .pending } }
    metaMode m = true → addrDst a = own s ∨ addrDst a = 0#4 →
    ∃ t, exec (decodeCommand (s.fe.rxBuf.readFrom 2 (metaLen m).toNat)) l = .next t ∧
      exec .parse s = .next { t with result := some ⟨.ok, .word8 0xFE#8⟩ }) ∧
  (∀ (s : State) (presence busy : Bool) (bo : Half) (nonce : Wide) (rest : List Event),
    Inv s → s.halted = false → s.fe.fstate = .ready → legalDraw s bo → tickGoesOn presence s →
    s.inputs = .tick presence busy bo nonce :: rest →
    ∃ u t, exec .parse { s with txOut := [] } = .next u ∧ u.fe.fstate ≠ .ready ∧ step u = .next t ∧
      step s = .next { t with txOut := u.txOut ++ t.txOut })

/-- R105 with R96 and FINISH of R93: READ, every result. -/
def Obligations.ReadCopiesAndChecks : Prop :=
  ∀ (n : Byte) (s : State),
    (s.halted = true → exec (.read n) s = .next { s with result := some ⟨.halted, .none⟩ }) ∧
    (s.halted = false → s.fe.fstate ≠ .processing ∨ s.fe.fMode = true ∨ s.fe.crcSt ≠ .pending →
      exec (.read n) s = .next { s with result := some ⟨.noFrame, .none⟩ }) ∧
    (s.halted = false → s.fe.fstate = .processing → s.fe.fMode = false → s.fe.crcSt = .pending → IndicesOk s →
      let left := s.fe.fLen.toNat - s.fe.rdIdx.toNat
      let k := min n.toNat left
      let out := s.fe.rxBuf.readFrom (2 + s.fe.rdIdx.toNat) k
      let c := crcFold s.fe.crcAcc (out ++ trailer s)
      (k < left → exec (.read n) s = .next { s with
        fe := { s.fe with crcAcc := crcFold s.fe.crcAcc out, rdIdx := s.fe.rdIdx + BitVec.ofNat 7 k }
        result := some ⟨.ok, .bytes (BitVec.ofNat 8 k) out .pending⟩ }) ∧
      (k = left → c ≠ 0x0000#16 → exec (.read n) s = .next { s with
        fe := { idleEngine s.fe with crcAcc := c, rdIdx := s.fe.fLen, crcSt := .invalid }
        result := some ⟨.ok, .bytes (BitVec.ofNat 8 k) out .invalid⟩ }) ∧
      (k = left → c = 0x0000#16 → s.fe.fDst = 0#4 ∧ own s ≠ 0#4 → exec (.read n) s = .next { released s with
        result := some ⟨.ok, .bytes (BitVec.ofNat 8 k) out .valid⟩ }) ∧
      (k = left → c = 0x0000#16 → ¬ (s.fe.fDst = 0#4 ∧ own s ≠ 0#4) → isReply s = true →
        exec (.read n) s = .next { released s with
          rw := { s.rw with state := .received }
          result := some ⟨.ok, .bytes (BitVec.ofNat 8 k) out .valid⟩ }) ∧
      (k = left → c = 0x0000#16 → ¬ (s.fe.fDst = 0#4 ∧ own s ≠ 0#4) → isReply s = false →
        exec (.read n) s = .next { s with
          fe := { s.fe with crcAcc := c, rdIdx := s.fe.fLen, crcSt := .valid }
          result := some ⟨.ok, .bytes (BitVec.ofNat 8 k) out .valid⟩ }))

/-- R94: RELEASE drains a frame that is not fully consumed, records a valid awaited reply, and always ends idle. -/
def Obligations.ReleaseDrainsTheHeldFrame : Prop :=
  ∀ s : State,
    (¬ (s.fe.fstate = .processing ∧ s.fe.crcSt = .pending) → release s = { s with fe := idleEngine s.fe }) ∧
    (s.fe.fstate = .processing → s.fe.crcSt = .pending → s.fe.rdIdx.toNat ≤ s.fe.fLen.toNat →
      let rest := s.fe.rxBuf.readFrom (2 + s.fe.rdIdx.toNat) (s.fe.fLen.toNat - s.fe.rdIdx.toNat)
      let c := crcFold s.fe.crcAcc (rest ++ s.fe.rxBuf.readFrom (2 + s.fe.fLen.toNat) 2)
      release s = { s with
        fe := { idleEngine s.fe with
          crcAcc := c, rdIdx := s.fe.fLen, crcSt := if c = 0x0000#16 then .valid else .invalid }
        rw := { s.rw with
          state := if c = 0x0000#16 ∧ isReply s = true then .received else s.rw.state } })

/-- R106 with R97 and R98: SEND, every result. An oversized SEND ends a held frame; that it changes nothing where none
is held, as R166 has it and R98's pseudocode has not, is the model's reading (log 12). The frame engine after a sent
frame is what RELEASE leaves. -/
def Obligations.SendTransmitsOneFrame : Prop :=
  ∀ (dst : Byte) (data : List Byte) (s : State),
    let legal := dst.toNat ≤ 15 ∨ dst = 0xFF#8
    let may := s.fe.fstate = .processing ∨ (s.fe.fstate = .idle ∧ s.fe.rxActive = false ∧ s.fe.rxEn = true)
    let d : Nibble := if dst = 0xFF#8 then s.lastAddr else dst.setWidth 4
    (s.halted = true → exec (.send dst data) s = .next { s with result := some ⟨.halted, .none⟩ }) ∧
    (s.halted = false → ¬ legal → exec (.send dst data) s = .next { s with result := some ⟨.badArg, .none⟩ }) ∧
    (s.halted = false → legal → ¬ may → exec (.send dst data) s = .next { s with result := some ⟨.busy, .none⟩ }) ∧
    (s.halted = false → legal → may → IndicesOk s → 124 < data.length →
      (s.fe.fstate = .processing →
        exec (.send dst data) s = .next { release s with result := some ⟨.tooLong, .none⟩ }) ∧
      (s.fe.fstate ≠ .processing → exec (.send dst data) s = .next { s with result := some ⟨.tooLong, .none⟩ })) ∧
    (s.halted = false → legal → may → IndicesOk s → data.length ≤ 124 →
      exec (.send dst data) s = .next { release s with
        txOut := s.txOut ++ transmission s d false data, result := some ⟨.ok, .none⟩ })

/-- R107 with R106: CMD_SEND, every result. That an oversized one changes nothing where no frame is held is the model's
reading, as for SEND (log 12). -/
def Obligations.CmdSendTransmitsOneCommand : Prop :=
  ∀ (dst cmd : Byte) (args : List Byte) (s : State),
    let legal := dst.toNat ≤ 15 ∨ dst = 0xFF#8
    let may := s.fe.fstate = .processing ∨ (s.fe.fstate = .idle ∧ s.fe.rxActive = false ∧ s.fe.rxEn = true)
    let d : Nibble := if dst = 0xFF#8 then s.lastAddr else dst.setWidth 4
    (s.halted = true → exec (.cmdSend dst cmd args) s = .next { s with result := some ⟨.halted, .none⟩ }) ∧
    (s.halted = false → ¬ legal → exec (.cmdSend dst cmd args) s = .next { s with result := some ⟨.badArg, .none⟩ }) ∧
    (s.halted = false → legal → ¬ may →
      exec (.cmdSend dst cmd args) s = .next { s with result := some ⟨.busy, .none⟩ }) ∧
    (s.halted = false → legal → may → IndicesOk s → 123 < args.length →
      (s.fe.fstate = .processing →
        exec (.cmdSend dst cmd args) s = .next { release s with result := some ⟨.tooLong, .none⟩ }) ∧
      (s.fe.fstate ≠ .processing →
        exec (.cmdSend dst cmd args) s = .next { s with result := some ⟨.tooLong, .none⟩ })) ∧
    (s.halted = false → legal → may → IndicesOk s → args.length ≤ 123 →
      exec (.cmdSend dst cmd args) s = .next { release s with
        txOut := s.txOut ++ transmission s d true (cmd :: args), result := some ⟨.ok, .none⟩ })

/-- R97 with R63 to R66: the symbols of a transmission, bit by bit. -/
def Obligations.TransmissionSymbols : Prop :=
  ∀ (d : Nibble) (mode : Bool) (p : List Byte) (s : State), p.length ≤ 124 →
    let a : Byte := ((own s).setWidth 8 <<< 4) ||| d.setWidth 8
    let m : Byte := ((if mode then 1#8 else 0#8) <<< 7) ||| BitVec.ofNat 8 p.length
    let c := crc16 (a :: m :: p)
    let frame := [Symbol.brk, .byte a true, .byte m false] ++ p.map (fun b => .byte b false) ++
      [.byte (c.extractLsb' 8 8) false, .byte (c.extractLsb' 0 8) false]
    transmit d mode p s = { s with
      fe := { s.fe with rxEn := false }
      txOut := s.txOut ++ (if s.params.role = .slave then [.txen true] ++ frame ++ [.txen false] else frame) }

/-- R46 and R108: the RX_STATUS word, field by field. -/
def Obligations.RxStatusWordFields : Prop :=
  ∀ s : State,
    (s.halted = true → exec .rxStatus s = .next { s with result := some ⟨.halted, .none⟩ }) ∧
    (s.halted = false → s.fe.rdIdx.toNat ≤ s.fe.fLen.toNat →
      ∃ w : Wide, exec .rxStatus s = .next { s with result := some ⟨.ok, .word32 w⟩ } ∧
        w.extractLsb' 0 2 = (match s.fe.fstate with | .idle => 0#2 | .ready => 1#2 | .processing => 2#2) ∧
        w.extractLsb' 2 2 = (match s.fe.crcSt with | .none => 0#2 | .pending => 1#2 | .valid => 2#2 | .invalid => 3#2) ∧
        w.extractLsb' 4 4 = s.fe.fSrc ∧ w.extractLsb' 8 4 = s.fe.fDst ∧ w.getLsbD 12 = s.fe.fMode ∧
        w.extractLsb' 13 7 = s.fe.fLen ∧ (w.extractLsb' 20 7).toNat = s.fe.fLen.toNat - s.fe.rdIdx.toNat ∧
        w.getLsbD 27 = s.fe.rxEn ∧ w.getLsbD 28 = s.fe.rxActive ∧ w.extractLsb' 29 3 = 0#3)

/-! ### The request queue (42_request_queue.md) -/

/-- R114 with R111: PUSH, every result. -/
def Obligations.PushQueuesACopy : Prop :=
  ∀ (dst : Byte) (wait : Bool) (data : List Byte) (s : State),
    let legal := dst.toNat ≤ 15 ∨ dst = 0xFF#8
    let n := s.params.queueSlots
    let count := (s.queue.tail.toNat + n - s.queue.head.toNat) % n
    let i : Instr := .push dst wait data
    (s.halted = true → exec i s = .next { s with result := some ⟨.halted, .none⟩ }) ∧
    (s.halted = false → ¬ legal → exec i s = .next { s with result := some ⟨.badArg, .none⟩ }) ∧
    (s.halted = false → legal → IndicesOk s → 124 < data.length →
      exec i s = .next { s with result := some ⟨.tooLong, .none⟩ }) ∧
    (s.halted = false → legal → IndicesOk s → data.length ≤ 124 → count = n - 1 →
      exec i s = .next { s with result := some ⟨.queueFull, .none⟩ }) ∧
    (s.halted = false → legal → IndicesOk s → data.length ≤ 124 → count ≠ n - 1 →
      exec i s = .next (pushed dst wait data s))

/-- R115: PUSH_UID, every result; the identity's slot is the lowest that holds it. -/
def Obligations.PushUidResolvesWhenPushed : Prop :=
  ∀ (uid : List Byte) (wait : Bool) (data : List Byte) (s : State),
    let n := s.params.queueSlots
    let count := (s.queue.tail.toNat + n - s.queue.head.toNat) % n
    let i : Instr := .pushUid uid wait data
    let holds := fun k => (slotAt s k).addr ≠ 0#4 ∧ (slotAt s k).uidLen.toNat = uid.length ∧
      (slotAt s k).uid.readFrom 0 uid.length = uid
    (s.halted = true → exec i s = .next { s with result := some ⟨.halted, .none⟩ }) ∧
    (s.halted = false → s.params.role = .slave → exec i s = .next { s with result := some ⟨.wrongRole, .none⟩ }) ∧
    (s.halted = false → s.params.role = .master → uid.length < 1 ∨ 12 < uid.length →
      exec i s = .next { s with result := some ⟨.badArg, .none⟩ }) ∧
    (s.halted = false → s.params.role = .master → 1 ≤ uid.length → uid.length ≤ 12 → IndicesOk s →
      ((∀ k < s.params.rosterSlots, ¬ holds k) → exec i s = .next { s with result := some ⟨.unknownUid, .none⟩ }) ∧
      (∀ k < s.params.rosterSlots, holds k → (∀ j < k, ¬ holds j) →
        (124 < data.length → exec i s = .next { s with result := some ⟨.tooLong, .none⟩ }) ∧
        (data.length ≤ 124 → count = n - 1 → exec i s = .next { s with result := some ⟨.queueFull, .none⟩ }) ∧
        (data.length ≤ 124 → count ≠ n - 1 →
          exec i s = .next (pushed ((slotAt s k).addr.setWidth 8) wait data s))))

/-- R48 and R116: the QUEUE_STATUS word. -/
def Obligations.QueueStatusWordFields : Prop :=
  ∀ s : State, s.params.wf →
    let n := s.params.queueSlots
    (s.halted = true → exec .queueStatus s = .next { s with result := some ⟨.halted, .none⟩ }) ∧
    (s.halted = false → ∃ w : Half, exec .queueStatus s = .next { s with result := some ⟨.ok, .word16 w⟩ } ∧
      (w.extractLsb' 0 8).toNat = (s.queue.tail.toNat + n - s.queue.head.toNat) % n ∧
      (w.extractLsb' 8 8).toNat = n - 1)

/-- From R109 to R113: the ring is a first-in first-out list of requests of at most QUEUE_SLOTS - 1. A push appends, a
full queue refuses and keeps its contents, a dispatch takes the oldest request and sends exactly its payload. -/
def Obligations.QueueIsAFirstInFirstOutList : Prop :=
  ∀ s : State, s.params.wf → QueueInv s →
    (queueContents s).length ≤ s.params.queueSlots - 1 ∧
    (∀ dst wait p, p.length ≤ 124 → (queueContents s).length < s.params.queueSlots - 1 →
      (enqueue dst wait p s).2 = .ok ∧
      queueContents (enqueue dst wait p s).1 = queueContents s ++ [(dst, wait, p)]) ∧
    (∀ dst wait p, p.length ≤ 124 → (queueContents s).length = s.params.queueSlots - 1 →
      enqueue dst wait p s = (s, .queueFull)) ∧
    (∀ dst wait p rest, queueContents s = (dst, wait, p) :: rest → channelIdle s = true →
      let d : Nibble := if dst = 0xFF#8 then s.lastAddr else dst.setWidth 4
      queueContents (dispatchQueue s) = rest ∧
      (dispatchQueue s).txOut = s.txOut ++ transmission s d false p ∧
      (dispatchQueue s).rw = if wait then ⟨.pending, d, .app, 0#16⟩ else s.rw)

/-! ### The roster (43_roster.md) -/

/-- R127: ROSTER_READ, every result. A free slot reads as all zeros, since EVICT and RESET clear every field, which is
the item `free` of the roster's invariant. -/
def Obligations.RosterReadReturnsTheSlot : Prop :=
  ∀ (slot : Byte) (s : State),
    let e := slotAt s slot.toNat
    (s.halted = true → exec (.rosterRead slot) s = .next { s with result := some ⟨.halted, .none⟩ }) ∧
    (s.halted = false → s.params.role = .slave →
      exec (.rosterRead slot) s = .next { s with result := some ⟨.wrongRole, .none⟩ }) ∧
    (s.halted = false → s.params.role = .master → s.params.rosterSlots ≤ slot.toNat →
      exec (.rosterRead slot) s = .next { s with result := some ⟨.badArg, .none⟩ }) ∧
    (s.halted = false → s.params.role = .master → slot.toNat < s.params.rosterSlots → IndicesOk s →
      exec (.rosterRead slot) s = .next { s with
        result := some ⟨.ok, .slot e.addr e.uidLen (e.uid.readFrom 0 12) e.pingCd e.pingErr e.needsPing⟩ } ∧
      (RosterInv s → e.addr = 0#4 → exec (.rosterRead slot) s = .next { s with
        result := some ⟨.ok, .slot 0#4 0#4 (List.replicate 12 0x00#8) 0#16 0#16 false⟩ }))

/-- R128 with R125: RESOLVE_UID, every result; the address of the lowest slot that holds the identity, 0 when none
does. -/
def Obligations.ResolveUidFindsTheLowestSlot : Prop :=
  ∀ (uid : List Byte) (s : State),
    let holds := fun k => (slotAt s k).addr ≠ 0#4 ∧ (slotAt s k).uidLen.toNat = uid.length ∧
      (slotAt s k).uid.readFrom 0 uid.length = uid
    (s.halted = true → exec (.resolveUid uid) s = .next { s with result := some ⟨.halted, .none⟩ }) ∧
    (s.halted = false → s.params.role = .slave →
      exec (.resolveUid uid) s = .next { s with result := some ⟨.wrongRole, .none⟩ }) ∧
    (s.halted = false → s.params.role = .master → uid.length < 1 ∨ 12 < uid.length →
      exec (.resolveUid uid) s = .next { s with result := some ⟨.badArg, .none⟩ }) ∧
    (s.halted = false → s.params.role = .master → 1 ≤ uid.length → uid.length ≤ 12 → IndicesOk s →
      ((∀ k < s.params.rosterSlots, ¬ holds k) →
        exec (.resolveUid uid) s = .next { s with result := some ⟨.ok, .address 0#4⟩ }) ∧
      (∀ k < s.params.rosterSlots, holds k → (∀ j < k, ¬ holds j) →
        exec (.resolveUid uid) s = .next { s with result := some ⟨.ok, .address (slotAt s k).addr⟩ }))

/-- R122: SCAN returns the first slot due a ping from the position on, moves the position behind it, and leaves
everything when no slot is due. -/
def Obligations.ScanIsRoundRobin : Prop :=
  ∀ s : State, s.params.wf →
    let n := s.params.rosterSlots
    let at' := fun i => (s.roster.rrPos.toNat + i) % n
    let isDue := fun k => (slotAt s k).addr ≠ 0#4 ∧ (slotAt s k).needsPing = true
    (∀ i < n, isDue (at' i) → (∀ j < i, ¬ isDue (at' j)) →
      scan s = ({ s with roster := { s.roster with rrPos := BitVec.ofNat 4 ((at' i + 1) % n) } },
          (slotAt s (at' i)).addr)) ∧
    ((∀ k < n, ¬ isDue k) → scan s = (s, 0#4)) ∧
    ((scan s).2 = 0#4 → ∀ k < n, ¬ isDue k)

/-- R121: LIVENESS counts periods, and each period lowers every occupied slot's countdown and marks the slot that
reaches 0. -/
def Obligations.LivenessCountsDown : Prop :=
  ∀ s : State, s.params.wf → s.roster.liveCnt.toNat < s.params.livenessDiv →
    (s.roster.liveCnt.toNat + 1 < s.params.livenessDiv →
      liveness s = { s with roster := { s.roster with liveCnt := s.roster.liveCnt + 1#16 } }) ∧
    (s.roster.liveCnt.toNat + 1 = s.params.livenessDiv →
      (liveness s).roster.liveCnt = 0#16 ∧ (liveness s).roster.slots.length = s.roster.slots.length ∧
      liveness s = { s with roster := { s.roster with
        liveCnt := 0#16, slots := (liveness s).roster.slots } } ∧
      ∀ k, let e := slotAt s k
        let e' := slotAt (liveness s) k
        (e.addr = 0#4 ∨ e.pingCd = 0#16 → e' = e) ∧
        (e.addr ≠ 0#4 → e.pingCd = 1#16 → e' = { e with pingCd := 0#16, needsPing := true }) ∧
        (e.addr ≠ 0#4 → 2 ≤ e.pingCd.toNat → e' = { e with pingCd := e.pingCd - 1#16 }))

/-- R124 and R120: the outcome of a ping wait. -/
def Obligations.PingOutcomeCountsOrEvicts : Prop :=
  ∀ (o : WaitOutcome) (s : State), s.params.wf → s.rw.kind = .ping →
    let k := s.rw.dst.toNat - 1
    let e := slotAt s k
    let occupied := 1 ≤ s.rw.dst.toNat ∧ s.rw.dst.toNat ≤ s.params.rosterSlots ∧ e.addr = s.rw.dst
    let s0 : State := { s with rw := { s.rw with state := .none, cnt := 0#16 } }
    let put : Slot → State := fun e' =>
      { s0 with roster := { s.roster with slots := s.roster.slots.set k e' } }
    (¬ occupied → consumeReply o s = s0) ∧
    (occupied → s.roster.slots.length = s.params.rosterSlots →
      (o ≠ .timeout → consumeReply o s = put { e with pingErr := 0#16 }) ∧
      (o = .timeout → e.pingErr.toNat + 1 < s.params.pingErrMax →
        consumeReply o s = put { e with pingErr := e.pingErr + 1#16 }) ∧
      (o = .timeout → s.params.pingErrMax ≤ e.pingErr.toNat + 1 →
        consumeReply o s = put ⟨0#4, 0#4, [], 0#16, 0#16, false⟩))

/-! ### Wire commands (46_commands.md) -/

/-- From R93 and R95: a CMD frame whose CRC fails is discarded, whatever its command, and a broadcast at a node with an
address is released without being handled. -/
def Obligations.CorruptOrBroadcastCommandIsNotHandled : Prop :=
  ∀ (i : Instr) (s : State), i.format = .cmd → IndicesOk s →
    (¬ FrameValid (encode i) s → exec i s = .next { s with fe := { idleEngine s.fe with
      crcAcc := crcFold s.fe.crcAcc (encode i ++ trailer s), rdIdx := s.fe.fLen, crcSt := .invalid } }) ∧
    (FrameValid (encode i) s → s.fe.fDst = 0#4 → own s ≠ 0#4 → exec i s = .next (released s))

/-- From R95: a CMD frame that is the awaited reply goes to CONSUME_REPLY, whatever its command, and is not handled as
a command. That this holds of a second SIGNAL from the awaited address too, which R129 and R130 call ignored, is the
model's reading (log 13). -/
def Obligations.AwaitedCommandIsConsumed : Prop :=
  ∀ (i : Instr) (s : State), i.format = .cmd → AwaitedCommand (encode i) s →
    exec i s = .next (consumeReply (.cmd (encode i))
      { released s with rw := { s.rw with state := .received } })

/-- R154, R156 and R157 where the frame is no awaited reply, and the ignored ACK of R155: the command changes nothing
and the channel is released. -/
def Obligations.IgnoredCommandsReleaseTheChannel : Prop :=
  ∀ (args : List Byte) (s : State),
    (HeldCommand (0x04#8 :: args) s → exec (.alert args) s = .next (released s)) ∧
    (HeldCommand (0x06#8 :: args) s → exec (.ack args) s = .next (released s)) ∧
    (HeldCommand (0x0F#8 :: args) s → exec (.nack args) s = .next (released s)) ∧
    (HeldCommand (0x05#8 :: args) s → exec (.reservedCmd05 args) s = .next (released s)) ∧
    (HeldCommand (0x07#8 :: args) s → exec (.reservedCmd07 args) s = .next (released s)) ∧
    (∀ l : BitVec 2, HeldCommand ((0x08#8 ||| l.setWidth 8) :: args) s →
      exec (.reservedCmd08To0B l args) s = .next (released s)) ∧
    (∀ l : BitVec 1, HeldCommand ((0x0C#8 ||| l.setWidth 8) :: args) s →
      exec (.reservedCmd0CTo0D l args) s = .next (released s)) ∧
    (HeldCommand (0x0E#8 :: args) s → exec (.reservedCmd0E args) s = .next (released s)) ∧
    (∀ l : BitVec 4, HeldCommand ((0x10#8 ||| l.setWidth 8) :: args) s →
      exec (.reservedCmd10To1F l args) s = .next (released s)) ∧
    (∀ l : BitVec 5, HeldCommand ((0x20#8 ||| l.setWidth 8) :: args) s →
      exec (.reservedCmd20To3F l args) s = .next (released s)) ∧
    (∀ l : BitVec 6, HeldCommand ((0x40#8 ||| l.setWidth 8) :: args) s →
      exec (.reservedCmd40To7F l args) s = .next (released s)) ∧
    (∀ l : BitVec 7, HeldCommand ((0x80#8 ||| l.setWidth 8) :: args) s →
      exec (.reservedCmd80ToFF l args) s = .next (released s)) ∧
    (HeldCommand [] s → exec .reservedCmdEmpty s = .next (released s))

/-- R145 and the master's half of R130: a held command that the node's role has no transition for changes nothing and
the channel is released. -/
def Obligations.CommandsWithoutATransitionAreIgnored : Prop :=
  ∀ (i : Instr) (s : State), i.format = .cmd → HeldCommand (encode i) s →
    (s.params.role = .slave → ¬ slaveActsOn s i → exec i s = .next (released s)) ∧
    (s.params.role = .master → ¬ masterActsOn s i → exec i s = .next (released s))

/-- R130: an accepted SIGNAL allocates the lowest free slot's address, is answered with a FIND that echoes the nonce,
and arms the HS_FIND wait on its sender. -/
def Obligations.SignalIsAnsweredWithFind : Prop :=
  ∀ (ver n3 n2 n1 n0 : Byte) (k : Nat) (s : State), s.params.wf →
    HeldCommand [0x00#8, ver, n3, n2, n1, n0] s → s.params.role = .master →
    s.hs.state = .idle → s.rw.state = .none →
    k < s.params.rosterSlots → (slotAt s k).addr = 0#4 → (∀ j < k, (slotAt s j).addr ≠ 0#4) →
    exec (.signal [ver, n3, n2, n1, n0]) s = .next { released s with
      hs := { s.hs with state := .waitAddrAck, addr := BitVec.ofNat 4 (k + 1), nonce := n3 ++ n2 ++ n1 ++ n0 }
      rw := ⟨.pending, s.fe.fSrc, .hsFind, 0#16⟩
      txOut := s.txOut ++ frameSymbols 15#4 s.fe.fSrc true [0x01#8, n3, n2, n1, n0, BitVec.ofNat 8 (k + 1)] }

/-- R131, R132, R133: what an awaited ACK does at each step of the master's handshake. -/
def Obligations.AckMovesTheHandshake : Prop :=
  ∀ (uid : List Byte) (s : State), AwaitedCommand (0x06#8 :: uid) s →
    let s0 : State := { released s with rw := { s.rw with state := .none, cnt := 0#16 } }
    (s.rw.kind = .hsFind → exec (.ack uid) s = .next { s0 with hs := { s.hs with state := .sendGetUid } }) ∧
    (s.rw.kind = .hsUid → uid = [] → exec (.ack uid) s = .next { s0 with hs := { s.hs with
      state := .sendPing, uidLen := 1#4, uid := s.hs.uid.writeFrom 0 [s.hs.addr.setWidth 8] } }) ∧
    (s.rw.kind = .hsUid → 1 ≤ uid.length → uid.length ≤ 12 → exec (.ack uid) s = .next { s0 with hs := { s.hs with
      state := .sendPing, uidLen := BitVec.ofNat 4 uid.length, uid := s.hs.uid.writeFrom 0 uid } }) ∧
    (s.rw.kind = .hsUid → 12 < uid.length →
      exec (.ack uid) s = .next { s0 with hs := { s.hs with state := .idle } }) ∧
    (s.rw.kind = .hsPing → exec (.ack uid) s = .next { s0 with
      hs := { s.hs with state := .idle }
      roster := { s.roster with slots := (s.roster.slots.set (s.hs.addr.toNat - 1)
        { addr := s.hs.addr, uidLen := s.hs.uidLen
          uid := (slotAt s (s.hs.addr.toNat - 1)).uid.writeFrom 0 (s.hs.uid.readFrom 0 s.hs.uidLen.toNat)
          pingCd := BitVec.ofNat 16 s.params.pingPeriod, pingErr := 0#16, needsPing := false }) } })

/-- R134 with R131 to R133: a timeout, a DATA reply or a command other than ACK ends the handshake and leaves no trace
in the roster; the latches keep their values. -/
def Obligations.AbortedHandshakeLeavesNoTrace : Prop :=
  ∀ (o : WaitOutcome) (s : State),
    s.rw.kind = .hsFind ∨ s.rw.kind = .hsUid ∨ s.rw.kind = .hsPing → (∀ uid, o ≠ .cmd (0x06#8 :: uid)) →
    consumeReply o s = { s with
      rw := { s.rw with state := .none, cnt := 0#16 }, hs := { s.hs with state := .idle } }

/-- R160, the case APP: the outcome goes to the application latch, and a reply clears the slot's error count. -/
def Obligations.ApplicationOutcomeIsLatched : Prop :=
  ∀ (o : WaitOutcome) (s : State), s.rw.kind = .app →
    let d := s.rw.dst
    let s0 : State := { s with
      rw := { s.rw with state := .none, cnt := 0#16 }
      app := ⟨if o = .timeout then .timedOut else .received, d⟩ }
    let clears := s.params.role = .master ∧ o ≠ .timeout ∧ 1 ≤ d.toNat ∧ d.toNat ≤ s.params.rosterSlots ∧
      (slotAt s (d.toNat - 1)).addr = d
    (¬ clears → consumeReply o s = s0) ∧
    (clears → s.roster.slots.length = s.params.rosterSlots → consumeReply o s = { s0 with
      roster := { s.roster with
        slots := s.roster.slots.set (d.toNat - 1) { slotAt s (d.toNat - 1) with pingErr := 0#16 } } })

/-- R146: a FIND with the slave's nonce and an operational address is acknowledged from the old address, and then the
address is adopted. -/
def Obligations.FindIsAcknowledgedThenAdopted : Prop :=
  ∀ (n3 n2 n1 n0 a : Byte) (s : State), s.params.role = .slave →
    HeldCommand [0x01#8, n3, n2, n1, n0, a] s → s.sl.state = .signalSent →
    n3 ++ n2 ++ n1 ++ n0 = s.sl.nonce → 1 ≤ a.toNat → a.toNat ≤ 14 →
    exec (.find [n3, n2, n1, n0, a]) s = .next { released s with
      ownAddr := a.setWidth 4
      sl := { s.sl with state := .addrSet, hsCnt := 0#16 }
      txOut := s.txOut ++ transmission s s.fe.fSrc true [0x06#8] }

/-- R147 and R148: a GET_UID is answered with the identity; a PING is acknowledged and connects the slave, or keeps it
connected. -/
def Obligations.GetUidAndPingAreAnswered : Prop :=
  ∀ s : State, s.params.role = .slave →
    (HeldCommand [0x02#8] s → s.sl.state = .addrSet → exec (.getUid []) s = .next { released s with
      sl := { s.sl with state := .uidSent, hsCnt := 0#16 }
      txOut := s.txOut ++ transmission s s.fe.fSrc true (0x06#8 :: s.sl.uid.readFrom 0 s.sl.uidLen.toNat) }) ∧
    (HeldCommand [0x03#8] s → s.sl.state = .uidSent ∨ s.sl.state = .connected →
      exec (.ping []) s = .next { released s with
        sl := { s.sl with state := .connected, nopingCnt := 0#16, pingRx := true }
        txOut := s.txOut ++ transmission s s.fe.fSrc true [0x06#8] })

/-! ### Ticks (44, 45, 47) -/

/-- R135 on a quiet master: the handshake's next request goes before a due ping, a due ping before the queue head, and
the wait of what is sent is armed. That the entry popped by `dispatchQueue` keeps its contents is the model's choice
(log 8). -/
def Obligations.MasterTickSendsByPriority : Prop :=
  ∀ (s : State) (pres busy : Bool) (bo : Half) (nonce : Wide) (rest : List Event),
    s.params.role = .master → Quiet s → legalDraw s bo → s.inputs = .tick pres busy bo nonce :: rest →
    let s0 : State := { s with inputs := rest, txOut := [], result := none }
    let s1 := liveness s0
    let a := (scan s1).2
    ∃ t, step s = .next t ∧
      (s.hs.state = .sendGetUid → t = { s1 with
        fe := idleEngine s.fe, hs := { s.hs with state := .waitUidAck }
        rw := ⟨.pending, s.hs.addr, .hsUid, 0#16⟩, txOut := frameSymbols 15#4 s.hs.addr true [0x02#8] }) ∧
      (s.hs.state = .sendPing → t = { s1 with
        fe := idleEngine s.fe, hs := { s.hs with state := .waitPingAck }
        rw := ⟨.pending, s.hs.addr, .hsPing, 0#16⟩, txOut := frameSymbols 15#4 s.hs.addr true [0x03#8] }) ∧
      (s.hs.state = .idle → a ≠ 0#4 → t = { (scan s1).1 with
        fe := idleEngine s.fe
        rw := ⟨.pending, a, .ping, 0#16⟩, txOut := frameSymbols 15#4 a true [0x03#8]
        roster := { (scan s1).1.roster with slots := s1.roster.slots.modify (a.toNat - 1) (fun e =>
          { e with needsPing := false, pingCd := BitVec.ofNat 16 s.params.pingPeriod }) } }) ∧
      (s.hs.state = .idle → a = 0#4 → 0 < qcount s → t = dispatchQueue s1) ∧
      (s.hs.state = .idle → a = 0#4 → qcount s = 0 → t = s1) ∧
      (s.hs.state = .waitAddrAck ∨ s.hs.state = .waitUidAck ∨ s.hs.state = .waitPingAck → t = s1)

/-- From R140 and R139: presence restarts the absence count, absence the presence count; a slave that has been present
long enough leaves DISCONNECTED; the tick on which it has been absent long enough resets it and does nothing else. -/
def Obligations.PresenceIsDebouncedAndItsLossResets : Prop :=
  (∀ (s : State) (busy : Bool) (bo : Half) (nonce : Wide) (rest : List Event),
    s.params.role = .slave → s.halted = false → IndicesOk s → legalDraw s bo →
    s.sl.absCnt.toNat + 1 = s.params.presenceDebounce → s.inputs = .tick false busy bo nonce :: rest →
    step s = .next (slaveAfterReset nonce { s with
      inputs := rest, txOut := [], result := none, sl := { s.sl with absCnt := s.sl.absCnt + 1#16 } })) ∧
  (∀ (presence : Bool) (n : Wide) (s : State),
    (presence = true → s.sl.presCnt.toNat < 65535 →
      presenceStep presence n s = ({ s with sl := { s.sl with
        absCnt := 0#16, presCnt := s.sl.presCnt + 1#16
        state := if s.sl.state = .disconnected ∧ s.params.presenceDebounce ≤ s.sl.presCnt.toNat + 1
          then .pluggedIn else s.sl.state } }, false)) ∧
    (presence = true → s.sl.presCnt = 65535#16 →
      presenceStep presence n s = ({ s with sl := { s.sl with
        absCnt := 0#16
        state := if s.sl.state = .disconnected ∧ s.params.presenceDebounce ≤ 65535
          then .pluggedIn else s.sl.state } }, false)) ∧
    (presence = false → s.params.presenceDebounce ≤ s.sl.absCnt.toNat →
      presenceStep presence n s = ({ s with sl := { s.sl with presCnt := 0#16 } }, false)) ∧
    (presence = false → s.sl.absCnt.toNat + 1 < s.params.presenceDebounce →
      presenceStep presence n s =
        ({ s with sl := { s.sl with presCnt := 0#16, absCnt := s.sl.absCnt + 1#16 } }, false)))

/-- R142, R140, R141 and R143 on a quiet slave, in a tick that completes no loss of presence: a step too long, or too
long without a ping, resets it with the tick's draw and ends the tick; before that the counter counts. The tick
supervises the presence; a busy one loads the backoff with the draw, another lets it fall, and a slave that is connected
dispatches its queue where the backoff is at 0. That the entry popped by `dispatchQueue` keeps its contents is the
model's choice (log 8). -/
def Obligations.SlaveTimersResetTheSlave : Prop :=
  ∀ (s : State) (presence busy : Bool) (bo : Half) (nonce : Wide) (rest : List Event),
    s.params.role = .slave → Quiet s → legalDraw s bo → tickGoesOn presence s →
    s.inputs = .tick presence busy bo nonce :: rest →
    let b : Half := if busy then bo else if s.sl.backoff = 0#16 then 0#16 else s.sl.backoff - 1#16
    let s1 := supervisedSlave presence b rest s
    let step1 : State := { s1 with sl := { s1.sl with hsCnt := s.sl.hsCnt + 1#16 } }
    let noPing1 : State := { s1 with sl := { s1.sl with nopingCnt := s.sl.nopingCnt + 1#16 } }
    (s.sl.state = .signalSent ∨ s.sl.state = .addrSet ∨ s.sl.state = .uidSent →
      (s.sl.hsCnt.toNat + 1 ≤ s.params.hsTimeout → step s = .next step1) ∧
      (s.sl.hsCnt.toNat = s.params.hsTimeout → step s = .next (slaveAfterReset nonce s1))) ∧
    (s.sl.state = .connected →
      (s.sl.nopingCnt.toNat + 1 ≤ s.params.nopingTimeout →
        (b = 0#16 → 0 < qcount s → step s = .next (dispatchQueue noPing1)) ∧
        (b ≠ 0#16 ∨ qcount s = 0 → step s = .next noPing1)) ∧
      (s.sl.nopingCnt.toNat = s.params.nopingTimeout → step s = .next (slaveAfterReset nonce s1)))

/-- R144 with R140, R141 and R143, in a tick that completes no loss of presence: a quiet slave that is plugged in, or
that this tick plugs in, sends SIGNAL with its nonce where the tick leaves its backoff at 0, and waits in PLUGGED_IN
where it does not. A quiet slave that stays disconnected only supervises its presence. -/
def Obligations.PluggedInSlaveSendsSignal : Prop :=
  ∀ (s : State) (presence busy : Bool) (bo : Half) (nonce : Wide) (rest : List Event),
    s.params.role = .slave → Quiet s → legalDraw s bo → tickGoesOn presence s →
    s.inputs = .tick presence busy bo nonce :: rest →
    let b : Half := if busy then bo else if s.sl.backoff = 0#16 then 0#16 else s.sl.backoff - 1#16
    let s1 := supervisedSlave presence b rest s
    let plugs := presence = true ∧ s.params.presenceDebounce ≤ s1.sl.presCnt.toNat
    (s.sl.state = .pluggedIn ∨ s.sl.state = .disconnected ∧ plugs →
      (b ≠ 0#16 → step s = .next { s1 with sl := { s1.sl with state := .pluggedIn } }) ∧
      (b = 0#16 → step s = .next { s1 with
        fe := idleEngine s.fe
        sl := { s1.sl with state := .signalSent, hsCnt := 0#16 }
        txOut := .txen true :: frameSymbols s.ownAddr 15#4 true
          [0x00#8, 0x01#8, s.sl.nonce.extractLsb' 24 8, s.sl.nonce.extractLsb' 16 8,
            s.sl.nonce.extractLsb' 8 8, s.sl.nonce.extractLsb' 0 8] ++ [.txen false] })) ∧
    (s.sl.state = .disconnected → ¬ plugs → step s = .next s1)

/-- From R100, R101, R158 and R160: the two timers of the frame engine, and the outcome of a wait. Ticks, whatever they
carry, count the busy counter of a held or a partial frame, and the tick that takes it past BUSY_TIMEOUT leaves the
engine idle, unless a slave is reset before. In a tick that completes no loss of presence: that tick releases the frame
first and goes on without it; a wait that is received is consumed as a DATA reply; a pending one is counted, and
consumed as timed out on the tick that takes it past REPLY_TIMEOUT. -/
def Obligations.EngineTimersReleaseAndTimeOut : Prop :=
  (∀ (s : State) (ticks rest : List Event),
    Inv s → s.halted = false → s.fe.fstate = .processing ∨ s.fe.rxActive = true →
    let n := s.params.busyTimeout + 1 - s.fe.busyCnt.toNat
    s.inputs = ticks ++ rest → ticks.length = n →
    (∀ e ∈ ticks, ∃ presence busy bo nonce, e = .tick presence busy bo nonce ∧ legalDraw s bo) →
    ∃ k t, 1 ≤ k ∧ k ≤ n ∧ Host.Core.run Sys2Proof.core k s = .next t ∧ t.fe = idleEngine t.fe ∧
      (k = n ∨ s.params.role = .slave ∧ t.sl.state = .disconnected) ∧
      ∀ j < k, ∃ u, Host.Core.run Sys2Proof.core j s = .next u ∧
        u.fe = { s.fe with busyCnt := s.fe.busyCnt + BitVec.ofNat 16 j }) ∧
  (∀ (s : State) (presence busy : Bool) (bo : Half) (nonce : Wide) (rest : List Event),
    Inv s → s.halted = false → legalDraw s bo → tickGoesOn presence s →
    s.inputs = .tick presence busy bo nonce :: rest →
    (s.fe.fstate = .processing ∨ s.fe.rxActive = true → s.fe.busyCnt.toNat = s.params.busyTimeout →
      step s = step (release s)) ∧
    (s.fe.fstate ≠ .ready → s.rw.state = .received → step s = step (consumeReply .data s)) ∧
    (s.fe.fstate = .idle ∨ s.fe.fstate = .processing ∧ s.fe.busyCnt.toNat + 1 ≤ s.params.busyTimeout →
      s.rw.state = .pending →
      (s.params.replyTimeout < s.rw.cnt.toNat + 1 → step s = step (consumeReply .timeout s)) ∧
      (s.rw.cnt.toNat + 1 ≤ s.params.replyTimeout → ∃ t, step s = .next t ∧
        (t.rw = { s.rw with cnt := s.rw.cnt + 1#16 } ∧ t.app = s.app ∧ t.hs = s.hs ∧ t.queue = s.queue ∧
            t.txOut = [] ∨
          s.params.role = .slave ∧ t.rw.state = .none ∧ t.sl.state = .disconnected))))

/-! ### Status operations (47_tick_schedule.md) and results (60_exceptions.md) -/

/-- R47 and R163: the NODE_STATUS word, field by field, in every state. -/
def Obligations.NodeStatusWordFields : Prop :=
  ∀ s : State, ∃ w : BitVec 64, exec .nodeStatus s = .next { s with result := some ⟨.ok, .word64 w⟩ } ∧
    w.getLsbD 0 = (s.params.role == .slave) ∧ w.getLsbD 1 = s.halted ∧
    w.extractLsb' 2 4 = own s ∧
    w.extractLsb' 10 2 =
      (match s.rw.state with | .none => 0#2 | .pending => 1#2 | .received => 2#2 | .timedOut => 3#2) ∧
    w.extractLsb' 12 3 =
      (match s.rw.kind with | .app => 0#3 | .hsFind => 1#3 | .hsUid => 2#3 | .hsPing => 3#3 | .ping => 4#3) ∧
    w.extractLsb' 15 4 = s.rw.dst ∧ w.extractLsb' 19 5 = 0#5 ∧
    (s.params.role = .slave →
      w.extractLsb' 6 3 = (match s.sl.state with
        | .disconnected => 0#3 | .pluggedIn => 1#3 | .signalSent => 2#3
        | .addrSet => 3#3 | .uidSent => 4#3 | .connected => 5#3) ∧
      w.getLsbD 9 = s.sl.pingRx ∧ w.extractLsb' 24 8 = s.sl.modeByte ∧ w.extractLsb' 32 32 = s.sl.nonce) ∧
    (s.params.role = .master →
      w.extractLsb' 6 3 = (match s.hs.state with
        | .idle => 0#3 | .waitAddrAck => 1#3 | .sendGetUid => 2#3
        | .waitUidAck => 3#3 | .sendPing => 4#3 | .waitPingAck => 5#3) ∧
      w.getLsbD 9 = false ∧ w.extractLsb' 24 8 = 0#8 ∧ w.extractLsb' 32 32 = s.hs.nonce)

/-- R49 and R164: REPLY_STATUS, every result; an outcome is cleared by reading it. -/
def Obligations.ReplyStatusReadsAndClears : Prop :=
  ∀ s : State,
    let word := fun (a : Nibble) (st : Byte) => (a.setWidth 8 <<< 2) ||| st
    (s.halted = true → exec .replyStatus s = .next { s with result := some ⟨.halted, .none⟩ }) ∧
    (s.halted = false →
      (s.app.st = .received → exec .replyStatus s = .next { s with
        app := { s.app with st := .none }, result := some ⟨.ok, .word8 (word s.app.src 2#8)⟩ }) ∧
      (s.app.st = .timedOut → exec .replyStatus s = .next { s with
        app := { s.app with st := .none }, result := some ⟨.ok, .word8 (word s.app.src 3#8)⟩ }) ∧
      (s.app.st = .none → s.rw.kind = .app → s.rw.state = .pending ∨ s.rw.state = .received →
        exec .replyStatus s = .next { s with result := some ⟨.ok, .word8 (word s.rw.dst 1#8)⟩ }) ∧
      (s.app.st = .none → ¬ (s.rw.kind = .app ∧ (s.rw.state = .pending ∨ s.rw.state = .received)) →
        exec .replyStatus s = .next { s with result := some ⟨.ok, .word8 0#8⟩ }))

/-- R167: what a halted core still does. -/
def Obligations.HaltedCoreOnlyReports : Prop :=
  ∀ s : State, s.halted = true →
    let halted : Host.Outcome State Fault Refusal := .next { s with result := some ⟨.halted, .none⟩ }
    (exec .parse s = halted ∧ (∀ n, exec (.read n) s = halted) ∧ (∀ d p, exec (.send d p) s = halted) ∧
      (∀ d c p, exec (.cmdSend d c p) s = halted) ∧ exec .rxStatus s = halted ∧
      (∀ d w p, exec (.push d w p) s = halted) ∧ (∀ u w p, exec (.pushUid u w p) s = halted) ∧
      exec .queueStatus s = halted ∧ (∀ k, exec (.rosterRead k) s = halted) ∧
      (∀ u, exec (.resolveUid u) s = halted) ∧ exec .replyStatus s = halted) ∧
    (exec .nop s = .next { s with result := some ⟨.ok, .none⟩ } ∧
      (∃ w : BitVec 64, exec .nodeStatus s = .next { s with result := some ⟨.ok, .word64 w⟩ } ∧ w.getLsbD 1 = true) ∧
      (∀ c b, exec (.crcUpdate c b) s = .next { s with result := some ⟨.ok, .word16 (crcUpd c b)⟩ }) ∧
      (∀ x : Half, ∃ y, exec (.hton16 x) s = .next { s with result := some ⟨.ok, .word16 y⟩ } ∧
        exec (.ntoh16 x) s = .next { s with result := some ⟨.ok, .word16 y⟩ } ∧
        y = if s.params.hostBigEndian then x else bswap16 x) ∧
      (∀ x : Wide, ∃ y, exec (.hton32 x) s = .next { s with result := some ⟨.ok, .word32 y⟩ } ∧
        exec (.ntoh32 x) s = .next { s with result := some ⟨.ok, .word32 y⟩ } ∧
        y = if s.params.hostBigEndian then x else bswap32 x)) ∧
    (∀ e rest, s.inputs = e :: rest →
      (∃ b mark, e = .rxByte b mark) ∨ (∃ pres busy bo nonce, e = .tick pres busy bo nonce ∧ legalDraw s bo) →
      step s = .next { s with inputs := rest, txOut := [], result := none }) ∧
    (∀ e rest t, s.inputs = e :: rest → (∀ cfg nonce0, e ≠ .reset cfg nonce0) → step s = .next t → t.halted = true)

/-- From R166: a host operation that answers anything but OK changes no state of the core, except that an oversized SEND
or CMD_SEND ends a held frame. That its record holds no further field is the model's choice (log 14). -/
def Obligations.FailingOperationsChangeNothing : Prop :=
  ∀ (i : Instr) (s t : State), i.format = .hostOp → exec i s = .next t →
    ∃ r, t.result = some r ∧ (r.status ≠ .ok → r.fields = .none ∧
      (t = { s with result := some r } ∨
        r.status = .tooLong ∧ s.fe.fstate = .processing ∧ ((∃ d p, i = .send d p) ∨ ∃ d c p, i = .cmdSend d c p) ∧
          t = { release s with result := some r }))

/-! ### Reset (70_reset_and_hazards.md) -/

/-- R178: the values after reset that the spec gives. The model's choices are the parameters and the role of State.reset
(log 2), and that no event is to come there (logs 6 and 9). -/
def Obligations.ResetStateValues : Prop :=
  let s := State.reset
  s.fe.rxCnt = 0#8 ∧ s.fe.rxActive = false ∧ s.fe.busyCnt = 0#16 ∧ s.fe.rdIdx = 0#7 ∧ s.fe.rxEn = true ∧
  s.fe.fstate = .idle ∧ s.fe.fSrc = 0#4 ∧ s.fe.fDst = 0#4 ∧ s.fe.fMode = false ∧ s.fe.fLen = 0#7 ∧
  s.fe.crcAcc = 0xFFFF#16 ∧ s.fe.crcSt = .none ∧ own s = 15#4 ∧ s.lastAddr = 0#4 ∧
  s.rw = ⟨.none, 0#4, .app, 0#16⟩ ∧ s.app = ⟨.none, 0#4⟩ ∧ s.queue.head = 0#8 ∧ s.queue.tail = 0#8 ∧
  (∀ e ∈ s.roster.slots, e = ⟨0#4, 0#4, [], 0#16, 0#16, false⟩) ∧ s.roster.rrPos = 0#4 ∧ s.roster.liveCnt = 0#16 ∧
  s.hs = ⟨.idle, 0#4, 0#32, 0#4, []⟩ ∧ s.halted = false ∧ s.txOut = [] ∧ s.inputs = []

/-- R178 and R179: the event RESET, from every state, and what it leaves: each row of R178's table, the fields of a role
under that role; the slave's configuration loaded, or the node halted. That the parameters and the events to come stay
is the model's reading (log 17); what a configuration needs beyond `cfg_ok` is open (log 4), so what RESET leaves is
said for a valid and for an invalid one. -/
def Obligations.ResetLoadsTheConfiguration : Prop :=
  (∀ (s : State) (cfg : BootConfig) (nonce0 : Wide) (rest : List Event), s.inputs = .reset cfg nonce0 :: rest →
    (cfg.cfgOk = false → Config.configValid cfg = false) ∧
    step s = .next { resetState s.params (Config.configValid cfg) cfg nonce0 with inputs := rest }) ∧
  (∀ (p : Params) (valid : Bool) (cfg : BootConfig) (nonce0 : Wide),
    let t := resetState p valid cfg nonce0
    (t.params = p ∧ t.txOut = [] ∧ t.result = none) ∧
    (t.fe.rxCnt = 0#8 ∧ t.fe.rxActive = false ∧ t.fe.busyCnt = 0#16 ∧ t.fe.rdIdx = 0#7 ∧ t.fe.fstate = .idle ∧
      t.fe.fSrc = 0#4 ∧ t.fe.fDst = 0#4 ∧ t.fe.fMode = false ∧ t.fe.fLen = 0#7 ∧ t.fe.crcAcc = 0xFFFF#16 ∧
      t.fe.crcSt = .none) ∧
    (t.lastAddr = 0#4 ∧ t.rw = ⟨.none, 0#4, .app, 0#16⟩ ∧ t.app = ⟨.none, 0#4⟩ ∧
      t.queue.head = 0#8 ∧ t.queue.tail = 0#8 ∧ t.queue.slots.length = p.queueSlots) ∧
    (p.role = .master → own t = 15#4 ∧ t.halted = false ∧ t.fe.rxEn = true ∧
      t.roster.slots = List.replicate p.rosterSlots ⟨0#4, 0#4, [], 0#16, 0#16, false⟩ ∧
      t.roster.rrPos = 0#4 ∧ t.roster.liveCnt = 0#16 ∧ t.hs = ⟨.idle, 0#4, 0#32, 0#4, []⟩) ∧
    (p.role = .slave → own t = 0#4 ∧ t.sl.state = .disconnected ∧ t.sl.presCnt = 0#16 ∧ t.sl.absCnt = 0#16 ∧
      t.sl.hsCnt = 0#16 ∧ t.sl.nopingCnt = 0#16 ∧ t.sl.backoff = 0#16 ∧ t.sl.pingRx = false ∧
      (valid = false → t.halted = true ∧ t.fe.rxEn = false ∧ t.sl.nonce = 0#32 ∧ t.sl.modeByte = 0#8 ∧
        t.sl.seed = 0#32 ∧ t.sl.uidLen = 0#4 ∧ t.sl.uid.readFrom 0 12 = List.replicate 12 0x00#8) ∧
      (valid = true → t.halted = false ∧ t.fe.rxEn = true ∧ t.sl.nonce = nonce0 ∧ t.sl.modeByte = cfg.mode ∧
        t.sl.seed = cfg.seed ∧
        (cfg.uidPresent = true → t.sl.uidLen = 12#4 ∧ t.sl.uid.readFrom 0 12 = cfg.uid.toList) ∧
        (cfg.uidPresent = false → t.sl.uidLen = 0#4))))

/-! ### Invariants -/

/-- The whole invariant holds after RESET: in State.reset, and for every legal parameters, configuration and draw. -/
def Obligations.InvariantHoldsAfterReset : Prop :=
  Inv State.reset ∧
  ∀ (p : Params) (valid : Bool) (cfg : BootConfig) (nonce0 : Wide), p.wf → Inv (resetState p valid cfg nonce0)

/-- R50 items 1, 2 and 7, and the ranges of R20, R24, R25, from every state that has them. -/
def Obligations.StepKeepsTheFrameEngine : Prop :=
  ∀ s t : State, EngineInv s → step s = .next t → EngineInv t

/-- The ring of R33 keeps its shape. -/
def Obligations.StepKeepsTheQueueRing : Prop :=
  ∀ s t : State, s.params.wf → QueueInv s → step s = .next t → QueueInv t

/-- R50 items 4 and 5 with the waits of R129, and the zeros of a free slot (R120, R178). -/
def Obligations.StepKeepsTheRoster : Prop :=
  ∀ s t : State, s.params.wf → RosterInv s → step s = .next t → RosterInv t

/-- R50 item 6. -/
def Obligations.StepKeepsTheSlaveAddress : Prop :=
  ∀ s t : State, SlaveInv s → step s = .next t → SlaveInv t

/-- R12 and R13: no counter passes the bound its parameter sets, so none wraps. -/
def Obligations.StepKeepsTheCounters : Prop :=
  ∀ s t : State, s.params.wf → CounterInv s → step s = .next t → CounterInv t

/-- The byte arrays keep their canonical form and their sizes. -/
def Obligations.StepKeepsTheByteArrays : Prop :=
  ∀ s t : State, MemoryInv s → step s = .next t → MemoryInv t

/-- A state that has the invariant never faults: every index the rules form lies inside its array. -/
def Obligations.InvariantExcludesFaults : Prop :=
  ∀ s : State, Inv s → IndicesOk s ∧ ∀ f, step s ≠ .fault f

/-- R3 and R175: no step changes the role, not even RESET; and only RESET changes the halt (R45). That the other
parameters are data that no step changes, RESET among them, is the model's reading (logs 1 and 17). -/
def Obligations.RoleAndHaltAreFixed : Prop :=
  ∀ s t : State, step s = .next t →
    t.params = s.params ∧ (t.halted ≠ s.halted → ∃ cfg nonce0 rest, s.inputs = .reset cfg nonce0 :: rest)

/-- R29: outside RESET the own address changes only in a slave, by an accepted FIND or by SLAVE_RESET; a master's reads
15 in every state. -/
def Obligations.OwnAddressChangesOnlyByFindOrReset : Prop :=
  (∀ s : State, s.params.role = .master → own s = 15#4) ∧
  ∀ s t : State, s.params.wf → step s = .next t → own t ≠ own s →
    (∃ cfg nonce0 rest, s.inputs = .reset cfg nonce0 :: rest) ∨
    s.params.role = .slave ∧
      (t.sl.state = .disconnected ∧ own t = 0#4 ∨
        s.sl.state = .signalSent ∧ t.sl.state = .addrSet ∧ 1 ≤ (own t).toNat ∧ (own t).toNat ≤ 14)
end

