-- ==== Sys2Proof/Laws/State.lean ====
section
/-! SUPPORT. One lemma per field per named update of the state, each true by rfl, so that no proof unfolds a record
update. -/

namespace Sys2Proof.Machine

/-! ### answer -/

@[simp] theorem answer_params (r : HostResult) (s : State) : (answer r s).params = s.params := rfl
@[simp] theorem answer_fe (r : HostResult) (s : State) : (answer r s).fe = s.fe := rfl
@[simp] theorem answer_ownAddr (r : HostResult) (s : State) : (answer r s).ownAddr = s.ownAddr := rfl
@[simp] theorem answer_lastAddr (r : HostResult) (s : State) : (answer r s).lastAddr = s.lastAddr := rfl
@[simp] theorem answer_rw (r : HostResult) (s : State) : (answer r s).rw = s.rw := rfl
@[simp] theorem answer_app (r : HostResult) (s : State) : (answer r s).app = s.app := rfl
@[simp] theorem answer_queue (r : HostResult) (s : State) : (answer r s).queue = s.queue := rfl
@[simp] theorem answer_roster (r : HostResult) (s : State) : (answer r s).roster = s.roster := rfl
@[simp] theorem answer_hs (r : HostResult) (s : State) : (answer r s).hs = s.hs := rfl
@[simp] theorem answer_sl (r : HostResult) (s : State) : (answer r s).sl = s.sl := rfl
@[simp] theorem answer_halted (r : HostResult) (s : State) : (answer r s).halted = s.halted := rfl
@[simp] theorem answer_inputs (r : HostResult) (s : State) : (answer r s).inputs = s.inputs := rfl
@[simp] theorem answer_txOut (r : HostResult) (s : State) : (answer r s).txOut = s.txOut := rfl
@[simp] theorem answer_result (r : HostResult) (s : State) : (answer r s).result = some r := rfl
@[simp] theorem isMaster_answer (r : HostResult) (s : State) : isMaster (answer r s) = isMaster s := rfl
@[simp] theorem own_answer (r : HostResult) (s : State) : own (answer r s) = own s := rfl
@[simp] theorem slotAt_answer (r : HostResult) (s : State) (j : Nat) : slotAt (answer r s) j = slotAt s j := rfl
@[simp] theorem qcount_answer (r : HostResult) (s : State) : qcount (answer r s) = qcount s := rfl

/-! ### succeed -/

@[simp] theorem succeed_params (f : ResultFields) (s : State) : (succeed f s).params = s.params := rfl
@[simp] theorem succeed_fe (f : ResultFields) (s : State) : (succeed f s).fe = s.fe := rfl
@[simp] theorem succeed_ownAddr (f : ResultFields) (s : State) : (succeed f s).ownAddr = s.ownAddr := rfl
@[simp] theorem succeed_lastAddr (f : ResultFields) (s : State) : (succeed f s).lastAddr = s.lastAddr := rfl
@[simp] theorem succeed_rw (f : ResultFields) (s : State) : (succeed f s).rw = s.rw := rfl
@[simp] theorem succeed_app (f : ResultFields) (s : State) : (succeed f s).app = s.app := rfl
@[simp] theorem succeed_queue (f : ResultFields) (s : State) : (succeed f s).queue = s.queue := rfl
@[simp] theorem succeed_roster (f : ResultFields) (s : State) : (succeed f s).roster = s.roster := rfl
@[simp] theorem succeed_hs (f : ResultFields) (s : State) : (succeed f s).hs = s.hs := rfl
@[simp] theorem succeed_sl (f : ResultFields) (s : State) : (succeed f s).sl = s.sl := rfl
@[simp] theorem succeed_halted (f : ResultFields) (s : State) : (succeed f s).halted = s.halted := rfl
@[simp] theorem succeed_inputs (f : ResultFields) (s : State) : (succeed f s).inputs = s.inputs := rfl
@[simp] theorem succeed_txOut (f : ResultFields) (s : State) : (succeed f s).txOut = s.txOut := rfl
@[simp] theorem succeed_result (f : ResultFields) (s : State) : (succeed f s).result = some ⟨.ok, f⟩ := rfl
@[simp] theorem isMaster_succeed (f : ResultFields) (s : State) : isMaster (succeed f s) = isMaster s := rfl
@[simp] theorem own_succeed (f : ResultFields) (s : State) : own (succeed f s) = own s := rfl
@[simp] theorem slotAt_succeed (f : ResultFields) (s : State) (j : Nat) : slotAt (succeed f s) j = slotAt s j := rfl
@[simp] theorem qcount_succeed (f : ResultFields) (s : State) : qcount (succeed f s) = qcount s := rfl

/-! ### refuse -/

@[simp] theorem refuse_params (st : Status) (s : State) : (refuse st s).params = s.params := rfl
@[simp] theorem refuse_fe (st : Status) (s : State) : (refuse st s).fe = s.fe := rfl
@[simp] theorem refuse_ownAddr (st : Status) (s : State) : (refuse st s).ownAddr = s.ownAddr := rfl
@[simp] theorem refuse_lastAddr (st : Status) (s : State) : (refuse st s).lastAddr = s.lastAddr := rfl
@[simp] theorem refuse_rw (st : Status) (s : State) : (refuse st s).rw = s.rw := rfl
@[simp] theorem refuse_app (st : Status) (s : State) : (refuse st s).app = s.app := rfl
@[simp] theorem refuse_queue (st : Status) (s : State) : (refuse st s).queue = s.queue := rfl
@[simp] theorem refuse_roster (st : Status) (s : State) : (refuse st s).roster = s.roster := rfl
@[simp] theorem refuse_hs (st : Status) (s : State) : (refuse st s).hs = s.hs := rfl
@[simp] theorem refuse_sl (st : Status) (s : State) : (refuse st s).sl = s.sl := rfl
@[simp] theorem refuse_halted (st : Status) (s : State) : (refuse st s).halted = s.halted := rfl
@[simp] theorem refuse_inputs (st : Status) (s : State) : (refuse st s).inputs = s.inputs := rfl
@[simp] theorem refuse_txOut (st : Status) (s : State) : (refuse st s).txOut = s.txOut := rfl
@[simp] theorem refuse_result (st : Status) (s : State) : (refuse st s).result = some ⟨st, .none⟩ := rfl
@[simp] theorem isMaster_refuse (st : Status) (s : State) : isMaster (refuse st s) = isMaster s := rfl
@[simp] theorem own_refuse (st : Status) (s : State) : own (refuse st s) = own s := rfl
@[simp] theorem slotAt_refuse (st : Status) (s : State) (j : Nat) : slotAt (refuse st s) j = slotAt s j := rfl
@[simp] theorem qcount_refuse (st : Status) (s : State) : qcount (refuse st s) = qcount s := rfl

/-! ### emit -/

@[simp] theorem emit_params (syms : List Symbol) (s : State) : (emit syms s).params = s.params := rfl
@[simp] theorem emit_fe (syms : List Symbol) (s : State) : (emit syms s).fe = s.fe := rfl
@[simp] theorem emit_ownAddr (syms : List Symbol) (s : State) : (emit syms s).ownAddr = s.ownAddr := rfl
@[simp] theorem emit_lastAddr (syms : List Symbol) (s : State) : (emit syms s).lastAddr = s.lastAddr := rfl
@[simp] theorem emit_rw (syms : List Symbol) (s : State) : (emit syms s).rw = s.rw := rfl
@[simp] theorem emit_app (syms : List Symbol) (s : State) : (emit syms s).app = s.app := rfl
@[simp] theorem emit_queue (syms : List Symbol) (s : State) : (emit syms s).queue = s.queue := rfl
@[simp] theorem emit_roster (syms : List Symbol) (s : State) : (emit syms s).roster = s.roster := rfl
@[simp] theorem emit_hs (syms : List Symbol) (s : State) : (emit syms s).hs = s.hs := rfl
@[simp] theorem emit_sl (syms : List Symbol) (s : State) : (emit syms s).sl = s.sl := rfl
@[simp] theorem emit_halted (syms : List Symbol) (s : State) : (emit syms s).halted = s.halted := rfl
@[simp] theorem emit_inputs (syms : List Symbol) (s : State) : (emit syms s).inputs = s.inputs := rfl
@[simp] theorem emit_txOut (syms : List Symbol) (s : State) : (emit syms s).txOut = s.txOut ++ syms := rfl
@[simp] theorem emit_result (syms : List Symbol) (s : State) : (emit syms s).result = s.result := rfl
@[simp] theorem isMaster_emit (syms : List Symbol) (s : State) : isMaster (emit syms s) = isMaster s := rfl
@[simp] theorem own_emit (syms : List Symbol) (s : State) : own (emit syms s) = own s := rfl
@[simp] theorem slotAt_emit (syms : List Symbol) (s : State) (j : Nat) : slotAt (emit syms s) j = slotAt s j := rfl
@[simp] theorem qcount_emit (syms : List Symbol) (s : State) : qcount (emit syms s) = qcount s := rfl

/-! ### discard -/

@[simp] theorem discard_params (s : State) : (discard s).params = s.params := rfl
@[simp] theorem discard_fe (s : State) :
    (discard s).fe =
      { s.fe with fstate := .idle, rxActive := false, rxCnt := 0#8, rxEn := true, busyCnt := 0#16 } := rfl
@[simp] theorem discard_ownAddr (s : State) : (discard s).ownAddr = s.ownAddr := rfl
@[simp] theorem discard_lastAddr (s : State) : (discard s).lastAddr = s.lastAddr := rfl
@[simp] theorem discard_rw (s : State) : (discard s).rw = s.rw := rfl
@[simp] theorem discard_app (s : State) : (discard s).app = s.app := rfl
@[simp] theorem discard_queue (s : State) : (discard s).queue = s.queue := rfl
@[simp] theorem discard_roster (s : State) : (discard s).roster = s.roster := rfl
@[simp] theorem discard_hs (s : State) : (discard s).hs = s.hs := rfl
@[simp] theorem discard_sl (s : State) : (discard s).sl = s.sl := rfl
@[simp] theorem discard_halted (s : State) : (discard s).halted = s.halted := rfl
@[simp] theorem discard_inputs (s : State) : (discard s).inputs = s.inputs := rfl
@[simp] theorem discard_txOut (s : State) : (discard s).txOut = s.txOut := rfl
@[simp] theorem discard_result (s : State) : (discard s).result = s.result := rfl
@[simp] theorem isMaster_discard (s : State) : isMaster (discard s) = isMaster s := rfl
@[simp] theorem own_discard (s : State) : own (discard s) = own s := rfl
@[simp] theorem slotAt_discard (s : State) (j : Nat) : slotAt (discard s) j = slotAt s j := rfl
@[simp] theorem qcount_discard (s : State) : qcount (discard s) = qcount s := rfl

/-! ### foldBytes -/

@[simp] theorem foldBytes_params (bs : List Byte) (i : BitVec 7) (s : State) :
    (foldBytes bs i s).params =
      s.params := rfl
@[simp] theorem foldBytes_fe (bs : List Byte) (i : BitVec 7) (s : State) :
    (foldBytes bs i s).fe =
      { s.fe with crcAcc := crcFold s.fe.crcAcc bs, rdIdx := i } := rfl
@[simp] theorem foldBytes_ownAddr (bs : List Byte) (i : BitVec 7) (s : State) :
    (foldBytes bs i s).ownAddr =
      s.ownAddr := rfl
@[simp] theorem foldBytes_lastAddr (bs : List Byte) (i : BitVec 7) (s : State) :
    (foldBytes bs i s).lastAddr =
      s.lastAddr := rfl
@[simp] theorem foldBytes_rw (bs : List Byte) (i : BitVec 7) (s : State) : (foldBytes bs i s).rw = s.rw := rfl
@[simp] theorem foldBytes_app (bs : List Byte) (i : BitVec 7) (s : State) : (foldBytes bs i s).app = s.app := rfl
@[simp] theorem foldBytes_queue (bs : List Byte) (i : BitVec 7) (s : State) :
    (foldBytes bs i s).queue =
      s.queue := rfl
@[simp] theorem foldBytes_roster (bs : List Byte) (i : BitVec 7) (s : State) :
    (foldBytes bs i s).roster =
      s.roster := rfl
@[simp] theorem foldBytes_hs (bs : List Byte) (i : BitVec 7) (s : State) : (foldBytes bs i s).hs = s.hs := rfl
@[simp] theorem foldBytes_sl (bs : List Byte) (i : BitVec 7) (s : State) : (foldBytes bs i s).sl = s.sl := rfl
@[simp] theorem foldBytes_halted (bs : List Byte) (i : BitVec 7) (s : State) :
    (foldBytes bs i s).halted =
      s.halted := rfl
@[simp] theorem foldBytes_inputs (bs : List Byte) (i : BitVec 7) (s : State) :
    (foldBytes bs i s).inputs =
      s.inputs := rfl
@[simp] theorem foldBytes_txOut (bs : List Byte) (i : BitVec 7) (s : State) :
    (foldBytes bs i s).txOut =
      s.txOut := rfl
@[simp] theorem foldBytes_result (bs : List Byte) (i : BitVec 7) (s : State) :
    (foldBytes bs i s).result =
      s.result := rfl
@[simp] theorem isMaster_foldBytes (bs : List Byte) (i : BitVec 7) (s : State) :
    isMaster (foldBytes bs i s) = isMaster s := rfl
@[simp] theorem own_foldBytes (bs : List Byte) (i : BitVec 7) (s : State) : own (foldBytes bs i s) = own s := rfl
@[simp] theorem slotAt_foldBytes (bs : List Byte) (i : BitVec 7) (s : State) (j : Nat) :
    slotAt (foldBytes bs i s) j = slotAt s j := rfl
@[simp] theorem qcount_foldBytes (bs : List Byte) (i : BitVec 7) (s : State) :
    qcount (foldBytes bs i s) = qcount s := rfl

/-! ### checkCrc -/

@[simp] theorem checkCrc_params (s : State) : (checkCrc s).params = s.params := rfl
@[simp] theorem checkCrc_fe (s : State) :
    (checkCrc s).fe =
      { s.fe with
        crcAcc := crcFold s.fe.crcAcc (trailer s),
        crcSt := if crcFold s.fe.crcAcc (trailer s) = 0x0000#16 then .valid else .invalid } := rfl
@[simp] theorem checkCrc_ownAddr (s : State) : (checkCrc s).ownAddr = s.ownAddr := rfl
@[simp] theorem checkCrc_lastAddr (s : State) : (checkCrc s).lastAddr = s.lastAddr := rfl
@[simp] theorem checkCrc_rw (s : State) : (checkCrc s).rw = s.rw := rfl
@[simp] theorem checkCrc_app (s : State) : (checkCrc s).app = s.app := rfl
@[simp] theorem checkCrc_queue (s : State) : (checkCrc s).queue = s.queue := rfl
@[simp] theorem checkCrc_roster (s : State) : (checkCrc s).roster = s.roster := rfl
@[simp] theorem checkCrc_hs (s : State) : (checkCrc s).hs = s.hs := rfl
@[simp] theorem checkCrc_sl (s : State) : (checkCrc s).sl = s.sl := rfl
@[simp] theorem checkCrc_halted (s : State) : (checkCrc s).halted = s.halted := rfl
@[simp] theorem checkCrc_inputs (s : State) : (checkCrc s).inputs = s.inputs := rfl
@[simp] theorem checkCrc_txOut (s : State) : (checkCrc s).txOut = s.txOut := rfl
@[simp] theorem checkCrc_result (s : State) : (checkCrc s).result = s.result := rfl
@[simp] theorem isMaster_checkCrc (s : State) : isMaster (checkCrc s) = isMaster s := rfl
@[simp] theorem own_checkCrc (s : State) : own (checkCrc s) = own s := rfl
@[simp] theorem slotAt_checkCrc (s : State) (j : Nat) : slotAt (checkCrc s) j = slotAt s j := rfl
@[simp] theorem qcount_checkCrc (s : State) : qcount (checkCrc s) = qcount s := rfl

/-! ### markReceived -/

@[simp] theorem markReceived_params (s : State) : (markReceived s).params = s.params := rfl
@[simp] theorem markReceived_fe (s : State) : (markReceived s).fe = s.fe := rfl
@[simp] theorem markReceived_ownAddr (s : State) : (markReceived s).ownAddr = s.ownAddr := rfl
@[simp] theorem markReceived_lastAddr (s : State) : (markReceived s).lastAddr = s.lastAddr := rfl
@[simp] theorem markReceived_rw (s : State) : (markReceived s).rw = { s.rw with state := .received } := rfl
@[simp] theorem markReceived_app (s : State) : (markReceived s).app = s.app := rfl
@[simp] theorem markReceived_queue (s : State) : (markReceived s).queue = s.queue := rfl
@[simp] theorem markReceived_roster (s : State) : (markReceived s).roster = s.roster := rfl
@[simp] theorem markReceived_hs (s : State) : (markReceived s).hs = s.hs := rfl
@[simp] theorem markReceived_sl (s : State) : (markReceived s).sl = s.sl := rfl
@[simp] theorem markReceived_halted (s : State) : (markReceived s).halted = s.halted := rfl
@[simp] theorem markReceived_inputs (s : State) : (markReceived s).inputs = s.inputs := rfl
@[simp] theorem markReceived_txOut (s : State) : (markReceived s).txOut = s.txOut := rfl
@[simp] theorem markReceived_result (s : State) : (markReceived s).result = s.result := rfl
@[simp] theorem isMaster_markReceived (s : State) : isMaster (markReceived s) = isMaster s := rfl
@[simp] theorem own_markReceived (s : State) : own (markReceived s) = own s := rfl
@[simp] theorem slotAt_markReceived (s : State) (j : Nat) : slotAt (markReceived s) j = slotAt s j := rfl
@[simp] theorem qcount_markReceived (s : State) : qcount (markReceived s) = qcount s := rfl

/-! ### arm -/

@[simp] theorem arm_params (kind : WaitKind) (d : Nibble) (s : State) : (arm kind d s).params = s.params := rfl
@[simp] theorem arm_fe (kind : WaitKind) (d : Nibble) (s : State) : (arm kind d s).fe = s.fe := rfl
@[simp] theorem arm_ownAddr (kind : WaitKind) (d : Nibble) (s : State) : (arm kind d s).ownAddr = s.ownAddr := rfl
@[simp] theorem arm_lastAddr (kind : WaitKind) (d : Nibble) (s : State) : (arm kind d s).lastAddr = s.lastAddr := rfl
@[simp] theorem arm_rw (kind : WaitKind) (d : Nibble) (s : State) :
    (arm kind d s).rw =
      ⟨.pending, d, kind, 0#16⟩ := rfl
@[simp] theorem arm_app (kind : WaitKind) (d : Nibble) (s : State) : (arm kind d s).app = s.app := rfl
@[simp] theorem arm_queue (kind : WaitKind) (d : Nibble) (s : State) : (arm kind d s).queue = s.queue := rfl
@[simp] theorem arm_roster (kind : WaitKind) (d : Nibble) (s : State) : (arm kind d s).roster = s.roster := rfl
@[simp] theorem arm_hs (kind : WaitKind) (d : Nibble) (s : State) : (arm kind d s).hs = s.hs := rfl
@[simp] theorem arm_sl (kind : WaitKind) (d : Nibble) (s : State) : (arm kind d s).sl = s.sl := rfl
@[simp] theorem arm_halted (kind : WaitKind) (d : Nibble) (s : State) : (arm kind d s).halted = s.halted := rfl
@[simp] theorem arm_inputs (kind : WaitKind) (d : Nibble) (s : State) : (arm kind d s).inputs = s.inputs := rfl
@[simp] theorem arm_txOut (kind : WaitKind) (d : Nibble) (s : State) : (arm kind d s).txOut = s.txOut := rfl
@[simp] theorem arm_result (kind : WaitKind) (d : Nibble) (s : State) : (arm kind d s).result = s.result := rfl
@[simp] theorem isMaster_arm (kind : WaitKind) (d : Nibble) (s : State) : isMaster (arm kind d s) = isMaster s := rfl
@[simp] theorem own_arm (kind : WaitKind) (d : Nibble) (s : State) : own (arm kind d s) = own s := rfl
@[simp] theorem slotAt_arm (kind : WaitKind) (d : Nibble) (s : State) (j : Nat) :
    slotAt (arm kind d s) j = slotAt s j := rfl
@[simp] theorem qcount_arm (kind : WaitKind) (d : Nibble) (s : State) : qcount (arm kind d s) = qcount s := rfl

/-! ### transmit -/

@[simp] theorem transmit_params (d : Nibble) (mode : Bool) (p : List Byte) (s : State) :
    (transmit d mode p s).params =
      s.params := rfl
@[simp] theorem transmit_fe (d : Nibble) (mode : Bool) (p : List Byte) (s : State) :
    (transmit d mode p s).fe =
      { s.fe with rxEn := false } := rfl
@[simp] theorem transmit_ownAddr (d : Nibble) (mode : Bool) (p : List Byte) (s : State) :
    (transmit d mode p s).ownAddr =
      s.ownAddr := rfl
@[simp] theorem transmit_lastAddr (d : Nibble) (mode : Bool) (p : List Byte) (s : State) :
    (transmit d mode p s).lastAddr =
      s.lastAddr := rfl
@[simp] theorem transmit_rw (d : Nibble) (mode : Bool) (p : List Byte) (s : State) :
    (transmit d mode p s).rw =
      s.rw := rfl
@[simp] theorem transmit_app (d : Nibble) (mode : Bool) (p : List Byte) (s : State) :
    (transmit d mode p s).app =
      s.app := rfl
@[simp] theorem transmit_queue (d : Nibble) (mode : Bool) (p : List Byte) (s : State) :
    (transmit d mode p s).queue =
      s.queue := rfl
@[simp] theorem transmit_roster (d : Nibble) (mode : Bool) (p : List Byte) (s : State) :
    (transmit d mode p s).roster =
      s.roster := rfl
@[simp] theorem transmit_hs (d : Nibble) (mode : Bool) (p : List Byte) (s : State) :
    (transmit d mode p s).hs =
      s.hs := rfl
@[simp] theorem transmit_sl (d : Nibble) (mode : Bool) (p : List Byte) (s : State) :
    (transmit d mode p s).sl =
      s.sl := rfl
@[simp] theorem transmit_halted (d : Nibble) (mode : Bool) (p : List Byte) (s : State) :
    (transmit d mode p s).halted =
      s.halted := rfl
@[simp] theorem transmit_inputs (d : Nibble) (mode : Bool) (p : List Byte) (s : State) :
    (transmit d mode p s).inputs =
      s.inputs := rfl
@[simp] theorem transmit_txOut (d : Nibble) (mode : Bool) (p : List Byte) (s : State) :
    (transmit d mode p s).txOut =
      s.txOut ++ (if isMaster s then frameSymbols (own s) d mode p
        else .txen true :: frameSymbols (own s) d mode p ++ [.txen false]) := rfl
@[simp] theorem transmit_result (d : Nibble) (mode : Bool) (p : List Byte) (s : State) :
    (transmit d mode p s).result =
      s.result := rfl
@[simp] theorem isMaster_transmit (d : Nibble) (mode : Bool) (p : List Byte) (s : State) :
    isMaster (transmit d mode p s) = isMaster s := rfl
@[simp] theorem own_transmit (d : Nibble) (mode : Bool) (p : List Byte) (s : State) :
    own (transmit d mode p s) = own s := rfl
@[simp] theorem slotAt_transmit (d : Nibble) (mode : Bool) (p : List Byte) (s : State) (j : Nat) :
    slotAt (transmit d mode p s) j = slotAt s j := rfl
@[simp] theorem qcount_transmit (d : Nibble) (mode : Bool) (p : List Byte) (s : State) :
    qcount (transmit d mode p s) = qcount s := rfl

/-! ### setHs -/

@[simp] theorem setHs_params (st : HsState) (s : State) : (setHs st s).params = s.params := rfl
@[simp] theorem setHs_fe (st : HsState) (s : State) : (setHs st s).fe = s.fe := rfl
@[simp] theorem setHs_ownAddr (st : HsState) (s : State) : (setHs st s).ownAddr = s.ownAddr := rfl
@[simp] theorem setHs_lastAddr (st : HsState) (s : State) : (setHs st s).lastAddr = s.lastAddr := rfl
@[simp] theorem setHs_rw (st : HsState) (s : State) : (setHs st s).rw = s.rw := rfl
@[simp] theorem setHs_app (st : HsState) (s : State) : (setHs st s).app = s.app := rfl
@[simp] theorem setHs_queue (st : HsState) (s : State) : (setHs st s).queue = s.queue := rfl
@[simp] theorem setHs_roster (st : HsState) (s : State) : (setHs st s).roster = s.roster := rfl
@[simp] theorem setHs_hs (st : HsState) (s : State) : (setHs st s).hs = { s.hs with state := st } := rfl
@[simp] theorem setHs_sl (st : HsState) (s : State) : (setHs st s).sl = s.sl := rfl
@[simp] theorem setHs_halted (st : HsState) (s : State) : (setHs st s).halted = s.halted := rfl
@[simp] theorem setHs_inputs (st : HsState) (s : State) : (setHs st s).inputs = s.inputs := rfl
@[simp] theorem setHs_txOut (st : HsState) (s : State) : (setHs st s).txOut = s.txOut := rfl
@[simp] theorem setHs_result (st : HsState) (s : State) : (setHs st s).result = s.result := rfl
@[simp] theorem isMaster_setHs (st : HsState) (s : State) : isMaster (setHs st s) = isMaster s := rfl
@[simp] theorem own_setHs (st : HsState) (s : State) : own (setHs st s) = own s := rfl
@[simp] theorem slotAt_setHs (st : HsState) (s : State) (j : Nat) : slotAt (setHs st s) j = slotAt s j := rfl
@[simp] theorem qcount_setHs (st : HsState) (s : State) : qcount (setHs st s) = qcount s := rfl

/-! ### latchUid -/

@[simp] theorem latchUid_params (uid : List Byte) (s : State) : (latchUid uid s).params = s.params := rfl
@[simp] theorem latchUid_fe (uid : List Byte) (s : State) : (latchUid uid s).fe = s.fe := rfl
@[simp] theorem latchUid_ownAddr (uid : List Byte) (s : State) : (latchUid uid s).ownAddr = s.ownAddr := rfl
@[simp] theorem latchUid_lastAddr (uid : List Byte) (s : State) : (latchUid uid s).lastAddr = s.lastAddr := rfl
@[simp] theorem latchUid_rw (uid : List Byte) (s : State) : (latchUid uid s).rw = s.rw := rfl
@[simp] theorem latchUid_app (uid : List Byte) (s : State) : (latchUid uid s).app = s.app := rfl
@[simp] theorem latchUid_queue (uid : List Byte) (s : State) : (latchUid uid s).queue = s.queue := rfl
@[simp] theorem latchUid_roster (uid : List Byte) (s : State) : (latchUid uid s).roster = s.roster := rfl
@[simp] theorem latchUid_hs (uid : List Byte) (s : State) :
    (latchUid uid s).hs =
      { s.hs with uidLen := BitVec.ofNat 4 uid.length, uid := s.hs.uid.writeFrom 0 uid } := rfl
@[simp] theorem latchUid_sl (uid : List Byte) (s : State) : (latchUid uid s).sl = s.sl := rfl
@[simp] theorem latchUid_halted (uid : List Byte) (s : State) : (latchUid uid s).halted = s.halted := rfl
@[simp] theorem latchUid_inputs (uid : List Byte) (s : State) : (latchUid uid s).inputs = s.inputs := rfl
@[simp] theorem latchUid_txOut (uid : List Byte) (s : State) : (latchUid uid s).txOut = s.txOut := rfl
@[simp] theorem latchUid_result (uid : List Byte) (s : State) : (latchUid uid s).result = s.result := rfl
@[simp] theorem isMaster_latchUid (uid : List Byte) (s : State) : isMaster (latchUid uid s) = isMaster s := rfl
@[simp] theorem own_latchUid (uid : List Byte) (s : State) : own (latchUid uid s) = own s := rfl
@[simp] theorem slotAt_latchUid (uid : List Byte) (s : State) (j : Nat) :
    slotAt (latchUid uid s) j = slotAt s j := rfl
@[simp] theorem qcount_latchUid (uid : List Byte) (s : State) : qcount (latchUid uid s) = qcount s := rfl

/-! ### modifySlot -/

@[simp] theorem modifySlot_params (k : Nat) (f : Slot → Slot) (s : State) :
    (modifySlot k f s).params =
      s.params := rfl
@[simp] theorem modifySlot_fe (k : Nat) (f : Slot → Slot) (s : State) : (modifySlot k f s).fe = s.fe := rfl
@[simp] theorem modifySlot_ownAddr (k : Nat) (f : Slot → Slot) (s : State) :
    (modifySlot k f s).ownAddr =
      s.ownAddr := rfl
@[simp] theorem modifySlot_lastAddr (k : Nat) (f : Slot → Slot) (s : State) :
    (modifySlot k f s).lastAddr =
      s.lastAddr := rfl
@[simp] theorem modifySlot_rw (k : Nat) (f : Slot → Slot) (s : State) : (modifySlot k f s).rw = s.rw := rfl
@[simp] theorem modifySlot_app (k : Nat) (f : Slot → Slot) (s : State) : (modifySlot k f s).app = s.app := rfl
@[simp] theorem modifySlot_queue (k : Nat) (f : Slot → Slot) (s : State) : (modifySlot k f s).queue = s.queue := rfl
@[simp] theorem modifySlot_roster (k : Nat) (f : Slot → Slot) (s : State) :
    (modifySlot k f s).roster =
      { s.roster with slots := s.roster.slots.modify k f } := rfl
@[simp] theorem modifySlot_hs (k : Nat) (f : Slot → Slot) (s : State) : (modifySlot k f s).hs = s.hs := rfl
@[simp] theorem modifySlot_sl (k : Nat) (f : Slot → Slot) (s : State) : (modifySlot k f s).sl = s.sl := rfl
@[simp] theorem modifySlot_halted (k : Nat) (f : Slot → Slot) (s : State) :
    (modifySlot k f s).halted =
      s.halted := rfl
@[simp] theorem modifySlot_inputs (k : Nat) (f : Slot → Slot) (s : State) :
    (modifySlot k f s).inputs =
      s.inputs := rfl
@[simp] theorem modifySlot_txOut (k : Nat) (f : Slot → Slot) (s : State) : (modifySlot k f s).txOut = s.txOut := rfl
@[simp] theorem modifySlot_result (k : Nat) (f : Slot → Slot) (s : State) :
    (modifySlot k f s).result =
      s.result := rfl
@[simp] theorem isMaster_modifySlot (k : Nat) (f : Slot → Slot) (s : State) :
    isMaster (modifySlot k f s) = isMaster s := rfl
@[simp] theorem own_modifySlot (k : Nat) (f : Slot → Slot) (s : State) : own (modifySlot k f s) = own s := rfl
@[simp] theorem qcount_modifySlot (k : Nat) (f : Slot → Slot) (s : State) :
    qcount (modifySlot k f s) = qcount s := rfl

/-! ### evict -/

@[simp] theorem evict_params (k : Nat) (s : State) : (evict k s).params = s.params := rfl
@[simp] theorem evict_fe (k : Nat) (s : State) : (evict k s).fe = s.fe := rfl
@[simp] theorem evict_ownAddr (k : Nat) (s : State) : (evict k s).ownAddr = s.ownAddr := rfl
@[simp] theorem evict_lastAddr (k : Nat) (s : State) : (evict k s).lastAddr = s.lastAddr := rfl
@[simp] theorem evict_rw (k : Nat) (s : State) : (evict k s).rw = s.rw := rfl
@[simp] theorem evict_app (k : Nat) (s : State) : (evict k s).app = s.app := rfl
@[simp] theorem evict_queue (k : Nat) (s : State) : (evict k s).queue = s.queue := rfl
@[simp] theorem evict_roster (k : Nat) (s : State) :
    (evict k s).roster =
      { s.roster with slots := s.roster.slots.modify k (fun _ => Slot.blank) } := rfl
@[simp] theorem evict_hs (k : Nat) (s : State) : (evict k s).hs = s.hs := rfl
@[simp] theorem evict_sl (k : Nat) (s : State) : (evict k s).sl = s.sl := rfl
@[simp] theorem evict_halted (k : Nat) (s : State) : (evict k s).halted = s.halted := rfl
@[simp] theorem evict_inputs (k : Nat) (s : State) : (evict k s).inputs = s.inputs := rfl
@[simp] theorem evict_txOut (k : Nat) (s : State) : (evict k s).txOut = s.txOut := rfl
@[simp] theorem evict_result (k : Nat) (s : State) : (evict k s).result = s.result := rfl
@[simp] theorem isMaster_evict (k : Nat) (s : State) : isMaster (evict k s) = isMaster s := rfl
@[simp] theorem own_evict (k : Nat) (s : State) : own (evict k s) = own s := rfl
@[simp] theorem qcount_evict (k : Nat) (s : State) : qcount (evict k s) = qcount s := rfl

/-! ### modifySlave -/

@[simp] theorem modifySlave_params (f : SlaveCtl → SlaveCtl) (s : State) : (modifySlave f s).params = s.params := rfl
@[simp] theorem modifySlave_fe (f : SlaveCtl → SlaveCtl) (s : State) : (modifySlave f s).fe = s.fe := rfl
@[simp] theorem modifySlave_ownAddr (f : SlaveCtl → SlaveCtl) (s : State) :
    (modifySlave f s).ownAddr =
      s.ownAddr := rfl
@[simp] theorem modifySlave_lastAddr (f : SlaveCtl → SlaveCtl) (s : State) :
    (modifySlave f s).lastAddr =
      s.lastAddr := rfl
@[simp] theorem modifySlave_rw (f : SlaveCtl → SlaveCtl) (s : State) : (modifySlave f s).rw = s.rw := rfl
@[simp] theorem modifySlave_app (f : SlaveCtl → SlaveCtl) (s : State) : (modifySlave f s).app = s.app := rfl
@[simp] theorem modifySlave_queue (f : SlaveCtl → SlaveCtl) (s : State) : (modifySlave f s).queue = s.queue := rfl
@[simp] theorem modifySlave_roster (f : SlaveCtl → SlaveCtl) (s : State) : (modifySlave f s).roster = s.roster := rfl
@[simp] theorem modifySlave_hs (f : SlaveCtl → SlaveCtl) (s : State) : (modifySlave f s).hs = s.hs := rfl
@[simp] theorem modifySlave_sl (f : SlaveCtl → SlaveCtl) (s : State) : (modifySlave f s).sl = f s.sl := rfl
@[simp] theorem modifySlave_halted (f : SlaveCtl → SlaveCtl) (s : State) : (modifySlave f s).halted = s.halted := rfl
@[simp] theorem modifySlave_inputs (f : SlaveCtl → SlaveCtl) (s : State) : (modifySlave f s).inputs = s.inputs := rfl
@[simp] theorem modifySlave_txOut (f : SlaveCtl → SlaveCtl) (s : State) : (modifySlave f s).txOut = s.txOut := rfl
@[simp] theorem modifySlave_result (f : SlaveCtl → SlaveCtl) (s : State) : (modifySlave f s).result = s.result := rfl
@[simp] theorem isMaster_modifySlave (f : SlaveCtl → SlaveCtl) (s : State) :
    isMaster (modifySlave f s) = isMaster s := rfl
@[simp] theorem own_modifySlave (f : SlaveCtl → SlaveCtl) (s : State) : own (modifySlave f s) = own s := rfl
@[simp] theorem slotAt_modifySlave (f : SlaveCtl → SlaveCtl) (s : State) (j : Nat) :
    slotAt (modifySlave f s) j = slotAt s j := rfl
@[simp] theorem qcount_modifySlave (f : SlaveCtl → SlaveCtl) (s : State) : qcount (modifySlave f s) = qcount s := rfl

/-! ### latchHeader -/

@[simp] theorem latchHeader_params (s : State) : (latchHeader s).params = s.params := rfl
@[simp] theorem latchHeader_fe (s : State) :
    (latchHeader s).fe =
      { s.fe with
      fstate := .processing, fSrc := addrSrc (s.fe.rxBuf.read 0), fDst := addrDst (s.fe.rxBuf.read 0),
      fMode := metaMode (s.fe.rxBuf.read 1), fLen := metaLen (s.fe.rxBuf.read 1),
      crcAcc := crcFold 0xFFFF#16 [s.fe.rxBuf.read 0, s.fe.rxBuf.read 1], rdIdx := 0#7, crcSt := .pending } := rfl
@[simp] theorem latchHeader_ownAddr (s : State) : (latchHeader s).ownAddr = s.ownAddr := rfl
@[simp] theorem latchHeader_lastAddr (s : State) : (latchHeader s).lastAddr = s.lastAddr := rfl
@[simp] theorem latchHeader_rw (s : State) : (latchHeader s).rw = s.rw := rfl
@[simp] theorem latchHeader_app (s : State) : (latchHeader s).app = s.app := rfl
@[simp] theorem latchHeader_queue (s : State) : (latchHeader s).queue = s.queue := rfl
@[simp] theorem latchHeader_roster (s : State) : (latchHeader s).roster = s.roster := rfl
@[simp] theorem latchHeader_hs (s : State) : (latchHeader s).hs = s.hs := rfl
@[simp] theorem latchHeader_sl (s : State) : (latchHeader s).sl = s.sl := rfl
@[simp] theorem latchHeader_halted (s : State) : (latchHeader s).halted = s.halted := rfl
@[simp] theorem latchHeader_inputs (s : State) : (latchHeader s).inputs = s.inputs := rfl
@[simp] theorem latchHeader_txOut (s : State) : (latchHeader s).txOut = s.txOut := rfl
@[simp] theorem latchHeader_result (s : State) : (latchHeader s).result = s.result := rfl
@[simp] theorem isMaster_latchHeader (s : State) : isMaster (latchHeader s) = isMaster s := rfl
@[simp] theorem own_latchHeader (s : State) : own (latchHeader s) = own s := rfl
@[simp] theorem slotAt_latchHeader (s : State) (j : Nat) : slotAt (latchHeader s) j = slotAt s j := rfl
@[simp] theorem qcount_latchHeader (s : State) : qcount (latchHeader s) = qcount s := rfl

/-! ### dropForeign -/

@[simp] theorem dropForeign_params (s : State) : (dropForeign s).params = s.params := rfl
@[simp] theorem dropForeign_fe (s : State) :
    (dropForeign s).fe =
      { s.fe with crcSt := .none, fstate := .idle, rxActive := false, rxCnt := 0#8, rxEn := true, busyCnt := 0#16 } :=
          rfl
@[simp] theorem dropForeign_ownAddr (s : State) : (dropForeign s).ownAddr = s.ownAddr := rfl
@[simp] theorem dropForeign_lastAddr (s : State) : (dropForeign s).lastAddr = s.lastAddr := rfl
@[simp] theorem dropForeign_rw (s : State) : (dropForeign s).rw = s.rw := rfl
@[simp] theorem dropForeign_app (s : State) : (dropForeign s).app = s.app := rfl
@[simp] theorem dropForeign_queue (s : State) : (dropForeign s).queue = s.queue := rfl
@[simp] theorem dropForeign_roster (s : State) : (dropForeign s).roster = s.roster := rfl
@[simp] theorem dropForeign_hs (s : State) : (dropForeign s).hs = s.hs := rfl
@[simp] theorem dropForeign_sl (s : State) : (dropForeign s).sl = s.sl := rfl
@[simp] theorem dropForeign_halted (s : State) : (dropForeign s).halted = s.halted := rfl
@[simp] theorem dropForeign_inputs (s : State) : (dropForeign s).inputs = s.inputs := rfl
@[simp] theorem dropForeign_txOut (s : State) : (dropForeign s).txOut = s.txOut := rfl
@[simp] theorem dropForeign_result (s : State) : (dropForeign s).result = s.result := rfl
@[simp] theorem isMaster_dropForeign (s : State) : isMaster (dropForeign s) = isMaster s := rfl
@[simp] theorem own_dropForeign (s : State) : own (dropForeign s) = own s := rfl
@[simp] theorem slotAt_dropForeign (s : State) (j : Nat) : slotAt (dropForeign s) j = slotAt s j := rfl
@[simp] theorem qcount_dropForeign (s : State) : qcount (dropForeign s) = qcount s := rfl

/-! ### noteSender -/

@[simp] theorem noteSender_params (s : State) : (noteSender s).params = s.params := rfl
@[simp] theorem noteSender_fe (s : State) : (noteSender s).fe = s.fe := rfl
@[simp] theorem noteSender_ownAddr (s : State) : (noteSender s).ownAddr = s.ownAddr := rfl
@[simp] theorem noteSender_lastAddr (s : State) : (noteSender s).lastAddr = s.fe.fSrc := rfl
@[simp] theorem noteSender_rw (s : State) : (noteSender s).rw = s.rw := rfl
@[simp] theorem noteSender_app (s : State) : (noteSender s).app = s.app := rfl
@[simp] theorem noteSender_queue (s : State) : (noteSender s).queue = s.queue := rfl
@[simp] theorem noteSender_roster (s : State) : (noteSender s).roster = s.roster := rfl
@[simp] theorem noteSender_hs (s : State) : (noteSender s).hs = s.hs := rfl
@[simp] theorem noteSender_sl (s : State) : (noteSender s).sl = s.sl := rfl
@[simp] theorem noteSender_halted (s : State) : (noteSender s).halted = s.halted := rfl
@[simp] theorem noteSender_inputs (s : State) : (noteSender s).inputs = s.inputs := rfl
@[simp] theorem noteSender_txOut (s : State) : (noteSender s).txOut = s.txOut := rfl
@[simp] theorem noteSender_result (s : State) : (noteSender s).result = s.result := rfl
@[simp] theorem isMaster_noteSender (s : State) : isMaster (noteSender s) = isMaster s := rfl
@[simp] theorem own_noteSender (s : State) : own (noteSender s) = own s := rfl
@[simp] theorem slotAt_noteSender (s : State) (j : Nat) : slotAt (noteSender s) j = slotAt s j := rfl
@[simp] theorem qcount_noteSender (s : State) : qcount (noteSender s) = qcount s := rfl

/-! ### startFrame -/

@[simp] theorem startFrame_params (b : Byte) (s : State) : (startFrame b s).params = s.params := rfl
@[simp] theorem startFrame_fe (b : Byte) (s : State) :
    (startFrame b s).fe =
      { s.fe with rxBuf := s.fe.rxBuf.write 0 b, rxCnt := 1#8, rxActive := true, busyCnt := 0#16 } := rfl
@[simp] theorem startFrame_ownAddr (b : Byte) (s : State) : (startFrame b s).ownAddr = s.ownAddr := rfl
@[simp] theorem startFrame_lastAddr (b : Byte) (s : State) : (startFrame b s).lastAddr = s.lastAddr := rfl
@[simp] theorem startFrame_rw (b : Byte) (s : State) : (startFrame b s).rw = s.rw := rfl
@[simp] theorem startFrame_app (b : Byte) (s : State) : (startFrame b s).app = s.app := rfl
@[simp] theorem startFrame_queue (b : Byte) (s : State) : (startFrame b s).queue = s.queue := rfl
@[simp] theorem startFrame_roster (b : Byte) (s : State) : (startFrame b s).roster = s.roster := rfl
@[simp] theorem startFrame_hs (b : Byte) (s : State) : (startFrame b s).hs = s.hs := rfl
@[simp] theorem startFrame_sl (b : Byte) (s : State) : (startFrame b s).sl = s.sl := rfl
@[simp] theorem startFrame_halted (b : Byte) (s : State) : (startFrame b s).halted = s.halted := rfl
@[simp] theorem startFrame_inputs (b : Byte) (s : State) : (startFrame b s).inputs = s.inputs := rfl
@[simp] theorem startFrame_txOut (b : Byte) (s : State) : (startFrame b s).txOut = s.txOut := rfl
@[simp] theorem startFrame_result (b : Byte) (s : State) : (startFrame b s).result = s.result := rfl
@[simp] theorem isMaster_startFrame (b : Byte) (s : State) : isMaster (startFrame b s) = isMaster s := rfl
@[simp] theorem own_startFrame (b : Byte) (s : State) : own (startFrame b s) = own s := rfl
@[simp] theorem slotAt_startFrame (b : Byte) (s : State) (j : Nat) : slotAt (startFrame b s) j = slotAt s j := rfl
@[simp] theorem qcount_startFrame (b : Byte) (s : State) : qcount (startFrame b s) = qcount s := rfl

/-! ### beginEvent -/

@[simp] theorem beginEvent_params (rest : List Event) (s : State) : (beginEvent rest s).params = s.params := rfl
@[simp] theorem beginEvent_fe (rest : List Event) (s : State) : (beginEvent rest s).fe = s.fe := rfl
@[simp] theorem beginEvent_ownAddr (rest : List Event) (s : State) : (beginEvent rest s).ownAddr = s.ownAddr := rfl
@[simp] theorem beginEvent_lastAddr (rest : List Event) (s : State) : (beginEvent rest s).lastAddr = s.lastAddr := rfl
@[simp] theorem beginEvent_rw (rest : List Event) (s : State) : (beginEvent rest s).rw = s.rw := rfl
@[simp] theorem beginEvent_app (rest : List Event) (s : State) : (beginEvent rest s).app = s.app := rfl
@[simp] theorem beginEvent_queue (rest : List Event) (s : State) : (beginEvent rest s).queue = s.queue := rfl
@[simp] theorem beginEvent_roster (rest : List Event) (s : State) : (beginEvent rest s).roster = s.roster := rfl
@[simp] theorem beginEvent_hs (rest : List Event) (s : State) : (beginEvent rest s).hs = s.hs := rfl
@[simp] theorem beginEvent_sl (rest : List Event) (s : State) : (beginEvent rest s).sl = s.sl := rfl
@[simp] theorem beginEvent_halted (rest : List Event) (s : State) : (beginEvent rest s).halted = s.halted := rfl
@[simp] theorem beginEvent_inputs (rest : List Event) (s : State) : (beginEvent rest s).inputs = rest := rfl
@[simp] theorem beginEvent_txOut (rest : List Event) (s : State) : (beginEvent rest s).txOut = [] := rfl
@[simp] theorem beginEvent_result (rest : List Event) (s : State) : (beginEvent rest s).result = none := rfl
@[simp] theorem isMaster_beginEvent (rest : List Event) (s : State) : isMaster (beginEvent rest s) = isMaster s := rfl
@[simp] theorem own_beginEvent (rest : List Event) (s : State) : own (beginEvent rest s) = own s := rfl
@[simp] theorem slotAt_beginEvent (rest : List Event) (s : State) (j : Nat) :
    slotAt (beginEvent rest s) j = slotAt s j := rfl
@[simp] theorem qcount_beginEvent (rest : List Event) (s : State) : qcount (beginEvent rest s) = qcount s := rfl

end Sys2Proof.Machine
end

