-- ==== Sys2Proof/Laws/Frames.lean ====
section
/-! SUPPORT. What each procedure leaves alone: one lemma per untouched field. -/

namespace Sys2Proof.Machine

/-! ### drain -/

@[simp] theorem drain_params (s : State) :
    (drain s).params = s.params := by unfold drain; (try dsimp only); (repeat' split) <;> simp
@[simp] theorem drain_ownAddr (s : State) :
    (drain s).ownAddr = s.ownAddr := by unfold drain; (try dsimp only); (repeat' split) <;> simp
@[simp] theorem drain_lastAddr (s : State) :
    (drain s).lastAddr = s.lastAddr := by unfold drain; (try dsimp only); (repeat' split) <;> simp
@[simp] theorem drain_app (s : State) :
    (drain s).app = s.app := by unfold drain; (try dsimp only); (repeat' split) <;> simp
@[simp] theorem drain_queue (s : State) :
    (drain s).queue = s.queue := by unfold drain; (try dsimp only); (repeat' split) <;> simp
@[simp] theorem drain_roster (s : State) :
    (drain s).roster = s.roster := by unfold drain; (try dsimp only); (repeat' split) <;> simp
@[simp] theorem drain_hs (s : State) :
    (drain s).hs = s.hs := by unfold drain; (try dsimp only); (repeat' split) <;> simp
@[simp] theorem drain_sl (s : State) :
    (drain s).sl = s.sl := by unfold drain; (try dsimp only); (repeat' split) <;> simp
@[simp] theorem drain_halted (s : State) :
    (drain s).halted = s.halted := by unfold drain; (try dsimp only); (repeat' split) <;> simp
@[simp] theorem drain_inputs (s : State) :
    (drain s).inputs = s.inputs := by unfold drain; (try dsimp only); (repeat' split) <;> simp
@[simp] theorem drain_txOut (s : State) :
    (drain s).txOut = s.txOut := by unfold drain; (try dsimp only); (repeat' split) <;> simp
@[simp] theorem drain_result (s : State) :
    (drain s).result = s.result := by unfold drain; (try dsimp only); (repeat' split) <;> simp

/-! ### release -/

@[simp] theorem release_params (s : State) :
    (release s).params = s.params := by unfold release; (repeat' split) <;> simp
@[simp] theorem release_ownAddr (s : State) :
    (release s).ownAddr = s.ownAddr := by unfold release; (repeat' split) <;> simp
@[simp] theorem release_lastAddr (s : State) :
    (release s).lastAddr = s.lastAddr := by unfold release; (repeat' split) <;> simp
@[simp] theorem release_app (s : State) :
    (release s).app = s.app := by unfold release; (repeat' split) <;> simp
@[simp] theorem release_queue (s : State) :
    (release s).queue = s.queue := by unfold release; (repeat' split) <;> simp
@[simp] theorem release_roster (s : State) :
    (release s).roster = s.roster := by unfold release; (repeat' split) <;> simp
@[simp] theorem release_hs (s : State) :
    (release s).hs = s.hs := by unfold release; (repeat' split) <;> simp
@[simp] theorem release_sl (s : State) :
    (release s).sl = s.sl := by unfold release; (repeat' split) <;> simp
@[simp] theorem release_halted (s : State) :
    (release s).halted = s.halted := by unfold release; (repeat' split) <;> simp
@[simp] theorem release_inputs (s : State) :
    (release s).inputs = s.inputs := by unfold release; (repeat' split) <;> simp
@[simp] theorem release_txOut (s : State) :
    (release s).txOut = s.txOut := by unfold release; (repeat' split) <;> simp
@[simp] theorem release_result (s : State) :
    (release s).result = s.result := by unfold release; (repeat' split) <;> simp

/-! ### finish -/

@[simp] theorem finish_params (s : State) :
    ((finish s).1).params = s.params := by unfold finish; (try dsimp only); (repeat' split) <;> simp
@[simp] theorem finish_ownAddr (s : State) :
    ((finish s).1).ownAddr = s.ownAddr := by unfold finish; (try dsimp only); (repeat' split) <;> simp
@[simp] theorem finish_lastAddr (s : State) :
    ((finish s).1).lastAddr = s.lastAddr := by unfold finish; (try dsimp only); (repeat' split) <;> simp
@[simp] theorem finish_app (s : State) :
    ((finish s).1).app = s.app := by unfold finish; (try dsimp only); (repeat' split) <;> simp
@[simp] theorem finish_queue (s : State) :
    ((finish s).1).queue = s.queue := by unfold finish; (try dsimp only); (repeat' split) <;> simp
@[simp] theorem finish_roster (s : State) :
    ((finish s).1).roster = s.roster := by unfold finish; (try dsimp only); (repeat' split) <;> simp
@[simp] theorem finish_hs (s : State) :
    ((finish s).1).hs = s.hs := by unfold finish; (try dsimp only); (repeat' split) <;> simp
@[simp] theorem finish_sl (s : State) :
    ((finish s).1).sl = s.sl := by unfold finish; (try dsimp only); (repeat' split) <;> simp
@[simp] theorem finish_halted (s : State) :
    ((finish s).1).halted = s.halted := by unfold finish; (try dsimp only); (repeat' split) <;> simp
@[simp] theorem finish_inputs (s : State) :
    ((finish s).1).inputs = s.inputs := by unfold finish; (try dsimp only); (repeat' split) <;> simp
@[simp] theorem finish_txOut (s : State) :
    ((finish s).1).txOut = s.txOut := by unfold finish; (try dsimp only); (repeat' split) <;> simp
@[simp] theorem finish_result (s : State) :
    ((finish s).1).result = s.result := by unfold finish; (try dsimp only); (repeat' split) <;> simp

/-! ### endHeld -/

@[simp] theorem endHeld_params (s : State) :
    (endHeld s).params = s.params := by unfold endHeld; (repeat' split) <;> simp
@[simp] theorem endHeld_ownAddr (s : State) :
    (endHeld s).ownAddr = s.ownAddr := by unfold endHeld; (repeat' split) <;> simp
@[simp] theorem endHeld_lastAddr (s : State) :
    (endHeld s).lastAddr = s.lastAddr := by unfold endHeld; (repeat' split) <;> simp
@[simp] theorem endHeld_app (s : State) :
    (endHeld s).app = s.app := by unfold endHeld; (repeat' split) <;> simp
@[simp] theorem endHeld_queue (s : State) :
    (endHeld s).queue = s.queue := by unfold endHeld; (repeat' split) <;> simp
@[simp] theorem endHeld_roster (s : State) :
    (endHeld s).roster = s.roster := by unfold endHeld; (repeat' split) <;> simp
@[simp] theorem endHeld_hs (s : State) :
    (endHeld s).hs = s.hs := by unfold endHeld; (repeat' split) <;> simp
@[simp] theorem endHeld_sl (s : State) :
    (endHeld s).sl = s.sl := by unfold endHeld; (repeat' split) <;> simp
@[simp] theorem endHeld_halted (s : State) :
    (endHeld s).halted = s.halted := by unfold endHeld; (repeat' split) <;> simp
@[simp] theorem endHeld_inputs (s : State) :
    (endHeld s).inputs = s.inputs := by unfold endHeld; (repeat' split) <;> simp
@[simp] theorem endHeld_txOut (s : State) :
    (endHeld s).txOut = s.txOut := by unfold endHeld; (repeat' split) <;> simp
@[simp] theorem endHeld_result (s : State) :
    (endHeld s).result = s.result := by unfold endHeld; (repeat' split) <;> simp

/-! ### sendFrame -/

@[simp] theorem sendFrame_params (dst : Byte) (mode : Bool) (p : List Byte) (s : State) :
    ((sendFrame dst mode p s).1).params = s.params := by unfold sendFrame; (try dsimp only); (repeat' split) <;> simp
@[simp] theorem sendFrame_ownAddr (dst : Byte) (mode : Bool) (p : List Byte) (s : State) :
    ((sendFrame dst mode p s).1).ownAddr = s.ownAddr := by unfold sendFrame; (try dsimp only); (repeat' split) <;> simp
@[simp] theorem sendFrame_lastAddr (dst : Byte) (mode : Bool) (p : List Byte) (s : State) :
    ((sendFrame dst mode p s).1).lastAddr = s.lastAddr := by unfold sendFrame; (try dsimp only); (repeat' split) <;>
        simp
@[simp] theorem sendFrame_app (dst : Byte) (mode : Bool) (p : List Byte) (s : State) :
    ((sendFrame dst mode p s).1).app = s.app := by unfold sendFrame; (try dsimp only); (repeat' split) <;> simp
@[simp] theorem sendFrame_queue (dst : Byte) (mode : Bool) (p : List Byte) (s : State) :
    ((sendFrame dst mode p s).1).queue = s.queue := by unfold sendFrame; (try dsimp only); (repeat' split) <;> simp
@[simp] theorem sendFrame_roster (dst : Byte) (mode : Bool) (p : List Byte) (s : State) :
    ((sendFrame dst mode p s).1).roster = s.roster := by unfold sendFrame; (try dsimp only); (repeat' split) <;> simp
@[simp] theorem sendFrame_hs (dst : Byte) (mode : Bool) (p : List Byte) (s : State) :
    ((sendFrame dst mode p s).1).hs = s.hs := by unfold sendFrame; (try dsimp only); (repeat' split) <;> simp
@[simp] theorem sendFrame_sl (dst : Byte) (mode : Bool) (p : List Byte) (s : State) :
    ((sendFrame dst mode p s).1).sl = s.sl := by unfold sendFrame; (try dsimp only); (repeat' split) <;> simp
@[simp] theorem sendFrame_halted (dst : Byte) (mode : Bool) (p : List Byte) (s : State) :
    ((sendFrame dst mode p s).1).halted = s.halted := by unfold sendFrame; (try dsimp only); (repeat' split) <;> simp
@[simp] theorem sendFrame_inputs (dst : Byte) (mode : Bool) (p : List Byte) (s : State) :
    ((sendFrame dst mode p s).1).inputs = s.inputs := by unfold sendFrame; (try dsimp only); (repeat' split) <;> simp
@[simp] theorem sendFrame_result (dst : Byte) (mode : Bool) (p : List Byte) (s : State) :
    ((sendFrame dst mode p s).1).result = s.result := by unfold sendFrame; (try dsimp only); (repeat' split) <;> simp

/-! ### busyTick -/

@[simp] theorem busyTick_params (s : State) :
    (busyTick s).params = s.params := by unfold busyTick; dsimp only; (repeat' split) <;> simp
@[simp] theorem busyTick_ownAddr (s : State) :
    (busyTick s).ownAddr = s.ownAddr := by unfold busyTick; dsimp only; (repeat' split) <;> simp
@[simp] theorem busyTick_lastAddr (s : State) :
    (busyTick s).lastAddr = s.lastAddr := by unfold busyTick; dsimp only; (repeat' split) <;> simp
@[simp] theorem busyTick_app (s : State) :
    (busyTick s).app = s.app := by unfold busyTick; dsimp only; (repeat' split) <;> simp
@[simp] theorem busyTick_queue (s : State) :
    (busyTick s).queue = s.queue := by unfold busyTick; dsimp only; (repeat' split) <;> simp
@[simp] theorem busyTick_roster (s : State) :
    (busyTick s).roster = s.roster := by unfold busyTick; dsimp only; (repeat' split) <;> simp
@[simp] theorem busyTick_hs (s : State) :
    (busyTick s).hs = s.hs := by unfold busyTick; dsimp only; (repeat' split) <;> simp
@[simp] theorem busyTick_sl (s : State) :
    (busyTick s).sl = s.sl := by unfold busyTick; dsimp only; (repeat' split) <;> simp
@[simp] theorem busyTick_halted (s : State) :
    (busyTick s).halted = s.halted := by unfold busyTick; dsimp only; (repeat' split) <;> simp
@[simp] theorem busyTick_inputs (s : State) :
    (busyTick s).inputs = s.inputs := by unfold busyTick; dsimp only; (repeat' split) <;> simp
@[simp] theorem busyTick_txOut (s : State) :
    (busyTick s).txOut = s.txOut := by unfold busyTick; dsimp only; (repeat' split) <;> simp
@[simp] theorem busyTick_result (s : State) :
    (busyTick s).result = s.result := by unfold busyTick; dsimp only; (repeat' split) <;> simp

/-! ### rwTick -/

@[simp] theorem rwTick_params (s : State) :
    (rwTick s).params = s.params := by unfold rwTick; (try dsimp only); (repeat' split) <;> simp
@[simp] theorem rwTick_fe (s : State) :
    (rwTick s).fe = s.fe := by unfold rwTick; (try dsimp only); (repeat' split) <;> simp
@[simp] theorem rwTick_ownAddr (s : State) :
    (rwTick s).ownAddr = s.ownAddr := by unfold rwTick; (try dsimp only); (repeat' split) <;> simp
@[simp] theorem rwTick_lastAddr (s : State) :
    (rwTick s).lastAddr = s.lastAddr := by unfold rwTick; (try dsimp only); (repeat' split) <;> simp
@[simp] theorem rwTick_app (s : State) :
    (rwTick s).app = s.app := by unfold rwTick; (try dsimp only); (repeat' split) <;> simp
@[simp] theorem rwTick_queue (s : State) :
    (rwTick s).queue = s.queue := by unfold rwTick; (try dsimp only); (repeat' split) <;> simp
@[simp] theorem rwTick_roster (s : State) :
    (rwTick s).roster = s.roster := by unfold rwTick; (try dsimp only); (repeat' split) <;> simp
@[simp] theorem rwTick_hs (s : State) :
    (rwTick s).hs = s.hs := by unfold rwTick; (try dsimp only); (repeat' split) <;> simp
@[simp] theorem rwTick_sl (s : State) :
    (rwTick s).sl = s.sl := by unfold rwTick; (try dsimp only); (repeat' split) <;> simp
@[simp] theorem rwTick_halted (s : State) :
    (rwTick s).halted = s.halted := by unfold rwTick; (try dsimp only); (repeat' split) <;> simp
@[simp] theorem rwTick_inputs (s : State) :
    (rwTick s).inputs = s.inputs := by unfold rwTick; (try dsimp only); (repeat' split) <;> simp
@[simp] theorem rwTick_txOut (s : State) :
    (rwTick s).txOut = s.txOut := by unfold rwTick; (try dsimp only); (repeat' split) <;> simp
@[simp] theorem rwTick_result (s : State) :
    (rwTick s).result = s.result := by unfold rwTick; (try dsimp only); (repeat' split) <;> simp

/-! ### enqueue -/

@[simp] theorem enqueue_params (dst : Byte) (wait : Bool) (p : List Byte) (s : State) :
    ((enqueue dst wait p s).1).params = s.params := by unfold enqueue; (try dsimp only); (repeat' split) <;> simp
@[simp] theorem enqueue_fe (dst : Byte) (wait : Bool) (p : List Byte) (s : State) :
    ((enqueue dst wait p s).1).fe = s.fe := by unfold enqueue; (try dsimp only); (repeat' split) <;> simp
@[simp] theorem enqueue_ownAddr (dst : Byte) (wait : Bool) (p : List Byte) (s : State) :
    ((enqueue dst wait p s).1).ownAddr = s.ownAddr := by unfold enqueue; (try dsimp only); (repeat' split) <;> simp
@[simp] theorem enqueue_lastAddr (dst : Byte) (wait : Bool) (p : List Byte) (s : State) :
    ((enqueue dst wait p s).1).lastAddr = s.lastAddr := by unfold enqueue; (try dsimp only); (repeat' split) <;> simp
@[simp] theorem enqueue_rw (dst : Byte) (wait : Bool) (p : List Byte) (s : State) :
    ((enqueue dst wait p s).1).rw = s.rw := by unfold enqueue; (try dsimp only); (repeat' split) <;> simp
@[simp] theorem enqueue_app (dst : Byte) (wait : Bool) (p : List Byte) (s : State) :
    ((enqueue dst wait p s).1).app = s.app := by unfold enqueue; (try dsimp only); (repeat' split) <;> simp
@[simp] theorem enqueue_roster (dst : Byte) (wait : Bool) (p : List Byte) (s : State) :
    ((enqueue dst wait p s).1).roster = s.roster := by unfold enqueue; (try dsimp only); (repeat' split) <;> simp
@[simp] theorem enqueue_hs (dst : Byte) (wait : Bool) (p : List Byte) (s : State) :
    ((enqueue dst wait p s).1).hs = s.hs := by unfold enqueue; (try dsimp only); (repeat' split) <;> simp
@[simp] theorem enqueue_sl (dst : Byte) (wait : Bool) (p : List Byte) (s : State) :
    ((enqueue dst wait p s).1).sl = s.sl := by unfold enqueue; (try dsimp only); (repeat' split) <;> simp
@[simp] theorem enqueue_halted (dst : Byte) (wait : Bool) (p : List Byte) (s : State) :
    ((enqueue dst wait p s).1).halted = s.halted := by unfold enqueue; (try dsimp only); (repeat' split) <;> simp
@[simp] theorem enqueue_inputs (dst : Byte) (wait : Bool) (p : List Byte) (s : State) :
    ((enqueue dst wait p s).1).inputs = s.inputs := by unfold enqueue; (try dsimp only); (repeat' split) <;> simp
@[simp] theorem enqueue_txOut (dst : Byte) (wait : Bool) (p : List Byte) (s : State) :
    ((enqueue dst wait p s).1).txOut = s.txOut := by unfold enqueue; (try dsimp only); (repeat' split) <;> simp
@[simp] theorem enqueue_result (dst : Byte) (wait : Bool) (p : List Byte) (s : State) :
    ((enqueue dst wait p s).1).result = s.result := by unfold enqueue; (try dsimp only); (repeat' split) <;> simp

/-! ### dispatchQueue -/

@[simp] theorem dispatchQueue_params (s : State) :
    (dispatchQueue s).params = s.params := by unfold dispatchQueue; (try dsimp only); (repeat' split) <;> simp
@[simp] theorem dispatchQueue_ownAddr (s : State) :
    (dispatchQueue s).ownAddr = s.ownAddr := by unfold dispatchQueue; (try dsimp only); (repeat' split) <;> simp
@[simp] theorem dispatchQueue_lastAddr (s : State) :
    (dispatchQueue s).lastAddr = s.lastAddr := by unfold dispatchQueue; (try dsimp only); (repeat' split) <;> simp
@[simp] theorem dispatchQueue_app (s : State) :
    (dispatchQueue s).app = s.app := by unfold dispatchQueue; (try dsimp only); (repeat' split) <;> simp
@[simp] theorem dispatchQueue_roster (s : State) :
    (dispatchQueue s).roster = s.roster := by unfold dispatchQueue; (try dsimp only); (repeat' split) <;> simp
@[simp] theorem dispatchQueue_hs (s : State) :
    (dispatchQueue s).hs = s.hs := by unfold dispatchQueue; (try dsimp only); (repeat' split) <;> simp
@[simp] theorem dispatchQueue_sl (s : State) :
    (dispatchQueue s).sl = s.sl := by unfold dispatchQueue; (try dsimp only); (repeat' split) <;> simp
@[simp] theorem dispatchQueue_halted (s : State) :
    (dispatchQueue s).halted = s.halted := by unfold dispatchQueue; (try dsimp only); (repeat' split) <;> simp
@[simp] theorem dispatchQueue_inputs (s : State) :
    (dispatchQueue s).inputs = s.inputs := by unfold dispatchQueue; (try dsimp only); (repeat' split) <;> simp
@[simp] theorem dispatchQueue_result (s : State) :
    (dispatchQueue s).result = s.result := by unfold dispatchQueue; (try dsimp only); (repeat' split) <;> simp

/-! ### commit -/

@[simp] theorem commit_params (a uidLen : Nibble) (uid : List Byte) (s : State) :
    (commit a uidLen uid s).params = s.params := by unfold commit; simp
@[simp] theorem commit_fe (a uidLen : Nibble) (uid : List Byte) (s : State) :
    (commit a uidLen uid s).fe = s.fe := by unfold commit; simp
@[simp] theorem commit_ownAddr (a uidLen : Nibble) (uid : List Byte) (s : State) :
    (commit a uidLen uid s).ownAddr = s.ownAddr := by unfold commit; simp
@[simp] theorem commit_lastAddr (a uidLen : Nibble) (uid : List Byte) (s : State) :
    (commit a uidLen uid s).lastAddr = s.lastAddr := by unfold commit; simp
@[simp] theorem commit_rw (a uidLen : Nibble) (uid : List Byte) (s : State) :
    (commit a uidLen uid s).rw = s.rw := by unfold commit; simp
@[simp] theorem commit_app (a uidLen : Nibble) (uid : List Byte) (s : State) :
    (commit a uidLen uid s).app = s.app := by unfold commit; simp
@[simp] theorem commit_queue (a uidLen : Nibble) (uid : List Byte) (s : State) :
    (commit a uidLen uid s).queue = s.queue := by unfold commit; simp
@[simp] theorem commit_hs (a uidLen : Nibble) (uid : List Byte) (s : State) :
    (commit a uidLen uid s).hs = s.hs := by unfold commit; simp
@[simp] theorem commit_sl (a uidLen : Nibble) (uid : List Byte) (s : State) :
    (commit a uidLen uid s).sl = s.sl := by unfold commit; simp
@[simp] theorem commit_halted (a uidLen : Nibble) (uid : List Byte) (s : State) :
    (commit a uidLen uid s).halted = s.halted := by unfold commit; simp
@[simp] theorem commit_inputs (a uidLen : Nibble) (uid : List Byte) (s : State) :
    (commit a uidLen uid s).inputs = s.inputs := by unfold commit; simp
@[simp] theorem commit_txOut (a uidLen : Nibble) (uid : List Byte) (s : State) :
    (commit a uidLen uid s).txOut = s.txOut := by unfold commit; simp
@[simp] theorem commit_result (a uidLen : Nibble) (uid : List Byte) (s : State) :
    (commit a uidLen uid s).result = s.result := by unfold commit; simp

/-! ### liveness -/

@[simp] theorem liveness_params (s : State) :
    (liveness s).params = s.params := by unfold liveness; (try dsimp only); (repeat' split) <;> simp
@[simp] theorem liveness_fe (s : State) :
    (liveness s).fe = s.fe := by unfold liveness; (try dsimp only); (repeat' split) <;> simp
@[simp] theorem liveness_ownAddr (s : State) :
    (liveness s).ownAddr = s.ownAddr := by unfold liveness; (try dsimp only); (repeat' split) <;> simp
@[simp] theorem liveness_lastAddr (s : State) :
    (liveness s).lastAddr = s.lastAddr := by unfold liveness; (try dsimp only); (repeat' split) <;> simp
@[simp] theorem liveness_rw (s : State) :
    (liveness s).rw = s.rw := by unfold liveness; (try dsimp only); (repeat' split) <;> simp
@[simp] theorem liveness_app (s : State) :
    (liveness s).app = s.app := by unfold liveness; (try dsimp only); (repeat' split) <;> simp
@[simp] theorem liveness_queue (s : State) :
    (liveness s).queue = s.queue := by unfold liveness; (try dsimp only); (repeat' split) <;> simp
@[simp] theorem liveness_hs (s : State) :
    (liveness s).hs = s.hs := by unfold liveness; (try dsimp only); (repeat' split) <;> simp
@[simp] theorem liveness_sl (s : State) :
    (liveness s).sl = s.sl := by unfold liveness; (try dsimp only); (repeat' split) <;> simp
@[simp] theorem liveness_halted (s : State) :
    (liveness s).halted = s.halted := by unfold liveness; (try dsimp only); (repeat' split) <;> simp
@[simp] theorem liveness_inputs (s : State) :
    (liveness s).inputs = s.inputs := by unfold liveness; (try dsimp only); (repeat' split) <;> simp
@[simp] theorem liveness_txOut (s : State) :
    (liveness s).txOut = s.txOut := by unfold liveness; (try dsimp only); (repeat' split) <;> simp
@[simp] theorem liveness_result (s : State) :
    (liveness s).result = s.result := by unfold liveness; (try dsimp only); (repeat' split) <;> simp

/-! ### scan -/

@[simp] theorem scan_params (s : State) :
    ((scan s).1).params = s.params := by unfold scan; (try dsimp only); (repeat' split) <;> simp
@[simp] theorem scan_fe (s : State) :
    ((scan s).1).fe = s.fe := by unfold scan; (try dsimp only); (repeat' split) <;> simp
@[simp] theorem scan_ownAddr (s : State) :
    ((scan s).1).ownAddr = s.ownAddr := by unfold scan; (try dsimp only); (repeat' split) <;> simp
@[simp] theorem scan_lastAddr (s : State) :
    ((scan s).1).lastAddr = s.lastAddr := by unfold scan; (try dsimp only); (repeat' split) <;> simp
@[simp] theorem scan_rw (s : State) :
    ((scan s).1).rw = s.rw := by unfold scan; (try dsimp only); (repeat' split) <;> simp
@[simp] theorem scan_app (s : State) :
    ((scan s).1).app = s.app := by unfold scan; (try dsimp only); (repeat' split) <;> simp
@[simp] theorem scan_queue (s : State) :
    ((scan s).1).queue = s.queue := by unfold scan; (try dsimp only); (repeat' split) <;> simp
@[simp] theorem scan_hs (s : State) :
    ((scan s).1).hs = s.hs := by unfold scan; (try dsimp only); (repeat' split) <;> simp
@[simp] theorem scan_sl (s : State) :
    ((scan s).1).sl = s.sl := by unfold scan; (try dsimp only); (repeat' split) <;> simp
@[simp] theorem scan_halted (s : State) :
    ((scan s).1).halted = s.halted := by unfold scan; (try dsimp only); (repeat' split) <;> simp
@[simp] theorem scan_inputs (s : State) :
    ((scan s).1).inputs = s.inputs := by unfold scan; (try dsimp only); (repeat' split) <;> simp
@[simp] theorem scan_txOut (s : State) :
    ((scan s).1).txOut = s.txOut := by unfold scan; (try dsimp only); (repeat' split) <;> simp
@[simp] theorem scan_result (s : State) :
    ((scan s).1).result = s.result := by unfold scan; (try dsimp only); (repeat' split) <;> simp

/-! ### consumeApp -/

@[simp] theorem consumeApp_params (o : WaitOutcome) (d : Nibble) (s : State) :
    (consumeApp o d s).params = s.params := by unfold consumeApp; (try dsimp only); (repeat' split) <;> simp
@[simp] theorem consumeApp_fe (o : WaitOutcome) (d : Nibble) (s : State) :
    (consumeApp o d s).fe = s.fe := by unfold consumeApp; (try dsimp only); (repeat' split) <;> simp
@[simp] theorem consumeApp_ownAddr (o : WaitOutcome) (d : Nibble) (s : State) :
    (consumeApp o d s).ownAddr = s.ownAddr := by unfold consumeApp; (try dsimp only); (repeat' split) <;> simp
@[simp] theorem consumeApp_lastAddr (o : WaitOutcome) (d : Nibble) (s : State) :
    (consumeApp o d s).lastAddr = s.lastAddr := by unfold consumeApp; (try dsimp only); (repeat' split) <;> simp
@[simp] theorem consumeApp_rw (o : WaitOutcome) (d : Nibble) (s : State) :
    (consumeApp o d s).rw = s.rw := by unfold consumeApp; (try dsimp only); (repeat' split) <;> simp
@[simp] theorem consumeApp_queue (o : WaitOutcome) (d : Nibble) (s : State) :
    (consumeApp o d s).queue = s.queue := by unfold consumeApp; (try dsimp only); (repeat' split) <;> simp
@[simp] theorem consumeApp_hs (o : WaitOutcome) (d : Nibble) (s : State) :
    (consumeApp o d s).hs = s.hs := by unfold consumeApp; (try dsimp only); (repeat' split) <;> simp
@[simp] theorem consumeApp_sl (o : WaitOutcome) (d : Nibble) (s : State) :
    (consumeApp o d s).sl = s.sl := by unfold consumeApp; (try dsimp only); (repeat' split) <;> simp
@[simp] theorem consumeApp_halted (o : WaitOutcome) (d : Nibble) (s : State) :
    (consumeApp o d s).halted = s.halted := by unfold consumeApp; (try dsimp only); (repeat' split) <;> simp
@[simp] theorem consumeApp_inputs (o : WaitOutcome) (d : Nibble) (s : State) :
    (consumeApp o d s).inputs = s.inputs := by unfold consumeApp; (try dsimp only); (repeat' split) <;> simp
@[simp] theorem consumeApp_txOut (o : WaitOutcome) (d : Nibble) (s : State) :
    (consumeApp o d s).txOut = s.txOut := by unfold consumeApp; (try dsimp only); (repeat' split) <;> simp
@[simp] theorem consumeApp_result (o : WaitOutcome) (d : Nibble) (s : State) :
    (consumeApp o d s).result = s.result := by unfold consumeApp; (try dsimp only); (repeat' split) <;> simp

/-! ### consumeHsFind -/

@[simp] theorem consumeHsFind_params (o : WaitOutcome) (s : State) :
    (consumeHsFind o s).params = s.params := by unfold consumeHsFind; (repeat' split) <;> simp
@[simp] theorem consumeHsFind_fe (o : WaitOutcome) (s : State) :
    (consumeHsFind o s).fe = s.fe := by unfold consumeHsFind; (repeat' split) <;> simp
@[simp] theorem consumeHsFind_ownAddr (o : WaitOutcome) (s : State) :
    (consumeHsFind o s).ownAddr = s.ownAddr := by unfold consumeHsFind; (repeat' split) <;> simp
@[simp] theorem consumeHsFind_lastAddr (o : WaitOutcome) (s : State) :
    (consumeHsFind o s).lastAddr = s.lastAddr := by unfold consumeHsFind; (repeat' split) <;> simp
@[simp] theorem consumeHsFind_rw (o : WaitOutcome) (s : State) :
    (consumeHsFind o s).rw = s.rw := by unfold consumeHsFind; (repeat' split) <;> simp
@[simp] theorem consumeHsFind_app (o : WaitOutcome) (s : State) :
    (consumeHsFind o s).app = s.app := by unfold consumeHsFind; (repeat' split) <;> simp
@[simp] theorem consumeHsFind_queue (o : WaitOutcome) (s : State) :
    (consumeHsFind o s).queue = s.queue := by unfold consumeHsFind; (repeat' split) <;> simp
@[simp] theorem consumeHsFind_roster (o : WaitOutcome) (s : State) :
    (consumeHsFind o s).roster = s.roster := by unfold consumeHsFind; (repeat' split) <;> simp
@[simp] theorem consumeHsFind_sl (o : WaitOutcome) (s : State) :
    (consumeHsFind o s).sl = s.sl := by unfold consumeHsFind; (repeat' split) <;> simp
@[simp] theorem consumeHsFind_halted (o : WaitOutcome) (s : State) :
    (consumeHsFind o s).halted = s.halted := by unfold consumeHsFind; (repeat' split) <;> simp
@[simp] theorem consumeHsFind_inputs (o : WaitOutcome) (s : State) :
    (consumeHsFind o s).inputs = s.inputs := by unfold consumeHsFind; (repeat' split) <;> simp
@[simp] theorem consumeHsFind_txOut (o : WaitOutcome) (s : State) :
    (consumeHsFind o s).txOut = s.txOut := by unfold consumeHsFind; (repeat' split) <;> simp
@[simp] theorem consumeHsFind_result (o : WaitOutcome) (s : State) :
    (consumeHsFind o s).result = s.result := by unfold consumeHsFind; (repeat' split) <;> simp

/-! ### consumeHsUid -/

@[simp] theorem consumeHsUid_params (o : WaitOutcome) (s : State) :
    (consumeHsUid o s).params = s.params := by unfold consumeHsUid; (repeat' split) <;> simp
@[simp] theorem consumeHsUid_fe (o : WaitOutcome) (s : State) :
    (consumeHsUid o s).fe = s.fe := by unfold consumeHsUid; (repeat' split) <;> simp
@[simp] theorem consumeHsUid_ownAddr (o : WaitOutcome) (s : State) :
    (consumeHsUid o s).ownAddr = s.ownAddr := by unfold consumeHsUid; (repeat' split) <;> simp
@[simp] theorem consumeHsUid_lastAddr (o : WaitOutcome) (s : State) :
    (consumeHsUid o s).lastAddr = s.lastAddr := by unfold consumeHsUid; (repeat' split) <;> simp
@[simp] theorem consumeHsUid_rw (o : WaitOutcome) (s : State) :
    (consumeHsUid o s).rw = s.rw := by unfold consumeHsUid; (repeat' split) <;> simp
@[simp] theorem consumeHsUid_app (o : WaitOutcome) (s : State) :
    (consumeHsUid o s).app = s.app := by unfold consumeHsUid; (repeat' split) <;> simp
@[simp] theorem consumeHsUid_queue (o : WaitOutcome) (s : State) :
    (consumeHsUid o s).queue = s.queue := by unfold consumeHsUid; (repeat' split) <;> simp
@[simp] theorem consumeHsUid_roster (o : WaitOutcome) (s : State) :
    (consumeHsUid o s).roster = s.roster := by unfold consumeHsUid; (repeat' split) <;> simp
@[simp] theorem consumeHsUid_sl (o : WaitOutcome) (s : State) :
    (consumeHsUid o s).sl = s.sl := by unfold consumeHsUid; (repeat' split) <;> simp
@[simp] theorem consumeHsUid_halted (o : WaitOutcome) (s : State) :
    (consumeHsUid o s).halted = s.halted := by unfold consumeHsUid; (repeat' split) <;> simp
@[simp] theorem consumeHsUid_inputs (o : WaitOutcome) (s : State) :
    (consumeHsUid o s).inputs = s.inputs := by unfold consumeHsUid; (repeat' split) <;> simp
@[simp] theorem consumeHsUid_txOut (o : WaitOutcome) (s : State) :
    (consumeHsUid o s).txOut = s.txOut := by unfold consumeHsUid; (repeat' split) <;> simp
@[simp] theorem consumeHsUid_result (o : WaitOutcome) (s : State) :
    (consumeHsUid o s).result = s.result := by unfold consumeHsUid; (repeat' split) <;> simp

/-! ### consumeHsPing -/

@[simp] theorem consumeHsPing_params (o : WaitOutcome) (s : State) :
    (consumeHsPing o s).params = s.params := by unfold consumeHsPing; (repeat' split) <;> simp
@[simp] theorem consumeHsPing_fe (o : WaitOutcome) (s : State) :
    (consumeHsPing o s).fe = s.fe := by unfold consumeHsPing; (repeat' split) <;> simp
@[simp] theorem consumeHsPing_ownAddr (o : WaitOutcome) (s : State) :
    (consumeHsPing o s).ownAddr = s.ownAddr := by unfold consumeHsPing; (repeat' split) <;> simp
@[simp] theorem consumeHsPing_lastAddr (o : WaitOutcome) (s : State) :
    (consumeHsPing o s).lastAddr = s.lastAddr := by unfold consumeHsPing; (repeat' split) <;> simp
@[simp] theorem consumeHsPing_rw (o : WaitOutcome) (s : State) :
    (consumeHsPing o s).rw = s.rw := by unfold consumeHsPing; (repeat' split) <;> simp
@[simp] theorem consumeHsPing_app (o : WaitOutcome) (s : State) :
    (consumeHsPing o s).app = s.app := by unfold consumeHsPing; (repeat' split) <;> simp
@[simp] theorem consumeHsPing_queue (o : WaitOutcome) (s : State) :
    (consumeHsPing o s).queue = s.queue := by unfold consumeHsPing; (repeat' split) <;> simp
@[simp] theorem consumeHsPing_sl (o : WaitOutcome) (s : State) :
    (consumeHsPing o s).sl = s.sl := by unfold consumeHsPing; (repeat' split) <;> simp
@[simp] theorem consumeHsPing_halted (o : WaitOutcome) (s : State) :
    (consumeHsPing o s).halted = s.halted := by unfold consumeHsPing; (repeat' split) <;> simp
@[simp] theorem consumeHsPing_inputs (o : WaitOutcome) (s : State) :
    (consumeHsPing o s).inputs = s.inputs := by unfold consumeHsPing; (repeat' split) <;> simp
@[simp] theorem consumeHsPing_txOut (o : WaitOutcome) (s : State) :
    (consumeHsPing o s).txOut = s.txOut := by unfold consumeHsPing; (repeat' split) <;> simp
@[simp] theorem consumeHsPing_result (o : WaitOutcome) (s : State) :
    (consumeHsPing o s).result = s.result := by unfold consumeHsPing; (repeat' split) <;> simp

/-! ### consumePing -/

@[simp] theorem consumePing_params (o : WaitOutcome) (d : Nibble) (s : State) :
    (consumePing o d s).params = s.params := by unfold consumePing; dsimp only; (repeat' split) <;> simp
@[simp] theorem consumePing_fe (o : WaitOutcome) (d : Nibble) (s : State) :
    (consumePing o d s).fe = s.fe := by unfold consumePing; dsimp only; (repeat' split) <;> simp
@[simp] theorem consumePing_ownAddr (o : WaitOutcome) (d : Nibble) (s : State) :
    (consumePing o d s).ownAddr = s.ownAddr := by unfold consumePing; dsimp only; (repeat' split) <;> simp
@[simp] theorem consumePing_lastAddr (o : WaitOutcome) (d : Nibble) (s : State) :
    (consumePing o d s).lastAddr = s.lastAddr := by unfold consumePing; dsimp only; (repeat' split) <;> simp
@[simp] theorem consumePing_rw (o : WaitOutcome) (d : Nibble) (s : State) :
    (consumePing o d s).rw = s.rw := by unfold consumePing; dsimp only; (repeat' split) <;> simp
@[simp] theorem consumePing_app (o : WaitOutcome) (d : Nibble) (s : State) :
    (consumePing o d s).app = s.app := by unfold consumePing; dsimp only; (repeat' split) <;> simp
@[simp] theorem consumePing_queue (o : WaitOutcome) (d : Nibble) (s : State) :
    (consumePing o d s).queue = s.queue := by unfold consumePing; dsimp only; (repeat' split) <;> simp
@[simp] theorem consumePing_hs (o : WaitOutcome) (d : Nibble) (s : State) :
    (consumePing o d s).hs = s.hs := by unfold consumePing; dsimp only; (repeat' split) <;> simp
@[simp] theorem consumePing_sl (o : WaitOutcome) (d : Nibble) (s : State) :
    (consumePing o d s).sl = s.sl := by unfold consumePing; dsimp only; (repeat' split) <;> simp
@[simp] theorem consumePing_halted (o : WaitOutcome) (d : Nibble) (s : State) :
    (consumePing o d s).halted = s.halted := by unfold consumePing; dsimp only; (repeat' split) <;> simp
@[simp] theorem consumePing_inputs (o : WaitOutcome) (d : Nibble) (s : State) :
    (consumePing o d s).inputs = s.inputs := by unfold consumePing; dsimp only; (repeat' split) <;> simp
@[simp] theorem consumePing_txOut (o : WaitOutcome) (d : Nibble) (s : State) :
    (consumePing o d s).txOut = s.txOut := by unfold consumePing; dsimp only; (repeat' split) <;> simp
@[simp] theorem consumePing_result (o : WaitOutcome) (d : Nibble) (s : State) :
    (consumePing o d s).result = s.result := by unfold consumePing; dsimp only; (repeat' split) <;> simp

/-! ### consumeReply -/

@[simp] theorem consumeReply_params (o : WaitOutcome) (s : State) :
    (consumeReply o s).params = s.params := by unfold consumeReply; (try dsimp only); (repeat' split) <;> simp
@[simp] theorem consumeReply_fe (o : WaitOutcome) (s : State) :
    (consumeReply o s).fe = s.fe := by unfold consumeReply; (try dsimp only); (repeat' split) <;> simp
@[simp] theorem consumeReply_ownAddr (o : WaitOutcome) (s : State) :
    (consumeReply o s).ownAddr = s.ownAddr := by unfold consumeReply; (try dsimp only); (repeat' split) <;> simp
@[simp] theorem consumeReply_lastAddr (o : WaitOutcome) (s : State) :
    (consumeReply o s).lastAddr = s.lastAddr := by unfold consumeReply; (try dsimp only); (repeat' split) <;> simp
@[simp] theorem consumeReply_queue (o : WaitOutcome) (s : State) :
    (consumeReply o s).queue = s.queue := by unfold consumeReply; (try dsimp only); (repeat' split) <;> simp
@[simp] theorem consumeReply_sl (o : WaitOutcome) (s : State) :
    (consumeReply o s).sl = s.sl := by unfold consumeReply; (try dsimp only); (repeat' split) <;> simp
@[simp] theorem consumeReply_halted (o : WaitOutcome) (s : State) :
    (consumeReply o s).halted = s.halted := by unfold consumeReply; (try dsimp only); (repeat' split) <;> simp
@[simp] theorem consumeReply_inputs (o : WaitOutcome) (s : State) :
    (consumeReply o s).inputs = s.inputs := by unfold consumeReply; (try dsimp only); (repeat' split) <;> simp
@[simp] theorem consumeReply_txOut (o : WaitOutcome) (s : State) :
    (consumeReply o s).txOut = s.txOut := by unfold consumeReply; (try dsimp only); (repeat' split) <;> simp
@[simp] theorem consumeReply_result (o : WaitOutcome) (s : State) :
    (consumeReply o s).result = s.result := by unfold consumeReply; (try dsimp only); (repeat' split) <;> simp

/-! ### handleSignal -/

@[simp] theorem handleSignal_params (args : List Byte) (s : State) :
    (handleSignal args s).params = s.params := by unfold handleSignal; (try dsimp only); (repeat' split) <;> simp
@[simp] theorem handleSignal_ownAddr (args : List Byte) (s : State) :
    (handleSignal args s).ownAddr = s.ownAddr := by unfold handleSignal; (try dsimp only); (repeat' split) <;> simp
@[simp] theorem handleSignal_lastAddr (args : List Byte) (s : State) :
    (handleSignal args s).lastAddr = s.lastAddr := by unfold handleSignal; (try dsimp only); (repeat' split) <;> simp
@[simp] theorem handleSignal_app (args : List Byte) (s : State) :
    (handleSignal args s).app = s.app := by unfold handleSignal; (try dsimp only); (repeat' split) <;> simp
@[simp] theorem handleSignal_queue (args : List Byte) (s : State) :
    (handleSignal args s).queue = s.queue := by unfold handleSignal; (try dsimp only); (repeat' split) <;> simp
@[simp] theorem handleSignal_roster (args : List Byte) (s : State) :
    (handleSignal args s).roster = s.roster := by unfold handleSignal; (try dsimp only); (repeat' split) <;> simp
@[simp] theorem handleSignal_sl (args : List Byte) (s : State) :
    (handleSignal args s).sl = s.sl := by unfold handleSignal; (try dsimp only); (repeat' split) <;> simp
@[simp] theorem handleSignal_halted (args : List Byte) (s : State) :
    (handleSignal args s).halted = s.halted := by unfold handleSignal; (try dsimp only); (repeat' split) <;> simp
@[simp] theorem handleSignal_inputs (args : List Byte) (s : State) :
    (handleSignal args s).inputs = s.inputs := by unfold handleSignal; (try dsimp only); (repeat' split) <;> simp
@[simp] theorem handleSignal_result (args : List Byte) (s : State) :
    (handleSignal args s).result = s.result := by unfold handleSignal; (try dsimp only); (repeat' split) <;> simp

/-! ### setOwn -/

@[simp] theorem setOwn_params (a : Nibble) (s : State) :
    (setOwn a s).params = s.params := by unfold setOwn; (repeat' split) <;> simp
@[simp] theorem setOwn_fe (a : Nibble) (s : State) :
    (setOwn a s).fe = s.fe := by unfold setOwn; (repeat' split) <;> simp
@[simp] theorem setOwn_lastAddr (a : Nibble) (s : State) :
    (setOwn a s).lastAddr = s.lastAddr := by unfold setOwn; (repeat' split) <;> simp
@[simp] theorem setOwn_rw (a : Nibble) (s : State) :
    (setOwn a s).rw = s.rw := by unfold setOwn; (repeat' split) <;> simp
@[simp] theorem setOwn_app (a : Nibble) (s : State) :
    (setOwn a s).app = s.app := by unfold setOwn; (repeat' split) <;> simp
@[simp] theorem setOwn_queue (a : Nibble) (s : State) :
    (setOwn a s).queue = s.queue := by unfold setOwn; (repeat' split) <;> simp
@[simp] theorem setOwn_roster (a : Nibble) (s : State) :
    (setOwn a s).roster = s.roster := by unfold setOwn; (repeat' split) <;> simp
@[simp] theorem setOwn_hs (a : Nibble) (s : State) :
    (setOwn a s).hs = s.hs := by unfold setOwn; (repeat' split) <;> simp
@[simp] theorem setOwn_sl (a : Nibble) (s : State) :
    (setOwn a s).sl = s.sl := by unfold setOwn; (repeat' split) <;> simp
@[simp] theorem setOwn_halted (a : Nibble) (s : State) :
    (setOwn a s).halted = s.halted := by unfold setOwn; (repeat' split) <;> simp
@[simp] theorem setOwn_inputs (a : Nibble) (s : State) :
    (setOwn a s).inputs = s.inputs := by unfold setOwn; (repeat' split) <;> simp
@[simp] theorem setOwn_txOut (a : Nibble) (s : State) :
    (setOwn a s).txOut = s.txOut := by unfold setOwn; (repeat' split) <;> simp
@[simp] theorem setOwn_result (a : Nibble) (s : State) :
    (setOwn a s).result = s.result := by unfold setOwn; (repeat' split) <;> simp

/-! ### handleFind -/

@[simp] theorem handleFind_params (args : List Byte) (s : State) :
    (handleFind args s).params = s.params := by unfold handleFind; (try dsimp only); (repeat' split) <;> simp
@[simp] theorem handleFind_lastAddr (args : List Byte) (s : State) :
    (handleFind args s).lastAddr = s.lastAddr := by unfold handleFind; (try dsimp only); (repeat' split) <;> simp
@[simp] theorem handleFind_app (args : List Byte) (s : State) :
    (handleFind args s).app = s.app := by unfold handleFind; (try dsimp only); (repeat' split) <;> simp
@[simp] theorem handleFind_queue (args : List Byte) (s : State) :
    (handleFind args s).queue = s.queue := by unfold handleFind; (try dsimp only); (repeat' split) <;> simp
@[simp] theorem handleFind_roster (args : List Byte) (s : State) :
    (handleFind args s).roster = s.roster := by unfold handleFind; (try dsimp only); (repeat' split) <;> simp
@[simp] theorem handleFind_hs (args : List Byte) (s : State) :
    (handleFind args s).hs = s.hs := by unfold handleFind; (try dsimp only); (repeat' split) <;> simp
@[simp] theorem handleFind_halted (args : List Byte) (s : State) :
    (handleFind args s).halted = s.halted := by unfold handleFind; (try dsimp only); (repeat' split) <;> simp
@[simp] theorem handleFind_inputs (args : List Byte) (s : State) :
    (handleFind args s).inputs = s.inputs := by unfold handleFind; (try dsimp only); (repeat' split) <;> simp
@[simp] theorem handleFind_result (args : List Byte) (s : State) :
    (handleFind args s).result = s.result := by unfold handleFind; (try dsimp only); (repeat' split) <;> simp

/-! ### handleGetUid -/

@[simp] theorem handleGetUid_params (args : List Byte) (s : State) :
    (handleGetUid args s).params = s.params := by unfold handleGetUid; (try dsimp only); (repeat' split) <;> simp
@[simp] theorem handleGetUid_ownAddr (args : List Byte) (s : State) :
    (handleGetUid args s).ownAddr = s.ownAddr := by unfold handleGetUid; (try dsimp only); (repeat' split) <;> simp
@[simp] theorem handleGetUid_lastAddr (args : List Byte) (s : State) :
    (handleGetUid args s).lastAddr = s.lastAddr := by unfold handleGetUid; (try dsimp only); (repeat' split) <;> simp
@[simp] theorem handleGetUid_app (args : List Byte) (s : State) :
    (handleGetUid args s).app = s.app := by unfold handleGetUid; (try dsimp only); (repeat' split) <;> simp
@[simp] theorem handleGetUid_queue (args : List Byte) (s : State) :
    (handleGetUid args s).queue = s.queue := by unfold handleGetUid; (try dsimp only); (repeat' split) <;> simp
@[simp] theorem handleGetUid_roster (args : List Byte) (s : State) :
    (handleGetUid args s).roster = s.roster := by unfold handleGetUid; (try dsimp only); (repeat' split) <;> simp
@[simp] theorem handleGetUid_hs (args : List Byte) (s : State) :
    (handleGetUid args s).hs = s.hs := by unfold handleGetUid; (try dsimp only); (repeat' split) <;> simp
@[simp] theorem handleGetUid_halted (args : List Byte) (s : State) :
    (handleGetUid args s).halted = s.halted := by unfold handleGetUid; (try dsimp only); (repeat' split) <;> simp
@[simp] theorem handleGetUid_inputs (args : List Byte) (s : State) :
    (handleGetUid args s).inputs = s.inputs := by unfold handleGetUid; (try dsimp only); (repeat' split) <;> simp
@[simp] theorem handleGetUid_result (args : List Byte) (s : State) :
    (handleGetUid args s).result = s.result := by unfold handleGetUid; (try dsimp only); (repeat' split) <;> simp

/-! ### handlePing -/

@[simp] theorem handlePing_params (args : List Byte) (s : State) :
    (handlePing args s).params = s.params := by unfold handlePing; (try dsimp only); (repeat' split) <;> simp
@[simp] theorem handlePing_ownAddr (args : List Byte) (s : State) :
    (handlePing args s).ownAddr = s.ownAddr := by unfold handlePing; (try dsimp only); (repeat' split) <;> simp
@[simp] theorem handlePing_lastAddr (args : List Byte) (s : State) :
    (handlePing args s).lastAddr = s.lastAddr := by unfold handlePing; (try dsimp only); (repeat' split) <;> simp
@[simp] theorem handlePing_app (args : List Byte) (s : State) :
    (handlePing args s).app = s.app := by unfold handlePing; (try dsimp only); (repeat' split) <;> simp
@[simp] theorem handlePing_queue (args : List Byte) (s : State) :
    (handlePing args s).queue = s.queue := by unfold handlePing; (try dsimp only); (repeat' split) <;> simp
@[simp] theorem handlePing_roster (args : List Byte) (s : State) :
    (handlePing args s).roster = s.roster := by unfold handlePing; (try dsimp only); (repeat' split) <;> simp
@[simp] theorem handlePing_hs (args : List Byte) (s : State) :
    (handlePing args s).hs = s.hs := by unfold handlePing; (try dsimp only); (repeat' split) <;> simp
@[simp] theorem handlePing_halted (args : List Byte) (s : State) :
    (handlePing args s).halted = s.halted := by unfold handlePing; (try dsimp only); (repeat' split) <;> simp
@[simp] theorem handlePing_inputs (args : List Byte) (s : State) :
    (handlePing args s).inputs = s.inputs := by unfold handlePing; (try dsimp only); (repeat' split) <;> simp
@[simp] theorem handlePing_result (args : List Byte) (s : State) :
    (handlePing args s).result = s.result := by unfold handlePing; (try dsimp only); (repeat' split) <;> simp

/-! ### ignoreCommand -/

@[simp] theorem ignoreCommand_params (s : State) : (ignoreCommand s).params = s.params := rfl
@[simp] theorem ignoreCommand_fe (s : State) : (ignoreCommand s).fe = s.fe := rfl
@[simp] theorem ignoreCommand_ownAddr (s : State) : (ignoreCommand s).ownAddr = s.ownAddr := rfl
@[simp] theorem ignoreCommand_lastAddr (s : State) : (ignoreCommand s).lastAddr = s.lastAddr := rfl
@[simp] theorem ignoreCommand_rw (s : State) : (ignoreCommand s).rw = s.rw := rfl
@[simp] theorem ignoreCommand_app (s : State) : (ignoreCommand s).app = s.app := rfl
@[simp] theorem ignoreCommand_queue (s : State) : (ignoreCommand s).queue = s.queue := rfl
@[simp] theorem ignoreCommand_roster (s : State) : (ignoreCommand s).roster = s.roster := rfl
@[simp] theorem ignoreCommand_hs (s : State) : (ignoreCommand s).hs = s.hs := rfl
@[simp] theorem ignoreCommand_sl (s : State) : (ignoreCommand s).sl = s.sl := rfl
@[simp] theorem ignoreCommand_halted (s : State) : (ignoreCommand s).halted = s.halted := rfl
@[simp] theorem ignoreCommand_inputs (s : State) : (ignoreCommand s).inputs = s.inputs := rfl
@[simp] theorem ignoreCommand_txOut (s : State) : (ignoreCommand s).txOut = s.txOut := rfl
@[simp] theorem ignoreCommand_result (s : State) : (ignoreCommand s).result = s.result := rfl

/-! ### endCommand -/

@[simp] theorem endCommand_params (s : State) :
    (endCommand s).params = s.params := by unfold endCommand; (repeat' split) <;> simp
@[simp] theorem endCommand_ownAddr (s : State) :
    (endCommand s).ownAddr = s.ownAddr := by unfold endCommand; (repeat' split) <;> simp
@[simp] theorem endCommand_lastAddr (s : State) :
    (endCommand s).lastAddr = s.lastAddr := by unfold endCommand; (repeat' split) <;> simp
@[simp] theorem endCommand_rw (s : State) :
    (endCommand s).rw = s.rw := by unfold endCommand; (repeat' split) <;> simp
@[simp] theorem endCommand_app (s : State) :
    (endCommand s).app = s.app := by unfold endCommand; (repeat' split) <;> simp
@[simp] theorem endCommand_queue (s : State) :
    (endCommand s).queue = s.queue := by unfold endCommand; (repeat' split) <;> simp
@[simp] theorem endCommand_roster (s : State) :
    (endCommand s).roster = s.roster := by unfold endCommand; (repeat' split) <;> simp
@[simp] theorem endCommand_hs (s : State) :
    (endCommand s).hs = s.hs := by unfold endCommand; (repeat' split) <;> simp
@[simp] theorem endCommand_sl (s : State) :
    (endCommand s).sl = s.sl := by unfold endCommand; (repeat' split) <;> simp
@[simp] theorem endCommand_halted (s : State) :
    (endCommand s).halted = s.halted := by unfold endCommand; (repeat' split) <;> simp
@[simp] theorem endCommand_inputs (s : State) :
    (endCommand s).inputs = s.inputs := by unfold endCommand; (repeat' split) <;> simp
@[simp] theorem endCommand_txOut (s : State) :
    (endCommand s).txOut = s.txOut := by unfold endCommand; (repeat' split) <;> simp
@[simp] theorem endCommand_result (s : State) :
    (endCommand s).result = s.result := by unfold endCommand; (repeat' split) <;> simp

/-! ### sendRequest -/

@[simp] theorem sendRequest_params (code : Byte) (kind : WaitKind) (d : Nibble) (s : State) :
    (sendRequest code kind d s).params = s.params := by simp [sendRequest]
@[simp] theorem sendRequest_ownAddr (code : Byte) (kind : WaitKind) (d : Nibble) (s : State) :
    (sendRequest code kind d s).ownAddr = s.ownAddr := by simp [sendRequest]
@[simp] theorem sendRequest_lastAddr (code : Byte) (kind : WaitKind) (d : Nibble) (s : State) :
    (sendRequest code kind d s).lastAddr = s.lastAddr := by simp [sendRequest]
@[simp] theorem sendRequest_app (code : Byte) (kind : WaitKind) (d : Nibble) (s : State) :
    (sendRequest code kind d s).app = s.app := by simp [sendRequest]
@[simp] theorem sendRequest_queue (code : Byte) (kind : WaitKind) (d : Nibble) (s : State) :
    (sendRequest code kind d s).queue = s.queue := by simp [sendRequest]
@[simp] theorem sendRequest_roster (code : Byte) (kind : WaitKind) (d : Nibble) (s : State) :
    (sendRequest code kind d s).roster = s.roster := by simp [sendRequest]
@[simp] theorem sendRequest_hs (code : Byte) (kind : WaitKind) (d : Nibble) (s : State) :
    (sendRequest code kind d s).hs = s.hs := by simp [sendRequest]
@[simp] theorem sendRequest_sl (code : Byte) (kind : WaitKind) (d : Nibble) (s : State) :
    (sendRequest code kind d s).sl = s.sl := by simp [sendRequest]
@[simp] theorem sendRequest_halted (code : Byte) (kind : WaitKind) (d : Nibble) (s : State) :
    (sendRequest code kind d s).halted = s.halted := by simp [sendRequest]
@[simp] theorem sendRequest_inputs (code : Byte) (kind : WaitKind) (d : Nibble) (s : State) :
    (sendRequest code kind d s).inputs = s.inputs := by simp [sendRequest]
@[simp] theorem sendRequest_result (code : Byte) (kind : WaitKind) (d : Nibble) (s : State) :
    (sendRequest code kind d s).result = s.result := by simp [sendRequest]

/-! ### slaveReset -/

@[simp] theorem slaveReset_params (n : Wide) (s : State) : (slaveReset n s).params = s.params := by simp [slaveReset]
@[simp] theorem slaveReset_queue (n : Wide) (s : State) : (slaveReset n s).queue = s.queue := by simp [slaveReset]
@[simp] theorem slaveReset_roster (n : Wide) (s : State) : (slaveReset n s).roster = s.roster := by simp [slaveReset]
@[simp] theorem slaveReset_hs (n : Wide) (s : State) : (slaveReset n s).hs = s.hs := by simp [slaveReset]
@[simp] theorem slaveReset_halted (n : Wide) (s : State) : (slaveReset n s).halted = s.halted := by simp [slaveReset]
@[simp] theorem slaveReset_inputs (n : Wide) (s : State) : (slaveReset n s).inputs = s.inputs := by simp [slaveReset]
@[simp] theorem slaveReset_txOut (n : Wide) (s : State) : (slaveReset n s).txOut = s.txOut := by simp [slaveReset]
@[simp] theorem slaveReset_result (n : Wide) (s : State) : (slaveReset n s).result = s.result := by simp [slaveReset]

/-! ### readBytes -/

@[simp] theorem readBytes_params (n : Byte) (s : State) :
    ((readBytes n s).1).params = s.params := by unfold readBytes; (try dsimp only); (repeat' split) <;> simp
@[simp] theorem readBytes_ownAddr (n : Byte) (s : State) :
    ((readBytes n s).1).ownAddr = s.ownAddr := by unfold readBytes; (try dsimp only); (repeat' split) <;> simp
@[simp] theorem readBytes_lastAddr (n : Byte) (s : State) :
    ((readBytes n s).1).lastAddr = s.lastAddr := by unfold readBytes; (try dsimp only); (repeat' split) <;> simp
@[simp] theorem readBytes_app (n : Byte) (s : State) :
    ((readBytes n s).1).app = s.app := by unfold readBytes; (try dsimp only); (repeat' split) <;> simp
@[simp] theorem readBytes_queue (n : Byte) (s : State) :
    ((readBytes n s).1).queue = s.queue := by unfold readBytes; (try dsimp only); (repeat' split) <;> simp
@[simp] theorem readBytes_roster (n : Byte) (s : State) :
    ((readBytes n s).1).roster = s.roster := by unfold readBytes; (try dsimp only); (repeat' split) <;> simp
@[simp] theorem readBytes_hs (n : Byte) (s : State) :
    ((readBytes n s).1).hs = s.hs := by unfold readBytes; (try dsimp only); (repeat' split) <;> simp
@[simp] theorem readBytes_sl (n : Byte) (s : State) :
    ((readBytes n s).1).sl = s.sl := by unfold readBytes; (try dsimp only); (repeat' split) <;> simp
@[simp] theorem readBytes_halted (n : Byte) (s : State) :
    ((readBytes n s).1).halted = s.halted := by unfold readBytes; (try dsimp only); (repeat' split) <;> simp
@[simp] theorem readBytes_inputs (n : Byte) (s : State) :
    ((readBytes n s).1).inputs = s.inputs := by unfold readBytes; (try dsimp only); (repeat' split) <;> simp
@[simp] theorem readBytes_txOut (n : Byte) (s : State) :
    ((readBytes n s).1).txOut = s.txOut := by unfold readBytes; (try dsimp only); (repeat' split) <;> simp
@[simp] theorem readBytes_result (n : Byte) (s : State) :
    ((readBytes n s).1).result = s.result := by unfold readBytes; (try dsimp only); (repeat' split) <;> simp

/-! ### appendByte -/

@[simp] theorem appendByte_params (b : Byte) (s : State) :
    (appendByte b s).params = s.params := by unfold appendByte; (try dsimp only); (repeat' split) <;> simp
@[simp] theorem appendByte_ownAddr (b : Byte) (s : State) :
    (appendByte b s).ownAddr = s.ownAddr := by unfold appendByte; (try dsimp only); (repeat' split) <;> simp
@[simp] theorem appendByte_lastAddr (b : Byte) (s : State) :
    (appendByte b s).lastAddr = s.lastAddr := by unfold appendByte; (try dsimp only); (repeat' split) <;> simp
@[simp] theorem appendByte_rw (b : Byte) (s : State) :
    (appendByte b s).rw = s.rw := by unfold appendByte; (try dsimp only); (repeat' split) <;> simp
@[simp] theorem appendByte_app (b : Byte) (s : State) :
    (appendByte b s).app = s.app := by unfold appendByte; (try dsimp only); (repeat' split) <;> simp
@[simp] theorem appendByte_queue (b : Byte) (s : State) :
    (appendByte b s).queue = s.queue := by unfold appendByte; (try dsimp only); (repeat' split) <;> simp
@[simp] theorem appendByte_roster (b : Byte) (s : State) :
    (appendByte b s).roster = s.roster := by unfold appendByte; (try dsimp only); (repeat' split) <;> simp
@[simp] theorem appendByte_hs (b : Byte) (s : State) :
    (appendByte b s).hs = s.hs := by unfold appendByte; (try dsimp only); (repeat' split) <;> simp
@[simp] theorem appendByte_sl (b : Byte) (s : State) :
    (appendByte b s).sl = s.sl := by unfold appendByte; (try dsimp only); (repeat' split) <;> simp
@[simp] theorem appendByte_halted (b : Byte) (s : State) :
    (appendByte b s).halted = s.halted := by unfold appendByte; (try dsimp only); (repeat' split) <;> simp
@[simp] theorem appendByte_inputs (b : Byte) (s : State) :
    (appendByte b s).inputs = s.inputs := by unfold appendByte; (try dsimp only); (repeat' split) <;> simp
@[simp] theorem appendByte_txOut (b : Byte) (s : State) :
    (appendByte b s).txOut = s.txOut := by unfold appendByte; (try dsimp only); (repeat' split) <;> simp
@[simp] theorem appendByte_result (b : Byte) (s : State) :
    (appendByte b s).result = s.result := by unfold appendByte; (try dsimp only); (repeat' split) <;> simp

end Sys2Proof.Machine
end

