-- ==== Sys2Proof/Laws/Memory.lean ====
section
/-! SUPPORT. The byte arrays: a write is read back, every other index keeps its byte, and every operation keeps the
canonical form and the array's size. -/

namespace Sys2Proof.Machine

@[simp] theorem Memory.read_nil (i : Nat) : Memory.read [] i = Memory.unlisted := rfl

theorem Memory.read_erase_same (m : Memory) (i : Nat) : (Memory.erase m i).read i = Memory.unlisted := by
  induction m with
  | nil => rfl
  | cons c m ih =>
    simp only [Memory.erase, List.filter_cons] at ih ⊢
    by_cases h : c.1 = i <;> simp [h, ih, Memory.read]

theorem Memory.read_erase_other (m : Memory) {i j : Nat} (h : j ≠ i) : (Memory.erase m i).read j = m.read j := by
  induction m with
  | nil => rfl
  | cons c m ih =>
    simp only [Memory.erase, List.filter_cons] at ih ⊢
    by_cases hc : c.1 = i
    · have : c.1 ≠ j := fun e => h (e.symm.trans hc)
      simp [hc, ih, Memory.read, h.symm]
    · simp [hc, ih, Memory.read]

theorem Memory.read_place_same (m : Memory) (c : Host.Cell) (h : ∀ d ∈ m, d.1 ≠ c.1) :
    (Memory.place m c).read c.1 = c.2 := by
  induction m with
  | nil => simp [Memory.place, Memory.read]
  | cons d m ih =>
    have hd := h d (by simp)
    have ih := ih (fun e he => h e (by simp [he]))
    by_cases hlt : c.1 < d.1 <;> simp [Memory.place, hlt, Memory.read, hd, ih]

theorem Memory.read_place_other (m : Memory) (c : Host.Cell) {j : Nat} (h : j ≠ c.1) :
    (Memory.place m c).read j = m.read j := by
  induction m with
  | nil => simp [Memory.place, Memory.read, h.symm]
  | cons d m ih => by_cases hlt : c.1 < d.1 <;> simp [Memory.place, hlt, Memory.read, h.symm, ih]

theorem Memory.erase_absent (m : Memory) (i : Nat) : ∀ d ∈ Memory.erase m i, d.1 ≠ i := by
  intro d hd; simpa [Memory.erase] using (List.mem_filter.mp hd).2

/-- A write is read back. -/
@[simp] theorem Memory.read_write_same (m : Memory) (i : Nat) (b : Byte) : (m.write i b).read i = b := by
  unfold Memory.write
  split
  · next h => rw [Memory.read_erase_same, h]
  · exact Memory.read_place_same _ (i, b) (Memory.erase_absent m i)

/-- A write leaves every other index alone. -/
theorem Memory.read_write_other (m : Memory) {i j : Nat} (b : Byte) (h : j ≠ i) : (m.write i b).read j = m.read j := by
  unfold Memory.write
  split
  · exact Memory.read_erase_other m h
  · rw [Memory.read_place_other _ (i, b) h, Memory.read_erase_other m h]

theorem Memory.mem_place {m : Memory} {c d : Host.Cell} : d ∈ Memory.place m c ↔ d = c ∨ d ∈ m := by
  induction m with
  | nil => simp [Memory.place]
  | cons e m ih => by_cases hlt : c.1 < e.1 <;> simp [Memory.place, hlt, ih]; tauto

theorem Memory.wf_erase {m : Memory} (h : Memory.wf m) (i : Nat) : Memory.wf (Memory.erase m i) :=
  ⟨h.1.filter _, fun c hc => h.2 c (List.mem_filter.mp hc).1⟩

theorem Memory.place_sorted {m : Memory} {c : Host.Cell} (h : m.Pairwise (fun c d => c.1 < d.1))
    (hne : ∀ d ∈ m, d.1 ≠ c.1) : (Memory.place m c).Pairwise (fun c d => c.1 < d.1) := by
  induction m with
  | nil => simp [Memory.place]
  | cons e m ih =>
    have he := List.pairwise_cons.mp h
    by_cases hlt : c.1 < e.1
    · simp only [Memory.place, hlt, if_true, List.pairwise_cons]
      refine ⟨fun d hd => ?_, he⟩
      rcases List.mem_cons.mp hd with rfl | hd
      · exact hlt
      · exact hlt.trans (he.1 d hd)
    · simp only [Memory.place, hlt, if_false, List.pairwise_cons]
      refine ⟨fun d hd => ?_, ih he.2 (fun d hd => hne d (by simp [hd]))⟩
      rcases Memory.mem_place.mp hd with rfl | hd
      · have := hne e (by simp); omega
      · exact he.1 d hd

/-- A write keeps the canonical form. -/
theorem Memory.wf_write {m : Memory} (h : Memory.wf m) (i : Nat) (b : Byte) : Memory.wf (m.write i b) := by
  have he := Memory.wf_erase h i
  unfold Memory.write
  split
  · exact he
  · next hb =>
    refine ⟨Memory.place_sorted he.1 (Memory.erase_absent m i), fun c hc => ?_⟩
    rcases Memory.mem_place.mp hc with rfl | hc
    · exact hb
    · exact he.2 c hc

theorem Memory.within_write {n : Nat} {m : Memory} (h : Memory.within n m) {i : Nat} (hi : i < n) (b : Byte) :
    Memory.within n (m.write i b) := by
  have he : Memory.within n (Memory.erase m i) := fun c hc => h c (List.mem_filter.mp hc).1
  unfold Memory.write
  split
  · exact he
  · intro c hc
    rcases Memory.mem_place.mp hc with rfl | hc
    · exact hi
    · exact he c hc

/-- Writing a string of bytes keeps the canonical form. -/
theorem Memory.wf_writeFrom {m : Memory} (h : Memory.wf m) (i : Nat) (bs : List Byte) :
    Memory.wf (m.writeFrom i bs) := by
  induction bs generalizing m i with
  | nil => exact h
  | cons b bs ih => exact ih (Memory.wf_write h i b) (i + 1)

theorem Memory.within_writeFrom {n : Nat} {m : Memory} (h : Memory.within n m) {i : Nat} {bs : List Byte}
    (hi : i + bs.length ≤ n) : Memory.within n (m.writeFrom i bs) := by
  induction bs generalizing m i with
  | nil => exact h
  | cons b bs ih =>
    simp only [List.length_cons] at hi
    exact ih (Memory.within_write h (by omega) b) (by omega)

/-- Equal reads mean equal arrays: the canonical form is unique. -/
theorem Memory.ext_of_wf {m m' : Memory} (h : Memory.wf m) (h' : Memory.wf m')
    (e : ∀ i, m.read i = m'.read i) : m = m' := by
  induction m generalizing m' with
  | nil =>
    cases m' with
    | nil => rfl
    | cons c m' =>
      have := e c.1
      simp [Memory.read] at this
      exact absurd this.symm (h'.2 c (by simp))
  | cons c m ih =>
    have absent : ∀ {l : Memory} {k : Nat}, (∀ d ∈ l, k < d.1) → l.read k = Memory.unlisted := by
      intro l k hl
      induction l with
      | nil => rfl
      | cons d l ihl =>
        have := hl d (by simp)
        have hne : d.1 ≠ k := by omega
        simp [Memory.read, hne, ihl (fun x hx => hl x (by simp [hx]))]
    cases m' with
    | nil =>
      have := e c.1
      simp [Memory.read] at this
      exact absurd this (h.2 c (by simp))
    | cons c' m' =>
      have hc := List.pairwise_cons.mp h.1
      have hc' := List.pairwise_cons.mp h'.1
      have key : c.1 = c'.1 := by
        rcases Nat.lt_trichotomy c.1 c'.1 with hlt | heq | hgt
        · have := e c.1
          rw [absent (l := c' :: m') (k := c.1)
            (by intro d hd; rcases List.mem_cons.mp hd with rfl | hd; exacts [hlt, hlt.trans (hc'.1 d hd)])] at this
          simp [Memory.read] at this
          exact absurd this (h.2 c (by simp))
        · exact heq
        · have := e c'.1
          rw [absent (l := c :: m) (k := c'.1)
            (by intro d hd; rcases List.mem_cons.mp hd with rfl | hd; exacts [hgt, hgt.trans (hc.1 d hd)])] at this
          simp [Memory.read] at this
          exact absurd this.symm (h'.2 c' (by simp))
      have val : c.2 = c'.2 := by have := e c.1; simpa [Memory.read, key] using this
      have hcc : c = c' := Prod.ext key val
      subst hcc
      have tail := ih (m' := m') ⟨hc.2, fun d hd => h.2 d (by simp [hd])⟩ ⟨hc'.2, fun d hd => h'.2 d (by simp [hd])⟩
        (by
          intro i
          by_cases hi : c.1 = i
          · subst hi; rw [absent hc.1, absent hc'.1]
          · have := e i; simpa [Memory.read, hi] using this)
      rw [tail]

@[simp] theorem Memory.length_readFrom (m : Memory) (i n : Nat) : (m.readFrom i n).length = n := by
  induction n generalizing i with
  | zero => rfl
  | succ n ih => simp [Memory.readFrom, ih]

theorem Memory.readFrom_append (m : Memory) (i n k : Nat) :
    m.readFrom i (n + k) = m.readFrom i n ++ m.readFrom (i + n) k := by
  induction n generalizing i with
  | zero => simp [Memory.readFrom]
  | succ n ih =>
    have : n + 1 + k = (n + k) + 1 := by omega
    rw [this]; simp [Memory.readFrom, ih, Nat.add_assoc, Nat.add_comm 1 n]

theorem Memory.getElem_readFrom (m : Memory) (i n k : Nat) (h : k < (m.readFrom i n).length) :
    (m.readFrom i n)[k] = m.read (i + k) := by
  induction n generalizing i k with
  | zero => simp [Memory.readFrom] at h
  | succ n ih =>
    cases k with
    | zero => simp [Memory.readFrom]
    | succ k => simp [Memory.readFrom, ih]; congr 1; omega

/-- Arrays that agree on a range read alike over it. -/
theorem Memory.readFrom_congr {m m' : Memory} {i n : Nat} (h : ∀ j, i ≤ j → j < i + n → m.read j = m'.read j) :
    m.readFrom i n = m'.readFrom i n := by
  induction n generalizing i with
  | zero => rfl
  | succ n ih =>
    simp only [Memory.readFrom, List.cons.injEq]
    exact ⟨h i (by omega) (by omega), ih (fun j h1 h2 => h j (by omega) (by omega))⟩

/-- A string of bytes leaves every index outside it alone. -/
theorem Memory.read_writeFrom_outside (m : Memory) (i : Nat) (bs : List Byte) {j : Nat}
    (h : j < i ∨ i + bs.length ≤ j) : (m.writeFrom i bs).read j = m.read j := by
  induction bs generalizing m i with
  | nil => rfl
  | cons b bs ih =>
    simp only [List.length_cons] at h
    rw [Memory.writeFrom, ih _ _ (by omega), Memory.read_write_other _ _ (by omega)]

/-- A string of bytes is read back. -/
theorem Memory.readFrom_writeFrom (m : Memory) (i : Nat) (bs : List Byte) :
    (m.writeFrom i bs).readFrom i bs.length = bs := by
  induction bs generalizing m i with
  | nil => rfl
  | cons b bs ih =>
    simp only [List.length_cons, Memory.readFrom, Memory.writeFrom, ih, List.cons.injEq, and_true]
    rw [Memory.read_writeFrom_outside _ _ _ (by omega), Memory.read_write_same]

end Sys2Proof.Machine
end

