-- ==== Sys2Proof/Laws/Crc.lean ====
section
/-! SUPPORT. The codec: folding over appended strings, the linearity and injectivity of the shifts, the swaps. -/

namespace Sys2Proof.Machine

@[simp] theorem crcFold_nil (c : Half) : crcFold c [] = c := rfl

@[simp] theorem crcFold_cons (c : Half) (b : Byte) (bs : List Byte) :
    crcFold c (b :: bs) = crcFold (crcUpd c b) bs := rfl

theorem crcFold_append (c : Half) (a b : List Byte) : crcFold c (a ++ b) = crcFold (crcFold c a) b :=
  List.foldl_append

theorem crcShifts_succ (n : Nat) (c : Half) : crcShifts (n + 1) c = crcShifts n (crcShift c) := rfl

theorem crcShift_getLsbD_zero (c : Half) : (crcShift c).getLsbD 0 = c.msb := by
  unfold crcShift
  split <;> rename_i h <;> simp [h]

/-- A shift loses no information: the polynomial's low bit is set. -/
theorem crcShift_injective {c d : Half} (h : crcShift c = crcShift d) : c = d := by
  have hm : c.msb = d.msb := by rw [← crcShift_getLsbD_zero, ← crcShift_getLsbD_zero, h]
  have hs : c <<< 1 = d <<< 1 := by
    unfold crcShift at h
    rw [hm] at h
    split at h
    · simpa using h
    · exact h
  apply BitVec.eq_of_getLsbD_eq
  intro i hi
  by_cases h15 : i = 15
  · subst h15; simpa [BitVec.msb_eq_getLsbD_last] using hm
  · have := congrArg (fun x : Half => x.getLsbD (i + 1)) hs
    simpa [show i + 1 < 16 by omega, BitVec.getLsbD_eq_getElem hi] using this

theorem crcShifts_injective (n : Nat) {c d : Half} (h : crcShifts n c = crcShifts n d) : c = d := by
  induction n generalizing c d with
  | zero => exact h
  | succ n ih => exact crcShift_injective (ih h)

/-- CRC_UPD loses no information about the running sum. -/
theorem crcUpd_injective_sum {c d : Half} (b : Byte) (h : crcUpd c b = crcUpd d b) : c = d := by
  simpa using crcShifts_injective 8 h

/-- CRC_UPD loses no information about the byte. -/
theorem crcUpd_injective_byte (c : Half) {a b : Byte} (h : crcUpd c a = crcUpd c b) : a = b := by
  have h := crcShifts_injective 8 h
  have h : a.setWidth 16 <<< 8 = b.setWidth 16 <<< 8 := by simpa using h
  apply BitVec.eq_of_getLsbD_eq
  intro i hi
  have := congrArg (fun x : Half => x.getLsbD (i + 8)) h
  simpa [show i + 8 < 16 by omega, hi] using this

/-- The shifts of a small sum are plain shifts: no bit reaches the top. -/
theorem crcShifts_small (n : Nat) (c : Half) (h : c.toNat < 2 ^ (16 - n)) (hn : n ≤ 16) : crcShifts n c = c <<< n := by
  induction n generalizing c with
  | zero => simp [crcShifts]
  | succ n ih =>
    have hp : 2 ^ (16 - n) = 2 ^ (16 - (n + 1)) * 2 := by rw [← Nat.pow_succ]; congr 1; omega
    have hle : 2 ^ (16 - (n + 1)) ≤ 2 ^ 15 := Nat.pow_le_pow_right (by omega) (by omega)
    have hm : c.msb = false := by rw [BitVec.msb_eq_false_iff_two_mul_lt]; omega
    have hs : crcShift c = c <<< 1 := by simp [crcShift, hm]
    have hl : (c <<< 1).toNat = c.toNat * 2 := by rw [BitVec.toNat_shiftLeft, Nat.shiftLeft_eq]; omega
    rw [crcShifts_succ, hs, ih _ (by rw [hl]; omega) (by omega), ← BitVec.shiftLeft_add, Nat.add_comm]

@[simp] theorem bswap16_bswap16 (x : Half) : bswap16 (bswap16 x) = x := by
  apply BitVec.eq_of_getLsbD_eq
  intro i hi
  simp only [bswap16, BitVec.getLsbD_append, BitVec.getLsbD_extractLsb']
  interval_cases i <;> simp

@[simp] theorem bswap32_bswap32 (x : Wide) : bswap32 (bswap32 x) = x := by
  apply BitVec.eq_of_getLsbD_eq
  intro i hi
  simp only [bswap32, BitVec.getLsbD_append, BitVec.getLsbD_extractLsb']
  interval_cases i <;> simp

end Sys2Proof.Machine
end

