-- ==== Sys2Proof/Laws/Operands.lean ====
section
/-! SUPPORT. The operand forms: each field of a header byte is read back, a bus address stands for itself. -/

namespace Sys2Proof.Machine

@[simp] theorem addrSrc_addrByte (src dst : Nibble) : addrSrc (addrByte src dst) = src := by
  have h : ∀ a b : Nibble, addrSrc (addrByte a b) = a := by decide
  exact h src dst

@[simp] theorem addrDst_addrByte (src dst : Nibble) : addrDst (addrByte src dst) = dst := by
  have h : ∀ a b : Nibble, addrDst (addrByte a b) = b := by decide
  exact h src dst

@[simp] theorem metaMode_metaByte (mode : Bool) (len : Nat) : metaMode (metaByte mode len) = mode := by
  have h : ∀ (m : Bool) (l : BitVec 7), metaMode (BitVec.ofBool m ++ l) = m := by decide
  exact h mode _

@[simp] theorem metaLen_metaByte (mode : Bool) (len : Nat) : metaLen (metaByte mode len) = BitVec.ofNat 7 len := by
  have h : ∀ (m : Bool) (l : BitVec 7), metaLen (BitVec.ofBool m ++ l) = l := by decide
  exact h mode _

@[simp] theorem resolveDest_destOf (a last : Nibble) : resolveDest (destOf a) last = a := by
  have h : ∀ a : Nibble, destOf a ≠ replyToLast ∧ (destOf a).setWidth 4 = a := by decide
  rw [resolveDest, if_neg (h a).1, (h a).2]

theorem length_frameBytes (src dst : Nibble) (mode : Bool) (p : List Byte) :
    (frameBytes src dst mode p).length = p.length + 4 := by simp [frameBytes, crcBytes]

/-- The symbols of a frame, spelled out. -/
theorem frameSymbols_eq (src dst : Nibble) (mode : Bool) (p : List Byte) :
    frameSymbols src dst mode p =
      .brk :: .byte (addrByte src dst) true :: .byte (metaByte mode p.length) false ::
        (p ++ crcBytes (crc16 (addrByte src dst :: metaByte mode p.length :: p))).map (fun b => .byte b false) := rfl

end Sys2Proof.Machine
end

