-- ==== Sys2Proof/Laws/Predicates.lean ====
section
/-! SUPPORT. What the predicates over the state say. -/

namespace Sys2Proof.Machine

theorem isMaster_iff (s : State) : isMaster s = true ↔ s.params.role = .master := by
  unfold isMaster; exact decide_eq_true_iff

theorem isMaster_eq_false_iff (s : State) : isMaster s = false ↔ s.params.role = .slave := by
  unfold isMaster
  cases s.params.role <;> simp

theorem own_of_master {s : State} (h : s.params.role = .master) : own s = 15#4 := by
  unfold own; rw [(isMaster_iff s).mpr h]; rfl

theorem own_of_slave {s : State} (h : s.params.role = .slave) : own s = s.ownAddr := by
  unfold own; rw [(isMaster_eq_false_iff s).mpr h]; rfl

theorem isReply_iff (s : State) :
    isReply s = true ↔ s.rw.state = .pending ∧ s.fe.fSrc = s.rw.dst ∧ s.fe.fDst = own s := by
  unfold isReply
  rw [Bool.and_eq_true, Bool.and_eq_true, decide_eq_true_iff, decide_eq_true_iff, decide_eq_true_iff, and_assoc]

theorem channelIdle_iff (s : State) :
    channelIdle s = true ↔ s.fe.fstate = .idle ∧ s.fe.rxActive = false ∧ s.fe.rxEn = true := by
  unfold channelIdle
  rw [Bool.and_eq_true, Bool.and_eq_true, decide_eq_true_iff, Bool.not_eq_true', and_assoc]

theorem destOk_iff (dst : Byte) : destOk dst = true ↔ dst.toNat ≤ 15 ∨ dst = 0xFF#8 := by
  unfold destOk replyToLast
  rw [Bool.or_eq_true, decide_eq_true_iff, beq_iff_eq]

theorem uidLenOk_iff (u : List Byte) : uidLenOk u = true ↔ 1 ≤ u.length ∧ u.length ≤ 12 := by
  unfold uidLenOk uidMax
  rw [Bool.and_eq_true, decide_eq_true_iff, decide_eq_true_iff]

end Sys2Proof.Machine
end

