-- ==== Sys2Proof/Laws/Ops.lean ====
section
/-! SUPPORT. What each shared operation can do, said once. -/

namespace Sys2Proof.Machine

/-! ### Outcomes -/

/-- A guarded effect answers the state it is given or the fault, never a refusal. -/
theorem guarded_next {s t u : State} (h : guarded s t = .next u) : IndicesOk s ∧ u = t := by
  unfold guarded at h
  split at h
  · next hi => exact ⟨hi, by cases h; rfl⟩
  · cases h

@[simp] theorem guarded_of_ok {s : State} (t : State) (h : IndicesOk s) : guarded s t = .next t := if_pos h

/-! ### The frame engine -/

/-- DISCARD is the idle engine and nothing else. -/
theorem discard_eq (s : State) : discard s = { s with fe := idleEngine s.fe } := rfl

/-- What is left of a frame's bytes to fold leaves the received bytes and the header latches alone. -/
theorem drain_fe (s : State) : (drain s).fe = { s.fe with
    crcAcc := crcFold (crcFold s.fe.crcAcc (unread s)) (trailer s), rdIdx := s.fe.fLen,
    crcSt := if crcFold (crcFold s.fe.crcAcc (unread s)) (trailer s) = 0x0000#16 then .valid else .invalid } := by
  unfold drain
  dsimp only
  split <;> rfl

/-- The drain touches the reply wait only to record the awaited reply. -/
theorem drain_rw (s : State) : (drain s).rw = s.rw ∨ (s.rw.state = .pending ∧ (drain s).rw = { s.rw with state :=
    .received }) := by
  unfold drain
  dsimp only
  split
  · next h =>
    right
    have := h.2
    simp only [isReply, Bool.and_eq_true] at this
    exact ⟨of_decide_eq_true this.1.1, rfl⟩
  · left; rfl

/-- RELEASE of a frame that is not half consumed is DISCARD. -/
theorem release_of_consumed {s : State} (h : ¬ (s.fe.fstate = .processing ∧ s.fe.crcSt = .pending)) :
    release s = discard s := by simp [release, h]

theorem release_of_pending {s : State} (h : s.fe.fstate = .processing) (h' : s.fe.crcSt = .pending) :
    release s = discard (drain s) := by simp [release, h, h']

@[simp] theorem release_fstate (s : State) : (release s).fe.fstate = .idle := rfl
@[simp] theorem release_rxActive (s : State) : (release s).fe.rxActive = false := rfl
@[simp] theorem release_rxCnt (s : State) : (release s).fe.rxCnt = 0#8 := rfl
@[simp] theorem release_rxEn (s : State) : (release s).fe.rxEn = true := rfl
@[simp] theorem release_busyCnt (s : State) : (release s).fe.busyCnt = 0#16 := rfl

/-- RELEASE ends idle; it may fold what is left of the frame. -/
theorem release_fe (s : State) : ∃ acc idx st, (release s).fe =
      { idleEngine s.fe with crcAcc := acc, rdIdx := idx, crcSt := st } ∧
    (idx = s.fe.rdIdx ∨ idx = s.fe.fLen) := by
  by_cases h : s.fe.fstate = .processing ∧ s.fe.crcSt = .pending
  · rw [release_of_pending h.1 h.2]
    exact ⟨_, _, _, by rw [discard_fe, drain_fe]; rfl, .inr rfl⟩
  · rw [release_of_consumed h]
    exact ⟨s.fe.crcAcc, s.fe.rdIdx, s.fe.crcSt, rfl, .inl rfl⟩

/-- RELEASE touches the reply wait only to record the awaited reply. -/
theorem release_rw (s : State) :
    (release s).rw = s.rw ∨ (s.rw.state = .pending ∧ (release s).rw = { s.rw with state := .received }) := by
  by_cases h : s.fe.fstate = .processing ∧ s.fe.crcSt = .pending
  · rw [release_of_pending h.1 h.2]; exact drain_rw s
  · rw [release_of_consumed h]; exact .inl rfl

/-- A held frame is released before an answer. -/
theorem endHeld_of_held {s : State} (h : s.fe.fstate = .processing) : endHeld s = release s := if_pos h

/-- Without a held frame nothing ends. -/
theorem endHeld_of_none {s : State} (h : s.fe.fstate ≠ .processing) : endHeld s = s := if_neg h

/-- A property RELEASE keeps is kept by the end of a held frame. -/
theorem endHeld_induct {P : State → Prop} {s : State} (hr : P s → P (release s)) (h : P s) : P (endHeld s) := by
  unfold endHeld
  split
  · exact hr h
  · exact h

/-- A property RELEASE and a transmission keep is kept by SEND. -/
theorem sendFrame_induct {P : State → Prop} {dst : Byte} {mode : Bool} {p : List Byte} {s : State}
    (hr : P s → P (release s)) (ht : ∀ t d, P t → P (discard (transmit d mode p t))) (h : P s) :
    P (sendFrame dst mode p s).1 := by
  unfold sendFrame
  dsimp only
  split
  · exact endHeld_induct hr h
  · exact ht _ _ (endHeld_induct hr h)

/-- SEND leaves the count of the reply wait alone. -/
theorem sendFrame_rw_cnt (dst : Byte) (mode : Bool) (p : List Byte) (s : State) :
    (sendFrame dst mode p s).1.rw.cnt = s.rw.cnt := by
  refine sendFrame_induct (P := fun t => t.rw.cnt = s.rw.cnt) (fun _ => ?_) (fun _ _ h => h) rfl
  rcases release_rw s with e | ⟨-, e⟩ <;> rw [e]

/-- SEND of a payload that fits, with what it releases said by RELEASE. -/
theorem sendFrame_fits {dst : Byte} {mode : Bool} {p : List Byte} {s : State} (h : p.length ≤ maxPayload) :
    sendFrame dst mode p s =
      (discard (transmit (resolveDest dst s.lastAddr) mode p (endHeld s)), .ok) := by
  unfold sendFrame
  rw [if_neg (by omega)]

/-- SEND of a payload that does not fit sends nothing; it ends a held frame. -/
theorem sendFrame_long {dst : Byte} {mode : Bool} {p : List Byte} {s : State} (h : maxPayload < p.length) :
    sendFrame dst mode p s = (endHeld s, .tooLong) := by
  unfold sendFrame
  rw [if_pos h]

/-- SEND from an idle channel. -/
theorem sendFrame_idle {dst : Byte} {mode : Bool} {p : List Byte} {s : State} (h : p.length ≤ maxPayload)
    (hi : s.fe.fstate ≠ .processing) :
    (sendFrame dst mode p s).1 = { s with
      fe := idleEngine s.fe, txOut := s.txOut ++ transmission s (resolveDest dst s.lastAddr) mode p } := by
  rw [sendFrame_fits h, endHeld_of_none hi]; rfl

/-- FINISH, every outcome. -/
theorem finish_eq (s : State) :
    finish s =
      if crcFold s.fe.crcAcc (trailer s) ≠ 0x0000#16 then (discard (checkCrc s), .invalid)
      else if s.fe.fDst = 0#4 ∧ own s ≠ 0#4 then (discard (checkCrc s), .bcast)
      else if isReply s = true then (discard (markReceived (checkCrc s)), .reply)
      else (checkCrc s, .held) := by
  have hr : isReply (checkCrc s) = isReply s := rfl
  unfold finish
  by_cases h : crcFold s.fe.crcAcc (trailer s) = 0x0000#16
  · simp [h, hr]
  · simp [h]

/-- SEND of a payload that fits, as the record a host operation reports. -/
theorem report_sendFrame_fits {dst : Byte} {mode : Bool} {p : List Byte} {s : State} (h : p.length ≤ maxPayload) :
    report (sendFrame dst mode p s) = { release s with
      txOut := s.txOut ++ transmission s (resolveDest dst s.lastAddr) mode p, result := some ⟨.ok, .none⟩ } := by
  rw [sendFrame_fits h]
  by_cases hp : s.fe.fstate = .processing
  · have ho : own (release s) = own s := by simp [own, isMaster]
    have hi : isMaster (release s) = isMaster s := by simp [isMaster]
    rw [endHeld_of_held hp]
    simp only [report, answer, discard, transmit, emit, ho, hi, release_txOut]
    rfl
  · rw [endHeld_of_none hp, release_of_consumed (fun a => hp a.1)]
    rfl

/-! ### The request queue -/

theorem enqueue_long {dst : Byte} {wait : Bool} {p : List Byte} {s : State} (h : maxPayload < p.length) :
    enqueue dst wait p s = (s, .tooLong) := by unfold enqueue; rw [if_pos h]

theorem enqueue_full {dst : Byte} {wait : Bool} {p : List Byte} {s : State} (h : p.length ≤ maxPayload)
    (hq : qcount s = s.params.queueSlots - 1) : enqueue dst wait p s = (s, .queueFull) := by
  unfold enqueue; rw [if_neg (by omega), if_pos hq]

theorem enqueue_room {dst : Byte} {wait : Bool} {p : List Byte} {s : State} (h : p.length ≤ maxPayload)
    (hq : qcount s ≠ s.params.queueSlots - 1) :
    enqueue dst wait p s = ({ s with queue := { s.queue with
      slots := s.queue.slots.modify s.queue.tail.toNat (fillEntry dst wait p)
      tail := nextIndex s s.queue.tail } }, .ok) := by
  unfold enqueue; rw [if_neg (by omega), if_neg hq]

theorem report_enqueue_room {dst : Byte} {wait : Bool} {p : List Byte} {s : State} (h : p.length ≤ maxPayload)
    (hq : qcount s ≠ s.params.queueSlots - 1) : report (enqueue dst wait p s) = pushed dst wait p s := by
  rw [enqueue_room h hq]; rfl

theorem qcount_lt {s : State} (h : 0 < s.params.queueSlots) : qcount s < s.params.queueSlots := Nat.mod_lt _ h

/-! ### The roster -/

theorem slotAt_eq_getElem {s : State} {k : Nat} (h : k < s.roster.slots.length) :
    slotAt s k = s.roster.slots[k] := by simp [slotAt, h]

theorem holdsUid_iff (u : List Byte) (e : Slot) :
    holdsUid u e = true ↔ e.addr ≠ 0#4 ∧ e.uidLen.toNat = u.length ∧ e.uid.readFrom 0 u.length = u := by
  simp [holdsUid, and_assoc]

/-- RESOLVE of an identity that no slot holds. -/
theorem resolve_none {u : List Byte} {s : State} (h : ∀ k < s.roster.slots.length, holdsUid u (slotAt s k) = false) :
    resolve u s = 0#4 := by
  have : s.roster.slots.find? (holdsUid u) = none := by
    rw [List.find?_eq_none]
    intro e he
    obtain ⟨k, hk, rfl⟩ := List.mem_iff_getElem.mp he
    have := h k hk
    rw [slotAt_eq_getElem hk] at this
    simp [this]
  unfold resolve; rw [this]

/-- RESOLVE of an identity: the lowest slot that holds it. -/
theorem resolve_some {u : List Byte} {s : State} {k : Nat} (hk : k < s.roster.slots.length)
    (h : holdsUid u (slotAt s k) = true) (hj : ∀ j < k, holdsUid u (slotAt s j) = false) :
    resolve u s = (slotAt s k).addr := by
  have : s.roster.slots.find? (holdsUid u) = some (slotAt s k) := by
    rw [List.find?_eq_some_iff_getElem]
    refine ⟨h, k, hk, (slotAt_eq_getElem hk).symm, fun j hjk => ?_⟩
    have := hj j hjk
    rw [slotAt_eq_getElem (by omega)] at this
    simp [this]
  unfold resolve; rw [this]

/-- ALLOC finds the lowest free slot. -/
theorem alloc_some {s : State} {k : Nat} (hk : k < s.roster.slots.length) (h : (slotAt s k).addr = 0#4)
    (hj : ∀ j < k, (slotAt s j).addr ≠ 0#4) : alloc s = some k := by
  unfold alloc
  rw [List.findIdx?_eq_some_iff_getElem]
  refine ⟨hk, by rw [← slotAt_eq_getElem hk, h]; rfl, fun j hjk => ?_⟩
  have := hj j hjk
  rw [slotAt_eq_getElem (by omega)] at this
  simpa using this

theorem alloc_none {s : State} (h : ∀ k < s.roster.slots.length, (slotAt s k).addr ≠ 0#4) : alloc s = none := by
  unfold alloc
  rw [List.findIdx?_eq_none_iff]
  intro e he
  obtain ⟨k, hk, rfl⟩ := List.mem_iff_getElem.mp he
  have := h k hk
  rw [slotAt_eq_getElem hk] at this
  simpa using this

/-- An address SCAN answers is that of an occupied slot due a ping. -/
theorem scan_slot {s : State} (hn : 1 ≤ s.params.rosterSlots) (h : (scan s).2 ≠ 0#4) :
    ∃ k < s.params.rosterSlots, (slotAt s k).addr = (scan s).2 ∧ (slotAt s k).addr ≠ 0#4 := by
  unfold scan at h ⊢
  split at h
  · next k hk =>
    have hm := List.mem_of_find?_eq_some hk
    simp only [scanOrder, List.mem_map] at hm
    obtain ⟨i, -, rfl⟩ := hm
    exact ⟨_, Nat.mod_lt _ hn, rfl, h⟩
  · simp at h

/-- A slot after another or the same has been changed. -/
theorem slotAt_modifySlot (k : Nat) (f : Slot → Slot) (s : State) (j : Nat) (hj : j < s.roster.slots.length) :
    slotAt (modifySlot k f s) j = if j = k then f (slotAt s j) else slotAt s j := by
  simp only [slotAt, modifySlot_roster, List.getD_eq_getElem?_getD, List.getElem?_modify]
  rw [List.getElem?_eq_getElem hj]
  by_cases h : j = k
  · subst h; simp
  · simp [h, Ne.symm h]

/-- Changing a slot that exists is setting it. -/
theorem modify_eq_set_slotAt (k : Nat) (f : Slot → Slot) (s : State) (hk : k < s.roster.slots.length) :
    s.roster.slots.modify k f = s.roster.slots.set k (f (slotAt s k)) := by
  rw [slotAt_eq_getElem hk]
  apply List.ext_getElem (by simp)
  intro i h1 h2
  by_cases h : k = i
  · subst h; simp
  · simp [h]

end Sys2Proof.Machine
end

