-- ==== Sys2Proof/Laws/Parse.lean ====
section
/-! SUPPORT. PARSE, READ and the course of a CMD frame, every arm. -/

namespace Sys2Proof.Machine

theorem execParse_running {s : State} (hh : s.halted = false) (hi : IndicesOk s) :
    exec .parse s = .next (succeed (.word8 (parseFrame s).2) (parseFrame s).1) := by
  simp only [exec, execParse, hh, Bool.false_eq_true, if_false, guarded_of_ok _ hi]

theorem parseFrame_notReady {s : State} (h : s.fe.fstate ≠ .ready) : parseFrame s = (s, notReady) := by
  unfold parseFrame; rw [if_pos h]

theorem parseFrame_foreign {s : State} (h : s.fe.fstate = .ready) (hf : foreign (latchHeader s)) :
    parseFrame s = (dropForeign (latchHeader s), noBytes) := by
  unfold parseFrame; rw [if_neg (not_not.mpr h)]; dsimp only; rw [if_pos hf]

/-- The latched frame is for this node: its address or broadcast. -/
theorem not_foreign_latchHeader (s : State) :
    ¬ foreign (latchHeader s) ↔ addrDst (s.fe.rxBuf.read 0) = own s ∨ addrDst (s.fe.rxBuf.read 0) = 0#4 := by
  simp only [foreign, latchHeader_fe, own_latchHeader]
  tauto

theorem parseFrame_command {s : State} (h : s.fe.fstate = .ready) (hf : ¬ foreign (latchHeader s))
    (hm : metaMode (s.fe.rxBuf.read 1) = true) :
    parseFrame s = (runCommand (decodeCommand (framePayload (noteSender (latchHeader s)))) (noteSender (latchHeader s)),
      noBytes) := by
  unfold parseFrame; rw [if_neg (not_not.mpr h)]; dsimp only; rw [if_neg hf, if_pos (by simpa using hm)]

theorem parseFrame_data {s : State} (h : s.fe.fstate = .ready) (hf : ¬ foreign (latchHeader s))
    (hm : metaMode (s.fe.rxBuf.read 1) = false) :
    parseFrame s =
      (if metaLen (s.fe.rxBuf.read 1) = 0#7 then (finish (noteSender (latchHeader s))).1 else noteSender (latchHeader
          s),
        (metaLen (s.fe.rxBuf.read 1)).setWidth 8) := by
  unfold parseFrame; rw [if_neg (not_not.mpr h)]; dsimp only; rw [if_neg hf, if_neg (by simp [hm])]; rfl

/-- The trailer of a frame depends on its received bytes and its length only. -/
theorem trailer_congr {s t : State} (hb : s.fe.rxBuf = t.fe.rxBuf) (hl : s.fe.fLen = t.fe.fLen) :
    trailer s = trailer t := by unfold trailer; rw [hb, hl]

theorem checkCrc_valid {s : State} (h : crcFold s.fe.crcAcc (trailer s) = 0x0000#16) :
    checkCrc s = { s with fe := { s.fe with crcAcc := 0x0000#16, crcSt := .valid } } := by
  unfold checkCrc; dsimp only; rw [h, if_pos rfl]

theorem checkCrc_invalid {s : State} (h : crcFold s.fe.crcAcc (trailer s) ≠ 0x0000#16) :
    checkCrc s = { s with fe := { s.fe with crcAcc := crcFold s.fe.crcAcc (trailer s), crcSt := .invalid } } := by
  unfold checkCrc; dsimp only; rw [if_neg h]

/-- A frame whose payload has been folded and whose CRC is right, before FINISH decides on it. -/
def verified (s : State) : State :=
  { s with fe := { s.fe with crcAcc := 0x0000#16, rdIdx := s.fe.fLen, crcSt := .valid } }

theorem discard_verified (s : State) : discard (verified s) = released s := rfl

theorem finish_foldBytes_invalid {p : List Byte} {s : State} (h : ¬ FrameValid p s) :
    finish (foldBytes p s.fe.fLen s) =
      ({ s with fe := { idleEngine s.fe with
          crcAcc := crcFold s.fe.crcAcc (p ++ trailer s), rdIdx := s.fe.fLen, crcSt := .invalid } }, .invalid) := by
  have hc : crcFold (foldBytes p s.fe.fLen s).fe.crcAcc (trailer (foldBytes p s.fe.fLen s)) =
      crcFold s.fe.crcAcc (p ++ trailer s) := (crcFold_append _ _ _).symm
  have h : crcFold s.fe.crcAcc (p ++ trailer s) ≠ 0x0000#16 := h
  rw [finish_eq, hc, if_pos h, checkCrc_invalid (by rw [hc]; exact h), hc]
  rfl

theorem finish_foldBytes_valid {p : List Byte} {s : State} (h : FrameValid p s) :
    finish (foldBytes p s.fe.fLen s) =
      if s.fe.fDst = 0#4 ∧ own s ≠ 0#4 then (released s, .bcast)
      else if isReply s = true then ({ released s with rw := { s.rw with state := .received } }, .reply)
      else (verified s, .held) := by
  have hc : crcFold (foldBytes p s.fe.fLen s).fe.crcAcc (trailer (foldBytes p s.fe.fLen s)) = 0x0000#16 :=
    (crcFold_append _ _ _).symm.trans h
  have hr : isReply (foldBytes p s.fe.fLen s) = isReply s := rfl
  rw [finish_eq, if_neg (not_not.mpr hc), checkCrc_valid hc, hr]
  rfl

/-! ### The course of a CMD frame -/

/-- A CMD frame with a wrong CRC is discarded, whatever its handler. -/
theorem commandFrame_invalid {p : List Byte} {handle : State → State} {s : State} (h : ¬ FrameValid p s) :
    commandFrame p handle s = { s with fe := { idleEngine s.fe with
      crcAcc := crcFold s.fe.crcAcc (p ++ trailer s), rdIdx := s.fe.fLen, crcSt := .invalid } } := by
  unfold commandFrame; rw [finish_foldBytes_invalid h]; rfl

/-- A broadcast CMD frame at a node with an address is released, whatever its handler. -/
theorem commandFrame_bcast {p : List Byte} {handle : State → State} {s : State} (h : FrameValid p s)
    (hd : s.fe.fDst = 0#4) (ho : own s ≠ 0#4) : commandFrame p handle s = released s := by
  unfold commandFrame; rw [finish_foldBytes_valid h, if_pos ⟨hd, ho⟩]; rfl

theorem endCommand_of_idle {s : State} (h : s.fe.fstate ≠ .processing) : endCommand s = s := if_neg h

theorem endCommand_of_processing {s : State} (h : s.fe.fstate = .processing) : endCommand s = discard s := if_pos h

/-- A CMD frame that is the awaited reply is consumed, whatever its handler. -/
theorem commandFrame_reply {p : List Byte} {handle : State → State} {s : State} (h : AwaitedCommand p s) :
    commandFrame p handle s = consumeReply (.cmd p) { released s with rw := { s.rw with state := .received } } := by
  have hn : ¬ (s.fe.fDst = 0#4 ∧ own s ≠ 0#4) := fun a => a.2 (h.mine ▸ a.1)
  unfold commandFrame
  rw [finish_foldBytes_valid h.valid, if_neg hn, if_pos h.reply]
  exact endCommand_of_idle (by rw [consumeReply_fe]; simp [released])

/-- A CMD frame that is held goes to its handler, and what the handler leaves held is released. -/
theorem commandFrame_held {p : List Byte} {handle : State → State} {s : State} (h : HeldCommand p s) :
    commandFrame p handle s = endCommand (handle (verified s)) := by
  have hn : ¬ (s.fe.fDst = 0#4 ∧ own s ≠ 0#4) := fun a => a.2 (h.mine ▸ a.1)
  unfold commandFrame
  rw [finish_foldBytes_valid h.valid, if_neg hn, if_neg (by simp [h.notReply])]

/-- A handler that does nothing leaves the frame held, and it is released. -/
theorem commandFrame_ignored {p : List Byte} {handle : State → State} {s : State} (h : HeldCommand p s)
    (hh : handle (verified s) = verified s) : commandFrame p handle s = released s := by
  rw [commandFrame_held h, hh, endCommand_of_processing (by simpa [verified] using h.processing), discard_verified]

end Sys2Proof.Machine
end

