-- ==== Sys2Proof/Laws/Replies.lean ====
section
/-! SUPPORT. CONSUME_REPLY and the procedures of each wait kind, every arm. -/

namespace Sys2Proof.Machine

/-- The state with the reply wait ended. -/
def waitCleared (s : State) : State := { s with rw := { s.rw with state := .none, cnt := 0#16 } }

@[simp] theorem waitCleared_params (s : State) : (waitCleared s).params = s.params := rfl
@[simp] theorem waitCleared_fe (s : State) : (waitCleared s).fe = s.fe := rfl
@[simp] theorem waitCleared_hs (s : State) : (waitCleared s).hs = s.hs := rfl
@[simp] theorem waitCleared_roster (s : State) : (waitCleared s).roster = s.roster := rfl
@[simp] theorem waitCleared_rw (s : State) : (waitCleared s).rw = { s.rw with state := .none, cnt := 0#16 } := rfl
@[simp] theorem slotAt_waitCleared (s : State) (k : Nat) : slotAt (waitCleared s) k = slotAt s k := rfl
@[simp] theorem isMaster_waitCleared (s : State) : isMaster (waitCleared s) = isMaster s := rfl
@[simp] theorem occupiedBy_waitCleared (s : State) (d : Nibble) : occupiedBy (waitCleared s) d ↔ occupiedBy s d :=
  Iff.rfl

theorem consumeReply_of_app {o : WaitOutcome} {s : State} (h : s.rw.kind = .app) :
    consumeReply o s = consumeApp o s.rw.dst (waitCleared s) := by
        unfold consumeReply; rw [h]; simp only [waitCleared, h]

theorem consumeReply_of_hsFind {o : WaitOutcome} {s : State} (h : s.rw.kind = .hsFind) :
    consumeReply o s = consumeHsFind o (waitCleared s) := by unfold consumeReply; rw [h]; simp only [waitCleared, h]

theorem consumeReply_of_hsUid {o : WaitOutcome} {s : State} (h : s.rw.kind = .hsUid) :
    consumeReply o s = consumeHsUid o (waitCleared s) := by unfold consumeReply; rw [h]; simp only [waitCleared, h]

theorem consumeReply_of_hsPing {o : WaitOutcome} {s : State} (h : s.rw.kind = .hsPing) :
    consumeReply o s = consumeHsPing o (waitCleared s) := by unfold consumeReply; rw [h]; simp only [waitCleared, h]

theorem consumeReply_of_ping {o : WaitOutcome} {s : State} (h : s.rw.kind = .ping) :
    consumeReply o s = consumePing o s.rw.dst (waitCleared s) := by
  unfold consumeReply; rw [h]; simp only [waitCleared, h]

/-- Every outcome ends the wait. -/
@[simp] theorem consumeReply_rw (o : WaitOutcome) (s : State) :
    (consumeReply o s).rw = { s.rw with state := .none, cnt := 0#16 } := by
  unfold consumeReply
  dsimp only
  split <;> simp

theorem consumePing_absent {o : WaitOutcome} {d : Nibble} {s : State} (h : ¬ occupiedBy s d) : consumePing o d s =
    s := by
  unfold consumePing; rw [if_neg h]

theorem consumePing_answered {o : WaitOutcome} {d : Nibble} {s : State} (h : occupiedBy s d) (ho : o ≠ .timeout) :
    consumePing o d s = modifySlot (d.toNat - 1) (fun e => { e with pingErr := 0#16 }) s := by
  unfold consumePing; rw [if_pos h]; dsimp only; rw [if_neg ho]

theorem consumePing_missed {d : Nibble} {s : State} (h : occupiedBy s d)
    (hlt : (slotAt s (d.toNat - 1)).pingErr.toNat + 1 < s.params.pingErrMax) :
    consumePing .timeout d s = modifySlot (d.toNat - 1) (fun e => { e with pingErr := e.pingErr + 1#16 }) s := by
  unfold consumePing; rw [if_pos h]; dsimp only; rw [if_pos rfl, if_neg (by omega)]

theorem consumePing_evicts {d : Nibble} {s : State} (h : occupiedBy s d)
    (hge : s.params.pingErrMax ≤ (slotAt s (d.toNat - 1)).pingErr.toNat + 1) :
    consumePing .timeout d s = evict (d.toNat - 1) s := by
  unfold consumePing; rw [if_pos h]; dsimp only; rw [if_pos rfl, if_pos (by omega)]

theorem isAck_iff (o : WaitOutcome) : isAck o = true ↔ ∃ uid, o = .cmd (codeAck :: uid) := by
  constructor
  · intro h
    match o with
    | .cmd (c :: uid) => exact ⟨uid, by simp [isAck] at h; rw [h]⟩
    | .cmd [] => simp [isAck] at h
    | .data => simp [isAck] at h
    | .timeout => simp [isAck] at h
  · rintro ⟨uid, rfl⟩; simp [isAck]

/-- At every step of the handshake a reply that is no ACK, or none, ends it. -/
theorem consumeReply_abort {o : WaitOutcome} {s : State} (hk : isHsKind s.rw.kind = true) (ho : isAck o = false) :
    consumeReply o s = setHs .idle (waitCleared s) := by
  cases h : s.rw.kind <;> simp only [h, isHsKind, Bool.false_eq_true] at hk
  · rw [consumeReply_of_hsFind h, consumeHsFind, ho]; rfl
  · rw [consumeReply_of_hsUid h]
    unfold consumeHsUid
    split
    · next c uid =>
      rw [if_neg]
      rintro ⟨rfl, -⟩
      simp [isAck] at ho
    · rfl
  · rw [consumeReply_of_hsPing h, consumeHsPing, ho]; rfl

/-- The consumption of a reply neither reads nor writes the frame engine. -/
theorem consumeReply_withEngine (o : WaitOutcome) (e : FrameEngine) (s : State) :
    consumeReply o { s with fe := e } = { consumeReply o s with fe := e } := by
  have hite : ∀ (c : Prop) [Decidable c] (a b : State),
      ({ (if c then a else b) with fe := e } : State) = if c then { a with fe := e } else { b with fe := e } :=
    fun c _ a b => apply_ite (fun t : State => { t with fe := e }) c a b
  cases h : s.rw.kind
  · rw [consumeReply_of_app h, consumeReply_of_app (by exact h)]
    unfold consumeApp; dsimp only; rw [hite]; rfl
  · rw [consumeReply_of_hsFind h, consumeReply_of_hsFind (by exact h)]
    unfold consumeHsFind; rw [hite]; rfl
  · rw [consumeReply_of_hsUid h, consumeReply_of_hsUid (by exact h)]
    unfold consumeHsUid; split
    · rw [hite]; rfl
    · rfl
  · rw [consumeReply_of_hsPing h, consumeReply_of_hsPing (by exact h)]
    unfold consumeHsPing; split <;> rfl
  · rw [consumeReply_of_ping h, consumeReply_of_ping (by exact h)]
    unfold consumePing; dsimp only; rw [hite, hite, hite]; rfl

end Sys2Proof.Machine
end

