-- ==== Sys2Proof/Laws/Commands.lean ====
section
/-! SUPPORT. Every wire command is the course of a CMD frame with its payload and its handler. -/

namespace Sys2Proof.Machine

/-- What a held command is handled by. -/
def handlerOf : Instr → State → State
  | .signal args => handleSignal args
  | .find args => handleFind args
  | .getUid args => handleGetUid args
  | .ping args => handlePing args
  | _ => ignoreCommand

theorem runCommand_eq {i : Instr} (hf : i.format = .cmd) (s : State) :
    runCommand i s = commandFrame (encode i) (handlerOf i) s := by
  cases i <;> first | rfl | simp [Instr.format] at hf

theorem exec_command {i : Instr} {s : State} (hf : i.format = .cmd) (h : IndicesOk s) :
    exec i s = .next (commandFrame (encode i) (handlerOf i) s) := by
  cases i <;> first | exact guarded_of_ok _ h | simp [Instr.format] at hf

/-- A command whose handler does nothing releases the frame. -/
theorem exec_command_ignored {i : Instr} {s : State} (hf : i.format = .cmd) (h : HeldCommand (encode i) s)
    (hh : handlerOf i (verified s) = verified s) : exec i s = .next (released s) := by
  rw [exec_command hf h.indices, commandFrame_ignored h hh]

/-- The answer to a held command. -/
theorem sendFrame_verified (d : Nibble) (p : List Byte) {s : State} (hp : p.length ≤ maxPayload)
    (h : s.fe.fstate = .processing) :
    (sendFrame (destOf d) true p (verified s)).1 =
      { released s with txOut := s.txOut ++ transmission s d true p } := by
  rw [sendFrame_fits hp, endHeld_of_held (show (verified s).fe.fstate = .processing from h), release_of_consumed
      (by simp [verified]), resolveDest_destOf]
  rfl

/-- A handler's answer leaves nothing for the end of PARSE. -/
theorem endCommand_of_answered {t : State} (h : t.fe.fstate = .idle) : endCommand t = t :=
  endCommand_of_idle (by rw [h]; simp)

/-- What SIGNAL's handler can do. -/
theorem handleSignal_cases (args : List Byte) (s : State) : handleSignal args s = s ∨
    ∃ k n p, isMaster s = true ∧ s.hs.state = .idle ∧ s.rw.state = .none ∧ alloc s = some k ∧
      handleSignal args s = setHs .waitAddrAck (arm .hsFind s.fe.fSrc (sendFrame (destOf s.fe.fSrc) true p
        { s with hs := { s.hs with addr := BitVec.ofNat 4 (k + 1), nonce := n } }).1) := by
  unfold handleSignal
  split
  · next hm ha =>
    split
    · next hc => exact .inr ⟨_, _, _, hm, hc.1, hc.2, ha, rfl⟩
    · exact .inl rfl
  · exact .inl rfl

/-- What FIND's handler can do. -/
theorem handleFind_cases (args : List Byte) (s : State) : handleFind args s = s ∨
    ∃ a : Byte, isMaster s = false ∧ s.sl.state = .signalSent ∧ 1 ≤ a.toNat ∧ a.toNat ≤ 14 ∧
      handleFind args s = modifySlave (fun c => { c with state := .addrSet, hsCnt := 0#16 })
        (setOwn (a.setWidth 4) (sendFrame (destOf s.fe.fSrc) true [codeAck] s).1) := by
  unfold handleFind
  split
  · next n3 n2 n1 n0 a hm =>
    split
    · next hc => exact .inr ⟨_, hm, hc.1, hc.2.2.1, hc.2.2.2, rfl⟩
    · exact .inl rfl
  · exact .inl rfl

/-- What GET_UID's handler can do. -/
theorem handleGetUid_cases (args : List Byte) (s : State) : handleGetUid args s = s ∨
    ∃ p, isMaster s = false ∧ s.sl.state = .addrSet ∧
      handleGetUid args s = modifySlave (fun c => { c with state := .uidSent, hsCnt := 0#16 })
        (sendFrame (destOf s.fe.fSrc) true p s).1 := by
  unfold handleGetUid
  split
  · next hc => exact .inr ⟨_, hc.1, hc.2.2, rfl⟩
  · exact .inl rfl

/-- What PING's handler can do. -/
theorem handlePing_cases (args : List Byte) (s : State) : handlePing args s = s ∨
    (isMaster s = false ∧ (s.sl.state = .uidSent ∨ s.sl.state = .connected) ∧
      handlePing args s = modifySlave (fun c => { c with state := .connected, nopingCnt := 0#16, pingRx := true })
        (sendFrame (destOf s.fe.fSrc) true [codeAck] s).1) := by
  unfold handlePing
  split
  · next hc => exact .inr ⟨hc.1, hc.2.2, rfl⟩
  · exact .inl rfl

theorem decodeCommand_format (p : List Byte) : (decodeCommand p).format = .cmd := by
  cases p with
  | nil => rfl
  | cons code args =>
    simp only [decodeCommand, apply_ite Instr.format]
    simp only [Instr.format, ite_self]

end Sys2Proof.Machine
end

