-- ==== Sys2Proof/Laws/Step.lean ====
section
/-! SUPPORT. What a step can do, said once: the host operations, the events, the step. -/

namespace Sys2Proof.Machine

/-! ### Host operations -/

/-- The state a host operation leaves, its result record apart. -/
inductive HostEffect (s : State) : State → Prop where
  /-- nothing but the record -/
  | none : HostEffect s s
  /-- PARSE -/
  | parse : s.halted = false → IndicesOk s → HostEffect s (parseFrame s).1
  /-- READ of a DATA frame whose verdict is open -/
  | read (n : Byte) : s.halted = false → IndicesOk s → s.fe.fstate = .processing → s.fe.fMode = false →
      s.fe.crcSt = .pending → HostEffect s (readBytes n s).1
  /-- SEND or CMD_SEND, sent or oversized -/
  | send (dst : Byte) (mode : Bool) (p : List Byte) : s.halted = false → IndicesOk s → mayWrite s →
      HostEffect s (sendFrame dst mode p s).1
  /-- PUSH or PUSH_UID that found room -/
  | push (dst : Byte) (wait : Bool) (p : List Byte) : s.halted = false → IndicesOk s →
      HostEffect s (enqueue dst wait p s).1
  /-- REPLY_STATUS that read an outcome -/
  | replyRead : s.halted = false → HostEffect s { s with app := { s.app with st := .none } }

theorem hostEffect_guarded {s u t : State} {r : HostResult} (h : guarded s (answer r u) = .next t)
    (e : IndicesOk s → HostEffect s u) : ∃ r u, t = answer r u ∧ HostEffect s u := by
  obtain ⟨hi, rfl⟩ := guarded_next h
  exact ⟨r, u, rfl, e hi⟩

/-- A host operation answers a record over one of these effects. -/
theorem exec_hostOp {i : Instr} {s t : State} (hf : i.format = .hostOp) (h : exec i s = .next t) :
    ∃ r u, t = answer r u ∧ HostEffect s u := by
  have none : ∀ r, (Host.Outcome.next (answer r s) : Host.Outcome State Fault Refusal) = .next t →
      ∃ r u, t = answer r u ∧ HostEffect s u := fun r h => ⟨r, s, by cases h; rfl, .none⟩
  cases i <;> first | exact none _ h | (simp [Instr.format] at hf; done) | skip
  all_goals clear hf
  all_goals simp only [exec] at h
  case parse =>
    unfold execParse at h
    split at h
    · exact none _ h
    · next hh => exact hostEffect_guarded h fun hi => .parse (by simpa using hh) hi
  case read n =>
    unfold execRead at h
    split at h
    · exact none _ h
    · next hh =>
      split at h
      · exact none _ h
      · next hp =>
        simp only [not_or, not_not] at hp
        exact hostEffect_guarded h fun hi =>
          .read n (by simpa using hh) hi hp.1 (by simpa using hp.2.1) hp.2.2
  case send dst data =>
    unfold execSend at h
    split at h
    · exact none _ h
    · next hh =>
      split at h
      · exact none _ h
      · split at h
        · exact none _ h
        · next hm => exact hostEffect_guarded h fun hi => .send dst false data (by simpa using hh) hi (not_not.mp hm)
  case cmdSend dst cmd args =>
    unfold execCmdSend at h
    split at h
    · exact none _ h
    · next hh =>
      split at h
      · exact none _ h
      · split at h
        · exact none _ h
        · next hm =>
          exact hostEffect_guarded h fun hi => .send dst true (cmd :: args) (by simpa using hh) hi (not_not.mp hm)
  case rxStatus =>
    unfold execRxStatus at h
    split at h <;> exact none _ h
  case push dst wait data =>
    unfold execPush at h
    split at h
    · exact none _ h
    · next hh =>
      split at h
      · exact none _ h
      · exact hostEffect_guarded h fun hi => .push dst wait data (by simpa using hh) hi
  case pushUid uid wait data =>
    unfold execPushUid at h
    split at h
    · exact none _ h
    · next hh =>
      split at h
      · exact none _ h
      · split at h
        · exact none _ h
        · split at h
          · exact hostEffect_guarded h fun _ => .none
          · exact hostEffect_guarded h fun hi => .push _ wait data (by simpa using hh) hi
  case queueStatus =>
    unfold execQueueStatus at h
    split at h <;> exact none _ h
  case rosterRead slot =>
    unfold execRosterRead at h
    split at h
    · exact none _ h
    · split at h
      · exact none _ h
      · split at h
        · exact none _ h
        · exact hostEffect_guarded h fun _ => .none
  case resolveUid uid =>
    unfold execResolveUid at h
    split at h
    · exact none _ h
    · split at h
      · exact none _ h
      · split at h
        · exact none _ h
        · exact hostEffect_guarded h fun _ => .none
  case replyStatus =>
    unfold execReplyStatus at h
    split at h
    · exact none _ h
    · next hh =>
      split at h
      · exact ⟨_, _, by cases h; rfl, .replyRead (by simpa using hh)⟩
      · split at h <;> exact none _ h

/-- A decoder's answer, if it is one, is a host operation. -/
abbrev GivesHostOp (x : Except DecodeReject (Instr × List Byte)) : Prop :=
  ∀ i tail, x = .ok (i, tail) → i.format = .hostOp

theorem givesHostOp_ok {i : Instr} {tail : List Byte} (h : i.format = .hostOp) : GivesHostOp (.ok (i, tail)) := by
  rintro _ _ ⟨⟩; exact h

theorem givesHostOp_ite {c : Prop} [Decidable c] {a b : Except DecodeReject (Instr × List Byte)}
    (ha : GivesHostOp a) (hb : GivesHostOp b) : GivesHostOp (if c then a else b) := by
  split
  · exact ha
  · exact hb

theorem givesHostOp_map {α : Type} {x : Except DecodeReject α} {f : α → Instr × List Byte}
    (h : ∀ v, (f v).1.format = .hostOp) : GivesHostOp (x.map f) := by
  cases x with
  | error e => rintro _ _ ⟨⟩
  | ok v => intro i tail hi; cases hi' : f v; simp [Except.map, hi'] at hi; rw [← hi.1]; have := h v; rw [hi']
      at this; exact this

theorem givesHostOp_bind {α : Type} {x : Except DecodeReject α} {f : α → Except DecodeReject (Instr × List Byte)}
    (h : ∀ v, GivesHostOp (f v)) : GivesHostOp (x >>= f) := by
  cases x with
  | error e => rintro _ _ ⟨⟩
  | ok v => exact h v

/-- The decoder of HOST_OP events gives host operations only. -/
theorem decodeHostOp_format {bytes tail : List Byte} {i : Instr} (h : decodeHostOp bytes = .ok (i, tail)) :
    i.format = .hostOp := by
  cases bytes with
  | nil => cases h
  | cons code rest =>
    refine (show GivesHostOp (decodeOperation code rest) from ?_) i tail h
    unfold decodeOperation
    repeat' first
      | exact givesHostOp_ok rfl
      | exact givesHostOp_map fun _ => rfl
      | exact givesHostOp_bind fun _ => givesHostOp_bind fun _ => givesHostOp_ok rfl
      | exact givesHostOp_bind fun _ => givesHostOp_bind fun _ => givesHostOp_bind fun _ => givesHostOp_ok rfl
      | refine givesHostOp_ite ?_ ?_

/-! ### Events -/

/-- The state an event leaves, from the state it starts from. -/
inductive EventEffect (s : State) : State → Prop where
  /-- an event that is refused, dropped or ignored -/
  | ignored : EventEffect s s
  | reset (cfg : BootConfig) (nonce0 : Wide) : EventEffect s (resetEvent cfg nonce0 s)
  /-- an address mark -/
  | mark (b : Byte) : s.halted = false → s.fe.rxEn = true → EventEffect s (startFrame b s)
  /-- a byte of a frame -/
  | byte (b : Byte) : s.halted = false → s.fe.rxEn = true → s.fe.rxActive = true → IndicesOk s →
      EventEffect s (appendByte b s)
  | tick (presence busy : Bool) (bo : Half) (nonce : Wide) : s.halted = false → legalDraw s bo → IndicesOk s →
      EventEffect s (tick presence busy bo nonce s)
  | hostOp (r : HostResult) (u : State) : HostEffect s u → EventEffect s (answer r u)

theorem runEvent_next {e : Event} {s t : State} (h : runEvent e s = .next t) : EventEffect s t := by
  cases e with
  | reset cfg nonce0 => cases h; exact .reset cfg nonce0
  | rxByte b mark =>
    simp only [runEvent, rxByteEvent] at h
    split at h
    · cases h; exact .ignored
    · next hh =>
      simp only [not_or, Bool.not_eq_true, Bool.not_eq_false] at hh
      split at h
      · cases h; exact .mark b hh.1 hh.2
      · split at h
        · cases h; exact .ignored
        · next ha =>
          obtain ⟨hi, rfl⟩ := guarded_next h
          exact .byte b hh.1 hh.2 (by simpa using ha) hi
  | tick presence busy bo nonce =>
    simp only [runEvent, tickEvent] at h
    split at h
    · cases h
    · next hl =>
      split at h
      · cases h; exact .ignored
      · next hh =>
        obtain ⟨hi, rfl⟩ := guarded_next h
        exact .tick presence busy bo nonce (by simpa using hh) (not_not.mp hl) hi
  | hostOp op operands =>
    simp only [runEvent] at h
    split at h
    · next i tail hd =>
      obtain ⟨r, u, rfl, hu⟩ := exec_hostOp (decodeHostOp_format hd) h
      exact .hostOp r u hu
    · cases h

/-- What a step can do: nothing without an event to come, else one event's effect on the state that event starts
from. -/
theorem step_next {s t : State} (h : step s = .next t) :
    (s.inputs = [] ∧ t = s) ∨ ∃ e rest, s.inputs = e :: rest ∧ EventEffect (beginEvent rest s) t := by
  unfold step at h
  split at h
  · next hi => exact .inl ⟨hi, by cases h; rfl⟩
  · next e rest hi => exact .inr ⟨e, rest, hi, runEvent_next h⟩

end Sys2Proof.Machine
end

