-- ==== Sys2Proof/Laws/TickFrames.lean ====
section
/-! SUPPORT. What the wire commands, PARSE and the parts of a tick leave alone: one lemma per untouched field. -/

namespace Sys2Proof.Machine

/-- A CMD frame leaves alone what its handler leaves alone, but for what the engine and CONSUME_REPLY write. -/
theorem commandFrame_keeps {α : Type} (f : State → α) {p : List Byte} {handle : State → State} (s : State)
    (hfin : ∀ s, f (finish s).1 = f s) (hfold : ∀ s, f (foldBytes p s.fe.fLen s) = f s)
    (hcons : ∀ s, f (consumeReply (.cmd p) s) = f s) (hdisc : ∀ s, f (discard s) = f s)
    (hh : ∀ s, f (handle s) = f s) : f (commandFrame p handle s) = f s := by
  have hend : ∀ t, f (endCommand t) = f t := by
    intro t; unfold endCommand; split
    · exact hdisc t
    · rfl
  have h := (hfin (foldBytes p s.fe.fLen s)).trans (hfold s)
  unfold commandFrame
  split <;> rename_i he <;> rw [he] at h
  · rw [hend, hcons]; exact h
  · rw [hend, hh]; exact h
  · rw [hend]; exact h

theorem runCommand_keeps {α : Type} (f : State → α) (i : Instr) (s : State)
    (hfin : ∀ s, f (finish s).1 = f s) (hfold : ∀ p s, f (foldBytes p s.fe.fLen s) = f s)
    (hcons : ∀ p s, f (consumeReply (.cmd p) s) = f s) (hdisc : ∀ s, f (discard s) = f s)
    (hh : ∀ i s, f (handlerOf i s) = f s) (hf : i.format = .cmd) : f (runCommand i s) = f s := by
  rw [runCommand_eq hf]
  exact commandFrame_keeps f s hfin (hfold _) (hcons _) hdisc (hh i)

@[simp] theorem handlerOf_params (i : Instr) (s : State) : (handlerOf i s).params = s.params := by
  unfold handlerOf; split <;> simp

@[simp] theorem runCommand_params (p : List Byte) (s : State) :
    (runCommand (decodeCommand p) s).params = s.params :=
  runCommand_keeps (·.params) _ s (by simp) (by simp) (by simp) (by simp) (by simp) (decodeCommand_format p)

@[simp] theorem handlerOf_lastAddr (i : Instr) (s : State) : (handlerOf i s).lastAddr = s.lastAddr := by
  unfold handlerOf; split <;> simp

@[simp] theorem runCommand_lastAddr (p : List Byte) (s : State) :
    (runCommand (decodeCommand p) s).lastAddr = s.lastAddr :=
  runCommand_keeps (·.lastAddr) _ s (by simp) (by simp) (by simp) (by simp) (by simp) (decodeCommand_format p)

@[simp] theorem handlerOf_queue (i : Instr) (s : State) : (handlerOf i s).queue = s.queue := by
  unfold handlerOf; split <;> simp

@[simp] theorem runCommand_queue (p : List Byte) (s : State) :
    (runCommand (decodeCommand p) s).queue = s.queue :=
  runCommand_keeps (·.queue) _ s (by simp) (by simp) (by simp) (by simp) (by simp) (decodeCommand_format p)

@[simp] theorem handlerOf_halted (i : Instr) (s : State) : (handlerOf i s).halted = s.halted := by
  unfold handlerOf; split <;> simp

@[simp] theorem runCommand_halted (p : List Byte) (s : State) :
    (runCommand (decodeCommand p) s).halted = s.halted :=
  runCommand_keeps (·.halted) _ s (by simp) (by simp) (by simp) (by simp) (by simp) (decodeCommand_format p)

@[simp] theorem handlerOf_inputs (i : Instr) (s : State) : (handlerOf i s).inputs = s.inputs := by
  unfold handlerOf; split <;> simp

@[simp] theorem runCommand_inputs (p : List Byte) (s : State) :
    (runCommand (decodeCommand p) s).inputs = s.inputs :=
  runCommand_keeps (·.inputs) _ s (by simp) (by simp) (by simp) (by simp) (by simp) (decodeCommand_format p)

@[simp] theorem handlerOf_result (i : Instr) (s : State) : (handlerOf i s).result = s.result := by
  unfold handlerOf; split <;> simp

@[simp] theorem runCommand_result (p : List Byte) (s : State) :
    (runCommand (decodeCommand p) s).result = s.result :=
  runCommand_keeps (·.result) _ s (by simp) (by simp) (by simp) (by simp) (by simp) (decodeCommand_format p)

/-! ### parseFrame -/

@[simp] theorem parseFrame_params (s : State) :
    ((parseFrame s).1).params = s.params := by unfold parseFrame; (try dsimp only); (repeat' split) <;> simp
@[simp] theorem parseFrame_queue (s : State) :
    ((parseFrame s).1).queue = s.queue := by unfold parseFrame; (try dsimp only); (repeat' split) <;> simp
@[simp] theorem parseFrame_halted (s : State) :
    ((parseFrame s).1).halted = s.halted := by unfold parseFrame; (try dsimp only); (repeat' split) <;> simp
@[simp] theorem parseFrame_inputs (s : State) :
    ((parseFrame s).1).inputs = s.inputs := by unfold parseFrame; (try dsimp only); (repeat' split) <;> simp
@[simp] theorem parseFrame_result (s : State) :
    ((parseFrame s).1).result = s.result := by unfold parseFrame; (try dsimp only); (repeat' split) <;> simp

/-! ### engineStep -/

@[simp] theorem engineStep_params (s : State) :
    (engineStep s).params = s.params := by unfold engineStep; (repeat' split) <;> simp
@[simp] theorem engineStep_queue (s : State) :
    (engineStep s).queue = s.queue := by unfold engineStep; (repeat' split) <;> simp
@[simp] theorem engineStep_halted (s : State) :
    (engineStep s).halted = s.halted := by unfold engineStep; (repeat' split) <;> simp
@[simp] theorem engineStep_inputs (s : State) :
    (engineStep s).inputs = s.inputs := by unfold engineStep; (repeat' split) <;> simp
@[simp] theorem engineStep_result (s : State) :
    (engineStep s).result = s.result := by unfold engineStep; (repeat' split) <;> simp

/-! ### outcomeStep -/

@[simp] theorem outcomeStep_params (s : State) :
    (outcomeStep s).params = s.params := by unfold outcomeStep; (repeat' split) <;> simp
@[simp] theorem outcomeStep_fe (s : State) :
    (outcomeStep s).fe = s.fe := by unfold outcomeStep; (repeat' split) <;> simp
@[simp] theorem outcomeStep_ownAddr (s : State) :
    (outcomeStep s).ownAddr = s.ownAddr := by unfold outcomeStep; (repeat' split) <;> simp
@[simp] theorem outcomeStep_lastAddr (s : State) :
    (outcomeStep s).lastAddr = s.lastAddr := by unfold outcomeStep; (repeat' split) <;> simp
@[simp] theorem outcomeStep_queue (s : State) :
    (outcomeStep s).queue = s.queue := by unfold outcomeStep; (repeat' split) <;> simp
@[simp] theorem outcomeStep_sl (s : State) :
    (outcomeStep s).sl = s.sl := by unfold outcomeStep; (repeat' split) <;> simp
@[simp] theorem outcomeStep_halted (s : State) :
    (outcomeStep s).halted = s.halted := by unfold outcomeStep; (repeat' split) <;> simp
@[simp] theorem outcomeStep_inputs (s : State) :
    (outcomeStep s).inputs = s.inputs := by unfold outcomeStep; (repeat' split) <;> simp
@[simp] theorem outcomeStep_txOut (s : State) :
    (outcomeStep s).txOut = s.txOut := by unfold outcomeStep; (repeat' split) <;> simp
@[simp] theorem outcomeStep_result (s : State) :
    (outcomeStep s).result = s.result := by unfold outcomeStep; (repeat' split) <;> simp

/-! ### pingSlot -/

@[simp] theorem pingSlot_params (a : Nibble) (s : State) : (pingSlot a s).params = s.params := by simp [pingSlot]
@[simp] theorem pingSlot_ownAddr (a : Nibble) (s : State) : (pingSlot a s).ownAddr = s.ownAddr := by simp [pingSlot]
@[simp] theorem pingSlot_lastAddr (a : Nibble) (s : State) :
    (pingSlot a s).lastAddr = s.lastAddr := by simp [pingSlot]
@[simp] theorem pingSlot_app (a : Nibble) (s : State) : (pingSlot a s).app = s.app := by simp [pingSlot]
@[simp] theorem pingSlot_queue (a : Nibble) (s : State) : (pingSlot a s).queue = s.queue := by simp [pingSlot]
@[simp] theorem pingSlot_hs (a : Nibble) (s : State) : (pingSlot a s).hs = s.hs := by simp [pingSlot]
@[simp] theorem pingSlot_sl (a : Nibble) (s : State) : (pingSlot a s).sl = s.sl := by simp [pingSlot]
@[simp] theorem pingSlot_halted (a : Nibble) (s : State) : (pingSlot a s).halted = s.halted := by simp [pingSlot]
@[simp] theorem pingSlot_inputs (a : Nibble) (s : State) : (pingSlot a s).inputs = s.inputs := by simp [pingSlot]
@[simp] theorem pingSlot_result (a : Nibble) (s : State) : (pingSlot a s).result = s.result := by simp [pingSlot]

/-! ### masterInitiate -/

@[simp] theorem masterInitiate_params (s : State) :
    (masterInitiate s).params = s.params := by unfold masterInitiate; (try dsimp only); (repeat' split) <;> simp
@[simp] theorem masterInitiate_ownAddr (s : State) :
    (masterInitiate s).ownAddr = s.ownAddr := by unfold masterInitiate; (try dsimp only); (repeat' split) <;> simp
@[simp] theorem masterInitiate_lastAddr (s : State) :
    (masterInitiate s).lastAddr = s.lastAddr := by unfold masterInitiate; (try dsimp only); (repeat' split) <;> simp
@[simp] theorem masterInitiate_app (s : State) :
    (masterInitiate s).app = s.app := by unfold masterInitiate; (try dsimp only); (repeat' split) <;> simp
@[simp] theorem masterInitiate_sl (s : State) :
    (masterInitiate s).sl = s.sl := by unfold masterInitiate; (try dsimp only); (repeat' split) <;> simp
@[simp] theorem masterInitiate_halted (s : State) :
    (masterInitiate s).halted = s.halted := by unfold masterInitiate; (try dsimp only); (repeat' split) <;> simp
@[simp] theorem masterInitiate_inputs (s : State) :
    (masterInitiate s).inputs = s.inputs := by unfold masterInitiate; (try dsimp only); (repeat' split) <;> simp
@[simp] theorem masterInitiate_result (s : State) :
    (masterInitiate s).result = s.result := by unfold masterInitiate; (try dsimp only); (repeat' split) <;> simp

/-! ### masterStep -/

@[simp] theorem masterStep_params (s : State) :
    (masterStep s).params = s.params := by unfold masterStep; (try dsimp only); (repeat' split) <;> simp
@[simp] theorem masterStep_ownAddr (s : State) :
    (masterStep s).ownAddr = s.ownAddr := by unfold masterStep; (try dsimp only); (repeat' split) <;> simp
@[simp] theorem masterStep_lastAddr (s : State) :
    (masterStep s).lastAddr = s.lastAddr := by unfold masterStep; (try dsimp only); (repeat' split) <;> simp
@[simp] theorem masterStep_app (s : State) :
    (masterStep s).app = s.app := by unfold masterStep; (try dsimp only); (repeat' split) <;> simp
@[simp] theorem masterStep_sl (s : State) :
    (masterStep s).sl = s.sl := by unfold masterStep; (try dsimp only); (repeat' split) <;> simp
@[simp] theorem masterStep_halted (s : State) :
    (masterStep s).halted = s.halted := by unfold masterStep; (try dsimp only); (repeat' split) <;> simp
@[simp] theorem masterStep_inputs (s : State) :
    (masterStep s).inputs = s.inputs := by unfold masterStep; (try dsimp only); (repeat' split) <;> simp
@[simp] theorem masterStep_result (s : State) :
    (masterStep s).result = s.result := by unfold masterStep; (try dsimp only); (repeat' split) <;> simp

/-! ### presenceStep -/

@[simp] theorem presenceStep_params (presence : Bool) (nonce : Wide) (s : State) :
    ((presenceStep presence nonce s).1).params = s.params := by unfold presenceStep; (try dsimp only); (repeat' split)
        <;> simp
@[simp] theorem presenceStep_queue (presence : Bool) (nonce : Wide) (s : State) :
    ((presenceStep presence nonce s).1).queue = s.queue := by unfold presenceStep; (try dsimp only); (repeat' split)
        <;> simp
@[simp] theorem presenceStep_roster (presence : Bool) (nonce : Wide) (s : State) :
    ((presenceStep presence nonce s).1).roster = s.roster := by unfold presenceStep; (try dsimp only); (repeat' split)
        <;> simp
@[simp] theorem presenceStep_hs (presence : Bool) (nonce : Wide) (s : State) :
    ((presenceStep presence nonce s).1).hs = s.hs := by unfold presenceStep; (try dsimp only); (repeat' split) <;> simp
@[simp] theorem presenceStep_halted (presence : Bool) (nonce : Wide) (s : State) :
    ((presenceStep presence nonce s).1).halted = s.halted := by unfold presenceStep; (try dsimp only); (repeat' split)
        <;> simp
@[simp] theorem presenceStep_inputs (presence : Bool) (nonce : Wide) (s : State) :
    ((presenceStep presence nonce s).1).inputs = s.inputs := by unfold presenceStep; (try dsimp only); (repeat' split)
        <;> simp
@[simp] theorem presenceStep_txOut (presence : Bool) (nonce : Wide) (s : State) :
    ((presenceStep presence nonce s).1).txOut = s.txOut := by unfold presenceStep; (try dsimp only); (repeat' split)
        <;> simp
@[simp] theorem presenceStep_result (presence : Bool) (nonce : Wide) (s : State) :
    ((presenceStep presence nonce s).1).result = s.result := by unfold presenceStep; (try dsimp only); (repeat' split)
        <;> simp

/-! ### backoffStep -/

@[simp] theorem backoffStep_params (busy : Bool) (bo : Half) (s : State) :
    (backoffStep busy bo s).params = s.params := by unfold backoffStep; (repeat' split) <;> simp
@[simp] theorem backoffStep_fe (busy : Bool) (bo : Half) (s : State) :
    (backoffStep busy bo s).fe = s.fe := by unfold backoffStep; (repeat' split) <;> simp
@[simp] theorem backoffStep_ownAddr (busy : Bool) (bo : Half) (s : State) :
    (backoffStep busy bo s).ownAddr = s.ownAddr := by unfold backoffStep; (repeat' split) <;> simp
@[simp] theorem backoffStep_lastAddr (busy : Bool) (bo : Half) (s : State) :
    (backoffStep busy bo s).lastAddr = s.lastAddr := by unfold backoffStep; (repeat' split) <;> simp
@[simp] theorem backoffStep_rw (busy : Bool) (bo : Half) (s : State) :
    (backoffStep busy bo s).rw = s.rw := by unfold backoffStep; (repeat' split) <;> simp
@[simp] theorem backoffStep_app (busy : Bool) (bo : Half) (s : State) :
    (backoffStep busy bo s).app = s.app := by unfold backoffStep; (repeat' split) <;> simp
@[simp] theorem backoffStep_queue (busy : Bool) (bo : Half) (s : State) :
    (backoffStep busy bo s).queue = s.queue := by unfold backoffStep; (repeat' split) <;> simp
@[simp] theorem backoffStep_roster (busy : Bool) (bo : Half) (s : State) :
    (backoffStep busy bo s).roster = s.roster := by unfold backoffStep; (repeat' split) <;> simp
@[simp] theorem backoffStep_hs (busy : Bool) (bo : Half) (s : State) :
    (backoffStep busy bo s).hs = s.hs := by unfold backoffStep; (repeat' split) <;> simp
@[simp] theorem backoffStep_halted (busy : Bool) (bo : Half) (s : State) :
    (backoffStep busy bo s).halted = s.halted := by unfold backoffStep; (repeat' split) <;> simp
@[simp] theorem backoffStep_inputs (busy : Bool) (bo : Half) (s : State) :
    (backoffStep busy bo s).inputs = s.inputs := by unfold backoffStep; (repeat' split) <;> simp
@[simp] theorem backoffStep_txOut (busy : Bool) (bo : Half) (s : State) :
    (backoffStep busy bo s).txOut = s.txOut := by unfold backoffStep; (repeat' split) <;> simp
@[simp] theorem backoffStep_result (busy : Bool) (bo : Half) (s : State) :
    (backoffStep busy bo s).result = s.result := by unfold backoffStep; (repeat' split) <;> simp

/-! ### slaveTimers -/

@[simp] theorem slaveTimers_params (nonce : Wide) (s : State) :
    ((slaveTimers nonce s).1).params = s.params := by unfold slaveTimers; (try dsimp only); (repeat' split) <;> simp
@[simp] theorem slaveTimers_queue (nonce : Wide) (s : State) :
    ((slaveTimers nonce s).1).queue = s.queue := by unfold slaveTimers; (try dsimp only); (repeat' split) <;> simp
@[simp] theorem slaveTimers_roster (nonce : Wide) (s : State) :
    ((slaveTimers nonce s).1).roster = s.roster := by unfold slaveTimers; (try dsimp only); (repeat' split) <;> simp
@[simp] theorem slaveTimers_hs (nonce : Wide) (s : State) :
    ((slaveTimers nonce s).1).hs = s.hs := by unfold slaveTimers; (try dsimp only); (repeat' split) <;> simp
@[simp] theorem slaveTimers_halted (nonce : Wide) (s : State) :
    ((slaveTimers nonce s).1).halted = s.halted := by unfold slaveTimers; (try dsimp only); (repeat' split) <;> simp
@[simp] theorem slaveTimers_inputs (nonce : Wide) (s : State) :
    ((slaveTimers nonce s).1).inputs = s.inputs := by unfold slaveTimers; (try dsimp only); (repeat' split) <;> simp
@[simp] theorem slaveTimers_txOut (nonce : Wide) (s : State) :
    ((slaveTimers nonce s).1).txOut = s.txOut := by unfold slaveTimers; (try dsimp only); (repeat' split) <;> simp
@[simp] theorem slaveTimers_result (nonce : Wide) (s : State) :
    ((slaveTimers nonce s).1).result = s.result := by unfold slaveTimers; (try dsimp only); (repeat' split) <;> simp

/-! ### sendSignal -/

@[simp] theorem sendSignal_params (s : State) : (sendSignal s).params = s.params := by simp [sendSignal]
@[simp] theorem sendSignal_ownAddr (s : State) : (sendSignal s).ownAddr = s.ownAddr := by simp [sendSignal]
@[simp] theorem sendSignal_lastAddr (s : State) : (sendSignal s).lastAddr = s.lastAddr := by simp [sendSignal]
@[simp] theorem sendSignal_app (s : State) : (sendSignal s).app = s.app := by simp [sendSignal]
@[simp] theorem sendSignal_queue (s : State) : (sendSignal s).queue = s.queue := by simp [sendSignal]
@[simp] theorem sendSignal_roster (s : State) : (sendSignal s).roster = s.roster := by simp [sendSignal]
@[simp] theorem sendSignal_hs (s : State) : (sendSignal s).hs = s.hs := by simp [sendSignal]
@[simp] theorem sendSignal_halted (s : State) : (sendSignal s).halted = s.halted := by simp [sendSignal]
@[simp] theorem sendSignal_inputs (s : State) : (sendSignal s).inputs = s.inputs := by simp [sendSignal]
@[simp] theorem sendSignal_result (s : State) : (sendSignal s).result = s.result := by simp [sendSignal]

/-! ### slaveInitiate -/

@[simp] theorem slaveInitiate_params (s : State) :
    (slaveInitiate s).params = s.params := by unfold slaveInitiate; (repeat' split) <;> simp
@[simp] theorem slaveInitiate_ownAddr (s : State) :
    (slaveInitiate s).ownAddr = s.ownAddr := by unfold slaveInitiate; (repeat' split) <;> simp
@[simp] theorem slaveInitiate_lastAddr (s : State) :
    (slaveInitiate s).lastAddr = s.lastAddr := by unfold slaveInitiate; (repeat' split) <;> simp
@[simp] theorem slaveInitiate_app (s : State) :
    (slaveInitiate s).app = s.app := by unfold slaveInitiate; (repeat' split) <;> simp
@[simp] theorem slaveInitiate_roster (s : State) :
    (slaveInitiate s).roster = s.roster := by unfold slaveInitiate; (repeat' split) <;> simp
@[simp] theorem slaveInitiate_hs (s : State) :
    (slaveInitiate s).hs = s.hs := by unfold slaveInitiate; (repeat' split) <;> simp
@[simp] theorem slaveInitiate_halted (s : State) :
    (slaveInitiate s).halted = s.halted := by unfold slaveInitiate; (repeat' split) <;> simp
@[simp] theorem slaveInitiate_inputs (s : State) :
    (slaveInitiate s).inputs = s.inputs := by unfold slaveInitiate; (repeat' split) <;> simp
@[simp] theorem slaveInitiate_result (s : State) :
    (slaveInitiate s).result = s.result := by unfold slaveInitiate; (repeat' split) <;> simp

/-! ### slaveStep -/

@[simp] theorem slaveStep_params (nonce : Wide) (s : State) : (slaveStep nonce s).params = s.params := by
  unfold slaveStep
  have h := slaveTimers_params nonce s
  split <;> rename_i he <;> rw [he] at h <;> simpa using h
@[simp] theorem slaveStep_roster (nonce : Wide) (s : State) : (slaveStep nonce s).roster = s.roster := by
  unfold slaveStep
  have h := slaveTimers_roster nonce s
  split <;> rename_i he <;> rw [he] at h <;> simpa using h
@[simp] theorem slaveStep_hs (nonce : Wide) (s : State) : (slaveStep nonce s).hs = s.hs := by
  unfold slaveStep
  have h := slaveTimers_hs nonce s
  split <;> rename_i he <;> rw [he] at h <;> simpa using h
@[simp] theorem slaveStep_halted (nonce : Wide) (s : State) : (slaveStep nonce s).halted = s.halted := by
  unfold slaveStep
  have h := slaveTimers_halted nonce s
  split <;> rename_i he <;> rw [he] at h <;> simpa using h
@[simp] theorem slaveStep_inputs (nonce : Wide) (s : State) : (slaveStep nonce s).inputs = s.inputs := by
  unfold slaveStep
  have h := slaveTimers_inputs nonce s
  split <;> rename_i he <;> rw [he] at h <;> simpa using h
@[simp] theorem slaveStep_result (nonce : Wide) (s : State) : (slaveStep nonce s).result = s.result := by
  unfold slaveStep
  have h := slaveTimers_result nonce s
  split <;> rename_i he <;> rw [he] at h <;> simpa using h

/-! ### tick -/

@[simp] theorem tick_params (presence busy : Bool) (bo : Half) (nonce : Wide) (s : State) :
    (tick presence busy bo nonce s).params = s.params := by
  unfold tick
  have h := presenceStep_params presence nonce s
  split
  · simp
  · split <;> rename_i he <;> rw [he] at h <;> simpa using h
@[simp] theorem tick_halted (presence busy : Bool) (bo : Half) (nonce : Wide) (s : State) :
    (tick presence busy bo nonce s).halted = s.halted := by
  unfold tick
  have h := presenceStep_halted presence nonce s
  split
  · simp
  · split <;> rename_i he <;> rw [he] at h <;> simpa using h
@[simp] theorem tick_inputs (presence busy : Bool) (bo : Half) (nonce : Wide) (s : State) :
    (tick presence busy bo nonce s).inputs = s.inputs := by
  unfold tick
  have h := presenceStep_inputs presence nonce s
  split
  · simp
  · split <;> rename_i he <;> rw [he] at h <;> simpa using h
@[simp] theorem tick_result (presence busy : Bool) (bo : Half) (nonce : Wide) (s : State) :
    (tick presence busy bo nonce s).result = s.result := by
  unfold tick
  have h := presenceStep_result presence nonce s
  split
  · simp
  · split <;> rename_i he <;> rw [he] at h <;> simpa using h

end Sys2Proof.Machine
end

