-- ==== Sys2Proof/Laws/Beside.lean ====
section
/-! SUPPORT. The outputs, the events to come and the result record are read by no procedure, and PARSE reads nothing of
a slave's timers: each procedure commutes with a change of them. -/

namespace Sys2Proof.Machine

/-- `s` with the symbols `x` before its outputs, the events `es` to come, the result `r`, and the slave's registers
changed by `f`. -/
def beside (f : SlaveCtl → SlaveCtl) (x : List Symbol) (es : List Event) (r : Option HostResult) (s : State) :
    State :=
  { s with sl := f s.sl, txOut := x ++ s.txOut, inputs := es, result := r }

section
variable (f : SlaveCtl → SlaveCtl) (x : List Symbol) (es : List Event) (r : Option HostResult) (s : State)

@[simp] theorem beside_params : (beside f x es r s).params = s.params := rfl
@[simp] theorem beside_fe : (beside f x es r s).fe = s.fe := rfl
@[simp] theorem beside_ownAddr : (beside f x es r s).ownAddr = s.ownAddr := rfl
@[simp] theorem beside_lastAddr : (beside f x es r s).lastAddr = s.lastAddr := rfl
@[simp] theorem beside_rw : (beside f x es r s).rw = s.rw := rfl
@[simp] theorem beside_app : (beside f x es r s).app = s.app := rfl
@[simp] theorem beside_queue : (beside f x es r s).queue = s.queue := rfl
@[simp] theorem beside_roster : (beside f x es r s).roster = s.roster := rfl
@[simp] theorem beside_hs : (beside f x es r s).hs = s.hs := rfl
@[simp] theorem beside_halted : (beside f x es r s).halted = s.halted := rfl
@[simp] theorem beside_sl : (beside f x es r s).sl = f s.sl := rfl
@[simp] theorem isMaster_beside : isMaster (beside f x es r s) = isMaster s := rfl
@[simp] theorem own_beside : own (beside f x es r s) = own s := rfl
@[simp] theorem channelIdle_beside : channelIdle (beside f x es r s) = channelIdle s := rfl
@[simp] theorem isReply_beside : isReply (beside f x es r s) = isReply s := rfl
@[simp] theorem qcount_beside : qcount (beside f x es r s) = qcount s := rfl
@[simp] theorem slotAt_beside (k) : slotAt (beside f x es r s) k = slotAt s k := rfl
@[simp] theorem alloc_beside : alloc (beside f x es r s) = alloc s := rfl
@[simp] theorem headEntry_beside : headEntry (beside f x es r s) = headEntry s := rfl

theorem occupiedBy_beside (d) : occupiedBy (beside f x es r s) d ↔ occupiedBy s d := Iff.rfl

/-- A change distributes over a choice. -/
theorem beside_ite (c : Prop) [Decidable c] (a b : State) :
    beside f x es r (if c then a else b) = if c then beside f x es r a else beside f x es r b := apply_ite _ _ _ _

@[simp] theorem discard_beside : discard (beside f x es r s) = beside f x es r (discard s) := rfl
@[simp] theorem checkCrc_beside : checkCrc (beside f x es r s) = beside f x es r (checkCrc s) := rfl
@[simp] theorem foldBytes_beside (b i) : foldBytes b i (beside f x es r s) = beside f x es r (foldBytes b i s) := rfl
@[simp] theorem markReceived_beside : markReceived (beside f x es r s) = beside f x es r (markReceived s) := rfl
@[simp] theorem unread_beside : unread (beside f x es r s) = unread s := rfl
@[simp] theorem arm_beside (k d) : arm k d (beside f x es r s) = beside f x es r (arm k d s) := rfl
@[simp] theorem setHs_beside (h) : setHs h (beside f x es r s) = beside f x es r (setHs h s) := rfl
@[simp] theorem modifySlot_beside (k g) :
    modifySlot k g (beside f x es r s) = beside f x es r (modifySlot k g s) := rfl
@[simp] theorem evict_beside (k) : evict k (beside f x es r s) = beside f x es r (evict k s) := rfl
@[simp] theorem commit_beside (a l u) : commit a l u (beside f x es r s) = beside f x es r (commit a l u s) := rfl
@[simp] theorem latchUid_beside (u) : latchUid u (beside f x es r s) = beside f x es r (latchUid u s) := rfl
@[simp] theorem latchHeader_beside : latchHeader (beside f x es r s) = beside f x es r (latchHeader s) := rfl
@[simp] theorem noteSender_beside : noteSender (beside f x es r s) = beside f x es r (noteSender s) := rfl
@[simp] theorem dropForeign_beside : dropForeign (beside f x es r s) = beside f x es r (dropForeign s) := rfl
@[simp] theorem framePayload_beside : framePayload (beside f x es r s) = framePayload s := rfl

@[simp] theorem setOwn_beside (a) : setOwn a (beside f x es r s) = beside f x es r (setOwn a s) := by
  unfold setOwn; rw [beside_ite]; rfl
@[simp] theorem drain_beside : drain (beside f x es r s) = beside f x es r (drain s) := by
  unfold drain; dsimp only; rw [beside_ite]; rfl
@[simp] theorem release_beside : release (beside f x es r s) = beside f x es r (release s) := by
  unfold release
  rw [← discard_beside, beside_ite, ← drain_beside]; rfl
@[simp] theorem endHeld_beside : endHeld (beside f x es r s) = beside f x es r (endHeld s) := by
  unfold endHeld; rw [beside_ite, ← release_beside]; rfl
@[simp] theorem transmit_beside (d m p) :
    transmit d m p (beside f x es r s) = beside f x es r (transmit d m p s) := by
  simp [transmit, emit, beside]
  rfl
@[simp] theorem sendFrame_beside (d m p) :
    (sendFrame d m p (beside f x es r s)).1 = beside f x es r (sendFrame d m p s).1 := by
  by_cases h : p.length ≤ maxPayload
  · rw [sendFrame_fits h, sendFrame_fits h, endHeld_beside, transmit_beside]; rfl
  · rw [sendFrame_long (by omega), sendFrame_long (by omega), endHeld_beside]
@[simp] theorem busyTick_beside : busyTick (beside f x es r s) = beside f x es r (busyTick s) := by
  unfold busyTick; dsimp only
  rw [beside_ite, beside_ite, beside_ite, ← release_beside]; rfl
@[simp] theorem rwTick_beside : rwTick (beside f x es r s) = beside f x es r (rwTick s) := by
  unfold rwTick; rw [beside_ite]; rfl
@[simp] theorem consumeReply_beside (o) :
    consumeReply o (beside f x es r s) = beside f x es r (consumeReply o s) := by
  cases h : s.rw.kind
  · rw [consumeReply_of_app h, consumeReply_of_app (by exact h)]
    simp only [consumeApp]; rw [beside_ite]; rfl
  · rw [consumeReply_of_hsFind h, consumeReply_of_hsFind (by exact h)]
    simp only [consumeHsFind]; rw [beside_ite]; rfl
  · rw [consumeReply_of_hsUid h, consumeReply_of_hsUid (by exact h)]
    unfold consumeHsUid; split
    · rw [beside_ite]; rfl
    · rfl
  · rw [consumeReply_of_hsPing h, consumeReply_of_hsPing (by exact h)]
    simp only [consumeHsPing]; rw [← setHs_beside, beside_ite]; rfl
  · rw [consumeReply_of_ping h, consumeReply_of_ping (by exact h)]
    simp only [consumePing]; rw [beside_ite, beside_ite, beside_ite]; rfl
@[simp] theorem endCommand_beside : endCommand (beside f x es r s) = beside f x es r (endCommand s) := by
  unfold endCommand; rw [beside_ite]; rfl

theorem finish_beside : finish (beside f x es r s) = (beside f x es r (finish s).1, (finish s).2) := by
  rw [finish_eq, finish_eq]
  by_cases h1 : crcFold s.fe.crcAcc (trailer s) ≠ 0x0000#16
  · rw [if_pos h1, if_pos (by exact h1)]; rfl
  · rw [if_neg h1, if_neg (by exact h1)]
    by_cases h2 : s.fe.fDst = 0#4 ∧ own s ≠ 0#4
    · rw [if_pos h2, if_pos (by exact h2)]; rfl
    · rw [if_neg h2, if_neg (by exact h2)]
      by_cases h3 : isReply s = true
      · rw [if_pos h3, if_pos (by exact h3)]; rfl
      · rw [if_neg h3, if_neg (by exact h3)]; rfl

@[simp] theorem handleSignal_beside (args) :
    handleSignal args (beside f x es r s) = beside f x es r (handleSignal args s) := by
  unfold handleSignal
  rw [isMaster_beside, alloc_beside]
  split
  · rw [beside_ite]; congr 1; dsimp only; rw [← setHs_beside, ← arm_beside, ← sendFrame_beside]; rfl
  · rfl

/-- A change of the slave's registers that no wire command sees. -/
structure Unseen (f : SlaveCtl → SlaveCtl) : Prop where
  state : ∀ c, c.state ≠ .disconnected → (f c).state = c.state
  early : ∀ c, c.state = .disconnected → (f c).state = .disconnected ∨ (f c).state = .pluggedIn
  nonce : ∀ c, (f c).nonce = c.nonce
  uid : ∀ c, (f c).uid = c.uid ∧ (f c).uidLen = c.uidLen
  move : ∀ c st h n g, c.state ≠ .disconnected → st ≠ .disconnected →
    f { c with state := st, hsCnt := h, nopingCnt := n, pingRx := g } =
      { f c with state := st, hsCnt := h, nopingCnt := n, pingRx := g }
  keep : ∀ c, (f c).hsCnt = c.hsCnt ∧ (f c).nopingCnt = c.nopingCnt ∧ (f c).pingRx = c.pingRx

theorem Unseen.state_iff {f : SlaveCtl → SlaveCtl} (h : Unseen f) (c : SlaveCtl) {st : SlState}
    (h1 : st ≠ .disconnected) (h2 : st ≠ .pluggedIn) : (f c).state = st ↔ c.state = st := by
  by_cases hc : c.state = .disconnected
  · rw [hc]
    constructor
    · intro e; rcases h.early c hc with e' | e' <;> rw [e'] at e
      · exact absurd e.symm h1
      · exact absurd e.symm h2
    · intro e; exact absurd e.symm h1
  · rw [h.state c hc]

theorem handleFind_beside (hf : Unseen f) (args) :
    handleFind args (beside f x es r s) = beside f x es r (handleFind args s) := by
  unfold handleFind
  rw [isMaster_beside]
  split
  · rename_i n3 n2 n1 n0 a _
    have hst := hf.state_iff s.sl (st := .signalSent) (by simp) (by simp)
    simp only [beside_sl, hst, hf.nonce, beside_fe, sendFrame_beside, setOwn_beside]
    split
    · next h =>
      have hs : (setOwn (BitVec.setWidth 4 a) (sendFrame (destOf s.fe.fSrc) true [codeAck] s).1).sl = s.sl := by simp
      generalize setOwn (BitVec.setWidth 4 a) (sendFrame (destOf s.fe.fSrc) true [codeAck] s).1 = t at *
      have := hf.move t.sl .addrSet 0#16 t.sl.nopingCnt t.sl.pingRx (by rw [hs, h.1]; simp) (by simp)
      simp only [modifySlave, beside, this, (hf.keep t.sl).2.1, (hf.keep t.sl).2.2]
    · rfl
  · rfl

theorem handleGetUid_beside (hf : Unseen f) (args) :
    handleGetUid args (beside f x es r s) = beside f x es r (handleGetUid args s) := by
  unfold handleGetUid
  have hst := hf.state_iff s.sl (st := .addrSet) (by simp) (by simp)
  simp only [beside_sl, hst, isMaster_beside, beside_fe, (hf.uid _).1, (hf.uid _).2, sendFrame_beside]
  split
  · next h =>
    generalize codeAck :: s.sl.uid.readFrom 0 s.sl.uidLen.toNat = p
    have hs : (sendFrame (destOf s.fe.fSrc) true p s).1.sl = s.sl := by simp
    generalize (sendFrame (destOf s.fe.fSrc) true p s).1 = t at *
    have := hf.move t.sl .uidSent 0#16 t.sl.nopingCnt t.sl.pingRx (by rw [hs, h.2.2]; simp) (by simp)
    simp only [modifySlave, beside, this, (hf.keep t.sl).2.1, (hf.keep t.sl).2.2]
  · rfl

theorem handlePing_beside (hf : Unseen f) (args) :
    handlePing args (beside f x es r s) = beside f x es r (handlePing args s) := by
  unfold handlePing
  have hst := hf.state_iff s.sl (st := .uidSent) (by simp) (by simp)
  have hst' := hf.state_iff s.sl (st := .connected) (by simp) (by simp)
  simp only [beside_sl, hst, hst', isMaster_beside, beside_fe, sendFrame_beside]
  split
  · next h =>
    have hs : (sendFrame (destOf s.fe.fSrc) true [codeAck] s).1.sl = s.sl := by simp
    generalize (sendFrame (destOf s.fe.fSrc) true [codeAck] s).1 = t at *
    have hne : t.sl.state ≠ .disconnected := by rw [hs]; rcases h.2.2 with e | e <;> rw [e] <;> simp
    have := hf.move t.sl .connected t.sl.hsCnt 0#16 true hne (by simp)
    simp only [modifySlave, beside, this, (hf.keep t.sl).1]
  · rfl

/-- Every handler commutes with a change that no command sees. -/
theorem handlerOf_beside (hf : Unseen f) (i : Instr) :
    handlerOf i (beside f x es r s) = beside f x es r (handlerOf i s) := by
  cases i <;> first
    | rfl
    | exact handleSignal_beside ..
    | exact handleFind_beside _ _ _ _ _ hf _
    | exact handleGetUid_beside _ _ _ _ _ hf _
    | exact handlePing_beside _ _ _ _ _ hf _

theorem runCommand_beside (hf : Unseen f) {i : Instr} (hi : i.format = .cmd) :
    runCommand i (beside f x es r s) = beside f x es r (runCommand i s) := by
  rw [runCommand_eq hi, runCommand_eq hi]
  unfold commandFrame
  rw [beside_fe, foldBytes_beside, finish_beside]
  generalize finish (foldBytes (encode i) s.fe.fLen s) = q
  rcases q with ⟨t, o⟩
  cases o <;> dsimp only
  · exact endCommand_beside ..
  · exact endCommand_beside ..
  · rw [consumeReply_beside, endCommand_beside]
  · rw [handlerOf_beside _ _ _ _ _ hf, endCommand_beside]

/-- PARSE commutes with a change that no command sees. -/

theorem parseFrame_beside (hf : Unseen f) :
    (parseFrame (beside f x es r s)).1 = beside f x es r (parseFrame s).1 := by
  by_cases hr : s.fe.fstate = .ready
  · by_cases hg : foreign (latchHeader s)
    · rw [parseFrame_foreign hr hg, parseFrame_foreign (by exact hr) (by exact hg)]; rfl
    · cases hm : metaMode (s.fe.rxBuf.read 1)
      · rw [parseFrame_data hr hg hm, parseFrame_data (by exact hr) (by exact hg) (by exact hm)]
        dsimp only
        rw [latchHeader_beside, noteSender_beside, finish_beside, beside_fe]
        by_cases h0 : metaLen (s.fe.rxBuf.read 1) = 0#7
        · rw [if_pos h0, if_pos h0]
        · rw [if_neg h0, if_neg h0]
      · rw [parseFrame_command hr hg hm, parseFrame_command (by exact hr) (by exact hg) (by exact hm)]
        dsimp only
        rw [latchHeader_beside, noteSender_beside, framePayload_beside]
        exact runCommand_beside _ _ _ _ _ hf (decodeCommand_format _)
  · rw [parseFrame_notReady hr, parseFrame_notReady (by exact hr)]

/-! ### The rest of a tick -/

/-- No change is one that no command sees. -/
theorem unseen_id : Unseen id where
  state _ _ := rfl
  early _ h := .inl h
  nonce _ := rfl
  uid _ := ⟨rfl, rfl⟩
  move _ _ _ _ _ _ _ := rfl
  keep _ := ⟨rfl, rfl, rfl⟩

theorem outcomeStep_beside : outcomeStep (beside f x es r s) = beside f x es r (outcomeStep s) := by
  unfold outcomeStep; rw [beside_ite, beside_ite, ← consumeReply_beside, ← consumeReply_beside]; rfl

theorem engineStep_beside (hf : Unseen f) : engineStep (beside f x es r s) = beside f x es r (engineStep s) := by
  unfold engineStep; rw [← rwTick_beside, ← busyTick_beside, beside_ite, ← parseFrame_beside _ _ _ _ _ hf]; rfl

theorem liveness_beside : liveness (beside f x es r s) = beside f x es r (liveness s) := by
  unfold liveness; rw [beside_ite]; rfl

theorem scan_beside : scan (beside f x es r s) = (beside f x es r (scan s).1, (scan s).2) := by
  unfold scan
  have h1 : scanOrder (beside f x es r s) = scanOrder s := rfl
  have h2 : due (beside f x es r s) = due s := rfl
  rw [h1, h2]
  split <;> rfl

theorem dispatchQueue_beside : dispatchQueue (beside f x es r s) = beside f x es r (dispatchQueue s) := by
  unfold dispatchQueue
  dsimp only
  rw [beside_ite, ← arm_beside, ← sendFrame_beside]; rfl

theorem sendRequest_beside (c k d) :
    sendRequest c k d (beside f x es r s) = beside f x es r (sendRequest c k d s) := by
  unfold sendRequest; rw [← arm_beside, ← sendFrame_beside]

theorem masterInitiate_beside : masterInitiate (beside f x es r s) = beside f x es r (masterInitiate s) := by
  unfold masterInitiate
  rw [beside_hs]
  cases s.hs.state <;> dsimp only
  · rw [scan_beside]; dsimp only; rw [beside_ite, beside_ite, ← dispatchQueue_beside]
    unfold pingSlot
    rw [← modifySlot_beside, ← sendRequest_beside]; rfl
  · rw [← setHs_beside, ← sendRequest_beside]
  · rw [← setHs_beside, ← sendRequest_beside]

theorem masterStep_beside : masterStep (beside f x es r s) = beside f x es r (masterStep s) := by
  unfold masterStep; dsimp only; rw [liveness_beside, masterInitiate_beside, beside_ite]; rfl

/-! ### The slave's step, which reads its own registers -/

theorem slaveReset_beside (n) : slaveReset n (beside id x es r s) = beside id x es r (slaveReset n s) := by
  unfold slaveReset; rw [setOwn_beside]; rfl

theorem slaveTimers_beside (n) :
    slaveTimers n (beside id x es r s) = (beside id x es r (slaveTimers n s).1, (slaveTimers n s).2) := by
  unfold slaveTimers
  have : (beside id x es r s).sl = s.sl := rfl
  rw [this]
  have hm : ∀ g, modifySlave g (beside id x es r s) = beside id x es r (modifySlave g s) := fun _ => rfl
  cases s.sl.state <;> dsimp only <;> first | rfl | (rw [hm, slaveReset_beside, beside_params]; split <;> rfl)

theorem sendSignal_beside : sendSignal (beside id x es r s) = beside id x es r (sendSignal s) := by
  unfold sendSignal; rw [sendFrame_beside]; rfl

theorem slaveInitiate_beside : slaveInitiate (beside id x es r s) = beside id x es r (slaveInitiate s) := by
  unfold slaveInitiate; rw [beside_ite, beside_ite, beside_ite, ← sendSignal_beside, ← dispatchQueue_beside]; rfl

theorem slaveStep_beside (n) : slaveStep n (beside id x es r s) = beside id x es r (slaveStep n s) := by
  unfold slaveStep
  rw [slaveTimers_beside]
  rcases slaveTimers n s with ⟨t, b⟩
  cases b
  · exact slaveInitiate_beside ..
  · rfl
end

/-- The slave's registers after a tick's presence supervision that goes on (45_slave_controller.md R140) and the backoff
(R141). -/
def supervisedRegs (p : Params) (presence busy : Bool) (bo : Half) (c : SlaveCtl) : SlaveCtl :=
  let n := if presence then if c.presCnt.toNat < 65535 then c.presCnt + 1#16 else c.presCnt else 0#16
  { c with
    absCnt := if presence then 0#16 else if c.absCnt.toNat < p.presenceDebounce then c.absCnt + 1#16 else c.absCnt
    presCnt := n
    state := if c.state = .disconnected ∧ presence = true ∧ n.toNat ≥ p.presenceDebounce then .pluggedIn else c.state
    backoff := if busy then bo else if c.backoff.toNat > 0 then c.backoff - 1#16 else c.backoff }

/-- No wire command sees the presence, the absence and the backoff count. -/
theorem unseen_supervisedRegs (p : Params) (presence busy : Bool) (bo : Half) :
    Unseen (supervisedRegs p presence busy bo) where
  state c h := by simp [supervisedRegs, h]
  early c h := by
    rw [← h]
    exact (ite_eq_or_eq _ _ _).symm
  nonce _ := rfl
  uid _ := ⟨rfl, rfl⟩
  move c st h n g h1 h2 := by simp [supervisedRegs, h1, h2]
  keep _ := ⟨rfl, rfl, rfl⟩

/-- A supervision that completes no loss of presence goes on, and changes the slave's counts and state only. -/
theorem presenceStep_goesOn {presence : Bool} {s : State} (n : Wide)
    (h : presence = true ∨ s.sl.absCnt.toNat + 1 ≠ s.params.presenceDebounce) :
    presenceStep presence n s =
      (beside (fun c => { supervisedRegs s.params presence false 0#16 c with backoff := c.backoff }) []
        s.inputs s.result s, false) := by
  cases presence
  · have h := h.resolve_left (by simp)
    by_cases h' : s.sl.absCnt.toNat < s.params.presenceDebounce
    · simp [presenceStep, modifySlave, beside, supervisedRegs, h, h']
    · simp [presenceStep, modifySlave, beside, supervisedRegs, h']
  · simp [presenceStep, modifySlave, beside, supervisedRegs]

/-- A slave's tick that completes no loss of presence (47_tick_schedule.md R158). -/
theorem tick_goesOn {presence : Bool} {s : State} (hm : isMaster s = false) (busy : Bool) (bo : Half) (n : Wide)
    (h : presence = true ∨ s.sl.absCnt.toNat + 1 ≠ s.params.presenceDebounce) :
    tick presence busy bo n s = slaveStep n (outcomeStep (engineStep
      (beside (supervisedRegs s.params presence busy bo) [] s.inputs s.result s))) := by
  have hb : backoffStep busy bo (presenceStep presence n s).1 =
      beside (supervisedRegs s.params presence busy bo) [] s.inputs s.result s := by
    rw [presenceStep_goesOn n h]
    unfold backoffStep
    cases busy
    · by_cases h : s.sl.backoff.toNat > 0
      · rw [if_neg (by simp), if_pos (by exact h)]; simp [modifySlave, beside, supervisedRegs, h]
      · rw [if_neg (by simp), if_neg (by exact h)]; simp [beside, supervisedRegs, h]
    · simp [modifySlave, beside, supervisedRegs]
  unfold tick
  rw [if_neg (by simp [hm]), ← hb, presenceStep_goesOn n h]

/-- A tick that completes no loss of presence commutes with a change of the outputs. -/
theorem tick_beside {presence : Bool} (busy : Bool) (bo : Half) (n : Wide) (x : List Symbol) (es : List Event)
    (r : Option HostResult) {s : State} (hp : tickGoesOn presence s) :
    tick presence busy bo n (beside id x es r s) = beside id x es r (tick presence busy bo n s) := by
  cases hm : isMaster s
  · have hp := hp ((isMaster_eq_false_iff s).mp hm)
    rw [tick_goesOn hm busy bo n hp, tick_goesOn (by exact hm) busy bo n (by exact hp)]
    rw [← slaveStep_beside, ← outcomeStep_beside, ← engineStep_beside _ _ _ _ _ unseen_id]; rfl
  · unfold tick
    rw [if_pos hm, if_pos (by exact hm), engineStep_beside _ _ _ _ _ unseen_id, outcomeStep_beside,
      masterStep_beside]

end Sys2Proof.Machine
end

