-- ==== Sys2Proof/Laws/Engine.lean ====
section
/-! SUPPORT. Where each procedure leaves the frame engine: idle, or as it was, or holding the frame. -/

namespace Sys2Proof.Machine

/-- The ranges of `f_len` and `rd_idx`. -/
abbrev CountsOk (s : State) : Prop := s.fe.fLen.toNat ≤ maxPayload ∧ s.fe.rdIdx.toNat ≤ s.fe.fLen.toNat

/-- The engine as DISCARD leaves it. -/
structure Idled (s : State) : Prop where
  fstate : s.fe.fstate = .idle
  rxActive : s.fe.rxActive = false
  rxCnt : s.fe.rxCnt = 0#8
  rxEn : s.fe.rxEn = true
  busyCnt : s.fe.busyCnt = 0#16
  counts : CountsOk s

theorem Idled.of_fe {s t : State} (h : Idled s) (e : t.fe = s.fe) : Idled t := by
  obtain ⟨a, b, c, d, f, g⟩ := h
  exact ⟨e ▸ a, e ▸ b, e ▸ c, e ▸ d, e ▸ f, by unfold CountsOk at *; rw [e]; exact g⟩

theorem idled_discard {s : State} (h : CountsOk s) : Idled (discard s) := ⟨rfl, rfl, rfl, rfl, rfl, h⟩

theorem countsOk_drain {s : State} (h : CountsOk s) : CountsOk (drain s) := by
  unfold CountsOk; rw [drain_fe]; exact ⟨h.1, le_refl _⟩

theorem idled_release {s : State} (h : CountsOk s) : Idled (release s) := by
  unfold release
  split
  · exact idled_discard (countsOk_drain h)
  · exact idled_discard h

theorem countsOk_release {s : State} (h : CountsOk s) : CountsOk (release s) := (idled_release h).counts

/-- SEND leaves the engine idle, or as it was where an oversized payload meets no held frame. -/
theorem sendFrame_engine {dst : Byte} {mode : Bool} {p : List Byte} {s : State} (h : CountsOk s) :
    Idled (sendFrame dst mode p s).1 ∨ (sendFrame dst mode p s).1.fe = s.fe := by
  by_cases hp : p.length ≤ maxPayload
  · rw [sendFrame_fits hp]
    exact .inl (idled_discard (s := transmit _ _ _ _) (endHeld_induct (P := CountsOk) countsOk_release h))
  · rw [sendFrame_long (by omega)]
    unfold endHeld
    split
    · exact .inl (idled_release h)
    · exact .inr rfl

/-- FINISH, the payload folded: idle but for a held frame. -/
theorem finish_foldBytes_cases (p : List Byte) {s : State} (h : CountsOk s) :
    ((finish (foldBytes p s.fe.fLen s)).2 ≠ .held ∧ Idled (finish (foldBytes p s.fe.fLen s)).1) ∨
    (finish (foldBytes p s.fe.fLen s) = (verified s, .held) ∧ FrameValid p s ∧ isReply s = false ∧
      ¬ (s.fe.fDst = 0#4 ∧ own s ≠ 0#4)) := by
  by_cases hv : FrameValid p s
  · rw [finish_foldBytes_valid hv]
    split
    · exact .inl ⟨by simp, rfl, rfl, rfl, rfl, rfl, h.1, le_refl _⟩
    · next hb =>
      split
      · exact .inl ⟨by simp, rfl, rfl, rfl, rfl, rfl, h.1, le_refl _⟩
      · next hr => exact .inr ⟨rfl, hv, by simpa using hr, hb⟩
  · rw [finish_foldBytes_invalid hv]
    exact .inl ⟨by simp, rfl, rfl, rfl, rfl, rfl, h.1, le_refl _⟩

/-- A handler leaves the engine idle or holding the frame. -/
theorem handlerOf_engine {i : Instr} {s : State} (h : CountsOk s) :
    Idled (handlerOf i s) ∨ (handlerOf i s).fe = s.fe := by
  unfold handlerOf
  split
  · rcases handleSignal_cases _ s with e | ⟨k, n, p, -, -, -, -, e⟩ <;> rw [e]
    · exact .inr rfl
    · rcases sendFrame_engine (dst := destOf s.fe.fSrc) (mode := true) (p := p)
        (s := { s with hs := { s.hs with addr := BitVec.ofNat 4 (k + 1), nonce := n } }) h with x | x
      · exact .inl (Idled.of_fe x rfl)
      · exact .inr x
  · rcases handleFind_cases _ s with e | ⟨a, -, -, -, -, e⟩ <;> rw [e]
    · exact .inr rfl
    · exact (sendFrame_engine h).imp (fun x => Idled.of_fe x (by simp; rfl)) (fun x => by simpa using x)
  · rcases handleGetUid_cases _ s with e | ⟨p, -, -, e⟩ <;> rw [e]
    · exact .inr rfl
    · rcases sendFrame_engine (dst := destOf s.fe.fSrc) (mode := true) (p := p) h with x | x
      · exact .inl (Idled.of_fe x rfl)
      · exact .inr x
  · rcases handlePing_cases _ s with e | ⟨-, -, e⟩ <;> rw [e]
    · exact .inr rfl
    · rcases sendFrame_engine (dst := destOf s.fe.fSrc) (mode := true) (p := [codeAck]) h with x | x
      · exact .inl (Idled.of_fe x rfl)
      · exact .inr x
  · exact .inr rfl

/-- A CMD frame leaves the engine idle, whatever it is and whatever its handler does. -/
theorem idled_runCommand {i : Instr} {s : State} (hf : i.format = .cmd) (h : CountsOk s)
    (hp : s.fe.fstate = .processing) : Idled (runCommand i s) := by
  have hend : ∀ t, Idled t → Idled (endCommand t) := fun t ht => by
    rw [endCommand_of_idle (by rw [ht.fstate]; simp)]; exact ht
  rw [runCommand_eq hf]
  unfold commandFrame
  rcases finish_foldBytes_cases (encode i) h with ⟨hne, hi⟩ | ⟨he, -, -, -⟩
  · split <;> rename_i he <;> rw [he] at hne hi
    · exact hend _ (Idled.of_fe hi (by simp))
    · exact absurd rfl hne
    · exact hend _ hi
  · rw [he]
    dsimp only
    have hv : CountsOk (verified s) := ⟨h.1, le_refl _⟩
    rcases handlerOf_engine (i := i) hv with hi | hi
    · exact hend _ hi
    · have hp' : (handlerOf i (verified s)).fe.fstate = .processing := by rw [hi]; exact hp
      rw [endCommand_of_processing hp']
      exact idled_discard (by unfold CountsOk; rw [hi]; exact hv)

/-- PARSE: nothing ready, or the engine idle, or the frame held with its header latched. -/
theorem parseFrame_cases {s : State}
    (hm : s.fe.fstate = .ready → (metaLen (s.fe.rxBuf.read 1)).toNat ≤ maxPayload) :
    (s.fe.fstate ≠ .ready ∧ parseFrame s = (s, notReady)) ∨
    (s.fe.fstate = .ready ∧ (Idled (parseFrame s).1 ∨
      (parseFrame s).1 = noteSender (latchHeader s) ∨ (parseFrame s).1 = verified (noteSender (latchHeader s)))) := by
  by_cases hr : s.fe.fstate = .ready
  · right
    refine ⟨hr, ?_⟩
    have hc : CountsOk (noteSender (latchHeader s)) := ⟨hm hr, by simp⟩
    by_cases hf : foreign (latchHeader s)
    · rw [parseFrame_foreign hr hf]
      exact .inl ⟨rfl, rfl, rfl, rfl, rfl, hm hr, by simp [dropForeign, discard]⟩
    · cases hmm : metaMode (s.fe.rxBuf.read 1)
      · rw [parseFrame_data hr hf hmm]
        dsimp only
        split
        · next h0 =>
          have hfold : noteSender (latchHeader s) =
              foldBytes [] (noteSender (latchHeader s)).fe.fLen (noteSender (latchHeader s)) := by
            simp [foldBytes, noteSender, latchHeader, h0]
          rw [hfold]
          rcases finish_foldBytes_cases [] hc with ⟨-, hi⟩ | ⟨he, -⟩
          · exact .inl hi
          · right; right; rw [he, ← hfold]
        · exact .inr (.inl rfl)
      · rw [parseFrame_command hr hf hmm]
        exact .inl (idled_runCommand (decodeCommand_format _) hc rfl)
  · exact .inl ⟨hr, parseFrame_notReady hr⟩

theorem countsOk_of_indices {s : State} (h : IndicesOk s) : CountsOk s := h.1

/-- READ: more bytes to come, or the engine idle, or the whole frame held. -/
theorem readBytes_cases (n : Byte) {s : State} (h : CountsOk s) :
    Idled (readBytes n s).1 ∨ (readBytes n s).1 = verified s ∨
    (∃ out i, (readBytes n s).1 = foldBytes out i s ∧ i.toNat < s.fe.fLen.toNat) := by
  have hl := h.1
  unfold maxPayload at hl
  have hidx : (s.fe.rdIdx + BitVec.ofNat 7 (min n.toNat (s.fe.fLen.toNat - s.fe.rdIdx.toNat))).toNat =
      s.fe.rdIdx.toNat + min n.toNat (s.fe.fLen.toNat - s.fe.rdIdx.toNat) := by
    have := h.2
    rw [BitVec.toNat_add, BitVec.toNat_ofNat]; omega
  unfold readBytes
  dsimp only
  split
  · next he =>
    simp only [foldBytes_fe] at he
    rw [he]
    rcases finish_foldBytes_cases
      (s.fe.rxBuf.readFrom (2 + s.fe.rdIdx.toNat) (min n.toNat (s.fe.fLen.toNat - s.fe.rdIdx.toNat))) h with
      ⟨-, hi⟩ | ⟨hh, -⟩
    · exact .inl hi
    · right; left; rw [hh]
  · next he =>
    right; right
    refine ⟨_, _, rfl, ?_⟩
    simp only [foldBytes_fe, ← BitVec.toNat_inj, hidx] at he
    have := h.2
    rw [hidx]; omega

end Sys2Proof.Machine
end

