-- ==== Sys2Proof/Laws/EngineInv.lean ====
section
/-! SUPPORT. The engine's invariant, procedure by procedure. -/

namespace Sys2Proof.Machine

theorem engineInv_of_idled {t : State} (h : Idled t) (hh : t.halted = false) : EngineInv t where
  muted := by rw [h.fstate]; simp
  accumulating := by rw [h.rxActive]; simp
  counted := by rw [h.rxActive]; simp
  buffered := by rw [h.fstate]; simp
  counts := ⟨by rw [h.rxCnt]; simp, h.counts⟩
  haltMutes := by rw [hh]; simp

theorem EngineInv.of_fe {s t : State} (h : EngineInv s) (e : t.fe = s.fe) (eh : t.halted = s.halted) : EngineInv t := by
  obtain ⟨a, b, c, d, f, g⟩ := h
  constructor <;> rw [e] <;> first | assumption | skip
  rw [eh]; exact g

theorem engineInv_parseFrame {s : State} (h : EngineInv s) (hh : s.halted = false) : EngineInv (parseFrame s).1 := by
  rcases parseFrame_cases h.buffered with ⟨-, e⟩ | ⟨hr, hi | e | e⟩
  · rw [e]; exact h
  · exact engineInv_of_idled hi (by simp [hh])
  all_goals
    rw [e]
    have hm : s.fe.rxEn = false := h.muted (by rw [hr]; simp)
    have ha : s.fe.rxActive = false := by
      cases hx : s.fe.rxActive
      · rfl
      · have := h.accumulating hx; rw [hr] at this; simp at this
    constructor <;> simp [hm, ha, hh, verified]
    exact ⟨h.counts.1, h.buffered hr⟩

/-- BUSY_TICK: nothing to count, or the engine freed, or one more tick counted. -/
theorem busyTick_cases {s : State} (h : CountsOk s) :
    (s.fe.fstate = .idle ∧ s.fe.rxActive = false ∧ busyTick s = s) ∨ Idled (busyTick s) ∨
    ((s.fe.fstate ≠ .idle ∨ s.fe.rxActive = true) ∧ s.fe.busyCnt.toNat + 1 ≤ s.params.busyTimeout ∧
      busyTick s = { s with fe := { s.fe with busyCnt := s.fe.busyCnt + 1#16 } }) := by
  unfold busyTick
  split
  · next hc =>
    dsimp only
    split
    · right; left
      split
      · exact idled_release h
      · exact idled_discard h
    · next hle => exact .inr (.inr ⟨hc, by omega, rfl⟩)
  · next hc =>
    simp only [not_or, not_not, Bool.not_eq_true] at hc
    exact .inl ⟨hc.1, hc.2, rfl⟩

theorem engineInv_busyTick {s : State} (h : EngineInv s) (hh : s.halted = false) : EngineInv (busyTick s) := by
  unfold busyTick
  split
  · dsimp only
    split
    · split
      · exact engineInv_of_idled (idled_release h.counts.2) (by simp [hh])
      · exact engineInv_of_idled (idled_discard h.counts.2) (by simp [hh])
    · obtain ⟨a, b, c, d, f, g⟩ := h
      exact ⟨a, b, c, d, f, g⟩
  · exact h

theorem engineInv_sendFrame {dst : Byte} {m : Bool} {p : List Byte} {s : State} (h : EngineInv s)
    (hh : s.halted = false) : EngineInv (sendFrame dst m p s).1 :=
  (sendFrame_engine h.counts.2).elim (engineInv_of_idled · (by simp [hh])) (fun e => h.of_fe e (by simp))

theorem engineInv_dispatchQueue {s : State} (h : EngineInv s) (hh : s.halted = false) : EngineInv (dispatchQueue s) :=
    by
  have := engineInv_sendFrame (dst := destOf (resolveDest (headEntry s).dst s.lastAddr)) (m := false) (p :=
      entryPayload (headEntry s)) (s := { s with queue := { s.queue with head := nextIndex s s.queue.head }
          }) (h.of_fe rfl rfl) hh
  unfold dispatchQueue; dsimp only; split
  · exact this.of_fe rfl rfl
  · exact this

theorem engineInv_masterInitiate {s : State} (h : EngineInv s) (hh : s.halted = false) : EngineInv (masterInitiate
    s) := by
  have hsr : ∀ c k d (s : State), EngineInv s → s.halted = false → EngineInv (sendRequest c k d s) := by
    intro c k d s h hh
    exact (engineInv_sendFrame (dst := destOf d) (m := true) (p := [c]) h hh).of_fe rfl (by rfl)
  unfold masterInitiate
  split
  · exact (hsr _ .hsUid _ _ h hh).of_fe rfl rfl
  · exact (hsr _ .hsPing _ _ h hh).of_fe rfl rfl
  · dsimp only; split
    · exact (hsr _ .ping _ (scan s).1 (h.of_fe (by simp) (by simp)) (by simp [hh])).of_fe rfl rfl
    · split
      · exact engineInv_dispatchQueue h hh
      · exact h
  all_goals exact h

theorem engineInv_slaveReset {n : Wide} {s : State} (h : EngineInv s) (hh : s.halted = false) :
    EngineInv (slaveReset n s) := by
  have hc := h.counts.2
  apply engineInv_of_idled _ (by simp [hh])
  exact ⟨by simp [slaveReset], by simp [slaveReset], by simp [slaveReset], by
      simp [slaveReset], by simp [slaveReset], by simpa [slaveReset, CountsOk] using hc⟩

theorem engineInv_tick {p b : Bool} {bo : Half} {n : Wide} {s : State} (h : EngineInv s) (hh : s.halted = false) :
    EngineInv (tick p b bo n s) := by
  have heng : ∀ s : State, EngineInv s → s.halted = false → EngineInv (outcomeStep (engineStep s)) := by
    intro s h hh
    have h1 : EngineInv (if s.fe.fstate = .ready then (parseFrame s).1 else s) := by
      split
      · exact engineInv_parseFrame h hh
      · exact h
    have hh1 : (if s.fe.fstate = .ready then (parseFrame s).1 else s).halted = false := by split <;> simp [hh]
    have h2 := engineInv_busyTick h1 hh1
    have h3 : EngineInv (engineStep s) := h2.of_fe (by simp [engineStep]) (by simp [engineStep])
    exact h3.of_fe (by simp) (by simp)
  unfold tick
  split
  · unfold masterStep
    dsimp only
    have h1 := heng s h hh
    have h2 : EngineInv (liveness (outcomeStep (engineStep s))) := h1.of_fe (by simp) (by simp)
    split
    · exact engineInv_masterInitiate h2 (by simp [hh])
    · exact h2
  · have hp : EngineInv (presenceStep p n s).1 := by
      unfold presenceStep
      split
      · exact h.of_fe rfl rfl
      · split
        · dsimp only; split
          · exact engineInv_slaveReset (h.of_fe rfl rfl) (by simp [hh])
          · exact h.of_fe rfl rfl
        · exact h.of_fe rfl rfl
    have hph := presenceStep_halted p n s
    split <;> rename_i s1 he <;> rw [he] at hp hph
    · exact hp
    · rw [hh] at hph
      have h1 := heng (backoffStep b bo s1) (hp.of_fe (by simp) (by simp)) (by simp; exact hph)
      generalize hs2 : outcomeStep (engineStep (backoffStep b bo s1)) = s2 at *
      have hh2 : s2.halted = false := by rw [← hs2]; simp; exact hph
      unfold slaveStep
      have ht : EngineInv (slaveTimers n s2).1 := by
        unfold slaveTimers
        split <;> dsimp only <;> (try split) <;> first | exact h1 | exact h1.of_fe rfl rfl |
            exact engineInv_slaveReset (h1.of_fe rfl rfl) (by simp [hh2])
      have hth := slaveTimers_halted n s2
      split <;> rename_i s3 he3 <;> rw [he3] at ht hth
      · exact ht
      · rw [hh2] at hth
        have hth : s3.halted = false := hth
        unfold slaveInitiate
        split
        · split
          · exact (engineInv_sendFrame (dst := destOf masterAddr) (m := true) (p :=
                codeSignal :: hsVersion :: nonceBytes s3.sl.nonce) ht hth).of_fe rfl rfl
          · split
            · exact engineInv_dispatchQueue ht hth
            · exact ht
        · exact ht

theorem engineInv_appendByte {b : Byte} {s : State} (h : EngineInv s) (ha : s.fe.rxActive = true)
    (hh : s.halted = false) (hw : s.fe.rxCnt.toNat ≤ 127) : EngineInv (appendByte b s) := by
  have hn : (s.fe.rxCnt + 1#8).toNat = s.fe.rxCnt.toNat + 1 := by
    rw [BitVec.toNat_add]; simp; omega
  have hc := h.counted ha
  have hacc := h.accumulating ha
  have h2 : s.fe.rxCnt + 1#8 = 2#8 ↔ s.fe.rxCnt.toNat = 1 := by
    rw [← BitVec.toNat_inj, hn]; simp
  have hread : (s.fe.rxBuf.write s.fe.rxCnt.toNat b).read 1 = if s.fe.rxCnt.toNat = 1 then b else s.fe.rxBuf.read 1 :=
      by
    split
    · next e => rw [e]; simp
    · next e => exact Memory.read_write_other _ _ (fun a => e a.symm)
  have hcnt := h.counts
  unfold appendByte
  dsimp only
  simp only [h2, hn]
  have mp : maxPayload = 124 := rfl
  split
  · next hc2 =>
    constructor <;> simp [hacc, hh, hcnt]
  · next hc2 =>
    split
    · next hc3 =>
      constructor
      · simp
      · simp
      · simp
      · simp
        rw [hread]
        split
        · next e => simp [e] at hc2; exact hc2
        · next e => exact (hc.2 (by omega)).1
      · simp [hn]; refine ⟨by omega, hcnt.2⟩
      · simp
    · next hc3 =>
      rw [hread] at hc3
      constructor
      · simp [hacc]
      · simp [hacc, ha]
      · simp [ha, hn, hread]
        intro _
        split
        · next e => simp [e] at hc2 hc3; simp [e]; omega
        · next e => simp [e] at hc3; have := hc.2 (by omega); refine ⟨this.1, by omega⟩
      · simp [hacc]
      · simp [hn]; refine ⟨by omega, hcnt.2⟩
      · simp [hh]

end Sys2Proof.Machine
end

