-- ==== Sys2Proof/Laws/QueueInv.lean ====
section
/-! SUPPORT. The ring of the queue, procedure by procedure. -/

namespace Sys2Proof.Machine

theorem nextIndex_toNat {s : State} (h : s.params.queueSlots ≤ 256) (h0 : 0 < s.params.queueSlots) (i : Byte) :
    (nextIndex s i).toNat = (i.toNat + 1) % s.params.queueSlots := by
  unfold nextIndex
  rw [BitVec.toNat_ofNat]
  have := Nat.mod_lt (i.toNat + 1) h0
  exact Nat.mod_eq_of_lt (by omega)

theorem QueueInv.of_queue {s t : State} (h : QueueInv s) (e : t.queue = s.queue) (ep : t.params = s.params) : QueueInv
    t := by
  obtain ⟨a, b, c, d⟩ := h
  constructor <;> rw [e] <;> (try rw [ep]) <;> assumption

theorem dispatchQueue_queue (s : State) : (dispatchQueue s).queue = { s.queue with head := nextIndex s s.queue.head
    } := by
  unfold dispatchQueue; dsimp only; split <;> simp

theorem queueInv_dispatchQueue {s : State} (hw : s.params.wf) (h : QueueInv s) : QueueInv (dispatchQueue s) := by
  have hq := hw.1
  constructor
  · rw [dispatchQueue_queue, dispatchQueue_params]; exact h.size
  · rw [dispatchQueue_queue, dispatchQueue_params]; dsimp only; rw [nextIndex_toNat (by omega) (by omega)]; exact
        Nat.mod_lt _ (by omega)
  · rw [dispatchQueue_queue, dispatchQueue_params]; exact h.tail
  · rw [dispatchQueue_queue]; exact h.lens

theorem queueInv_enqueue {s : State} (hw : s.params.wf) (h : QueueInv s) (d : Byte) (w : Bool) (p : List Byte) :
    QueueInv (enqueue d w p s).1 := by
  have hq := hw.1
  by_cases hp : p.length ≤ maxPayload
  · by_cases hf : qcount s = s.params.queueSlots - 1
    · rw [enqueue_full hp hf]; exact h
    · rw [enqueue_room hp hf]
      constructor
      · simpa using h.size
      · exact h.head
      · dsimp only; rw [nextIndex_toNat (by omega) (by omega)]; exact Nat.mod_lt _ (by omega)
      · intro e he
        dsimp only at he
        obtain ⟨k, hk, rfl⟩ := List.mem_iff_getElem.mp he
        rw [List.getElem_modify]
        split
        · simp [fillEntry]; unfold maxPayload at *; omega
        · exact h.lens _ (List.getElem_mem _)
  · rw [enqueue_long (by omega)]; exact h

/-- The tick pops at most one entry. -/
theorem tick_queue (p b : Bool) (bo : Half) (n : Wide) (s : State) : (tick p b bo n s).queue = s.queue ∨
    (tick p b bo n s).queue = { s.queue with head := nextIndex s s.queue.head } := by
  have hni : ∀ {t : State}, t.params = s.params → ∀ i, nextIndex t i = nextIndex s i := by
    intro t ht i; unfold nextIndex; rw [ht]
  have hmi : ∀ t : State, (masterInitiate t).queue = t.queue ∨ (masterInitiate t).queue = { t.queue with
      head := nextIndex t t.queue.head } := by
    intro t
    unfold masterInitiate
    split
    · simp
    · simp
    · dsimp only; split
      · simp
      · split
        · right; exact dispatchQueue_queue t
        · simp
    all_goals simp
  unfold tick
  split
  · unfold masterStep
    dsimp only
    split
    · have := hmi (liveness (outcomeStep (engineStep s)))
      rw [hni (by simp)] at this
      simpa using this
    · left; simp
  · have h1 := presenceStep_queue p n s
    have h2 := presenceStep_params p n s
    split <;> rename_i s1 he <;> rw [he] at h1 h2
    · left; exact h1
    · generalize hs2 : outcomeStep (engineStep (backoffStep b bo s1)) = s2
      have h3 : s2.queue = s.queue := by rw [← hs2]; simp; exact h1
      have h4 : s2.params = s.params := by rw [← hs2]; simp; exact h2
      unfold slaveStep
      have h5 := slaveTimers_queue n s2
      have h6 := slaveTimers_params n s2
      split <;> rename_i s3 he3 <;> rw [he3] at h5 h6
      · left; rw [← h3]; exact h5
      · have h5 : s3.queue = s.queue := by rw [← h3]; exact h5
        have h6 : s3.params = s.params := by rw [← h4]; exact h6
        unfold slaveInitiate
        split
        · split
          · left; simp [h5]
          · split
            · right; rw [dispatchQueue_queue, h5, hni h6]
            · left; exact h5
        · left; exact h5

end Sys2Proof.Machine
end

