-- ==== Sys2Proof/Laws/Induct.lean ====
section
/-! SUPPORT. A property that every part keeps is kept by the whole: PARSE, a CMD frame, a tick. -/

namespace Sys2Proof.Machine

/-- What SLAVE_RESET leaves, in the slave role. -/
theorem slaveReset_eq {s : State} (h : s.params.role = .slave) (n : Wide) : slaveReset n s = slaveAfterReset n s := by
  have hm := (isMaster_eq_false_iff s).mpr h
  simp only [slaveReset, setOwn, hm, Bool.false_eq_true, if_false]
  rfl

/-- A property kept by every part of a tick, in the order of 47_tick_schedule.md R158: `P` up to the consumption of the
wait, `Q` after it. -/
theorem tick_induct' {P Q : State → Prop} (p b : Bool) (bo : Half) (n : Wide)
    (hparse : ∀ s, P s → s.fe.fstate = .ready → P (parseFrame s).1)
    (hbusy : ∀ s, P s → P (busyTick s)) (hrw : ∀ s, P s → P (rwTick s))
    (hcons : ∀ o s, P s → s.rw.state = .received ∨ s.rw.state = .timedOut → Q (consumeReply o s))
    (hquiet : ∀ s, P s → s.rw.state ≠ .received → s.rw.state ≠ .timedOut → Q s)
    (hlive : ∀ s, Q s → isMaster s = true → Q (liveness s))
    (hmaster : ∀ s, Q s → isMaster s = true → channelIdle s = true → s.rw.state ≠ .pending → Q (masterInitiate s))
    (hpres : ∀ s, P s → isMaster s = false → (presenceStep p n s).2 = false → P (presenceStep p n s).1)
    (hend : ∀ s, P s → isMaster s = false → (presenceStep p n s).2 = true → Q (presenceStep p n s).1)
    (hback : ∀ s, P s → isMaster s = false → P (backoffStep b bo s))
    (htimers : ∀ s, Q s → isMaster s = false → Q (slaveTimers n s).1)
    (hslave : ∀ s, Q s → isMaster s = false → Q (slaveInitiate s)) {s : State} (h : P s) :
    Q (tick p b bo n s) := by
  have him : ∀ {s t : State}, t.params = s.params → isMaster t = isMaster s := by
    intro s t e; unfold isMaster; rw [e]
  have heng : ∀ s, P s → Q (outcomeStep (engineStep s)) := by
    intro s h
    have h1 : P (engineStep s) := by
      unfold engineStep
      apply hrw; apply hbusy
      split
      · next hr => exact hparse _ h hr
      · exact h
    unfold outcomeStep
    split
    · next e => exact hcons _ _ h1 (.inl e)
    · next e1 =>
      split
      · next e => exact hcons _ _ h1 (.inr e)
      · next e2 => exact hquiet _ h1 e1 e2
  unfold tick
  split
  · next hm =>
    have h1 := heng s h
    have hm1 : isMaster (outcomeStep (engineStep s)) = true := (him (by simp)).trans hm
    unfold masterStep
    dsimp only
    have h2 := hlive _ h1 hm1
    split
    · next hc => exact hmaster _ h2 ((him (by simp)).trans hm1) hc.1 hc.2
    · exact h2
  · next hm =>
    have hm : isMaster s = false := by simpa using hm
    have hp := hpres s h hm
    have hq := hend s h hm
    have hpp := presenceStep_params p n s
    split <;> rename_i s1 he <;> rw [he] at hp hq hpp
    · exact hq rfl
    · have hp := hp rfl
      have hm1 : isMaster s1 = false := (him hpp).trans hm
      have h2 := heng _ (hback s1 hp hm1)
      have hm2 : isMaster (outcomeStep (engineStep (backoffStep b bo s1))) = false := (him (by simp)).trans hm1
      generalize outcomeStep (engineStep (backoffStep b bo s1)) = s2 at *
      unfold slaveStep
      have h3 := htimers s2 h2 hm2
      have h3p := slaveTimers_params n s2
      split <;> rename_i s3 he3 <;> rw [he3] at h3 h3p
      · exact h3
      · exact hslave s3 h3 ((him h3p).trans hm2)

/-- The same for one property throughout. -/
theorem tick_induct {P : State → Prop} (p b : Bool) (bo : Half) (n : Wide)
    (hparse : ∀ s, P s → s.fe.fstate = .ready → P (parseFrame s).1)
    (hbusy : ∀ s, P s → P (busyTick s)) (hrw : ∀ s, P s → P (rwTick s))
    (hcons : ∀ o s, P s → s.rw.state = .received ∨ s.rw.state = .timedOut → P (consumeReply o s))
    (hlive : ∀ s, P s → isMaster s = true → P (liveness s))
    (hmaster : ∀ s, P s → isMaster s = true → channelIdle s = true → s.rw.state ≠ .pending → P (masterInitiate s))
    (hpres : ∀ s, P s → isMaster s = false → P (presenceStep p n s).1)
    (hback : ∀ s, P s → isMaster s = false → P (backoffStep b bo s))
    (htimers : ∀ s, P s → isMaster s = false → P (slaveTimers n s).1)
    (hslave : ∀ s, P s → isMaster s = false → P (slaveInitiate s)) {s : State} (h : P s) :
    P (tick p b bo n s) :=
  tick_induct' p b bo n hparse hbusy hrw hcons (fun _ h _ _ => h) hlive hmaster (fun s h hm _ => hpres s h hm)
    (fun s h hm _ => hpres s h hm) hback htimers hslave h

/-- A property kept by every part of the course of a CMD frame. -/
theorem runCommand_induct {P : State → Prop} {i : Instr} (hf : i.format = .cmd)
    (hfold : ∀ q s, P s → P (foldBytes q s.fe.fLen s)) (hcheck : ∀ s, P s → P (checkCrc s))
    (hmark : ∀ s, P s → s.rw.state = .pending → P (markReceived s)) (hdisc : ∀ s, P s → P (discard s))
    (hcons : ∀ q s, P s → s.rw.state = .received → P (consumeReply (.cmd q) s))
    (hhandle : ∀ s, P s → s.fe.fstate = .processing → P (handlerOf i s)) {s : State}
    (hp : s.fe.fstate = .processing) (h : P s) : P (runCommand i s) := by
  have hend : ∀ t, P t → P (endCommand t) := by
    intro t ht; unfold endCommand; split
    · exact hdisc t ht
    · exact ht
  rw [runCommand_eq hf]
  unfold commandFrame
  have h1 := hcheck _ (hfold (encode i) s h)
  rw [finish_eq]
  split <;> rename_i he
  · split at he
    · simp at he
    · split at he
      · simp at he
      · split at he
        · next hr =>
          have hpend := ((isReply_iff _).mp hr).1
          simp only [Prod.mk.injEq, and_true] at he
          rw [← he]
          exact hend _ (hcons _ _ (hdisc _ (hmark _ h1 hpend)) rfl)
        · simp at he
  · split at he
    · simp at he
    · split at he
      · simp at he
      · split at he
        · simp at he
        · simp only [Prod.mk.injEq, and_true] at he
          rw [← he]; exact hend _ (hhandle _ h1 hp)
  · split at he
    · simp only [Prod.mk.injEq] at he; rw [← he.1]; exact hend _ (hdisc _ h1)
    · split at he
      · simp only [Prod.mk.injEq] at he; rw [← he.1]; exact hend _ (hdisc _ h1)
      · split at he
        · next x y hr =>
          have hpend := ((isReply_iff _).mp hr).1
          simp only [Prod.mk.injEq] at he; rw [← he.1]; exact hend _ (hdisc _ (hmark _ h1 hpend))
        · simp only [Prod.mk.injEq] at he; rw [← he.1]; exact hend _ h1

/-- A property kept by every part of FINISH. -/
theorem finish_induct {P : State → Prop} (hcheck : ∀ s, P s → P (checkCrc s))
    (hmark : ∀ s, P s → s.rw.state = .pending → P (markReceived s)) (hdisc : ∀ s, P s → P (discard s)) {s : State}
    (h : P s) : P (finish s).1 := by
  rw [finish_eq]
  split
  · exact hdisc _ (hcheck _ h)
  · split
    · exact hdisc _ (hcheck _ h)
    · split
      · next hr => exact hdisc _ (hmark _ (hcheck _ h) ((isReply_iff _).mp hr).1)
      · exact hcheck _ h

/-- A property kept by every part of PARSE. -/
theorem parseFrame_induct {P : State → Prop}
    (hlatch : ∀ s, P s → s.fe.fstate = .ready → P (latchHeader s)) (hnote : ∀ s, P s → P (noteSender s))
    (hdrop : ∀ s, P s → P (dropForeign s))
    (hfin : ∀ s, P s → P (finish s).1)
    (hcmd : ∀ q s, P s → s.fe.fstate = .processing → P (runCommand (decodeCommand q) s)) {s : State}
    (h : P s) : P (parseFrame s).1 := by
  by_cases hr : s.fe.fstate = .ready
  · have h1 := hlatch s h hr
    by_cases hf : foreign (latchHeader s)
    · rw [parseFrame_foreign hr hf]; exact hdrop _ h1
    · cases hm : metaMode (s.fe.rxBuf.read 1)
      · rw [parseFrame_data hr hf hm]
        dsimp only
        split
        · exact hfin _ (hnote _ h1)
        · exact hnote _ h1
      · rw [parseFrame_command hr hf hm]; exact hcmd _ _ (hnote _ h1) rfl
  · rw [parseFrame_notReady hr]; exact h

end Sys2Proof.Machine
end

