-- ==== Sys2Proof/Laws/RosterInv.lean ====
section
/-! SUPPORT. The roster and the handshake, procedure by procedure. -/

namespace Sys2Proof.Machine

/-- Changing one member by a function that keeps a property keeps the property of all members. -/
theorem mem_modify_of {α : Type} {l : List α} {k : Nat} {f : α → α} {Q : α → Prop} (h : ∀ e ∈ l, Q e)
    (hf : ∀ e, Q e → Q (f e)) : ∀ e ∈ l.modify k f, Q e := by
  intro e he
  obtain ⟨j, hj, rfl⟩ := List.mem_iff_getElem.mp he
  rw [List.getElem_modify]
  split
  · exact hf _ (h _ (List.getElem_mem _))
  · exact h _ (List.getElem_mem _)

theorem RosterInv.of_same {s t : State} (h : RosterInv s) (hp : t.params = s.params) (hr : t.roster.slots =
    s.roster.slots) (hh : t.hs = s.hs)
    (hn : t.rw.state ≠ .none ↔ s.rw.state ≠ .none) (hk : t.rw.kind = s.rw.kind) : RosterInv t := by
  have hs : ∀ k, slotAt t k = slotAt s k := by intro k; unfold slotAt; rw [hr]
  have hm : isMaster t = isMaster s := by unfold isMaster; rw [hp]
  constructor
  · rw [hr, hp]; exact h.size
  · intro k hk; rw [hs]; rw [hp] at hk; exact h.addrs k hk
  · rw [hr]; exact h.uidLens
  · rw [hr]; exact h.free
  · rw [hh, hp, hs]; exact h.allocated
  · intro kind hk'; rw [hh] at hk'; rw [hn, hk]; exact h.waiting kind hk'
  · rw [hn, hk, hh]; exact h.noOther
  · rw [hh]; exact h.hsUidLen
  · rw [hm, hh]; exact h.slaveHasNone

/-- RELEASE keeps the roster. -/
theorem rosterInv_release {s : State} (h : RosterInv s) : RosterInv (release s) := by
  refine h.of_same (by simp) (by simp) (by simp) ?_ ?_ <;> rcases release_rw s with e | ⟨hp, e⟩ <;> simp [*]

/-- SEND keeps the roster. -/
theorem rosterInv_sendFrame {d m p} {s : State} (h : RosterInv s) : RosterInv (sendFrame d m p s).1 :=
  sendFrame_induct rosterInv_release (fun _ _ h => h.of_same rfl rfl rfl Iff.rfl rfl) h

/-- Arming a wait that is not the handshake's, with the handshake idle or not waiting. -/
theorem rosterInv_arm {s : State} (h : RosterInv s) (k d) (hk : isHsKind k = false) (hh : waitKindOf s.hs.state =
    none) : RosterInv (arm k d s) := by
  refine ⟨h.size, h.addrs, h.uidLens, h.free, h.allocated, ?_, ?_, h.hsUidLen, h.slaveHasNone⟩
  · intro kind hk'; simp at hk'; rw [hh] at hk'; simp at hk'
  · intro _ hk'; simp at hk'; rw [hk] at hk'; simp at hk'

/-- A dispatch keeps the roster, the handshake not waiting. -/
theorem rosterInv_dispatchQueue {s : State} (h : RosterInv s) (hh : waitKindOf s.hs.state = none) : RosterInv
    (dispatchQueue s) := by
  unfold dispatchQueue
  dsimp only
  have h1 : RosterInv (sendFrame (destOf (resolveDest (headEntry s).dst s.lastAddr)) false (entryPayload
      (headEntry s)) { s with queue := { s.queue with head := nextIndex s s.queue.head } }).1 :=
    rosterInv_sendFrame (h.of_same rfl rfl rfl Iff.rfl rfl)
  split
  · exact rosterInv_arm h1 _ _ rfl (by simpa using hh)
  · exact h1

theorem slotAt_addr_modifySlot {s : State} (k : Nat) (f : Slot → Slot) (hf : ∀ e, (f e).addr = e.addr) (j : Nat) :
    (slotAt (modifySlot k f s) j).addr = (slotAt s j).addr := by
  by_cases hj : j < s.roster.slots.length
  · rw [slotAt_modifySlot k f s j hj]; split
    · exact hf _
    · rfl
  · simp [slotAt, hj]

/-- Changing slots without occupying one, making an identity too long or writing a free slot. -/
theorem RosterInv.of_slots {s t : State} (h : RosterInv s) (hp : t.params = s.params) (hl : t.roster.slots.length =
    s.roster.slots.length)
    (ha : ∀ k, (slotAt t k).addr = (slotAt s k).addr ∨ (slotAt t k).addr = 0#4)
    (hu : ∀ e ∈ t.roster.slots, e.uidLen.toNat ≤ uidMax)
    (hz : ∀ e ∈ t.roster.slots, e.addr = 0#4 → e = Slot.blank) (hh : t.hs = s.hs) (hr : t.rw = s.rw) :
    RosterInv t := by
  have hm : isMaster t = isMaster s := by unfold isMaster; rw [hp]
  constructor
  · rw [hl, hp]; exact h.size
  · intro k hk; rw [hp] at hk; rcases ha k with e | e
    · rw [e]; exact h.addrs k hk
    · exact .inl e
  · exact hu
  · exact hz
  · rw [hh, hp]; intro hne
    obtain ⟨h1, h2, h3⟩ := h.allocated hne
    exact ⟨h1, h2, (ha _).elim (·.trans h3) id⟩
  · rw [hr, hh]; exact h.waiting
  · rw [hr, hh]; exact h.noOther
  · rw [hh]; exact h.hsUidLen
  · rw [hm, hh]; exact h.slaveHasNone

/-- Occupying one slot keeps free slots blank. -/
theorem free_modify_occupy {s : State} (h : RosterInv s) (k : Nat) (f : Slot → Slot) (hf : ∀ e, (f e).addr ≠ 0#4) :
    ∀ e ∈ s.roster.slots.modify k f, e.addr = 0#4 → e = Slot.blank :=
  mem_modify_of h.free (fun e _ hz => absurd hz (hf e))

/-- Changing one slot keeps free slots blank: one that is occupied, or by a change that leaves a blank slot blank. -/
theorem free_modify {s : State} (h : RosterInv s) (k : Nat) (f : Slot → Slot) (hf : ∀ e, (f e).addr = e.addr)
    (hb : f Slot.blank = Slot.blank ∨ (slotAt s k).addr ≠ 0#4) :
    ∀ e ∈ s.roster.slots.modify k f, e.addr = 0#4 → e = Slot.blank := by
  intro e he hz
  obtain ⟨j, hj, rfl⟩ := List.mem_iff_getElem.mp he
  have hj' : j < s.roster.slots.length := by simpa using hj
  have hfree := h.free _ (List.getElem_mem hj')
  rw [List.getElem_modify] at hz ⊢
  split at hz
  · next hk =>
    rw [hf] at hz
    rw [if_pos hk]
    rcases hb with hb | hb
    · rw [hfree hz, hb]
    · subst hk; exact absurd hz (by rwa [slotAt_eq_getElem hj'] at hb)
  · next hk => rw [if_neg hk]; exact hfree hz

theorem rosterInv_modifySlot {s : State} (h : RosterInv s) (k : Nat) (f : Slot → Slot) (hf : ∀ e, (f e).addr = e.addr)
    (hu : ∀ e, (f e).uidLen = e.uidLen) (hb : f Slot.blank = Slot.blank ∨ (slotAt s k).addr ≠ 0#4) :
    RosterInv (modifySlot k f s) :=
  h.of_slots rfl (by simp) (fun j => .inl (slotAt_addr_modifySlot k f hf j)) (mem_modify_of h.uidLens (fun e he => by
      rw [hu]; exact he)) (free_modify h k f hf hb) rfl rfl

theorem rosterInv_evict {s : State} (h : RosterInv s) (k : Nat) : RosterInv (evict k s) := by
  refine h.of_slots rfl (by simp) (fun j => ?_) (mem_modify_of h.uidLens (fun e he => by simp [Slot.blank]))
    (mem_modify_of h.free (fun _ _ _ => rfl)) rfl rfl
  by_cases hj : j < s.roster.slots.length
  · unfold evict; rw [slotAt_modifySlot k _ s j hj]; split
    · exact .inr rfl
    · exact .inl rfl
  · left; simp [slotAt, hj]

/-- Every outcome of an outstanding wait keeps the roster. -/
theorem rosterInv_consumeReply (o : WaitOutcome) {s : State} (h : RosterInv s) (hne : s.rw.state ≠ .none) : RosterInv
    (consumeReply o s) := by
  -- the cleared wait
  have hwc : ∀ t : State, t.params = s.params → t.roster = s.roster → t.hs = s.hs → t.rw.state = .none →
      (waitKindOf s.hs.state = none) → RosterInv t := by
    intro t hp hr hh hw hk
    have hs : ∀ k, slotAt t k = slotAt s k := by intro k; unfold slotAt; rw [hr]
    have hm : isMaster t = isMaster s := by unfold isMaster; rw [hp]
    constructor
    · rw [hr, hp]; exact h.size
    · intro k hk; rw [hs]; rw [hp] at hk; exact h.addrs k hk
    · rw [hr]; exact h.uidLens
    · rw [hr]; exact h.free
    · rw [hh, hp, hs]; exact h.allocated
    · intro kind hk'; rw [hh, hk] at hk'; simp at hk'
    · intro hx; exact absurd hw hx
    · rw [hh]; exact h.hsUidLen
    · rw [hm, hh]; exact h.slaveHasNone
  have hnone : isHsKind s.rw.kind = false → waitKindOf s.hs.state = none := by
    intro hk
    cases hx : waitKindOf s.hs.state with
    | none => rfl
    | some kind =>
      have := (h.waiting kind hx).2
      rw [this] at hk
      cases hhs : s.hs.state <;> rw [hhs] at hx <;> simp [waitKindOf] at hx <;> subst hx <;> simp [isHsKind] at hk
  -- handshake: any state change to a non-waiting state with latches of legal length
  have hset : ∀ (st : HsState) (ul : Nibble) (u : Memory), isHsKind s.rw.kind = true → waitKindOf st = none → ul.toNat
      ≤ uidMax →
      RosterInv { waitCleared s with hs := { s.hs with state := st, uidLen := ul, uid := u } } := by
    intro st ul u hk hst hul
    have hw := h.noOther hne hk
    have hnI : s.hs.state ≠ .idle := by intro e; rw [e] at hw; simp [waitKindOf] at hw
    have hM : isMaster s = true := by
      by_contra hm; exact hnI (h.slaveHasNone (by simpa using hm))
    refine ⟨h.size, h.addrs, h.uidLens, h.free, fun _ => h.allocated hnI, ?_, ?_, hul, ?_⟩
    · intro kind hk'; simp [hst] at hk'
    · intro hx; exact absurd rfl hx
    · intro hm; rw [show isMaster { waitCleared s with hs := _ } = isMaster s from rfl, hM] at hm; simp at hm
  cases hk : s.rw.kind with
  | app =>
    rw [consumeReply_of_app hk]
    have hb := hwc { waitCleared s with app := { st := if o = .timeout then .timedOut else .received, src :=
        s.rw.dst } } rfl rfl rfl rfl (hnone (by rw [hk]; rfl))
    unfold consumeApp
    dsimp only
    split
    · exact rosterInv_modifySlot hb _ _ (fun _ => rfl) (fun _ => rfl) (.inl rfl)
    · exact hb
  | hsFind =>
    rw [consumeReply_of_hsFind hk]
    unfold consumeHsFind
    split
    · exact hset .sendGetUid s.hs.uidLen s.hs.uid (by rw [hk]; rfl) rfl h.hsUidLen
    · exact hset .idle s.hs.uidLen s.hs.uid (by rw [hk]; rfl) rfl h.hsUidLen
  | hsUid =>
    rw [consumeReply_of_hsUid hk]
    have hidle := hset .idle s.hs.uidLen s.hs.uid (by rw [hk]; rfl) rfl h.hsUidLen
    unfold consumeHsUid
    split
    · next c u =>
      split
      · next hc =>
        refine hset .sendPing (BitVec.ofNat 4 _) _ (by rw [hk]; rfl) rfl ?_
        split
        · simp [uidMax]
        · have := hc.2; unfold uidMax at *; simp; omega
      · exact hidle
    · exact hidle
  | hsPing =>
    rw [consumeReply_of_hsPing hk]
    have hidle := hset .idle s.hs.uidLen s.hs.uid (by rw [hk]; rfl) rfl h.hsUidLen
    unfold consumeHsPing
    split
    · have hw := h.noOther hne (by rw [hk]; rfl)
      have hnI : s.hs.state ≠ .idle := by intro e; rw [e] at hw; simp [waitKindOf] at hw
      have hal := h.allocated hnI
      have hsz := hidle.size
      constructor
      · simp [commit]; exact h.size
      · intro j hj
        have hj' : j < s.roster.slots.length := by have := h.size; simp at hj; omega
        show (slotAt (modifySlot _ _ (waitCleared s)) j).addr = _ ∨ (slotAt (modifySlot _ _ (waitCleared s))
            j).addr.toNat = _
        rw [slotAt_modifySlot _ _ (waitCleared s) _ hj']
        split
        · next e => right; subst e; simp; omega
        · exact h.addrs j (by simpa using hj)
      · intro e he
        exact mem_modify_of (Q := fun e => e.uidLen.toNat ≤ uidMax) h.uidLens (fun e _ => h.hsUidLen) e
            (by simpa [commit] using he)
      · refine free_modify_occupy h _ _ (fun _ hz => ?_)
        rw [show s.hs.addr = 0#4 from hz] at hal; simp at hal
      · intro hx; simp at hx
      · intro kind hx; simp [waitKindOf] at hx
      · intro hx; exact absurd rfl hx
      · exact h.hsUidLen
      · intro _; rfl
    · exact hidle
  | ping =>
    rw [consumeReply_of_ping hk]
    have hb := hwc (waitCleared s) rfl rfl rfl rfl (hnone (by rw [hk]; rfl))
    unfold consumePing
    dsimp only
    split
    · next hoc =>
      split
      · split
        · exact rosterInv_evict hb _
        · refine rosterInv_modifySlot hb _ _ (fun _ => rfl) (fun _ => rfl) (.inr ?_)
          rw [hoc.2.2]; intro hz; have := hoc.1; rw [hz] at this; simp at this
      · exact rosterInv_modifySlot hb _ _ (fun _ => rfl) (fun _ => rfl) (.inl rfl)
    · exact hb

/-- Every command handler keeps the roster. -/
theorem rosterInv_handlerOf {i : Instr} {s : State} (hw : s.params.wf) (h : RosterInv s) : RosterInv (handlerOf i
    s) := by
  unfold handlerOf
  split
  · rcases handleSignal_cases _ s with e | ⟨k, n, p, hm, hi, hn, hal, e⟩ <;> rw [e]
    · exact h
    · unfold alloc at hal
      rw [List.findIdx?_eq_some_iff_getElem] at hal
      obtain ⟨hk, h1, -⟩ := hal
      have hN := hw.2.1
      have hsz := h.size
      have hk4 : (BitVec.ofNat 4 (k + 1)).toNat = k + 1 := by simp; omega
      have hsl : ∀ x j, slotAt (sendFrame (destOf s.fe.fSrc) true p { s with hs := x }).1 j = slotAt s j := by
        intro x j; unfold slotAt; rw [sendFrame_roster]
      constructor
      · simp; exact hsz
      · intro j hj; simp at hj
        have := h.addrs j hj
        simpa [hsl] using this
      · simpa using h.uidLens
      · simpa using h.free
      · intro _
        simp only [setHs_hs, arm_hs, sendFrame_hs, setHs_params, arm_params, sendFrame_params, slotAt_setHs,
            slotAt_arm, hsl, hk4]
        refine ⟨by omega, by omega, ?_⟩
        rw [show k + 1 - 1 = k by omega, slotAt_eq_getElem hk]; simpa using h1
      · intro kind hx; simp [waitKindOf] at hx; subst hx; simp
      · intro _ _; simp [waitKindOf]
      · simpa using h.hsUidLen
      · intro hx; exfalso
        have : isMaster (setHs HsState.waitAddrAck (arm .hsFind s.fe.fSrc (sendFrame (destOf s.fe.fSrc) true p
            { s with hs := { s.hs with addr := BitVec.ofNat 4 (k + 1), nonce := n } }).1)) = isMaster s := by
                unfold isMaster; simp
        rw [this, hm] at hx; simp at hx
  · rcases handleFind_cases _ s with e | ⟨a, -, -, -, -, e⟩ <;> rw [e]
    · exact h
    · exact (rosterInv_sendFrame (d := destOf s.fe.fSrc) (m := true) (p := [codeAck]) h).of_same (by simp)
          (by simp) (by simp) (by simp) (by simp)
  · rcases handleGetUid_cases _ s with e | ⟨p, -, -, e⟩ <;> rw [e]
    · exact h
    · exact (rosterInv_sendFrame (d := destOf s.fe.fSrc) (m := true) (p := p) h).of_same rfl rfl rfl Iff.rfl rfl
  · rcases handlePing_cases _ s with e | ⟨-, -, e⟩ <;> rw [e]
    · exact h
    · exact (rosterInv_sendFrame (d := destOf s.fe.fSrc) (m := true) (p := [codeAck]) h).of_same rfl rfl rfl Iff.rfl rfl
  · exact h

/-- SLAVE_RESET keeps the roster, with the handshake idle. -/
theorem rosterInv_slaveReset (n : Wide) {s : State} (h : RosterInv s) (hidle : s.hs.state = .idle) :
    RosterInv (slaveReset n s) := by
  have hsl : ∀ k, slotAt (slaveReset n s) k = slotAt s k := by intro k; unfold slotAt; simp
  constructor
  · simpa using h.size
  · intro k hk; rw [hsl]; exact h.addrs k (by simpa using hk)
  · simpa using h.uidLens
  · simpa using h.free
  · intro hx; simp [hidle] at hx
  · intro kind hx; simp [hidle, waitKindOf] at hx
  · intro hx; simp [slaveReset] at hx
  · simpa using h.hsUidLen
  · intro _; simpa using hidle

/-- The roster with legal parameters. -/
abbrev RosterOk (s : State) : Prop := s.params.wf ∧ RosterInv s

theorem rosterOk_finish {s : State} (h : RosterOk s) : RosterOk (finish s).1 := by
  refine finish_induct (P := RosterOk) ?_ ?_ ?_ h
  · intro s h; exact ⟨h.1, h.2.of_same rfl rfl rfl Iff.rfl rfl⟩
  · intro s h hp; exact ⟨h.1, h.2.of_same rfl rfl rfl (by simp [hp]) rfl⟩
  · intro s h; exact ⟨h.1, h.2.of_same rfl rfl rfl Iff.rfl rfl⟩

/-- PARSE keeps the roster. -/
theorem rosterOk_parse {s : State} (h : RosterOk s) : RosterOk (parseFrame s).1 := by
  refine parseFrame_induct (P := RosterOk) ?_ ?_ ?_ ?_ ?_ h
  · intro s h _; exact ⟨h.1, h.2.of_same rfl rfl rfl Iff.rfl rfl⟩
  · intro s h; exact ⟨h.1, h.2.of_same rfl rfl rfl Iff.rfl rfl⟩
  · intro s h; exact ⟨h.1, h.2.of_same rfl rfl rfl Iff.rfl rfl⟩
  · intro s h; exact rosterOk_finish h
  · intro q s h hp
    refine runCommand_induct (P := RosterOk) (decodeCommand_format q) ?_ ?_ ?_ ?_ ?_ ?_ hp h
    · intro q s h; exact ⟨h.1, h.2.of_same rfl rfl rfl Iff.rfl rfl⟩
    · intro s h; exact ⟨h.1, h.2.of_same rfl rfl rfl Iff.rfl rfl⟩
    · intro s h hp; exact ⟨h.1, h.2.of_same rfl rfl rfl (by simp [hp]) rfl⟩
    · intro s h; exact ⟨h.1, h.2.of_same rfl rfl rfl Iff.rfl rfl⟩
    · intro q s h hr; exact ⟨by simpa using h.1, rosterInv_consumeReply _ h.2 (by rw [hr]; simp)⟩
    · intro s h _; exact ⟨by simpa using h.1, rosterInv_handlerOf h.1 h.2⟩

/-- A tick keeps the roster. -/
theorem rosterOk_tick {p b bo n} {s : State} (h : RosterOk s) : RosterOk (tick p b bo n s) := by
  refine tick_induct (P := RosterOk) p b bo n ?_ ?_ ?_ ?_ ?_ ?_ ?_ ?_ ?_ ?_ h
  · intro s h _; exact rosterOk_parse h
  · intro s h; refine ⟨by simpa using h.1, ?_⟩
    unfold busyTick; dsimp only; split
    · split
      · split
        · exact rosterInv_release (s := { s with fe := _ }) (h.2.of_same rfl rfl rfl Iff.rfl rfl)
        · exact h.2.of_same rfl rfl rfl Iff.rfl rfl
      · exact h.2.of_same rfl rfl rfl Iff.rfl rfl
    · exact h.2
  · intro s h; refine ⟨by simpa using h.1, ?_⟩
    unfold rwTick; split
    · next e =>
      refine h.2.of_same rfl rfl rfl ?_ rfl
      dsimp only; rw [e]; split <;> simp
    · exact h.2
  · intro o s h hr; exact ⟨by simpa using h.1, rosterInv_consumeReply _ h.2 (by rcases hr with e | e <;> rw [e] <;>
        simp)⟩
  · intro s h _; refine ⟨by simpa using h.1, ?_⟩
    refine h.2.of_slots (by simp) ?_ ?_ ?_ ?_ (by simp) (by simp)
    · unfold liveness; split <;> simp
    · intro k; left
      have hl : ∀ e, (liveSlot e).addr = e.addr := by intro e; unfold liveSlot; split <;> rfl
      unfold liveness; split
      · simp only [slotAt, List.getD_eq_getElem?_getD, List.getElem?_map]
        cases s.roster.slots[k]? with
        | none => rfl
        | some e => exact hl e
      · rfl
    · have hl : ∀ e, (liveSlot e).uidLen = e.uidLen := by intro e; unfold liveSlot; split <;> rfl
      unfold liveness; split
      · intro e he; simp at he; obtain ⟨e', he', rfl⟩ := he; rw [hl]; exact h.2.uidLens _ he'
      · exact h.2.uidLens
    · have hl : ∀ e, (liveSlot e).addr = e.addr := by intro e; unfold liveSlot; split <;> rfl
      unfold liveness; split
      · intro e he hz; simp at he; obtain ⟨e', he', rfl⟩ := he
        rw [h.2.free _ he' ((hl e').symm.trans hz)]; rfl
      · exact h.2.free
  · intro s h hm hc hnp; refine ⟨by simpa using h.1, ?_⟩
    have hreq : ∀ c k d st, s.hs.state ≠ .idle → waitKindOf st = some k → RosterInv (setHs st (sendRequest c k d
        s)) := by
      intro c k d st hni hst
      have h1 := rosterInv_sendFrame (d := destOf d) (m := true) (p := [c]) h.2
      have hw' := h.2.allocated hni
      refine ⟨h1.size, h1.addrs, h1.uidLens, h1.free, fun _ => h1.allocated (by simpa using hni), ?_, ?_,
        h1.hsUidLen, ?_⟩
      · intro kind hk; simp [hst] at hk; subst hk; simp [sendRequest]
      · intro _ _; simp [hst, sendRequest]
      · intro hx; exfalso
        have : isMaster (setHs st (sendRequest c k d s)) = isMaster s := by unfold isMaster; simp
        rw [this, hm] at hx; simp at hx
    unfold masterInitiate
    split
    · next e => exact hreq _ .hsUid _ _ (by rw [e]; simp) rfl
    · next e => exact hreq _ .hsPing _ _ (by rw [e]; simp) rfl
    · next e =>
      dsimp only; split
      · have h1 : RosterInv (scan s).1 := h.2.of_same (by simp) (by unfold scan; split <;> rfl) (by simp) (by simp)
            (by simp)
        have h2 := rosterInv_sendFrame (d := destOf (scan s).2) (m := true) (p := [codePing]) h1
        have h3 := rosterInv_arm h2 .ping (scan s).2 rfl (by simp [e, waitKindOf])
        refine rosterInv_modifySlot h3 _ _ (fun _ => rfl) (fun _ => rfl) (.inr ?_)
        obtain ⟨j, hj, hs, hne⟩ := scan_slot h.1.2.1.1 (by assumption)
        have haddr := (h.2.addrs j hj).resolve_left (hs ▸ hne)
        have hsl : ∀ k, slotAt (arm .ping (scan s).2 (sendFrame (destOf (scan s).2) true [codePing] (scan s).1).1) k =
            slotAt s k := by intro k; unfold slotAt; rw [arm_roster, sendFrame_roster]; unfold scan; split <;> rfl
        rw [hsl, ← hs, haddr, show j + 1 - 1 = j by omega, hs, ← hs]; exact hne
      · split
        · exact rosterInv_dispatchQueue h.2 (by rw [e]; rfl)
        · exact h.2
    all_goals exact h.2
  · intro s h hm; refine ⟨by simpa using h.1, ?_⟩
    have hidle := h.2.slaveHasNone hm
    unfold presenceStep; split
    · exact h.2.of_same rfl rfl rfl Iff.rfl rfl
    · split
      · dsimp only; split
        · exact rosterInv_slaveReset n (h.2.of_same rfl rfl rfl Iff.rfl rfl) hidle
        · exact h.2.of_same rfl rfl rfl Iff.rfl rfl
      · exact h.2.of_same rfl rfl rfl Iff.rfl rfl
  · intro s h hm; exact ⟨by simpa using h.1, h.2.of_same (by simp) (by simp) (by simp) (by simp) (by simp)⟩
  · intro s h hm; refine ⟨by simpa using h.1, ?_⟩
    have hidle := h.2.slaveHasNone hm
    unfold slaveTimers
    split <;> dsimp only <;> (try split) <;> first | exact h.2 | exact h.2.of_same rfl rfl rfl Iff.rfl rfl |
        exact rosterInv_slaveReset n (h.2.of_same rfl rfl rfl Iff.rfl rfl) hidle
  · intro s h hm; refine ⟨by simpa using h.1, ?_⟩
    have hidle := h.2.slaveHasNone hm
    unfold slaveInitiate
    split
    · split
      · exact (rosterInv_sendFrame (d := destOf masterAddr) (m := true) (p :=
            codeSignal :: hsVersion :: nonceBytes s.sl.nonce) h.2).of_same rfl rfl rfl Iff.rfl rfl
      · split
        · exact rosterInv_dispatchQueue h.2 (by rw [hidle]; rfl)
        · exact h.2
    · exact h.2

/-- READ keeps the roster. -/
theorem rosterOk_readBytes (n : Byte) {s : State} (h : RosterOk s) : RosterOk (readBytes n s).1 := by
  have hf : ∀ out i, RosterOk (foldBytes out i s) := fun _ _ => ⟨h.1, h.2.of_same rfl rfl rfl Iff.rfl rfl⟩
  unfold readBytes
  dsimp only
  split
  · exact rosterOk_finish (hf _ _)
  · exact hf _ _

end Sys2Proof.Machine
end

