-- ==== Sys2Proof/Laws/SlaveInv.lean ====
section
/-! SUPPORT. The slave's state and its address, procedure by procedure. -/

namespace Sys2Proof.Machine

theorem SlaveInv.of_same {s t : State} (h : SlaveInv s) (hp : t.params = s.params) (ho : t.ownAddr = s.ownAddr) (hs :
    t.sl.state = s.sl.state) (hu : t.sl.uidLen = s.sl.uidLen) : SlaveInv t := by
  have hm : isMaster t = isMaster s := by unfold isMaster; rw [hp]
  have hown : own t = own s := by unfold own; rw [hm, ho]
  obtain ⟨a, b, c⟩ := h
  constructor
  · rw [hm, hs, hown]; exact a
  · rw [hm, hs, hown]; exact b
  · rw [hu]; exact c

theorem own_eq_of_slave {s : State} (h : isMaster s = false) : own s = s.ownAddr := by unfold own; rw [h]; rfl

/-- SLAVE_RESET keeps the address rule. -/
theorem slaveInv_slaveReset {s : State} (n) (h : SlaveInv s) (hm : isMaster s = false) : SlaveInv (slaveReset n s) := by
  have hm' : isMaster (slaveReset n s) = false := by rw [← hm]; unfold isMaster; simp
  have ho : own (slaveReset n s) = 0#4 := by
    rw [own_eq_of_slave hm']; simp [slaveReset, setOwn, hm]
  constructor
  · intro _ _; exact ho
  · intro _ hx; simp [slaveReset] at hx
  · simpa [slaveReset] using h.uidLen

/-- Every command handler keeps the address rule. -/
theorem slaveInv_handlerOf {i : Instr} {s : State} (h : SlaveInv s) : SlaveInv (handlerOf i s) := by
  unfold handlerOf
  split
  · exact h.of_same (by simp) (by simp) (by simp) (by simp)
  · rcases handleFind_cases _ s with e | ⟨a, hm, hst, h1, h2, e⟩ <;> rw [e]
    · exact h
    · have hm' : isMaster (sendFrame (destOf s.fe.fSrc) true [codeAck] s).1 = false := by
          rw [← hm]; unfold isMaster; simp
      constructor
      · intro _ hx; simp at hx
      · intro _ _
        have : own (modifySlave (fun c => { c with state := .addrSet, hsCnt := 0#16 }) (setOwn (a.setWidth 4)
            (sendFrame (destOf s.fe.fSrc) true [codeAck] s).1)) = a.setWidth 4 := by
          rw [own_modifySlave, setOwn, hm', own_eq_of_slave (by exact hm')]; rfl
        rw [this]
        have : (a.setWidth 4).toNat = a.toNat := by simp; omega
        rw [this]; exact ⟨h1, h2⟩
      · simpa using h.uidLen
  · rcases handleGetUid_cases _ s with e | ⟨p, hm, hst, e⟩ <;> rw [e]
    · exact h
    · have hown : own (modifySlave (fun c => { c with state := .uidSent, hsCnt :=
          0#16 }) (sendFrame (destOf s.fe.fSrc) true p s).1) = own s := by
        rw [own_modifySlave]; unfold own isMaster; simp
      constructor
      · intro _ hx; simp at hx
      · intro _ _; rw [hown]; exact h.addressed hm (by rw [hst]; simp)
      · simpa using h.uidLen
  · rcases handlePing_cases _ s with e | ⟨hm, hst, e⟩ <;> rw [e]
    · exact h
    · have hown : own (modifySlave (fun c => { c with state := .connected, nopingCnt := 0#16, pingRx := true })
          (sendFrame (destOf s.fe.fSrc) true [codeAck] s).1) = own s := by
        rw [own_modifySlave]; unfold own isMaster; simp
      constructor
      · intro _ hx; simp at hx
      · intro _ _; rw [hown]; exact h.addressed hm (by rcases hst with e | e <;> rw [e] <;> simp)
      · simpa using h.uidLen
  · exact h

/-- PARSE keeps the address rule. -/
theorem slaveInv_parse {s : State} (h : SlaveInv s) : SlaveInv (parseFrame s).1 := by
  refine parseFrame_induct (P := SlaveInv) ?_ ?_ ?_ ?_ ?_ h
  · intro s h _; exact h.of_same rfl rfl rfl rfl
  · intro s h; exact h.of_same rfl rfl rfl rfl
  · intro s h; exact h.of_same rfl rfl rfl rfl
  · intro s h; exact h.of_same (by simp) (by simp) (by simp) (by simp)
  · intro q s h hp
    refine runCommand_induct (P := SlaveInv) (decodeCommand_format q) ?_ ?_ ?_ ?_ ?_ ?_ hp h
    · intro q s h; exact h.of_same rfl rfl rfl rfl
    · intro s h; exact h.of_same rfl rfl rfl rfl
    · intro s h _; exact h.of_same rfl rfl rfl rfl
    · intro s h; exact h.of_same rfl rfl rfl rfl
    · intro q s h _; exact h.of_same (by simp) (by simp) (by simp) (by simp)
    · intro s h _; exact slaveInv_handlerOf h

/-- A tick keeps the address rule. -/
theorem slaveInv_tick {p b bo n} {s : State} (h : SlaveInv s) : SlaveInv (tick p b bo n s) := by
  refine tick_induct (P := SlaveInv) p b bo n ?_ ?_ ?_ ?_ ?_ ?_ ?_ ?_ ?_ ?_ h
  · intro s h _; exact slaveInv_parse h
  · intro s h; exact h.of_same (by simp) (by simp) (by simp) (by simp)
  · intro s h; exact h.of_same (by simp) (by simp) (by simp) (by simp)
  · intro _ s h _; exact h.of_same (by simp) (by simp) (by simp) (by simp)
  · intro s h _; exact h.of_same (by simp) (by simp) (by simp) (by simp)
  · intro s h _ _ _; exact h.of_same (by simp) (by simp) (by simp) (by simp)
  · intro s h hm
    unfold presenceStep
    split
    · have hk : ∀ c : Prop, [Decidable c] → ∀ f : SlaveCtl → SlaveCtl,
          (∀ x, (f x).state = if s.sl.state = .disconnected ∧ c then .pluggedIn else s.sl.state) → (∀ x,
              (f x).uidLen = x.uidLen) →
          SlaveInv (modifySlave f s) := by
        intro c _ f hf hu
        by_cases hc : s.sl.state = .disconnected ∧ c
        · have hst : (modifySlave f s).sl.state = .pluggedIn := by simp [hf, hc]
          constructor
          · intro _ _; exact h.unaddressed hm (.inl hc.1)
          · intro _ hx; rw [hst] at hx; simp at hx
          · simpa [hu] using h.uidLen
        · exact h.of_same rfl rfl (by simp only [modifySlave_sl, hf, if_neg hc]) (by simp [hu])
      exact hk ((if s.sl.presCnt.toNat < 65535 then s.sl.presCnt + 1#16 else s.sl.presCnt).toNat ≥
          s.params.presenceDebounce)
        (fun c => { c with
          absCnt := 0#16, presCnt := if s.sl.presCnt.toNat < 65535 then s.sl.presCnt + 1#16 else s.sl.presCnt
          state := if s.sl.state = .disconnected ∧ (if s.sl.presCnt.toNat < 65535 then s.sl.presCnt + 1#16 else
              s.sl.presCnt).toNat
            ≥ s.params.presenceDebounce then .pluggedIn else s.sl.state }) (fun _ => rfl) (fun _ => rfl)
    · split
      · dsimp only; split
        · exact slaveInv_slaveReset n (h.of_same rfl rfl rfl rfl) hm
        · exact h.of_same rfl rfl rfl rfl
      · exact h.of_same rfl rfl rfl rfl
  · intro s h _
    unfold backoffStep
    split
    · exact h.of_same rfl rfl rfl rfl
    · split
      · exact h.of_same rfl rfl rfl rfl
      · exact h
  · intro s h hm
    unfold slaveTimers
    split <;> dsimp only <;> (try split) <;> first | exact h | exact h.of_same rfl rfl rfl rfl |
        exact slaveInv_slaveReset n (h.of_same rfl rfl rfl rfl) hm
  · intro s h hm
    unfold slaveInitiate
    split
    · split
      · next hst =>
        have hown : own (sendSignal s) = own s := by unfold own isMaster; simp
        constructor
        · intro _ _; rw [hown]; exact h.unaddressed hm (.inr (.inl hst))
        · intro _ hx; simp [sendSignal] at hx
        · simpa [sendSignal] using h.uidLen
      · split
        · exact h.of_same (by simp) (by simp) (by simp) (by simp)
        · exact h
    · exact h

end Sys2Proof.Machine
end

