-- ==== Sys2Proof/Laws/MemoryInv.lean ====
section
/-! SUPPORT. The byte arrays, procedure by procedure. -/

namespace Sys2Proof.Machine

/-- The arrays, with the latched length an identity may have. -/
abbrev ArraysOk (s : State) : Prop := MemoryInv s ∧ s.hs.uidLen.toNat ≤ uidMax

theorem ArraysOk.of_same {s t : State} (h : ArraysOk s) (h1 : t.fe.rxBuf = s.fe.rxBuf) (h2 : t.queue.slots =
    s.queue.slots) (h3 : t.roster.slots = s.roster.slots) (h4 : t.hs = s.hs) (h5 : t.sl.uid = s.sl.uid) :
        ArraysOk t := by
  obtain ⟨⟨a, b, c, d, e⟩, f⟩ := h
  refine ⟨⟨?_, ?_, ?_, ?_, ?_⟩, ?_⟩
  · rw [h1]; exact a
  · rw [h2]; exact b
  · rw [h3]; exact c
  · rw [h4]; exact d
  · rw [h5]; exact e
  · rw [h4]; exact f

/-- A string of bytes within the array keeps its form. -/
theorem good_writeFrom {n : Nat} {m : Memory} (h : Memory.good n m) {i : Nat} {bs : List Byte} (hi : i + bs.length ≤
    n) : Memory.good n (m.writeFrom i bs) :=
  ⟨Memory.wf_writeFrom h.1 i bs, Memory.within_writeFrom h.2 hi⟩
/-- One byte within the array keeps its form. -/
theorem good_write {n : Nat} {m : Memory} (h : Memory.good n m) {i : Nat} (hi : i < n) (b : Byte) : Memory.good n
    (m.write i b) :=
  ⟨Memory.wf_write h.1 i b, Memory.within_write h.2 hi b⟩
/-- The empty array has the form. -/
theorem good_nil (n : Nat) : Memory.good n [] := ⟨⟨List.Pairwise.nil, fun c hc => by cases hc⟩, fun c hc => by cases hc⟩

@[simp] theorem finish_rxBuf (s : State) : (finish s).1.fe.rxBuf = s.fe.rxBuf := by
  rw [finish_eq]; (repeat' split) <;> rfl
@[simp] theorem release_rxBuf (s : State) : (release s).fe.rxBuf = s.fe.rxBuf := by
  obtain ⟨_, _, _, e, -⟩ := release_fe s; rw [e]; rfl
@[simp] theorem sendFrame_rxBuf (d m p) (s : State) : (sendFrame d m p s).1.fe.rxBuf = s.fe.rxBuf :=
  sendFrame_induct (P := fun t => t.fe.rxBuf = s.fe.rxBuf) (by simp) (fun _ _ h => h) rfl

/-- A change of one slot whose identity keeps its form. -/
theorem arraysOk_modifySlot {s : State} (h : ArraysOk s) (k : Nat) (f : Slot → Slot) (hf : ∀ e, Memory.good
    uidMax e.uid → Memory.good uidMax (f e).uid) : ArraysOk (modifySlot k f s) :=
  ⟨⟨h.1.rxBuf, h.1.queue, mem_modify_of h.1.roster hf, h.1.hs, h.1.sl⟩, h.2⟩

/-- Every outcome of a wait keeps the arrays. -/
theorem arraysOk_consumeReply (o : WaitOutcome) {s : State} (h : ArraysOk s) : ArraysOk (consumeReply o s) := by
  have hc : ArraysOk (waitCleared s) := h.of_same rfl rfl rfl rfl rfl
  cases hk : s.rw.kind with
  | app =>
    rw [consumeReply_of_app hk]
    unfold consumeApp
    dsimp only
    split
    · refine arraysOk_modifySlot ?_ _ (fun e => { e with pingErr := 0#16 }) (fun _ h => h)
      exact hc.of_same rfl rfl rfl rfl rfl
    · exact hc.of_same rfl rfl rfl rfl rfl
  | hsFind =>
    rw [consumeReply_of_hsFind hk]
    unfold consumeHsFind
    split
    · exact ⟨⟨hc.1.rxBuf, hc.1.queue, hc.1.roster, hc.1.hs, hc.1.sl⟩, hc.2⟩
    · exact ⟨⟨hc.1.rxBuf, hc.1.queue, hc.1.roster, hc.1.hs, hc.1.sl⟩, hc.2⟩
  | hsUid =>
    rw [consumeReply_of_hsUid hk]
    unfold consumeHsUid
    split
    · split
      · next hcu =>
        have hl : ∀ u : List Byte, u.length ≤ uidMax → ArraysOk (setHs .sendPing (latchUid u (waitCleared s))) := by
          intro u hu
          refine ⟨⟨hc.1.rxBuf, hc.1.queue, hc.1.roster, good_writeFrom hc.1.hs (by omega), hc.1.sl⟩, ?_⟩
          unfold uidMax at *; simp; omega
        apply hl
        split
        · simp [uidMax]
        · exact hcu.2
      · exact ⟨⟨hc.1.rxBuf, hc.1.queue, hc.1.roster, hc.1.hs, hc.1.sl⟩, hc.2⟩
    · exact ⟨⟨hc.1.rxBuf, hc.1.queue, hc.1.roster, hc.1.hs, hc.1.sl⟩, hc.2⟩
  | hsPing =>
    rw [consumeReply_of_hsPing hk]
    unfold consumeHsPing
    split
    · have := arraysOk_modifySlot hc ((waitCleared s).hs.addr.toNat - 1)
          (fun e => { addr := (waitCleared s).hs.addr, uidLen := (waitCleared s).hs.uidLen, uid :=
              e.uid.writeFrom 0 ((waitCleared s).hs.uid.readFrom 0 (waitCleared s).hs.uidLen.toNat), pingCd :=
                  BitVec.ofNat 16 (waitCleared s).params.pingPeriod, pingErr := 0#16, needsPing :=
                      false }) (fun e he => good_writeFrom he (by have := hc.2; simp at this ⊢; omega))
      exact ⟨⟨this.1.rxBuf, this.1.queue, this.1.roster, this.1.hs, this.1.sl⟩, this.2⟩
    · exact ⟨⟨hc.1.rxBuf, hc.1.queue, hc.1.roster, hc.1.hs, hc.1.sl⟩, hc.2⟩
  | ping =>
    rw [consumeReply_of_ping hk]
    unfold consumePing
    dsimp only
    split
    · split
      · split
        · exact arraysOk_modifySlot hc _ _ (fun _ _ => good_nil _)
        · exact arraysOk_modifySlot hc _ _ (fun _ h => h)
      · exact arraysOk_modifySlot hc _ _ (fun _ h => h)
    · exact hc

/-- Every command handler keeps the arrays. -/
theorem arraysOk_handlerOf {i : Instr} {s : State} (h : ArraysOk s) : ArraysOk (handlerOf i s) := by
  unfold handlerOf
  split
  · rcases handleSignal_cases _ s with e | ⟨k, n, p, hm, hi, hn, hal, e⟩ <;> rw [e]
    · exact h
    · obtain ⟨⟨a, b, c, d, e⟩, f⟩ := h
      exact ⟨⟨by simpa using a, by simpa using b, by simpa using c, by simpa using d, by
          simpa using e⟩, by simpa using f⟩
  · rcases handleFind_cases _ s with e | ⟨a, -, -, -, -, e⟩ <;> rw [e]
    · exact h
    · exact h.of_same (by simp) (by simp) (by simp) (by simp) (by simp)
  · rcases handleGetUid_cases _ s with e | ⟨p, -, -, e⟩ <;> rw [e]
    · exact h
    · exact h.of_same (by simp) (by simp) (by simp) (by simp) (by simp)
  · rcases handlePing_cases _ s with e | ⟨-, -, e⟩ <;> rw [e]
    · exact h
    · exact h.of_same (by simp) (by simp) (by simp) (by simp) (by simp)
  · exact h

/-- PARSE keeps the arrays. -/
theorem arraysOk_parse {s : State} (h : ArraysOk s) : ArraysOk (parseFrame s).1 := by
  refine parseFrame_induct (P := ArraysOk) ?_ ?_ ?_ ?_ ?_ h
  · intro s h _; exact h.of_same rfl rfl rfl rfl rfl
  · intro s h; exact h.of_same rfl rfl rfl rfl rfl
  · intro s h; exact h.of_same rfl rfl rfl rfl rfl
  · intro s h; exact h.of_same (by simp) (by simp) (by simp) (by simp) (by simp)
  · intro q s h hp
    refine runCommand_induct (P := ArraysOk) (decodeCommand_format q) ?_ ?_ ?_ ?_ ?_ ?_ hp h
    · intro q s h; exact h.of_same rfl rfl rfl rfl rfl
    · intro s h; exact h.of_same rfl rfl rfl rfl rfl
    · intro s h _; exact h.of_same rfl rfl rfl rfl rfl
    · intro s h; exact h.of_same rfl rfl rfl rfl rfl
    · intro q s h _; exact arraysOk_consumeReply _ h
    · intro s h _; exact arraysOk_handlerOf h

theorem arraysOk_dispatchQueue {s : State} (h : ArraysOk s) : ArraysOk (dispatchQueue s) := by
  have : (dispatchQueue s).fe.rxBuf = s.fe.rxBuf := by unfold dispatchQueue; dsimp only; split <;> simp
  exact h.of_same this (by rw [dispatchQueue_queue]) (by simp) (by simp) (by simp)

theorem arraysOk_slaveReset {s : State} (n) (h : ArraysOk s) : ArraysOk (slaveReset n s) :=
  h.of_same (by simp [slaveReset]) (by simp) (by simp) (by simp) (by simp [slaveReset])

/-- A tick keeps the arrays. -/
theorem arraysOk_tick {p b bo n} {s : State} (h : ArraysOk s) : ArraysOk (tick p b bo n s) := by
  refine tick_induct (P := ArraysOk) p b bo n ?_ ?_ ?_ ?_ ?_ ?_ ?_ ?_ ?_ ?_ h
  · intro s h _; exact arraysOk_parse h
  · intro s h
    have : (busyTick s).fe.rxBuf = s.fe.rxBuf := by unfold busyTick; dsimp only; (repeat' split) <;> simp
    exact h.of_same this (by simp) (by simp) (by simp) (by simp)
  · intro s h; exact h.of_same (by simp) (by simp) (by simp) (by simp) (by simp)
  · intro _ s h _; exact arraysOk_consumeReply _ h
  · intro s h _
    have hl : ∀ e, (liveSlot e).uid = e.uid := by intro e; unfold liveSlot; split <;> rfl
    unfold liveness; split
    · refine ⟨⟨h.1.rxBuf, h.1.queue, ?_, h.1.hs, h.1.sl⟩, h.2⟩
      intro e he; simp at he; obtain ⟨e', he', rfl⟩ := he; rw [hl]; exact h.1.roster _ he'
    · exact h.of_same rfl rfl rfl rfl rfl
  · intro s h _ _ _
    have hreq : ∀ c k d st, ArraysOk (setHs st (sendRequest c k d s)) := by
      intro c k d st
      obtain ⟨⟨a, b, c, d, e⟩, f⟩ := h
      exact ⟨⟨by simpa [sendRequest] using a, by simpa using b, by simpa using c, by simpa using d, by
          simpa using e⟩, by simpa using f⟩
    unfold masterInitiate
    split
    · exact hreq _ _ _ _
    · exact hreq _ _ _ _
    · dsimp only; split
      · refine arraysOk_modifySlot (s := sendRequest codePing .ping (scan s).2 (scan s).1) ?_ _ _ (fun _ h => h)
        exact h.of_same (by simp [sendRequest]) (by simp) (by simp; unfold scan; split <;> rfl) (by simp) (by simp)
      · split
        · exact arraysOk_dispatchQueue h
        · exact h
    all_goals exact h
  · intro s h hm
    unfold presenceStep
    split
    · exact h.of_same rfl rfl rfl rfl rfl
    · split
      · dsimp only; split
        · exact arraysOk_slaveReset n (h.of_same rfl rfl rfl rfl rfl)
        · exact h.of_same rfl rfl rfl rfl rfl
      · exact h.of_same rfl rfl rfl rfl rfl
  · intro s h _
    unfold backoffStep
    split
    · exact h.of_same rfl rfl rfl rfl rfl
    · split
      · exact h.of_same rfl rfl rfl rfl rfl
      · exact h
  · intro s h hm
    unfold slaveTimers
    split <;> dsimp only <;> (try split) <;> first | exact h | exact h.of_same rfl rfl rfl rfl rfl |
        exact arraysOk_slaveReset n (h.of_same rfl rfl rfl rfl rfl)
  · intro s h hm
    unfold slaveInitiate
    split
    · split
      · exact h.of_same (by simp [sendSignal]) (by simp) (by simp) (by simp) (by simp [sendSignal])
      · split
        · exact arraysOk_dispatchQueue h
        · exact h
    · exact h

end Sys2Proof.Machine
end

