-- ==== Sys2Proof/Laws/CounterInv.lean ====
section
/-! SUPPORT. The counters, procedure by procedure. -/

namespace Sys2Proof.Machine

/-- Every counter but that of the wait. -/
abbrev CountersButWait (s : State) : Prop := s.params.wf ∧ CounterInv { s with rw := { s.rw with cnt := 0#16 } }
/-- Every counter within its bound, but that of a wait that has just timed out. -/
abbrev CountersInTick (s : State) : Prop := CountersButWait s ∧ (s.rw.cnt.toNat ≤ s.params.replyTimeout ∨ s.rw.state
    = .timedOut)
/-- Every counter within its bound. -/
abbrev CountersOk (s : State) : Prop := CountersButWait s ∧ s.rw.cnt.toNat ≤ s.params.replyTimeout

theorem CountersButWait.of_same {s t : State} (h : CountersButWait s) (hp : t.params = s.params)
    (hb : t.fe.busyCnt.toNat ≤ s.params.busyTimeout)
    (hr : t.roster = s.roster) (hs : t.sl = s.sl) : CountersButWait t := by
  obtain ⟨w, a, b, c, d, e, f, g, i, j, k⟩ := h
  refine ⟨hp ▸ w, ?_, ?_, ?_, ?_, ?_, ?_, ?_, ?_, ?_, ?_⟩ <;> dsimp only <;> rw [hp] <;> (try rw [hr]) <;>
      (try rw [hs]) <;> (try assumption)

/-- Every outcome of a wait keeps the counters. -/
theorem countersButWait_consumeReply {o} {s : State} (h : CountersButWait s) : CountersButWait (consumeReply o s) := by
  have hc : CountersButWait (waitCleared s) := h.of_same rfl h.2.busy rfl rfl
  have hm : ∀ (t : State) k (f : Slot → Slot), CountersButWait t → (∀ e, (e.pingCd.toNat ≤ t.params.pingPeriod ∧
      e.pingErr.toNat < t.params.pingErrMax) →
     ((f e).pingCd.toNat ≤ t.params.pingPeriod ∧ (f e).pingErr.toNat < t.params.pingErrMax)) → CountersButWait
         (modifySlot k f t) := by
    intro t k f h hf
    have : ∀ e ∈ (modifySlot k f t).roster.slots, e.pingCd.toNat ≤ t.params.pingPeriod ∧ e.pingErr.toNat <
        t.params.pingErrMax := by
      intro e he
      simp at he
      obtain ⟨j, hj, rfl⟩ := List.mem_iff_getElem.mp he
      rw [List.getElem_modify]
      split
      · exact hf _ ⟨h.2.countdown _ (List.getElem_mem _), h.2.errors _ (List.getElem_mem _)⟩
      · exact ⟨h.2.countdown _ (List.getElem_mem _), h.2.errors _ (List.getElem_mem _)⟩
    obtain ⟨w, a, b, c, d, e, f, g, i, j, k⟩ := h
    exact ⟨w, a, b, c, d, fun e he => (this e he).1, fun e he => (this e he).2, g, i, j, k⟩
  cases hk : s.rw.kind with
  | app =>
    rw [consumeReply_of_app hk]; unfold consumeApp; dsimp only; split
    · refine hm _ _ (fun e => { e with pingErr := 0#16 }) (hc.of_same rfl hc.2.busy rfl rfl) (fun e he => ⟨he.1, ?_⟩)
      have := he.2; simp; omega
    · exact hc.of_same rfl hc.2.busy rfl rfl
  | hsFind => rw [consumeReply_of_hsFind hk]; unfold consumeHsFind; split <;> exact hc.of_same rfl hc.2.busy rfl rfl
  | hsUid => rw [consumeReply_of_hsUid hk]; unfold consumeHsUid; (repeat' split) <;> exact
      hc.of_same rfl hc.2.busy rfl rfl
  | hsPing =>
    rw [consumeReply_of_hsPing hk]; unfold consumeHsPing
    split
    · unfold commit
      refine CountersButWait.of_same (s := modifySlot _ _ _) (hm _ _ _ hc ?_) rfl (by exact hc.2.busy) rfl rfl
      intro e he
      have := h.1; have := this.2.2.2.2.2.2.1
      simp
      obtain ⟨h1, h2⟩ := this
      rw [Nat.mod_eq_of_lt (by omega)]
      have := h.1.2.2.2.2.2.2.2.2.1
      omega
    · exact hc.of_same rfl hc.2.busy rfl rfl
  | ping =>
    rw [consumeReply_of_ping hk]; unfold consumePing; dsimp only
    split
    · split
      · split
        · refine hm _ _ (fun _ => Slot.blank) hc (fun e he => ?_)
          have := he.2; simp [Slot.blank]; omega
        · next hc1 hc2 =>
          have hlt : (slotAt (waitCleared s) (s.rw.dst.toNat - 1)).pingErr.toNat + 1 < s.params.pingErrMax := by
            simpa using hc2
          have he : ∀ e ∈ (modifySlot (s.rw.dst.toNat - 1) (fun e => { e with pingErr := e.pingErr + 1#16 })
              (waitCleared s)).roster.slots,
              e.pingCd.toNat ≤ s.params.pingPeriod ∧ e.pingErr.toNat < s.params.pingErrMax := by
            intro e he
            simp only [modifySlot_roster] at he
            obtain ⟨j, hj, rfl⟩ := List.mem_iff_getElem.mp he
            rw [List.length_modify] at hj
            rw [List.getElem_modify]
            have h1 := hc.2.countdown _ (List.getElem_mem hj)
            have h2 := hc.2.errors _ (List.getElem_mem hj)
            split
            · next e =>
              subst e
              rw [slotAt_eq_getElem hj] at hlt
              refine ⟨h1, ?_⟩
              simp only [BitVec.toNat_add, BitVec.toNat_ofNat]; omega
            · exact ⟨h1, h2⟩
          obtain ⟨w, a, b, c, d, -, -, g, i, j, k⟩ := hc
          exact ⟨w, a, b, c, d, fun e h => (he e h).1, fun e h => (he e h).2, g, i, j, k⟩
      · refine hm _ _ (fun e => { e with pingErr := 0#16 }) hc (fun e he => ⟨he.1, ?_⟩)
        have := he.2; simp; omega
    · exact hc

theorem countersInTick_same {s t : State} (h : CountersInTick s) (hp : t.params = s.params) (hb : t.fe.busyCnt.toNat ≤
    s.params.busyTimeout)
    (hr : t.roster = s.roster) (hs : t.sl = s.sl) (hw : t.rw.cnt.toNat ≤ s.params.replyTimeout ∨ (t.rw.cnt = s.rw.cnt
        ∧ (s.rw.state = .timedOut → t.rw.state = .timedOut))) : CountersInTick t := by
  refine ⟨h.1.of_same hp hb hr hs, ?_⟩
  rw [hp]
  rcases hw with hw | ⟨e1, e2⟩
  · exact .inl hw
  · rw [e1]; exact h.2.imp id e2

theorem countersInTick_sendFrame {d m p} {s : State} (h : CountersInTick s) : CountersInTick (sendFrame d m p s).1 := by
  refine sendFrame_induct (fun h => ?_) (fun _ _ h => ?_) h
  · refine countersInTick_same h (by simp) (by simp) (by simp) (by simp) (.inr ?_)
    rcases release_rw s with e | ⟨hp, e⟩ <;> rw [e] <;> simp [*]
  · exact countersInTick_same h rfl (by simp) rfl rfl (.inr ⟨rfl, id⟩)

theorem countersButWait_modifySlave {s : State} {f : SlaveCtl → SlaveCtl} (h : CountersButWait s)
    (ha : (f s.sl).absCnt.toNat ≤ s.params.presenceDebounce)
   (hh : (f s.sl).hsCnt.toNat ≤ s.params.hsTimeout) (hn : (f s.sl).nopingCnt.toNat ≤ s.params.nopingTimeout)
       (hb : (f s.sl).backoff.toNat ≤ s.params.backoffMax) : CountersButWait (modifySlave f s) := by
  obtain ⟨w, a, b, c, d, e, f, g, i, j, k⟩ := h
  exact ⟨w, a, b, c, d, e, f, ha, hh, hn, hb⟩

/-- Every command handler keeps the counters. -/
theorem countersInTick_handlerOf {i : Instr} {s : State} (h : CountersInTick s) : CountersInTick (handlerOf i s) := by
  unfold handlerOf
  split
  · rcases handleSignal_cases _ s with e | ⟨k, n, p, hm, hi, hn, hal, e⟩ <;> rw [e]
    · exact h
    · have h1 := countersInTick_sendFrame (d := destOf s.fe.fSrc) (m := true) (p := p) (s := { s with hs :=
          { s.hs with addr := BitVec.ofNat 4 (k+1), nonce := n } }) (countersInTick_same h rfl h.1.2.busy rfl rfl
              (.inr ⟨rfl, id⟩))
      exact ⟨h1.1.of_same rfl h1.1.2.busy rfl rfl, .inl (by simp)⟩
  · rcases handleFind_cases _ s with e | ⟨a, hm, hst, h1, h2, e⟩ <;> rw [e]
    · exact h
    · have h1 := countersInTick_sendFrame (d := destOf s.fe.fSrc) (m := true) (p := [codeAck]) h
      have h2 : CountersInTick (setOwn (a.setWidth 4) (sendFrame (destOf s.fe.fSrc) true [codeAck] s).1) :=
          countersInTick_same h1 (by simp) (by simpa using h1.1.2.busy) (by simp) (by simp) (.inr ⟨by simp, by simp⟩)
      exact ⟨countersButWait_modifySlave h2.1 h2.1.2.absence (by simp) h2.1.2.noPing h2.1.2.delay, h2.2⟩
  · rcases handleGetUid_cases _ s with e | ⟨p, hm, hst, e⟩ <;> rw [e]
    · exact h
    · have h2 := countersInTick_sendFrame (d := destOf s.fe.fSrc) (m := true) (p := p) h
      exact ⟨countersButWait_modifySlave h2.1 h2.1.2.absence (by simp) h2.1.2.noPing h2.1.2.delay, h2.2⟩
  · rcases handlePing_cases _ s with e | ⟨hm, hst, e⟩ <;> rw [e]
    · exact h
    · have h2 := countersInTick_sendFrame (d := destOf s.fe.fSrc) (m := true) (p := [codeAck]) h
      exact ⟨countersButWait_modifySlave h2.1 h2.1.2.absence h2.1.2.handshake (by simp) h2.1.2.delay, h2.2⟩
  · exact h

/-- No handler lets the counter of the wait grow. -/
theorem handlerOf_cnt {i : Instr} {s : State} (h : s.rw.cnt.toNat ≤ s.params.replyTimeout) :
    (handlerOf i s).rw.cnt.toNat ≤ (handlerOf i s).params.replyTimeout := by
  have hsend : ∀ d m p, ∀ t : State, (sendFrame d m p t).1.rw.cnt = t.rw.cnt := sendFrame_rw_cnt
  unfold handlerOf
  split
  · rcases handleSignal_cases _ s with e | ⟨k, n, p, hm, hi, hn, hal, e⟩ <;> rw [e]
    · exact h
    · simp
  · rcases handleFind_cases _ s with e | ⟨a, hm, hst, h1, h2, e⟩ <;> rw [e]
    · exact h
    · simpa [hsend] using h
  · rcases handleGetUid_cases _ s with e | ⟨p, hm, hst, e⟩ <;> rw [e]
    · exact h
    · simpa [hsend] using h
  · rcases handlePing_cases _ s with e | ⟨hm, hst, e⟩ <;> rw [e]
    · exact h
    · simpa [hsend] using h
  · exact h

theorem countersInTick_discard {s : State} (h : CountersInTick s) : CountersInTick (discard s) :=
    countersInTick_same h rfl (by simp) rfl rfl (.inr ⟨rfl, id⟩)
theorem countersInTick_finish {s : State} (h : CountersInTick s) : CountersInTick (finish s).1 := by
  refine finish_induct (P := CountersInTick) ?_ ?_ ?_ h
  · intro s h; exact countersInTick_same h rfl h.1.2.busy rfl rfl (.inr ⟨rfl, id⟩)
  · intro s h hp; exact countersInTick_same h rfl h.1.2.busy rfl rfl (.inr ⟨rfl, by rw [hp]; simp⟩)
  · intro s h; exact countersInTick_discard h

/-- PARSE keeps the counters. -/
theorem countersInTick_parse {s : State} (h : CountersInTick s) : CountersInTick (parseFrame s).1 := by
  refine parseFrame_induct (P := CountersInTick) ?_ ?_ ?_ ?_ ?_ h
  · intro s h _; exact countersInTick_same h rfl h.1.2.busy rfl rfl (.inr ⟨rfl, id⟩)
  · intro s h; exact countersInTick_same h rfl h.1.2.busy rfl rfl (.inr ⟨rfl, id⟩)
  · intro s h; exact countersInTick_same h rfl (by simp [dropForeign, discard]) rfl rfl (.inr ⟨rfl, id⟩)
  · intro s h; exact countersInTick_finish h
  · intro q s h hp
    refine runCommand_induct (P := CountersInTick) (decodeCommand_format q) ?_ ?_ ?_ ?_ ?_ ?_ hp h
    · intro q s h; exact countersInTick_same h rfl h.1.2.busy rfl rfl (.inr ⟨rfl, id⟩)
    · intro s h; exact countersInTick_same h rfl h.1.2.busy rfl rfl (.inr ⟨rfl, id⟩)
    · intro s h hp; exact countersInTick_same h rfl h.1.2.busy rfl rfl (.inr ⟨rfl, by rw [hp]; simp⟩)
    · intro s h; exact countersInTick_discard h
    · intro q s h _; exact ⟨countersButWait_consumeReply h.1, .inl (by simp)⟩
    · intro s h _; exact countersInTick_handlerOf h

theorem CountersOk.inTick {s} (h : CountersOk s) : CountersInTick s := ⟨h.1, .inl h.2⟩

theorem countersOk_sendFrame {d m p} {s : State} (h : CountersOk s) : CountersOk (sendFrame d m p s).1 := by
  have h1 := countersInTick_sendFrame (d := d) (m := m) (p := p) (CountersOk.inTick h)
  refine ⟨h1.1, ?_⟩
  rw [sendFrame_rw_cnt]; simpa using h.2
theorem countersOk_arm {k d} {s : State} (h : CountersButWait s) : CountersOk (arm k d s) :=
    ⟨h.of_same rfl h.2.busy rfl rfl, by simp⟩
theorem countersOk_dispatchQueue {s : State} (h : CountersOk s) : CountersOk (dispatchQueue s) := by
  have h1 := countersOk_sendFrame (d := destOf (resolveDest (headEntry s).dst s.lastAddr)) (m := false) (p :=
      entryPayload (headEntry s)) (s := { s with queue := { s.queue with head := nextIndex s s.queue.head } })
          ⟨h.1.of_same rfl h.1.2.busy rfl rfl, h.2⟩
  unfold dispatchQueue; dsimp only; split
  · exact countersOk_arm h1.1
  · exact h1

theorem countersButWait_slaveReset {s : State} (n) (h : CountersButWait { s with sl :=
    { s.sl with hsCnt := 0#16, nopingCnt := 0#16 } }) : CountersButWait (slaveReset n s) := by
  obtain ⟨w, a, b, c, d, e, f, g, i, j, k⟩ := h
  exact ⟨by simpa using w, ⟨by simp [slaveReset], by simp, by simpa using c, by simpa using d, by simpa using e, by
      simpa using f, by simpa [slaveReset] using g, by simp [slaveReset], by simp [slaveReset], by simp [slaveReset]⟩⟩

/-- A tick keeps the counters. -/
theorem countersInTick_tick {p b bo n} {s : State} (h : CountersOk s) (hl : legalDraw s bo) : CountersOk (tick p b bo
    n s) := by
  refine (tick_induct' (P := fun t => CountersInTick t ∧ legalDraw t bo) (Q := fun t => CountersOk t) p b bo n ?_ ?_
      ?_ ?_ ?_ ?_ ?_ ?_ ?_ ?_ ?_ ?_ ⟨CountersOk.inTick h, hl⟩)
  · intro s h _
    have : (parseFrame s).1.params = s.params := by simp
    refine ⟨countersInTick_parse h.1, ?_⟩; unfold legalDraw at *; rw [this]; exact h.2
  · rintro s ⟨h, hl⟩
    refine ⟨?_, by unfold legalDraw at *; simpa using hl⟩
    have hb := h.1.2.busy
    have hw := h.1.1.2.2.1
    unfold busyTick
    dsimp only
    have h0 : CountersInTick (discard { s with fe := { s.fe with busyCnt := s.fe.busyCnt + 1#16 } }) :=
        countersInTick_same h rfl (by simp) rfl rfl (.inr ⟨rfl, id⟩)
    split
    · split
      · split
        · refine countersInTick_same (t := release { s with fe := { s.fe with busyCnt := s.fe.busyCnt + 1#16 } }) h
              (by simp) (by simp) (by simp) (by simp) (.inr ?_)
          rcases release_rw { s with fe := { s.fe with busyCnt := s.fe.busyCnt + 1#16 } } with e | ⟨hp, e⟩ <;> rw [e]
          · exact ⟨rfl, id⟩
          · refine ⟨rfl, ?_⟩; dsimp only at hp; rw [hp]; simp
        · exact h0
      · refine countersInTick_same h rfl ?_ rfl rfl (.inr ⟨rfl, id⟩)
        dsimp only at hb ⊢
        have : (s.fe.busyCnt + 1#16).toNat ≤ s.fe.busyCnt.toNat + 1 := by simp [BitVec.toNat_add]; omega
        omega
    · exact h
  · rintro s ⟨h, hl⟩
    refine ⟨?_, by unfold legalDraw at *; simpa using hl⟩
    unfold rwTick
    split
    · next hp =>
      refine ⟨h.1.of_same rfl h.1.2.busy rfl rfl, ?_⟩
      have hc : s.rw.cnt.toNat ≤ s.params.replyTimeout := by
        rcases h.2 with e | e
        · exact e
        · rw [hp] at e; simp at e
      dsimp only
      have : (s.rw.cnt + 1#16).toNat ≤ s.rw.cnt.toNat + 1 := by simp [BitVec.toNat_add]; omega
      by_cases h2 : s.rw.cnt.toNat + 1 > s.params.replyTimeout
      · right; rw [if_pos h2]
      · left; omega
    · exact h
  · rintro o s ⟨h, hl⟩ _
    exact ⟨countersButWait_consumeReply h.1, by simp⟩
  · rintro s ⟨h, hl⟩ _ hne
    exact ⟨h.1, h.2.resolve_right hne⟩
  · intro s h hm
    refine ⟨?_, by simpa using h.2⟩
    obtain ⟨⟨w, a, b, c, d, e, f, g, i, j, k⟩, l⟩ := h
    unfold liveness
    split
    · next hh =>
      have : 0 < s.params.livenessDiv := by have := w.2.2.2.2.2.2.2.1; unfold Params.timing at this; omega
      refine ⟨w, a, b, by simpa using this, d, ?_, ?_, g, i, j, k⟩
      · intro x hx; simp at hx; obtain ⟨y, hy, rfl⟩ := hx
        have h1 := e y hy
        unfold liveSlot; split
        · next hc => dsimp only at h1 ⊢; rw [BitVec.toNat_sub_of_le (by simp [BitVec.le_def]; omega)]; simp; omega
        · exact h1
      · intro x hx; simp at hx; obtain ⟨y, hy, rfl⟩ := hx
        have h1 := f y hy
        unfold liveSlot; split
        · exact h1
        · exact h1
    · next hh =>
      refine ⟨w, a, b, ?_, d, e, f, g, i, j, k⟩
      have : (s.roster.liveCnt + 1#16).toNat ≤ s.roster.liveCnt.toNat + 1 := by simp [BitVec.toNat_add]; omega
      dsimp only; omega
  · intro s h hm _ _
    have hreq : ∀ c k d st, CountersOk (setHs st (sendRequest c k d s)) := by
      intro c k d st
      have h1 := countersOk_sendFrame (d := destOf d) (m := true) (p := [c]) h
      exact ⟨h1.1.of_same rfl h1.1.2.busy rfl rfl, by simp [sendRequest]⟩
    unfold masterInitiate
    split
    · exact hreq _ _ _ _
    · exact hreq _ _ _ _
    · dsimp only; split
      · have hsc : CountersOk (scan s).1 := by
          refine ⟨?_, by simpa using h.2⟩
          obtain ⟨⟨w, a, b, c, d, e, f, g, i, j, k⟩, l⟩ := h
          unfold scan; split
          · refine ⟨w, a, b, c, ?_, e, f, g, i, j, k⟩
            have := w.2.1
            have h3 := Nat.mod_lt (‹Nat› + 1) (show s.params.rosterSlots > 0 by omega)
            simp
            rw [Nat.mod_eq_of_lt (by omega)]
            exact h3
          · exact ⟨w, a, b, c, d, e, f, g, i, j, k⟩
        have h1 := countersOk_sendFrame (d := destOf (scan s).2) (m := true) (p := [codePing]) hsc
        have h2 : CountersOk (sendRequest codePing .ping (scan s).2 (scan s).1) :=
            ⟨h1.1.of_same rfl h1.1.2.busy rfl rfl, by simp [sendRequest]⟩
        unfold pingSlot
        obtain ⟨⟨w, a, b, c, d, e, f, g, i, j, k⟩, l⟩ := h2
        refine ⟨⟨w, a, b, c, d, ?_, ?_, g, i, j, k⟩, l⟩
        · refine fun x hx => ?_
          dsimp only [modifySlot] at hx
          obtain ⟨j, hj, rfl⟩ := List.mem_iff_getElem.mp hx
          rw [List.getElem_modify]
          split
          · have := w.2.2.2.2.2.2.1; unfold Params.timing at this
            simp at this ⊢; omega
          · exact e _ (List.getElem_mem _)
        · refine fun x hx => ?_
          dsimp only [modifySlot] at hx
          obtain ⟨j, hj, rfl⟩ := List.mem_iff_getElem.mp hx
          rw [List.getElem_modify]
          split
          · rw [List.length_modify] at hj
            have := f _ (List.getElem_mem hj)
            exact this
          · exact f _ (List.getElem_mem _)
      · split
        · exact countersOk_dispatchQueue h
        · exact h
    all_goals exact h
  · rintro s ⟨h, hl⟩ hm he
    have hp := presenceStep_params p n s
    refine ⟨⟨?_, ?_⟩, by unfold legalDraw at *; rw [hp]; exact hl⟩
    · unfold presenceStep at he ⊢
      split
      · exact countersButWait_modifySlave h.1 (by simp) h.1.2.handshake h.1.2.noPing h.1.2.delay
      · split
        · next h1 h2 =>
          rw [if_neg h1, if_pos h2] at he
          dsimp only at he ⊢
          split
          · next h3 => rw [if_pos h3] at he; simp at he
          · refine countersButWait_modifySlave h.1 ?_ h.1.2.handshake h.1.2.noPing h.1.2.delay
            have : (s.sl.absCnt + 1#16).toNat ≤ s.sl.absCnt.toNat + 1 := by simp [BitVec.toNat_add]; omega
            dsimp only; omega
        · exact countersButWait_modifySlave h.1 h.1.2.absence h.1.2.handshake h.1.2.noPing h.1.2.delay
    · rw [hp]
      have : (presenceStep p n s).1.rw = s.rw ∨ (presenceStep p n s).2 = true := by
        unfold presenceStep; (repeat' split) <;> (try dsimp only) <;> (repeat' split) <;> first | exact .inl rfl |
            exact .inr rfl
      rcases this with e | e
      · rw [e]; exact h.2
      · rw [he] at e; simp at e
  · rintro s ⟨h, hl⟩ hm he
    unfold presenceStep at he ⊢
    split
    · next h1 => rw [if_pos h1] at he; simp at he
    · next h1 =>
      rw [if_neg h1] at he
      split
      · next h2 =>
        rw [if_pos h2] at he
        dsimp only at he ⊢
        split
        · refine ⟨countersButWait_slaveReset n ?_, by simp [slaveReset]⟩
          have : (s.sl.absCnt + 1#16).toNat ≤ s.sl.absCnt.toNat + 1 := by simp [BitVec.toNat_add]; omega
          exact countersButWait_modifySlave (f :=
              fun c => { c with presCnt := 0#16, absCnt := c.absCnt + 1#16, hsCnt := 0#16, nopingCnt :=
                  0#16 }) h.1 (by dsimp only; omega) (by simp) (by simp) h.1.2.delay
        · next h3 => rw [if_neg h3] at he; simp at he
      · next h2 => rw [if_neg h2] at he; simp at he
  · rintro s ⟨h, hl⟩ hm
    unfold backoffStep
    split
    · exact ⟨⟨countersButWait_modifySlave h.1 h.1.2.absence h.1.2.handshake h.1.2.noPing hl.2, h.2⟩, hl⟩
    · split
      · next hb =>
        refine ⟨⟨countersButWait_modifySlave h.1 h.1.2.absence h.1.2.handshake h.1.2.noPing ?_, h.2⟩, hl⟩
        have := h.1.2.delay
        dsimp only at this ⊢
        rw [BitVec.toNat_sub_of_le (by simp [BitVec.le_def]; omega)]; simp; omega
      · exact ⟨h, hl⟩
  · intro s h hm
    have hz : CountersButWait { s with sl := { s.sl with hsCnt := 0#16, nopingCnt := 0#16 } } :=
      countersButWait_modifySlave (f := fun c => { c with hsCnt := 0#16, nopingCnt := 0#16 }) h.1 h.1.2.absence
          (by simp) (by simp) h.1.2.delay
    have hrs : ∀ f : SlaveCtl → SlaveCtl, ({ f s.sl with hsCnt := 0#16, nopingCnt := 0#16 } : SlaveCtl) =
        { s.sl with hsCnt := 0#16, nopingCnt := 0#16 } → CountersOk (slaveReset n (modifySlave f s)) := by
      intro f hf
      refine ⟨countersButWait_slaveReset n ?_, by simp [slaveReset]⟩
      have : ({ modifySlave f s with sl := { (modifySlave f s).sl with hsCnt := 0#16, nopingCnt := 0#16 } } : State) =
          { s with sl := { s.sl with hsCnt := 0#16, nopingCnt := 0#16 } } := by
        rw [← hf]; rfl
      rw [this]; exact hz
    unfold slaveTimers
    split
    case h_5 => exact h
    case h_6 => exact h
    all_goals dsimp only; split
    all_goals first | exact hrs _ rfl | skip
    all_goals
      refine ⟨countersButWait_modifySlave h.1 h.1.2.absence ?_ ?_ h.1.2.delay, h.2⟩
      all_goals first | exact h.1.2.handshake | exact h.1.2.noPing | skip
      dsimp only
      simp only [BitVec.toNat_add, BitVec.toNat_ofNat]
      omega
  · intro s h hm
    unfold slaveInitiate
    split
    · split
      · have h1 := countersOk_sendFrame (d := destOf masterAddr) (m := true) (p :=
            codeSignal :: hsVersion :: nonceBytes s.sl.nonce) h
        exact ⟨countersButWait_modifySlave h1.1 h1.1.2.absence (by simp) h1.1.2.noPing h1.1.2.delay, h1.2⟩
      · split
        · exact countersOk_dispatchQueue h
        · exact h
    · exact h

/-- The same as the invariant, with legal parameters. -/
theorem countersOk_iff {s : State} (hw : s.params.wf) : CountersOk s ↔ CounterInv s := by
  constructor
  · rintro ⟨⟨w, a, b, c, d, e, f, g, i, j, k⟩, l⟩
    exact ⟨a, l, c, d, e, f, g, i, j, k⟩
  · rintro ⟨a, l, c, d, e, f, g, i, j, k⟩
    exact ⟨⟨hw, a, by simp, c, d, e, f, g, i, j, k⟩, l⟩

end Sys2Proof.Machine
end

