-- ==== Sys2Proof/Laws/Decode.lean ====
section
/-! SUPPORT. The decoder's readers: each takes back what the encoder wrote and leaves the rest. -/

namespace Sys2Proof

theorem half_of_bytes (x : Half) : x.extractLsb' 8 8 ++ x.extractLsb' 0 8 = x := by
  apply BitVec.eq_of_getLsbD_eq
  intro i hi
  simp only [BitVec.getLsbD_append, BitVec.getLsbD_extractLsb']
  interval_cases i <;> simp

theorem wide_of_bytes (x : Wide) :
    x.extractLsb' 24 8 ++ x.extractLsb' 16 8 ++ x.extractLsb' 8 8 ++ x.extractLsb' 0 8 = x := by
  apply BitVec.eq_of_getLsbD_eq
  intro i hi
  simp only [BitVec.getLsbD_append, BitVec.getLsbD_extractLsb']
  interval_cases i <;> simp

@[simp] theorem takeByte_cons (mn : String) (b : Byte) (r : List Byte) : takeByte mn (b :: r) = .ok (b, r) := rfl

@[simp] theorem takeHalf_bytesOfHalf (mn : String) (x : Half) (r : List Byte) :
    takeHalf mn (bytesOfHalf x ++ r) = .ok (x, r) := by
  simp only [bytesOfHalf, List.cons_append, List.nil_append, takeHalf, half_of_bytes]

@[simp] theorem takeWide_bytesOfWide (mn : String) (x : Wide) (r : List Byte) :
    takeWide mn (bytesOfWide x ++ r) = .ok (x, r) := by
  simp only [bytesOfWide, List.cons_append, List.nil_append, takeWide, wide_of_bytes]

@[simp] theorem takeBit_byteOfBit (mn : String) (b : Bool) (r : List Byte) :
    takeBit mn (byteOfBit b :: r) = .ok (b, r) := by cases b <;> simp [takeBit, byteOfBit]

@[simp] theorem takeCounted_counted (mn : String) (bs r : List Byte) (h : bs.length ≤ 255) :
    takeCounted mn (counted bs ++ r) = .ok (bs, r) := by
  have hn : (BitVec.ofNat 8 bs.length).toNat = bs.length := by simp; omega
  simp [takeCounted, counted, hn]

/-- A code of a range row keeps its free bits. -/
theorem lowBits_codeOf {n : Nat} (base : Byte) (low : BitVec n) (h : base.setWidth n = 0#n) (hn : n ≤ 8) :
    lowBits n (codeOf base low) = low := by
  apply BitVec.eq_of_getLsbD_eq
  intro i hi
  have hb : base.getLsbD i = false := by
    have := congrArg (fun x => x.getLsbD i) h
    simpa [hi] using this
  have h8 : i < 8 := by omega
  simp only [lowBits, codeOf, BitVec.getLsbD_setWidth, BitVec.getLsbD_or, hi, h8, hb, decide_true, Bool.true_and,
    Bool.false_or]

end Sys2Proof
end

