-- ==== Sys2Proof/Laws/PerInstr.lean ====
section
/-! SUPPORT. The family EncodedLength: how long the encoding of each instruction is (30_encoding.md R65, R68, R71). -/

namespace Sys2Proof.Laws.EncodedLength

/-- A wire command that has an encoding fits a payload of 124 bytes; a host operation that has one begins with its op
byte and has at most the three counted or fixed operands of its row, so at most 514 bytes. -/
def Statement (i : Instr) : Prop :=
  i.wellFormed = true →
    match i.format with
    | .cmd => (encode i).length ≤ maxPayload
    | .hostOp => 1 ≤ (encode i).length ∧ (encode i).length ≤ 514

/-- A command code and the arguments that fit behind it. -/
theorem command_length {code : Byte} {args : List Byte} (h : payloadArgs args = true) :
    (code :: args).length ≤ maxPayload := by
  simpa [payloadArgs] using h

/-- The length of a counted operand that has an encoding. -/
theorem counted_length {bs : List Byte} (h : countable bs = true) : (counted bs).length ≤ 256 := by
  simp only [countable, decide_eq_true_eq] at h
  simp only [counted, List.length_cons]; omega

theorem signal (args : List Byte) : Statement (.signal args) := fun h => command_length h

theorem find (args : List Byte) : Statement (.find args) := fun h => command_length h

theorem getUid (args : List Byte) : Statement (.getUid args) := fun h => command_length h

theorem ping (args : List Byte) : Statement (.ping args) := fun h => command_length h

theorem alert (args : List Byte) : Statement (.alert args) := fun h => command_length h

theorem ack (args : List Byte) : Statement (.ack args) := fun h => command_length h

theorem nack (args : List Byte) : Statement (.nack args) := fun h => command_length h

theorem reservedCmd05 (args : List Byte) : Statement (.reservedCmd05 args) := fun h => command_length h

theorem reservedCmd07 (args : List Byte) : Statement (.reservedCmd07 args) := fun h => command_length h

theorem reservedCmd08To0B (low : BitVec 2) (args : List Byte) : Statement (.reservedCmd08To0B low args) := 
  fun h => command_length h

theorem reservedCmd0CTo0D (low : BitVec 1) (args : List Byte) : Statement (.reservedCmd0CTo0D low args) := 
  fun h => command_length h

theorem reservedCmd0E (args : List Byte) : Statement (.reservedCmd0E args) := fun h => command_length h

theorem reservedCmd10To1F (low : BitVec 4) (args : List Byte) : Statement (.reservedCmd10To1F low args) := 
  fun h => command_length h

theorem reservedCmd20To3F (low : BitVec 5) (args : List Byte) : Statement (.reservedCmd20To3F low args) := 
  fun h => command_length h

theorem reservedCmd40To7F (low : BitVec 6) (args : List Byte) : Statement (.reservedCmd40To7F low args) := 
  fun h => command_length h

theorem reservedCmd80ToFF (low : BitVec 7) (args : List Byte) : Statement (.reservedCmd80ToFF low args) := 
  fun h => command_length h

theorem reservedCmdEmpty : Statement .reservedCmdEmpty := fun _ => Nat.zero_le _

theorem nop : Statement .nop := fun _ => by simp [Instr.format, encode]

theorem crcUpdate (crc : Half) (b : Byte) : Statement (.crcUpdate crc b) := 
  fun _ => by simp [Instr.format, encode, bytesOfHalf]

theorem hton16 (x : Half) : Statement (.hton16 x) := 
  fun _ => by simp [Instr.format, encode, bytesOfHalf]

theorem hton32 (x : Wide) : Statement (.hton32 x) := 
  fun _ => by simp [Instr.format, encode, bytesOfWide]

theorem ntoh16 (x : Half) : Statement (.ntoh16 x) := 
  fun _ => by simp [Instr.format, encode, bytesOfHalf]

theorem ntoh32 (x : Wide) : Statement (.ntoh32 x) := 
  fun _ => by simp [Instr.format, encode, bytesOfWide]

theorem parse : Statement .parse := fun _ => by simp [Instr.format, encode]

theorem read (n : Byte) : Statement (.read n) := fun _ => by simp [Instr.format, encode]

theorem send (dst : Byte) (data : List Byte) : Statement (.send dst data) := by
  intro h
  have := counted_length h
  simp only [Instr.format, encode, List.length_cons, List.length_append, List.length_nil]; omega

theorem cmdSend (dst : Byte) (cmd : Byte) (args : List Byte) : Statement (.cmdSend dst cmd args) := by
  intro h
  have := counted_length h
  simp only [Instr.format, encode, List.length_cons, List.length_append, List.length_nil]; omega

theorem rxStatus : Statement .rxStatus := fun _ => by simp [Instr.format, encode]

theorem push (dst : Byte) (wait : Bool) (data : List Byte) : Statement (.push dst wait data) := by
  intro h
  have := counted_length h
  simp only [Instr.format, encode, List.length_cons, List.length_append, List.length_nil]; omega

theorem pushUid (uid : List Byte) (wait : Bool) (data : List Byte) : Statement (.pushUid uid wait data) := by
  intro h
  simp only [Instr.wellFormed, Bool.and_eq_true] at h
  have h1 := counted_length h.1
  have h2 := counted_length h.2
  simp only [Instr.format, encode, List.length_cons, List.length_append, List.length_nil]; omega

theorem queueStatus : Statement .queueStatus := fun _ => by simp [Instr.format, encode]

theorem rosterRead (slot : Byte) : Statement (.rosterRead slot) := fun _ => by simp [Instr.format, encode]

theorem resolveUid (uid : List Byte) : Statement (.resolveUid uid) := by
  intro h
  have := counted_length h
  simp only [Instr.format, encode, List.length_cons]; omega

theorem nodeStatus : Statement .nodeStatus := fun _ => by simp [Instr.format, encode]

theorem replyStatus : Statement .replyStatus := fun _ => by simp [Instr.format, encode]

theorem reservedOp06To07 (low : BitVec 1) : Statement (.reservedOp06To07 low) := 
  fun _ => by simp [Instr.format, encode]

theorem reservedOp08To0F (low : BitVec 3) : Statement (.reservedOp08To0F low) := 
  fun _ => by simp [Instr.format, encode]

theorem reservedOp15 : Statement .reservedOp15 := fun _ => by simp [Instr.format, encode]

theorem reservedOp16To17 (low : BitVec 1) : Statement (.reservedOp16To17 low) := 
  fun _ => by simp [Instr.format, encode]

theorem reservedOp18To1F (low : BitVec 3) : Statement (.reservedOp18To1F low) := 
  fun _ => by simp [Instr.format, encode]

theorem reservedOp23 : Statement .reservedOp23 := fun _ => by simp [Instr.format, encode]

theorem reservedOp24To27 (low : BitVec 2) : Statement (.reservedOp24To27 low) := 
  fun _ => by simp [Instr.format, encode]

theorem reservedOp28To2F (low : BitVec 3) : Statement (.reservedOp28To2F low) := 
  fun _ => by simp [Instr.format, encode]

theorem reservedOp32To33 (low : BitVec 1) : Statement (.reservedOp32To33 low) := 
  fun _ => by simp [Instr.format, encode]

theorem reservedOp34To37 (low : BitVec 2) : Statement (.reservedOp34To37 low) := 
  fun _ => by simp [Instr.format, encode]

theorem reservedOp38To3F (low : BitVec 3) : Statement (.reservedOp38To3F low) := 
  fun _ => by simp [Instr.format, encode]

theorem reservedOp42To43 (low : BitVec 1) : Statement (.reservedOp42To43 low) := 
  fun _ => by simp [Instr.format, encode]

theorem reservedOp44To47 (low : BitVec 2) : Statement (.reservedOp44To47 low) := 
  fun _ => by simp [Instr.format, encode]

theorem reservedOp48To4F (low : BitVec 3) : Statement (.reservedOp48To4F low) := 
  fun _ => by simp [Instr.format, encode]

theorem reservedOp50To5F (low : BitVec 4) : Statement (.reservedOp50To5F low) := 
  fun _ => by simp [Instr.format, encode]

theorem reservedOp60To7F (low : BitVec 5) : Statement (.reservedOp60To7F low) := 
  fun _ => by simp [Instr.format, encode]

theorem reservedOp80ToFF (low : BitVec 7) : Statement (.reservedOp80ToFF low) := 
  fun _ => by simp [Instr.format, encode]

end Sys2Proof.Laws.EncodedLength
end

