-- ==== Sys2Proof/Tests/Slice0.lean ====
section
/-! SUPPORT. Tests. The expected results come from spec/95_test_vectors.md (a vector's name stands in the docstring) or
from the rule named there. A `witness_` theorem shows a concrete state and operands that meet the hypotheses of the
obligation it is named after, clause by clause. -/

namespace Sys2Proof.Tests

-- One theorem at a time: the kernel evaluations of this file would otherwise each wait on a thread of its own.
set_option Elab.async false

open Sys2Proof.Machine

/-! ### Helpers -/

/-- The state an outcome answers. -/
def after : Host.Outcome State Fault Refusal → Option State
  | .next t => some t
  | _ => none

/-- The master after RESET. -/
def master : State := State.reset

/-- The parameters of the test slave. -/
def slaveParams : Params := { Config.resetParams with role := .slave }

/-- The identity "ABC123456789". -/
def abc : List Byte := [0x41, 0x42, 0x43, 0x31, 0x32, 0x33, 0x34, 0x35, 0x36, 0x37, 0x38, 0x39]

/-- The configuration of the default slave. -/
def bootCfg : BootConfig :=
  ⟨true, 0x01, 0x12345678, true, #v[0x41, 0x42, 0x43, 0x31, 0x32, 0x33, 0x34, 0x35, 0x36, 0x37, 0x38, 0x39]⟩

/-- The default slave after RESET. -/
def slave : State := resetState slaveParams true bootCfg 0xAABBCCDD

/-- A slave whose configuration was refused. -/
def haltedSlave : State := resetState slaveParams false bootCfg 0

/-- The slave in a join state, at an address. -/
def slaveIn (st : SlState) (addr : Nibble) : State :=
  { slave with ownAddr := addr, lastAddr := 15, sl := { slave.sl with state := st } }

/-- The slave of P1, connected at address 1. -/
def connected : State := slaveIn .connected 1

/-- Slot 0 of the master of P1. -/
def slot0 : Slot := ⟨1, 12, Memory.writeFrom [] 0 abc, 3, 0, false⟩

/-- The master of P1: one slave known. -/
def knowing : State := { master with roster := { master.roster with slots := master.roster.slots.set 0 slot0 } }

/-- A frame that has been received whole: the engine READY. -/
def received (bytes : List Byte) (s : State) : State :=
  { s with fe := { s.fe with
      rxBuf := Memory.writeFrom [] 0 bytes, rxCnt := BitVec.ofNat 8 bytes.length, fstate := .ready, rxEn := false } }

/-- A frame whose header PARSE has latched. -/
def held (bytes : List Byte) (s : State) : State := noteSender (latchHeader (received bytes s))

/-- A partial frame. -/
def partly (bytes : List Byte) (s : State) : State :=
  { s with fe := { s.fe with
      rxBuf := Memory.writeFrom [] 0 bytes, rxCnt := BitVec.ofNat 8 bytes.length, rxActive := true } }

/-- The bytes of a frame with its CRC. -/
def framed (header payload : List Byte) : List Byte :=
  let c := crc16 (header ++ payload)
  header ++ payload ++ [c.extractLsb' 8 8, c.extractLsb' 0 8]

/-- A CMD frame from the master to address 1. -/
def toOne (payload : List Byte) : List Byte := framed [0xF1, 0x80 ||| BitVec.ofNat 8 payload.length] payload

/-- A wait for a reply. -/
def awaiting (kind : WaitKind) (d : Nibble) (s : State) : State := { s with rw := ⟨.pending, d, kind, 0⟩ }

/-- An event that is the next one. -/
def withEvent (e : Event) (s : State) : State := { s with inputs := [e] }

/-- A tick without fields. -/
def aTick : Event := .tick true false 1 0

/-- The symbols of the master's frame. -/
def symbols : List Byte → List Symbol
  | [] => []
  | a :: bs => [.brk, .byte a true] ++ bs.map (fun b => .byte b false)

/-- The symbols of a slave's frame. -/
def slaveSymbols (bs : List Byte) : List Symbol := .txen true :: symbols bs ++ [.txen false]

/-- One request queued. -/
def withHead (e : QueueEntry) (s : State) : State :=
  { s with queue := { s.queue with slots := s.queue.slots.set 0 e, tail := 1 } }

/-- The master with `n` requests queued for address 1. -/
def queued (n : Nat) (s : State) : State :=
  { s with queue := { s.queue with
      slots := s.queue.slots.mapIdx (fun i e => if i < n then ⟨0x01, 1, false, []⟩ else e)
      tail := BitVec.ofNat 8 n } }

/-- A held command, from facts that evaluate. -/
theorem heldBy {p : List Byte} {s : State}
    (h : IndicesOk s ∧ s.fe.fstate = .processing ∧ crcFold s.fe.crcAcc (p ++ trailer s) = 0x0000 ∧ s.fe.fDst = own s ∧
      isReply s = false) : HeldCommand p s := ⟨h.1, h.2.1, h.2.2.1, h.2.2.2.1, h.2.2.2.2⟩

/-- An awaited command, from facts that evaluate. -/
theorem awaitedBy {p : List Byte} {s : State}
    (h : IndicesOk s ∧ s.fe.fstate = .processing ∧ crcFold s.fe.crcAcc (p ++ trailer s) = 0x0000 ∧ s.fe.fDst = own s ∧
      isReply s = true) : AwaitedCommand p s := ⟨h.1, h.2.1, h.2.2.1, h.2.2.2.1, h.2.2.2.2⟩

/-- A quiet node, from facts that evaluate. -/
theorem quietBy {s : State}
    (h : (IndicesOk s ∧ s.halted = false) ∧ channelIdle s = true ∧ s.rw.state = .none) : Quiet s := by
  have := h.2.1
  simp only [channelIdle, Bool.and_eq_true, decide_eq_true_eq, Bool.not_eq_true'] at this
  exact ⟨h.1.1, h.1.2, this.1.1, this.1.2, this.2, h.2.2⟩

/-! ### Well-formedness: an ill-formed term for each check -/

theorem test_wellFormed_refuses_long_data :
    (Instr.send 0x01 (List.replicate 256 0)).wellFormed = false := by decide +kernel

theorem test_wellFormed_refuses_long_args :
    (Instr.cmdSend 0x01 0x03 (List.replicate 256 0)).wellFormed = false := by decide +kernel

theorem test_wellFormed_refuses_long_push :
    (Instr.push 0x01 true (List.replicate 256 0)).wellFormed = false := by decide +kernel

theorem test_wellFormed_refuses_long_uid : (Instr.pushUid (List.replicate 256 0) true []).wellFormed = false ∧
    (Instr.pushUid [] true (List.replicate 256 0)).wellFormed = false := by decide +kernel

theorem test_wellFormed_refuses_long_identity :
    (Instr.resolveUid (List.replicate 256 0)).wellFormed = false := by decide +kernel

theorem test_wellFormed_refuses_long_command : (Instr.ack (List.replicate 124 0)).wellFormed = false ∧
    (Instr.reservedCmd80ToFF 0 (List.replicate 124 0)).wellFormed = false := by decide +kernel

theorem test_wellFormed_accepts_the_bounds : (Instr.send 0x01 (List.replicate 255 0)).wellFormed = true ∧
    (Instr.ack (List.replicate 123 0)).wellFormed = true := by decide +kernel

/-! ### Decoding: words written out from 30_encoding.md R68 and R71 -/

theorem test_decode_signal :
    decodeCommand [0x00, 0x01, 0xAA, 0xBB, 0xCC, 0xDD] = .signal [0x01, 0xAA, 0xBB, 0xCC, 0xDD] := rfl

theorem test_decode_find :
    decodeCommand [0x01, 0xAA, 0xBB, 0xCC, 0xDD, 0x01] = .find [0xAA, 0xBB, 0xCC, 0xDD, 0x01] := rfl

theorem test_decode_getUid : decodeCommand [0x02] = .getUid [] := rfl

theorem test_decode_ping : decodeCommand [0x03] = .ping [] := rfl

theorem test_decode_alert : decodeCommand [0x04, 0x55] = .alert [0x55] := rfl

theorem test_decode_ack : decodeCommand [0x06, 0x41, 0x42] = .ack [0x41, 0x42] := rfl

theorem test_decode_nack : decodeCommand [0x0F] = .nack [] := rfl

theorem test_decode_reservedCmd05 : decodeCommand [0x05] = .reservedCmd05 [] := rfl

theorem test_decode_reservedCmd07 : decodeCommand [0x07] = .reservedCmd07 [] := rfl

theorem test_decode_reservedCmd08To0B : decodeCommand [0x0A] = .reservedCmd08To0B 2 [] := rfl

theorem test_decode_reservedCmd0CTo0D : decodeCommand [0x0D] = .reservedCmd0CTo0D 1 [] := rfl

theorem test_decode_reservedCmd0E : decodeCommand [0x0E] = .reservedCmd0E [] := rfl

theorem test_decode_reservedCmd10To1F : decodeCommand [0x1C] = .reservedCmd10To1F 12 [] := rfl

theorem test_decode_reservedCmd20To3F : decodeCommand [0x33] = .reservedCmd20To3F 19 [] := rfl

theorem test_decode_reservedCmd40To7F : decodeCommand [0x6A] = .reservedCmd40To7F 42 [] := rfl

theorem test_decode_reservedCmd80ToFF : decodeCommand [0xC5] = .reservedCmd80ToFF 69 [] := rfl

theorem test_decode_reservedCmdEmpty : decodeCommand [] = .reservedCmdEmpty := rfl

theorem test_decode_nop : decodeHostOp [0x00] = .ok (.nop, []) := rfl

theorem test_decode_crcUpdate : decodeHostOp [0x01, 0x12, 0x34, 0x56] = .ok (.crcUpdate 0x1234 0x56, []) := rfl

theorem test_decode_hton16 : decodeHostOp [0x02, 0x12, 0x34] = .ok (.hton16 0x1234, []) := rfl

theorem test_decode_hton32 : decodeHostOp [0x03, 0x11, 0x22, 0x33, 0x44] = .ok (.hton32 0x11223344, []) := rfl

theorem test_decode_ntoh16 : decodeHostOp [0x04, 0x34, 0x12] = .ok (.ntoh16 0x3412, []) := rfl

theorem test_decode_ntoh32 : decodeHostOp [0x05, 0x44, 0x33, 0x22, 0x11] = .ok (.ntoh32 0x44332211, []) := rfl

theorem test_decode_parse : decodeHostOp [0x10] = .ok (.parse, []) := rfl

theorem test_decode_read : decodeHostOp [0x11, 0x05] = .ok (.read 0x05, []) := rfl

theorem test_decode_send : decodeHostOp [0x12, 0xFF, 0x01, 0x99] = .ok (.send 0xFF [0x99], []) := rfl

theorem test_decode_cmdSend :
    decodeHostOp [0x13, 0x01, 0x06, 0x02, 0x41, 0x42] = .ok (.cmdSend 0x01 0x06 [0x41, 0x42], []) := rfl

theorem test_decode_rxStatus : decodeHostOp [0x14] = .ok (.rxStatus, []) := rfl

theorem test_decode_push :
    decodeHostOp [0x20, 0x01, 0x01, 0x02, 0x10, 0x20] = .ok (.push 0x01 true [0x10, 0x20], []) := rfl

theorem test_decode_pushUid :
    decodeHostOp [0x21, 0x03, 0x41, 0x42, 0x43, 0x00, 0x01, 0x55] = .ok (.pushUid [0x41, 0x42, 0x43] false [0x55],
        []) :=
  rfl

theorem test_decode_queueStatus : decodeHostOp [0x22] = .ok (.queueStatus, []) := rfl

theorem test_decode_rosterRead : decodeHostOp [0x30, 0x0D] = .ok (.rosterRead 0x0D, []) := rfl

theorem test_decode_resolveUid : decodeHostOp [0x31, 0x01, 0x01] = .ok (.resolveUid [0x01], []) := rfl

theorem test_decode_nodeStatus : decodeHostOp [0x40] = .ok (.nodeStatus, []) := rfl

theorem test_decode_replyStatus : decodeHostOp [0x41] = .ok (.replyStatus, []) := rfl

theorem test_decode_reservedOp06To07 : decodeHostOp [0x07] = .ok (.reservedOp06To07 1, []) := rfl

theorem test_decode_reservedOp08To0F : decodeHostOp [0x0D] = .ok (.reservedOp08To0F 5, []) := rfl

theorem test_decode_reservedOp15 : decodeHostOp [0x15] = .ok (.reservedOp15, []) := rfl

theorem test_decode_reservedOp16To17 : decodeHostOp [0x16] = .ok (.reservedOp16To17 0, []) := rfl

theorem test_decode_reservedOp18To1F : decodeHostOp [0x1E] = .ok (.reservedOp18To1F 6, []) := rfl

theorem test_decode_reservedOp23 : decodeHostOp [0x23] = .ok (.reservedOp23, []) := rfl

theorem test_decode_reservedOp24To27 : decodeHostOp [0x26] = .ok (.reservedOp24To27 2, []) := rfl

theorem test_decode_reservedOp28To2F : decodeHostOp [0x2B] = .ok (.reservedOp28To2F 3, []) := rfl

theorem test_decode_reservedOp32To33 : decodeHostOp [0x33] = .ok (.reservedOp32To33 1, []) := rfl

theorem test_decode_reservedOp34To37 : decodeHostOp [0x36] = .ok (.reservedOp34To37 2, []) := rfl

theorem test_decode_reservedOp38To3F : decodeHostOp [0x3C] = .ok (.reservedOp38To3F 4, []) := rfl

theorem test_decode_reservedOp42To43 : decodeHostOp [0x43] = .ok (.reservedOp42To43 1, []) := rfl

theorem test_decode_reservedOp44To47 : decodeHostOp [0x45] = .ok (.reservedOp44To47 1, []) := rfl

theorem test_decode_reservedOp48To4F : decodeHostOp [0x4E] = .ok (.reservedOp48To4F 6, []) := rfl

theorem test_decode_reservedOp50To5F : decodeHostOp [0x5A] = .ok (.reservedOp50To5F 10, []) := rfl

theorem test_decode_reservedOp60To7F : decodeHostOp [0x72] = .ok (.reservedOp60To7F 18, []) := rfl

theorem test_decode_reservedOp80ToFF : decodeHostOp [0xFF] = .ok (.reservedOp80ToFF 127, []) := rfl

theorem test_decode_refuses_truncated :
    decodeHostOp [] = .error .noOpcode ∧ decodeHostOp [0x01, 0x12] = .error (.truncated "CRC_UPDATE") ∧
    decodeHostOp [0x12, 0x01, 0x02, 0x41] = .error (.truncated "SEND") := ⟨rfl, rfl, rfl⟩

theorem test_decode_refuses_bit : decodeHostOp [0x20, 0x01, 0x02, 0x00] = .error (.notABit "PUSH") := rfl

/-- The word of PARSE runs as the first operation after RESET. -/
theorem test_tableWord_runs : decodeTableWord 8 0x10 = some .parse ∧
    (step (master.withFetchWord 8 0x10) = exec .parse master) := ⟨rfl, rfl⟩

/-! ### RESET -/

/-- R178: State.reset is RESET in the master role. -/
theorem test_reset_is_the_master : resetState Config.resetParams true bootCfg 0 = State.reset := by decide

/-- R179. -/
theorem test_reset_of_the_slave :
    (slave.ownAddr, slave.sl.nonce, slave.sl.modeByte, slave.sl.uidLen, slave.sl.uid.readFrom 0 12, slave.halted) =
    ((0 : Nibble), (0xAABBCCDD : Wide), (0x01 : Byte), (12 : Nibble), abc, false) := by decide

/-- V-S9. -/
theorem test_reset_halts : (haltedSlave.halted, haltedSlave.fe.rxEn) = (true, false) := by decide

/-! ### Codec -/

/-- V-T8. -/
theorem test_crcUpdate :
    (after (exec (.crcUpdate 0xFFFF 0x00) haltedSlave)).map (·.result) = some (some ⟨.ok, .word16 0xE1F0⟩) :=
  by decide

/-- The tables of 40. -/
theorem test_crcUpdate_table :
    (crcUpd 0x1234 0x56, crcUpd 0xB100 0xB1, crc16 [0x31, 0x32, 0x33, 0x34, 0x35, 0x36, 0x37, 0x38, 0x39]) =
    ((0x3C40 : Half), (0x0000 : Half), (0x29B1 : Half)) := by decide +kernel

/-- The byte-order table of 40. -/
theorem test_hton16 :
    (after (exec (.hton16 0x1234) master)).map (·.result) = some (some ⟨.ok, .word16 0x3412⟩) := by decide

/-- The byte-order table of 40. -/
theorem test_ntoh16 :
    (after (exec (.ntoh16 0x3412) master)).map (·.result) = some (some ⟨.ok, .word16 0x1234⟩) := by decide

/-- The byte-order table of 40. -/
theorem test_hton32 :
    (after (exec (.hton32 0xAABBCCDD) master)).map (·.result) = some (some ⟨.ok, .word32 0xDDCCBBAA⟩) := by decide

/-- The byte-order table of 40. -/
theorem test_ntoh32 :
    (after (exec (.ntoh32 0x44332211) master)).map (·.result) = some (some ⟨.ok, .word32 0x11223344⟩) := by decide

/-- V-T1. -/
theorem test_nop : (after (exec .nop haltedSlave)).map (·.result) = some (some ⟨.ok, .none⟩) := by decide

/-! ### Frame engine -/

/-- V-F1. -/
theorem test_rxByte_completes :
    (after (step (withEvent (.rxByte 0x22 false) (partly [0xF1, 0x02, 0x41, 0x42, 0x55] connected)))).map
    (fun u => (u.fe.fstate, u.fe.rxEn, u.fe.rxCnt)) = some (.ready, false, 6) := by decide

/-- V-F10. -/
theorem test_rxByte_abandons : (after (step (withEvent (.rxByte 0x7D false) (partly [0xF1] connected)))).map
    (fun u => (u.fe.rxActive, u.fe.rxCnt, u.fe.rxEn, u.fe.fstate)) = some (false, 0, true, .idle) := by decide

/-- V-F11. -/
theorem test_rxByte_restarts :
    (after (step (withEvent (.rxByte 0xF1 true) (partly [0xF1, 0x02, 0x41] connected)))).map
    (fun u => (u.fe.rxActive, u.fe.rxCnt)) = some (true, 1) := by decide

/-- V-F2. -/
theorem test_parse :
    (after (exec .parse (received [0xF1, 0x02, 0x41, 0x42, 0x55, 0x22] connected))).map (fun u => (u.result,
        u.fe.crcSt, u.lastAddr)) =
    some (some ⟨.ok, .word8 0x02⟩, .pending, 15) := by decide

/-- V-F7. -/
theorem test_parse_foreign :
    (after (exec .parse (received [0xF2, 0x01, 0x41, 0x2A, 0x7A] connected))).map
    (fun u => (u.result, u.fe.fstate, u.fe.crcSt, u.fe.rxEn)) = some (some ⟨.ok, .word8 0xFE⟩, .idle, .none, true) :=
  by decide

/-- V-F3. -/
theorem test_read_part :
    (after (exec (.read 0x01) (held [0xF1, 0x02, 0x41, 0x42, 0x55, 0x22] connected))).map (·.result) =
    some (some ⟨.ok, .bytes 1 [0x41] .pending⟩) := by decide

/-- V-F8. -/
theorem test_read_corrupt :
    (after (exec (.read 0x02) (held [0xF1, 0x02, 0x40, 0x42, 0x55, 0x22] connected))).map
    (fun u => (u.result, u.fe.fstate, u.fe.rxEn)) = some (some ⟨.ok, .bytes 2 [0x40, 0x42] .invalid⟩, .idle, true) :=
  by decide +kernel

/-- V-F6. -/
theorem test_send_replies :
    (after (exec (.send 0xFF []) (held [0xF1, 0x02, 0x41, 0x42, 0x55, 0x22] connected))).map (fun u => (u.txOut,
        u.fe.fstate, u.fe.rxEn)) =
    some (slaveSymbols [0x1F, 0x00, 0x0E, 0x42], .idle, true) := by decide +kernel

/-- V-F14. -/
theorem test_send_busy :
    (after (exec (.send 0x0F [0x00]) (partly [0xF1, 0x02] connected))).map (fun u => (u.result, u.txOut)) =
    some (some ⟨.busy, .none⟩, []) := by decide

/-- V-F18. -/
theorem test_cmdSend : (after (exec (.cmdSend 0x01 0x03 []) master)).map (fun u => (u.result, u.txOut)) =
    some (some ⟨.ok, .none⟩, symbols [0xF1, 0x81, 0x03, 0x00, 0x34]) := by decide +kernel

/-- R107, as V-F17. -/
theorem test_cmdSend_bad :
    (after (exec (.cmdSend 0x10 0x03 []) master)).map (fun u => (u.result, u.txOut)) = some (some ⟨.badArg, .none⟩,
        []) :=
  by decide

/-- V-F22. -/
theorem test_rxStatus :
    (after (exec .rxStatus master)).map (·.result) = some (some ⟨.ok, .word32 0x08000000⟩) := by decide

/-- V-F2. -/
theorem test_rxStatus_held :
    (after (exec .rxStatus (held [0xF1, 0x02, 0x41, 0x42, 0x55, 0x22] connected))).map (·.result) = some (some ⟨.ok,
        .word32 0x002041F6⟩) :=
  by decide

/-! ### Queue -/

/-- V-Q1. -/
theorem test_push_full :
    (after (exec (.push 0x01 false [0x00]) (queued 4 master))).map (fun u => (u.result, qcount u)) =
    some (some ⟨.queueFull, .none⟩, 4) := by decide

/-- V-Q2. -/
theorem test_push_long : (after (exec (.push 0x01 false (List.replicate 125 0)) (queued 4 master))).map (·.result) =
    some (some ⟨.tooLong, .none⟩) := by decide +kernel

/-- V-Q7. -/
theorem test_pushUid :
    (after (exec (.pushUid abc false [0x55]) knowing)).map (fun u => (u.result, (headEntry u).dst, qcount u)) =
    some (some ⟨.ok, .none⟩, 0x01, 1) := by decide

/-- V-Q6. -/
theorem test_pushUid_unknown :
    (after (exec (.pushUid [0x41, 0x42, 0x43] false [0x00]) master)).map (·.result) = some (some ⟨.unknownUid,
        .none⟩) :=
  by decide

/-- V-Q1. -/
theorem test_queueStatus :
    (after (exec .queueStatus (queued 4 master))).map (·.result) = some (some ⟨.ok, .word16 0x0404⟩) := by decide

/-- V-Q3. -/
theorem test_tick_dispatches :
    (after (step (withEvent aTick (withHead ⟨0x01, 1, true, [(0, 0xA1)]⟩ master)))).map (fun u => (u.txOut, u.rw)) =
    some (symbols [0xF1, 0x01, 0xA1, 0x8E, 0x04], ⟨.pending, 1, .app, 0⟩) := by decide +kernel

/-! ### Roster -/

/-- R124: with a ceiling above 256 a ping error count of 255 goes on to 256, and 299 evicts at 300. -/
theorem test_pingErr_does_not_wrap :
    let long : State := { awaiting .ping 1 knowing with params := { knowing.params with pingErrMax := 300 } }
    let at' (n : Half) : State := { long with roster := { long.roster with
      slots := long.roster.slots.set 0 { slot0 with pingErr := n } } }
    (slotAt (consumeReply .timeout (at' 255)) 0).pingErr = 256 ∧
    slotAt (consumeReply .timeout (at' 299)) 0 = Slot.blank := by decide +kernel

/-- R166: an oversized SEND on an idle channel changes nothing, a busy count left over included. -/
theorem test_send_too_long_idle :
    let left : State := { connected with fe := { connected.fe with busyCnt := 1 } }
    after (exec (.send 0xFF (List.replicate 125 0)) left) =
      some { left with result := some ⟨.tooLong, .none⟩ } := by decide +kernel

/-- V-R1. -/
theorem test_rosterRead :
    (after (exec (.rosterRead 0x00) knowing)).map (·.result) = some (some ⟨.ok, .slot 1 12 abc 3 0 false⟩) :=
  by decide

/-- V-R3. -/
theorem test_rosterRead_bad :
    (after (exec (.rosterRead 0x0E) knowing)).map (·.result) = some (some ⟨.badArg, .none⟩) := by decide

/-- V-R5. -/
theorem test_resolveUid :
    (after (exec (.resolveUid abc) knowing)).map (·.result) = some (some ⟨.ok, .address 1⟩) := by decide

/-- V-R6. -/
theorem test_resolveUid_part :
    (after (exec (.resolveUid [0x41, 0x42, 0x43]) knowing)).map (·.result) = some (some ⟨.ok, .address 0⟩) :=
  by decide

/-- R122. -/
theorem test_scan_empty : scan master = (master, 0) := by decide

/-- P3, tick 27. -/
theorem test_eviction : slotAt (consumeReply .timeout (awaiting .ping 1 { knowing with roster := { knowing.roster with
      slots := knowing.roster.slots.set 0 { slot0 with pingErr := 2 } } })) 0 = Slot.blank := by decide

/-! ### Wire commands -/

/-- V-C1. -/
theorem test_signal :
    (after (exec (.signal [0x01, 0xAA, 0xBB, 0xCC, 0xDD]) (held [0x0F, 0x86, 0x00, 0x01, 0xAA, 0xBB, 0xCC, 0xDD, 0x8D,
        0x4B] master))).map
    (fun u => (u.txOut, u.hs.state, u.hs.addr, u.rw)) = some (symbols
      [0xF0, 0x86, 0x01, 0xAA, 0xBB, 0xCC, 0xDD, 0x01, 0x90, 0x07], .waitAddrAck, 1, ⟨.pending, 0, .hsFind, 0⟩) :=
  by decide +kernel

/-- V-M4. -/
theorem test_signal_short :
    (after (exec (.signal [0x01, 0xAA, 0xBB, 0xCC]) (held [0x0F, 0x85, 0x00, 0x01, 0xAA, 0xBB, 0xCC, 0x3A, 0xD8]
        master))).map
    (fun u => (u.txOut, u.hs.state, u.fe.fstate)) = some ([], .idle, .idle) := by decide +kernel

/-- V-C2. -/
theorem test_find :
    (after (exec (.find [0xAA, 0xBB, 0xCC, 0xDD, 0x01])
      (held [0xF0, 0x86, 0x01, 0xAA, 0xBB, 0xCC, 0xDD, 0x01, 0x90, 0x07] (slaveIn .signalSent 0)))).map
    (fun u => (u.txOut, u.ownAddr, u.sl.state)) = some (slaveSymbols [0x0F, 0x81, 0x06, 0xA8, 0xC2], 1, .addrSet) :=
  by decide +kernel

/-- V-S4. -/
theorem test_find_otherNonce : (after (exec (.find [0xAA, 0xBB, 0xCC, 0xDE, 0x01])
      (held [0xF0, 0x86, 0x01, 0xAA, 0xBB, 0xCC, 0xDE, 0x01, 0xC5, 0x54] (slaveIn .signalSent 0)))).map
    (fun u => (u.txOut, u.ownAddr, u.sl.state, u.fe.fstate)) = some ([], 0, .signalSent, .idle) := by decide +kernel

/-- V-C3. -/
theorem test_getUid :
    (after (exec (.getUid []) (held [0xF1, 0x81, 0x02, 0x10, 0x15] (slaveIn .addrSet 1)))).map
    (fun u => (u.txOut, u.sl.state)) = some (slaveSymbols ([0x1F, 0x8D, 0x06] ++ abc ++ [0x22, 0x64]), .uidSent) :=
  by decide +kernel

/-- V-C4. -/
theorem test_ping :
    (after (exec (.ping []) (held [0xF1, 0x81, 0x03, 0x00, 0x34] (slaveIn .uidSent 1)))).map
    (fun u => (u.txOut, u.sl.state, u.sl.pingRx)) = some (slaveSymbols [0x1F, 0x81, 0x06, 0xEB, 0xA1], .connected,
        true) :=
  by decide +kernel

/-- V-C5. -/
theorem test_ping_early : (after (exec (.ping []) (held [0xF1, 0x81, 0x03, 0x00, 0x34] (slaveIn .addrSet 1)))).map
    (fun u => (u.txOut, u.sl.state)) = some ([], .addrSet) := by decide +kernel

/-- V-C6. -/
theorem test_alert : (after (exec (.alert []) (held [0xF1, 0x81, 0x04, 0x70, 0xD3] connected))).map
    (fun u => (u.txOut, u.sl, u.fe.fstate, u.fe.rxEn)) = some ([], connected.sl, .idle, true) := by decide +kernel

/-- V-C10. -/
theorem test_ack_ignored : (after (exec (.ack []) (held [0x1F, 0x81, 0x06, 0xEB, 0xA1] master))).map
    (fun u => (u.txOut, u.rw, u.fe.fstate)) = some ([], ReplyWait.reset, .idle) := by decide +kernel

/-- P1, tick 6 before LIVENESS. -/
theorem test_ack_commits :
    (after (exec (.ack []) (held [0x1F, 0x81, 0x06, 0xEB, 0xA1] (awaiting .hsPing 1 { master with
      hs := ⟨.waitPingAck, 1, 0xAABBCCDD, 12, Memory.writeFrom [] 0 abc⟩ })))).map
    (fun u => (u.hs.state, slotAt u 0)) = some (.idle, { slot0 with pingCd := 4 }) := by decide +kernel

/-- V-C9. -/
theorem test_nack_aborts :
    (after (exec (.nack []) (held [0x0F, 0x81, 0x0F, 0x39, 0xEB] (awaiting .hsFind 0 { master with
      hs := ⟨.waitAddrAck, 1, 0xAABBCCDD, 0, []⟩ })))).map
    (fun u => (u.hs.state, u.rw.state, u.txOut)) = some (.idle, .none, []) := by decide +kernel

/-- V-C7. -/
theorem test_reservedCmd05 : (after (exec (.reservedCmd05 []) (held [0xF1, 0x81, 0x05, 0x60, 0xF2] connected))).map
    (fun u => (u.txOut, u.sl, u.fe.fstate)) = some ([], connected.sl, .idle) := by decide +kernel

/-- V-C8. -/
theorem test_reservedCmdEmpty : (after (exec .reservedCmdEmpty (held [0xF1, 0x80, 0xAC, 0x77] connected))).map
    (fun u => (u.txOut, u.sl, u.fe.fstate)) = some ([], connected.sl, .idle) := by decide +kernel

/-- R157. -/
theorem test_reservedCmd07 : (after (exec (.reservedCmd07 []) (held (toOne [0x07]) connected))).map
    (fun u => (u.txOut, u.sl, u.fe.fstate)) = some ([], connected.sl, .idle) := by decide +kernel

/-- R157. -/
theorem test_reservedCmd08To0B : (after (exec (.reservedCmd08To0B 2 []) (held (toOne [0x0A]) connected))).map
    (fun u => (u.txOut, u.sl, u.fe.fstate)) = some ([], connected.sl, .idle) := by decide +kernel

/-- R157. -/
theorem test_reservedCmd0CTo0D : (after (exec (.reservedCmd0CTo0D 1 []) (held (toOne [0x0D]) connected))).map
    (fun u => (u.txOut, u.sl, u.fe.fstate)) = some ([], connected.sl, .idle) := by decide +kernel

/-- R157. -/
theorem test_reservedCmd0E : (after (exec (.reservedCmd0E []) (held (toOne [0x0E]) connected))).map
    (fun u => (u.txOut, u.sl, u.fe.fstate)) = some ([], connected.sl, .idle) := by decide +kernel

/-- R157. -/
theorem test_reservedCmd10To1F : (after (exec (.reservedCmd10To1F 12 []) (held (toOne [0x1C]) connected))).map
    (fun u => (u.txOut, u.sl, u.fe.fstate)) = some ([], connected.sl, .idle) := by decide +kernel

/-- R157. -/
theorem test_reservedCmd20To3F : (after (exec (.reservedCmd20To3F 19 []) (held (toOne [0x33]) connected))).map
    (fun u => (u.txOut, u.sl, u.fe.fstate)) = some ([], connected.sl, .idle) := by decide +kernel

/-- R157. -/
theorem test_reservedCmd40To7F : (after (exec (.reservedCmd40To7F 42 []) (held (toOne [0x6A]) connected))).map
    (fun u => (u.txOut, u.sl, u.fe.fstate)) = some ([], connected.sl, .idle) := by decide +kernel

/-- R157. -/
theorem test_reservedCmd80ToFF : (after (exec (.reservedCmd80ToFF 69 []) (held (toOne [0xC5]) connected))).map
    (fun u => (u.txOut, u.sl, u.fe.fstate)) = some ([], connected.sl, .idle) := by decide +kernel

/-! ### Ticks and status operations -/

/-- V-S1, tick 3. -/
theorem test_tick_signals :
    (after (step (withEvent aTick { slave with sl := { slave.sl with presCnt := 2 } }))).map
    (fun u => (u.sl.state, u.txOut)) = some (.signalSent, slaveSymbols [0x0F, 0x86, 0x00, 0x01, 0xAA, 0xBB, 0xCC,
        0xDD, 0x8D, 0x4B]) :=
  by decide +kernel

/-- E6, tick 36. -/
theorem test_tick_noPing : (after (step (withEvent (.tick true false 1 0x11223344)
      { connected with sl := { connected.sl with nopingCnt := 30 } }))).map
    (fun u => (u.sl.state, u.ownAddr, u.sl.nonce, u.txOut)) = some (.disconnected, 0, 0x11223344, []) := by decide

/-- R158: 1 ..= BACKOFF_MAX. -/
theorem test_tick_drawOutOfRange : step (withEvent (.tick true false 5 0) master) = .refused .drawOutOfRange ∧
    step (withEvent (.tick true false 0 0) master) = .refused .drawOutOfRange := ⟨rfl, rfl⟩

/-- V-T2. -/
theorem test_nodeStatus :
    (after (exec .nodeStatus master)).map (·.result) = some (some ⟨.ok, .word64 0x000000000000003C⟩) := by decide

/-- V-S11. -/
theorem test_nodeStatus_slave :
    (after (exec .nodeStatus slave)).map (·.result) = some (some ⟨.ok, .word64 0xAABBCCDD01000001⟩) := by decide

/-- V-Q4. -/
theorem test_replyStatus :
    (after (exec .replyStatus { master with app := ⟨.timedOut, 1⟩ })).map (fun u => (u.result, u.app.st)) =
    some (some ⟨.ok, .word8 0x07⟩, .none) := by decide

/-- V-Q3. -/
theorem test_replyStatus_pending :
    (after (exec .replyStatus (awaiting .app 1 master))).map (·.result) = some (some ⟨.ok, .word8 0x05⟩) := by decide

/-- Log 5. -/
theorem test_malformed :
    step (withEvent (.hostOp 0x11 []) master) = .refused (.malformedOperation (.truncated "READ")) := rfl

/-! ### Reserved operation codes: BAD_OPCODE before HALTED (V-T7, V-E9) -/

theorem test_reservedOp06To07 :
    (after (exec (.reservedOp06To07 1) haltedSlave)).map (·.result) = some (some ⟨.badOpcode, .none⟩) := rfl

theorem test_reservedOp08To0F :
    (after (exec (.reservedOp08To0F 5) haltedSlave)).map (·.result) = some (some ⟨.badOpcode, .none⟩) := rfl

theorem test_reservedOp15 :
    (after (exec (.reservedOp15) haltedSlave)).map (·.result) = some (some ⟨.badOpcode, .none⟩) := rfl

theorem test_reservedOp16To17 :
    (after (exec (.reservedOp16To17 0) haltedSlave)).map (·.result) = some (some ⟨.badOpcode, .none⟩) := rfl

theorem test_reservedOp18To1F :
    (after (exec (.reservedOp18To1F 6) haltedSlave)).map (·.result) = some (some ⟨.badOpcode, .none⟩) := rfl

theorem test_reservedOp23 :
    (after (exec (.reservedOp23) haltedSlave)).map (·.result) = some (some ⟨.badOpcode, .none⟩) := rfl

theorem test_reservedOp24To27 :
    (after (exec (.reservedOp24To27 2) haltedSlave)).map (·.result) = some (some ⟨.badOpcode, .none⟩) := rfl

theorem test_reservedOp28To2F :
    (after (exec (.reservedOp28To2F 3) haltedSlave)).map (·.result) = some (some ⟨.badOpcode, .none⟩) := rfl

theorem test_reservedOp32To33 :
    (after (exec (.reservedOp32To33 1) haltedSlave)).map (·.result) = some (some ⟨.badOpcode, .none⟩) := rfl

theorem test_reservedOp34To37 :
    (after (exec (.reservedOp34To37 2) haltedSlave)).map (·.result) = some (some ⟨.badOpcode, .none⟩) := rfl

theorem test_reservedOp38To3F :
    (after (exec (.reservedOp38To3F 4) haltedSlave)).map (·.result) = some (some ⟨.badOpcode, .none⟩) := rfl

theorem test_reservedOp42To43 :
    (after (exec (.reservedOp42To43 1) haltedSlave)).map (·.result) = some (some ⟨.badOpcode, .none⟩) := rfl

theorem test_reservedOp44To47 :
    (after (exec (.reservedOp44To47 1) haltedSlave)).map (·.result) = some (some ⟨.badOpcode, .none⟩) := rfl

theorem test_reservedOp48To4F :
    (after (exec (.reservedOp48To4F 6) haltedSlave)).map (·.result) = some (some ⟨.badOpcode, .none⟩) := rfl

theorem test_reservedOp50To5F :
    (after (exec (.reservedOp50To5F 10) haltedSlave)).map (·.result) = some (some ⟨.badOpcode, .none⟩) := rfl

theorem test_reservedOp60To7F :
    (after (exec (.reservedOp60To7F 18) haltedSlave)).map (·.result) = some (some ⟨.badOpcode, .none⟩) := rfl

theorem test_reservedOp80ToFF :
    (after (exec (.reservedOp80ToFF 127) haltedSlave)).map (·.result) = some (some ⟨.badOpcode, .none⟩) := rfl

/-! ### Witnesses: the hypotheses of the obligations can be met -/

/-- The DATA frame "AB" from the master to address 1 (V-F1). -/
def frameAB : List Byte := [0xF1, 0x02, 0x41, 0x42, 0x55, 0x22]

/-- The broadcast of E8. -/
def frameAll : List Byte := [0xF0, 0x01, 0x10, 0x0E, 0xCE]

/-- A CMD frame from address 1 to the master. -/
def toMaster (payload : List Byte) : List Byte := framed [0x1F, 0x80 ||| BitVec.ofNat 8 payload.length] payload

/-- A held frame that connects a slave, and a tick to come. -/
def holding : State := withEvent aTick (held frameAB connected)

/-- A handshake under way on the master. -/
def shaking (st : HsState) (kind : WaitKind) (d : Nibble) : State :=
  awaiting kind d { master with hs := ⟨st, 1, 0xAABBCCDD, 12, Memory.writeFrom [] 0 abc⟩ }

/-- The master of P1 with its slot due a ping. -/
def pinging : State :=
  { knowing with roster := { knowing.roster with slots := knowing.roster.slots.set 0 { slot0 with needsPing :=
      true } } }

/-- The master with a handshake in a state that sends, and a tick to come. -/
def sending (st : HsState) : State := withEvent aTick { master with hs := { master.hs with state := st, addr := 1 } }

/-- A ready PING at a connected slave, and a tick to come. -/
def pinged : State := withEvent aTick (received (toOne [0x03]) connected)

/-- A master whose application request has been out for `n` ticks, and a tick to come. -/
def pendingFor (n : Half) : State := withEvent aTick { awaiting .app 1 knowing with rw := ⟨.pending, 1, .app, n⟩ }

/-- A master with its first two bytes of a frame in, and a tick to come (V-F13). -/
def partialFrame : State := withEvent aTick { master with fe := { master.fe with
  rxBuf := Memory.writeFrom [] 0 [0x1F, 0x02], rxCnt := 2, rxActive := true } }

/-- A slave that has held a frame for `n` ticks, and a tick to come. -/
def heldFor (n : Half) : State := { holding with fe := { holding.fe with busyCnt := n } }

/-- A master whose application request has been answered by a DATA frame, and a tick to come (P2). -/
def answered : State := withEvent aTick { awaiting .app 1 knowing with rw := ⟨.received, 1, .app, 1⟩ }

/-- A disconnected slave that has been present for `n` ticks (V-S1). -/
def presentFor (n : Half) : State :=
  { slaveIn .disconnected 0 with sl := { (slaveIn .disconnected 0).sl with presCnt := n } }

/-- A connected slave that has been absent for `n` ticks. -/
def absentFor (n : Half) : State := { connected with sl := { connected.sl with absCnt := n } }

/-- The whole invariant of a state with a frame held and a slave connected. -/
theorem inv_holding : Inv holding where
  params := by decide
  engine := by constructor <;> decide +kernel
  queue := by constructor <;> decide +kernel
  roster := by constructor <;> decide +kernel
  slave := by constructor <;> decide +kernel
  counters := by constructor <;> decide +kernel
  memory := by constructor <;> decide +kernel

/-- A state with the invariant takes a step. -/
theorem holding_steps : (after (step holding)).isSome = true := by decide +kernel

/-- The whole invariant of a slave with a frame ready. -/
theorem inv_pinged : Inv pinged where
  params := by decide
  engine := by constructor <;> decide +kernel
  queue := by constructor <;> decide +kernel
  roster := by constructor <;> decide +kernel
  slave := by constructor <;> decide +kernel
  counters := by constructor <;> decide +kernel
  memory := by constructor <;> decide +kernel

/-- The whole invariant of a master with a wait on its last tick. -/
theorem inv_pendingFor : Inv (pendingFor 5) where
  params := by decide
  engine := by constructor <;> decide +kernel
  queue := by constructor <;> decide +kernel
  roster := by constructor <;> decide +kernel
  slave := by constructor <;> decide +kernel
  counters := by constructor <;> decide +kernel
  memory := by constructor <;> decide +kernel

/-- The whole invariant of a master with a wait one tick before. -/
theorem inv_pendingFor_less : Inv (pendingFor 4) where
  params := by decide
  engine := by constructor <;> decide +kernel
  queue := by constructor <;> decide +kernel
  roster := by constructor <;> decide +kernel
  slave := by constructor <;> decide +kernel
  counters := by constructor <;> decide +kernel
  memory := by constructor <;> decide +kernel

/-- The whole invariant of a master with a partial frame. -/
theorem inv_partialFrame : Inv partialFrame where
  params := by decide
  engine := by constructor <;> decide +kernel
  queue := by constructor <;> decide +kernel
  roster := by constructor <;> decide +kernel
  slave := by constructor <;> decide +kernel
  counters := by constructor <;> decide +kernel
  memory := by constructor <;> decide +kernel

/-- The whole invariant of a slave with a frame held to the ceiling. -/
theorem inv_heldFor : Inv (heldFor 10) where
  params := by decide
  engine := by constructor <;> decide +kernel
  queue := by constructor <;> decide +kernel
  roster := by constructor <;> decide +kernel
  slave := by constructor <;> decide +kernel
  counters := by constructor <;> decide +kernel
  memory := by constructor <;> decide +kernel

/-- The whole invariant of a master with an answered request. -/
theorem inv_answered : Inv answered where
  params := by decide
  engine := by constructor <;> decide +kernel
  queue := by constructor <;> decide +kernel
  roster := by constructor <;> decide +kernel
  slave := by constructor <;> decide +kernel
  counters := by constructor <;> decide +kernel
  memory := by constructor <;> decide +kernel

/-- The whole invariant of a master in the middle of a handshake. -/
theorem inv_shaking : Inv (shaking .waitUidAck .hsUid 1) where
  params := by decide
  engine := by constructor <;> decide +kernel
  queue := by constructor <;> decide +kernel
  roster := by constructor <;> decide +kernel
  slave := by constructor <;> decide +kernel
  counters := by constructor <;> decide +kernel
  memory := by constructor <;> decide +kernel

theorem witness_SingleByteCorruptionIsDetected :
    crc16 [0xFF, 0xFF] = 0x0000 ∧
    (0xFE : Byte) ≠ [0xFF, 0xFF][0] ∧
    (0x00 : Byte) ≠ [0xFF, 0xFF][1] := by decide +kernel

theorem witness_HostOperationDecodesFromItsEncoding :
    (Instr.push 0x01 true (List.replicate 255 0)).wellFormed = true ∧
    (Instr.push 0x01 true []).wellFormed = true ∧
    (Instr.push 0x01 true []).format = .hostOp := by decide +kernel

theorem witness_CommandsAndPayloadsCorrespond :
    (Instr.ack abc).format = .cmd ∧
    Instr.reservedCmdEmpty.format = .cmd := by decide +kernel

theorem witness_ReservedCodesAnswerBadOpcode :
    (∀ op ∈ [0x06, 0xFF], (op : Byte).toNat ∉ [0x00, 0x01, 0x02, 0x03, 0x04, 0x05, 0x10, 0x11, 0x12, 0x13,
      0x14, 0x20, 0x21, 0x22, 0x30, 0x31, 0x40, 0x41]) ∧
    (withEvent (.hostOp 0x06 []) master).inputs = [.hostOp 0x06 []] ∧
    slave.params.role = .slave ∧
    slave.halted = false := by
  and_intros <;> decide +kernel

theorem witness_StepRunsTheDecodedOperation :
    (withEvent (.hostOp 0x10 []) master).inputs = [.hostOp 0x10 []] ∧
    decodeHostOp [0x10] = .ok (.parse, []) ∧
    master.inputs = [] :=
  ⟨rfl,
    rfl,
    rfl⟩

theorem witness_ReceivedByteAccumulates :
    (withEvent (.rxByte 0x22 false) connected).inputs = [.rxByte 0x22 false] ∧
    haltedSlave.halted = true ∧
    (received frameAB connected).fe.rxEn = false ∧
    connected.halted = false ∧
    connected.fe.rxEn = true ∧
    connected.fe.rxActive = false ∧
    (partly [0xF1] connected).fe.rxActive = true ∧
    IndicesOk (partly [0xF1] connected) ∧
    (partly [0xF1] connected).fe.rxCnt = 1 ∧
    124 < (metaLen 0x7D).toNat ∧
    (¬ 124 < (metaLen 0x7C).toNat) ∧
    IndicesOk (partly (0xF1 :: 0x7C :: List.replicate 125 0) connected) ∧
    (partly (0xF1 :: 0x7C :: List.replicate 125 0) connected).fe.rxCnt.toNat + 1 = 124 + 4 ∧
    (partly [0xF1, 0x00, 0x3D] connected).fe.rxCnt.toNat + 1 = 0 + 4 ∧
    (¬ (partly [0xF1, 0x02, 0x41] connected).fe.rxCnt.toNat + 1 = 2 + 4) := by
  and_intros <;> decide +kernel

theorem witness_TransmittedDataFrameIsReadBack :
    (List.replicate 124 (0 : Byte)).length ≤ 124 ∧
    ([] : List Byte).length ≤ (0x00 : Byte).toNat ∧
    abc.length ≤ (0x0C : Byte).toNat ∧
    IndicesOk connected ∧
    connected.halted = false ∧
    channelIdle connected = true ∧
    (1 : Nibble) = own connected ∧
    (0 : Nibble) = 0 := by
  and_intros <;> decide +kernel

theorem witness_ParseLatchesDataFrames :
    connected.halted = false ∧
    IndicesOk connected ∧
    connected.fe.fstate ≠ .ready ∧
    IndicesOk (received [0xF2, 0x01, 0x41, 0x2A, 0x7A] connected) ∧
    (received frameAB connected).fe.fstate = .ready ∧
    (addrDst 0xF2 ≠ own connected ∧ addrDst 0xF2 ≠ 0) ∧
    IndicesOk (received frameAB connected) ∧
    addrDst 0xF1 = own connected ∧
    addrDst 0xF0 = 0 ∧
    metaMode 0x02 = false ∧
    metaLen 0x02 ≠ 0 ∧
    IndicesOk (received frameAll connected) ∧
    metaLen 0x7C ≠ 0 := by
  and_intros <;> decide +kernel

theorem witness_ParseChecksEmptyDataFrames :
    (received [0xF1, 0x00, 0x3D, 0xFF] connected).halted = false ∧
    IndicesOk (received [0xF1, 0x00, 0x3D, 0xFF] connected) ∧
    (received [0xF1, 0x00, 0x3D, 0xFF] connected).fe.fstate = .ready ∧
    (metaMode 0x00 = false ∧ metaLen 0x00 = 0) ∧
    (addrDst 0xF1 = own connected ∧ addrDst 0xF0 = 0 ∧ addrDst 0xF0 ≠ own connected) ∧
    crcFold 0xFFFF [0xF1, 0x00, 0x3D, 0xFE] ≠ 0x0000 ∧
    crcFold 0xFFFF [0xF1, 0x00, 0x3D, 0xFF] = 0x0000 ∧
    crcFold 0xFFFF [0xF0, 0x00, 0x0E, 0xCE] = 0x0000 ∧
    IndicesOk (received [0xF0, 0x00, 0x0E, 0xCE] connected) ∧
    IndicesOk (received [0xF1, 0x00, 0x3D, 0xFF] (awaiting .app 15 connected)) ∧
    ((awaiting .app 15 connected).rw.state = .pending ∧ (awaiting .app 15 connected).rw.dst = addrSrc 0xF1) ∧
    connected.rw.state ≠ .pending := by
  and_intros <;> decide +kernel

theorem witness_ParseRunsTheDecodedCommand :
    (received (toOne [0x03]) connected).halted = false ∧
    IndicesOk (received (toOne [0x03]) connected) ∧
    (received (toOne [0x03]) connected).fe.fstate = .ready ∧
    metaMode 0x81 = true ∧
    addrDst 0xF1 = own connected ∧
    addrDst 0xF0 = 0 ∧
    IndicesOk (received [0xF1, 0x80, 0xAC, 0x77] connected) ∧
    Inv pinged ∧
    (pinged.halted = false ∧ pinged.fe.fstate = .ready) ∧
    (legalDraw pinged 1 ∧ legalDraw pinged 4) ∧
    (tickGoesOn true pinged ∧ tickGoesOn false pinged) ∧
    pinged.inputs = [.tick true false 1 0] := by
  and_intros <;> first | exact inv_pinged | decide +kernel

theorem witness_ReadCopiesAndChecks :
    haltedSlave.halted = true ∧
    connected.fe.fstate ≠ .processing ∧
    (held (toOne [0x03]) connected).fe.fMode = true ∧
    connected.fe.crcSt ≠ .pending ∧
    (held frameAB connected).halted = false ∧
    (held frameAB connected).fe.fstate = .processing ∧
    (held frameAB connected).fe.fMode = false ∧
    (held frameAB connected).fe.crcSt = .pending ∧
    IndicesOk (held frameAB connected) ∧
    min (0x01 : Byte).toNat 2 < 2 ∧
    min (0x02 : Byte).toNat 2 = 2 ∧
    crcFold (held frameAB connected).fe.crcAcc ([0x41, 0x42] ++ trailer (held frameAB connected)) = 0x0000 ∧
    crcFold (held frameAB connected).fe.crcAcc ([0x40, 0x42] ++ trailer (held frameAB connected)) ≠ 0x0000 ∧
    IndicesOk (held frameAll connected) ∧
    ((held frameAll connected).fe.fDst = 0 ∧ own (held frameAll connected) ≠ 0) ∧
    crcFold (held frameAll connected).fe.crcAcc ([0x10] ++ trailer (held frameAll connected)) = 0x0000 ∧
    (¬ ((held frameAB connected).fe.fDst = 0 ∧ own (held frameAB connected) ≠ 0)) ∧
    isReply (held frameAB (awaiting .app 15 connected)) = true ∧
    IndicesOk (held frameAB (awaiting .app 15 connected)) ∧
    isReply (held frameAB connected) = false := by
  and_intros <;> decide +kernel

theorem witness_ReleaseDrainsTheHeldFrame :
    (¬ (connected.fe.fstate = .processing ∧ connected.fe.crcSt = .pending)) ∧
    (held frameAB connected).fe.fstate = .processing ∧
    (held frameAB connected).fe.crcSt = .pending ∧
    (held frameAB connected).fe.rdIdx.toNat ≤ (held frameAB connected).fe.fLen.toNat ∧
    isReply (held frameAB (awaiting .app 15 connected)) = true := by
  and_intros <;> decide +kernel

theorem witness_SendTransmitsOneFrame :
    haltedSlave.halted = true ∧
    connected.halted = false ∧
    (0x0F : Byte).toNat ≤ 15 ∧
    (¬ ((0x10 : Byte).toNat ≤ 15 ∨ (0x10 : Byte) = 0xFF)) ∧
    (held frameAB connected).fe.fstate = .processing ∧
    IndicesOk (held frameAB connected) ∧
    (connected.fe.fstate = .idle ∧ connected.fe.rxActive = false ∧ connected.fe.rxEn = true) ∧
    IndicesOk connected ∧
    connected.fe.fstate ≠ .processing ∧
    (¬ ((received frameAB connected).fe.fstate = .processing ∨ ((received frameAB connected).fe.fstate = .idle ∧
      (received frameAB connected).fe.rxActive = false ∧ (received frameAB connected).fe.rxEn = true))) ∧
    124 < (List.replicate 125 (0 : Byte)).length ∧
    (List.replicate 124 (0 : Byte)).length ≤ 124 := by
  and_intros <;> decide +kernel

theorem witness_CmdSendTransmitsOneCommand :
    haltedSlave.halted = true ∧
    connected.halted = false ∧
    (0x0F : Byte).toNat ≤ 15 ∧
    (¬ ((0x10 : Byte).toNat ≤ 15 ∨ (0x10 : Byte) = 0xFF)) ∧
    (held frameAB connected).fe.fstate = .processing ∧
    IndicesOk (held frameAB connected) ∧
    (connected.fe.fstate = .idle ∧ connected.fe.rxActive = false ∧ connected.fe.rxEn = true) ∧
    IndicesOk connected ∧
    connected.fe.fstate ≠ .processing ∧
    (¬ ((received frameAB connected).fe.fstate = .processing ∨ ((received frameAB connected).fe.fstate = .idle ∧
      (received frameAB connected).fe.rxActive = false ∧ (received frameAB connected).fe.rxEn = true))) ∧
    123 < (List.replicate 124 (0 : Byte)).length ∧
    (List.replicate 123 (0 : Byte)).length ≤ 123 := by
  and_intros <;> decide +kernel

theorem witness_TransmissionSymbols :
    (List.replicate 124 (0 : Byte)).length ≤ 124 ∧
    ([] : List Byte).length ≤ 124 := by decide +kernel

theorem witness_RxStatusWordFields :
    haltedSlave.halted = true ∧
    (held frameAB connected).halted = false ∧
    (held frameAB connected).fe.rdIdx.toNat ≤ (held frameAB connected).fe.fLen.toNat ∧
    master.fe.rdIdx.toNat ≤ master.fe.fLen.toNat := by decide +kernel

theorem witness_PushQueuesACopy :
    haltedSlave.halted = true ∧
    master.halted = false ∧
    (0x0F : Byte).toNat ≤ 15 ∧
    (¬ ((0x10 : Byte).toNat ≤ 15 ∨ (0x10 : Byte) = 0xFF)) ∧
    IndicesOk master ∧
    IndicesOk (queued 4 master) ∧
    124 < (List.replicate 125 (0 : Byte)).length ∧
    (List.replicate 124 (0 : Byte)).length ≤ 124 ∧
    (master.params.queueSlots = 5 ∧ ((queued 4 master).queue.tail.toNat + 5 - (queued 4 master).queue.head.toNat) % 5
        = 4) ∧
    (master.queue.tail.toNat + 5 - master.queue.head.toNat) % 5 ≠ 4 := by
  and_intros <;> decide +kernel

theorem witness_PushUidResolvesWhenPushed :
    haltedSlave.halted = true ∧
    (slave.halted = false ∧ slave.params.role = .slave) ∧
    (knowing.halted = false ∧ knowing.params.role = .master) ∧
    ([] : List Byte).length < 1 ∧
    12 < (List.replicate 13 (0 : Byte)).length ∧
    (1 ≤ abc.length ∧ abc.length ≤ 12) ∧
    1 ≤ [(0x41 : Byte)].length ∧
    IndicesOk knowing ∧
    (∀ k < 14, ¬ ((slotAt master k).addr ≠ 0)) ∧
    IndicesOk master ∧
    0 < knowing.params.rosterSlots ∧
    ((slotAt knowing 0).addr ≠ 0 ∧ (slotAt knowing 0).uidLen.toNat = abc.length ∧
      (slotAt knowing 0).uid.readFrom 0 abc.length = abc) ∧
    124 < (List.replicate 125 (0 : Byte)).length ∧
    (List.replicate 124 (0 : Byte)).length ≤ 124 ∧
    IndicesOk (queued 4 knowing) ∧
    ((queued 4 knowing).queue.tail.toNat + 5 - (queued 4 knowing).queue.head.toNat) % 5 = 4 ∧
    (knowing.queue.tail.toNat + 5 - knowing.queue.head.toNat) % 5 ≠ 4 := by
  and_intros <;> decide +kernel

theorem witness_QueueStatusWordFields :
    master.params.wf ∧
    master.halted = false ∧
    haltedSlave.params.wf ∧
    haltedSlave.halted = true := by decide +kernel

theorem witness_QueueIsAFirstInFirstOutList :
    QueueInv (queued 4 master) ∧
    (queued 4 master).params.wf ∧
    (queueContents (queued 4 master)).length = (queued 4 master).params.queueSlots - 1 ∧
    QueueInv (queued 3 master) ∧
    (queueContents (queued 3 master)).length < (queued 3 master).params.queueSlots - 1 ∧
    (List.replicate 124 (0 : Byte)).length ≤ 124 ∧
    queueContents (queued 1 master) = [(0x01, false, [0x00])] ∧
    channelIdle (queued 1 master) = true := by
  and_intros <;> first | decide +kernel | (constructor <;> decide +kernel)

theorem witness_RosterReadReturnsTheSlot :
    haltedSlave.halted = true ∧
    (slave.halted = false ∧ slave.params.role = .slave) ∧
    (knowing.halted = false ∧ knowing.params.role = .master) ∧
    knowing.params.rosterSlots ≤ (0x0E : Byte).toNat ∧
    (0x0D : Byte).toNat < knowing.params.rosterSlots ∧
    IndicesOk knowing ∧
    RosterInv (pendingFor 5) ∧
    ((pendingFor 5).halted = false ∧ (pendingFor 5).params.role = .master ∧ IndicesOk (pendingFor 5)) ∧
    (slotAt (pendingFor 5) 13).addr = 0 := by
  and_intros <;> first | exact inv_pendingFor.roster | decide +kernel

theorem witness_ResolveUidFindsTheLowestSlot :
    haltedSlave.halted = true ∧
    (slave.halted = false ∧ slave.params.role = .slave) ∧
    (knowing.halted = false ∧ knowing.params.role = .master) ∧
    ([] : List Byte).length < 1 ∧
    12 < (List.replicate 13 (0 : Byte)).length ∧
    (1 ≤ abc.length ∧ abc.length ≤ 12) ∧
    IndicesOk knowing ∧
    IndicesOk master ∧
    (∀ k < 14, ¬ ((slotAt master k).addr ≠ 0)) ∧
    ((slotAt knowing 0).addr ≠ 0 ∧ (slotAt knowing 0).uidLen.toNat = abc.length ∧
      (slotAt knowing 0).uid.readFrom 0 abc.length = abc) := by
  and_intros <;> decide +kernel

theorem witness_ScanIsRoundRobin :
    pinging.params.wf ∧
    (slotAt pinging ((pinging.roster.rrPos.toNat + 0) % 14)).addr ≠ 0 ∧
    (slotAt pinging ((pinging.roster.rrPos.toNat + 0) % 14)).needsPing = true ∧
    (∀ k < 14, ¬ ((slotAt knowing k).addr ≠ 0 ∧ (slotAt knowing k).needsPing = true)) ∧
    (scan knowing).2 = 0 := by
  and_intros <;> decide +kernel

theorem witness_LivenessCountsDown :
    knowing.params.wf ∧
    knowing.roster.liveCnt.toNat < knowing.params.livenessDiv ∧
    knowing.roster.liveCnt.toNat + 1 = knowing.params.livenessDiv ∧
    ({ knowing.params with livenessDiv := 2 } : Params).wf ∧
    knowing.roster.liveCnt.toNat + 1 < 2 ∧
    (slotAt knowing 1).addr = 0 ∧
    (slotAt knowing 0).addr ≠ 0 ∧
    2 ≤ (slotAt knowing 0).pingCd.toNat ∧
    ({ slot0 with pingCd := 1 } : Slot).pingCd = 1 := by
  and_intros <;> decide +kernel

theorem witness_PingOutcomeCountsOrEvicts :
    (awaiting .ping 1 knowing).params.wf ∧
    (awaiting .ping 1 knowing).rw.kind = .ping ∧
    (1 ≤ (1 : Nibble).toNat ∧ (1 : Nibble).toNat ≤ knowing.params.rosterSlots ∧ (slotAt knowing 0).addr = 1) ∧
    (¬ (slotAt master 0).addr = 1) ∧
    knowing.roster.slots.length = knowing.params.rosterSlots ∧
    WaitOutcome.data ≠ .timeout ∧
    (slotAt knowing 0).pingErr.toNat + 1 < knowing.params.pingErrMax ∧
    knowing.params.pingErrMax ≤ ({ slot0 with pingErr := 2 } : Slot).pingErr.toNat + 1 := by
  and_intros <;> decide +kernel

theorem witness_CorruptOrBroadcastCommandIsNotHandled :
    (Instr.ping []).format = .cmd ∧
    IndicesOk (held (toOne [0x03]) connected) ∧
    (¬ FrameValid (encode (.ping [])) (held [0xF1, 0x81, 0x03, 0x00, 0x35] connected)) ∧
    IndicesOk (held [0xF1, 0x81, 0x03, 0x00, 0x35] connected) ∧
    FrameValid (encode (.ping [])) (held (framed [0xF0, 0x81] [0x03]) connected) ∧
    IndicesOk (held (framed [0xF0, 0x81] [0x03]) connected) ∧
    (held (framed [0xF0, 0x81] [0x03]) connected).fe.fDst = 0 ∧
    own (held (framed [0xF0, 0x81] [0x03]) connected) ≠ 0 := by
  and_intros <;> first | decide +kernel | (unfold FrameValid; decide +kernel)

theorem witness_AwaitedCommandIsConsumed :
    (Instr.ack []).format = .cmd ∧
    AwaitedCommand (encode (.ack [])) (held (toMaster [0x06]) (awaiting .ping 1 knowing)) := by
  and_intros <;> first | decide +kernel | exact awaitedBy (by decide +kernel)

theorem witness_IgnoredCommandsReleaseTheChannel :
    HeldCommand [0x04] (held (toOne [0x04]) connected) ∧
    HeldCommand [0x06] (held (toOne [0x06]) connected) ∧
    HeldCommand [0x0F] (held (toOne [0x0F]) connected) ∧
    HeldCommand [0x05] (held (toOne [0x05]) connected) ∧
    HeldCommand [0x07] (held (toOne [0x07]) connected) ∧
    HeldCommand [0x08 ||| (3 : BitVec 2).setWidth 8] (held (toOne [0x0B]) connected) ∧
    HeldCommand [0x0C ||| (1 : BitVec 1).setWidth 8] (held (toOne [0x0D]) connected) ∧
    HeldCommand [0x0E] (held (toOne [0x0E]) connected) ∧
    HeldCommand [0x10 ||| (15 : BitVec 4).setWidth 8] (held (toOne [0x1F]) connected) ∧
    HeldCommand [0x20 ||| (31 : BitVec 5).setWidth 8] (held (toOne [0x3F]) connected) ∧
    HeldCommand [0x40 ||| (63 : BitVec 6).setWidth 8] (held (toOne [0x7F]) connected) ∧
    HeldCommand [0x80 ||| (127 : BitVec 7).setWidth 8] (held (toOne [0xFF]) connected) ∧
    HeldCommand [] (held (toOne []) connected) := by
  and_intros <;> first | decide +kernel | exact heldBy (by decide +kernel)

theorem witness_CommandsWithoutATransitionAreIgnored :
    (Instr.ping []).format = .cmd ∧
    HeldCommand (encode (.ping [])) (held (toOne [0x03]) (slaveIn .addrSet 1)) ∧
    (¬ slaveActsOn (slaveIn .addrSet 1) (.ping [])) ∧
    (slaveIn .addrSet 1).params.role = .slave ∧
    HeldCommand (encode (.ping [])) (held (toMaster [0x03]) master) ∧
    (¬ masterActsOn master (.ping [])) ∧
    master.params.role = .master := by
  and_intros <;> first | decide +kernel | exact heldBy (by decide +kernel) | exact id |
    (rintro ⟨-, h | h⟩ <;> exact absurd h (by decide))

theorem witness_SignalIsAnsweredWithFind :
    knowing.params.wf ∧
    HeldCommand [0x00, 0x01, 0xAA, 0xBB, 0xCC, 0xDD] (held [0x0F, 0x86, 0x00, 0x01, 0xAA, 0xBB, 0xCC, 0xDD, 0x8D,
        0x4B] knowing) ∧
    knowing.params.role = .master ∧
    knowing.hs.state = .idle ∧
    knowing.rw.state = .none ∧
    1 < knowing.params.rosterSlots ∧
    (slotAt knowing 1).addr = 0 ∧
    (∀ j < 1, (slotAt knowing j).addr ≠ 0) := by
  and_intros <;> first | decide +kernel | exact heldBy (by decide +kernel)

theorem witness_AckMovesTheHandshake :
    AwaitedCommand [0x06] (held [0x0F, 0x81, 0x06, 0xA8, 0xC2] (shaking .waitAddrAck .hsFind 0)) ∧
    AwaitedCommand [0x06] (held (toMaster [0x06]) (shaking .waitUidAck .hsUid 1)) ∧
    AwaitedCommand (0x06 :: [0x41]) (held (toMaster [0x06, 0x41]) (shaking .waitUidAck .hsUid 1)) ∧
    AwaitedCommand (0x06 :: abc) (held (toMaster (0x06 :: abc)) (shaking .waitUidAck .hsUid 1)) ∧
    AwaitedCommand (0x06 :: List.replicate 13 0x30) (held (toMaster (0x06 :: List.replicate 13 0x30))
        (shaking .waitUidAck .hsUid 1)) ∧
    AwaitedCommand [0x06] (held (toMaster [0x06]) (shaking .waitPingAck .hsPing 1)) := by
  and_intros <;> first | decide +kernel | exact awaitedBy (by decide +kernel)

theorem witness_AbortedHandshakeLeavesNoTrace :
    (shaking .waitAddrAck .hsFind 0).rw.kind = .hsFind ∧
    (shaking .waitUidAck .hsUid 1).rw.kind = .hsUid ∧
    (shaking .waitPingAck .hsPing 1).rw.kind = .hsPing ∧
    (∀ uid, WaitOutcome.timeout ≠ .cmd (0x06 :: uid)) ∧
    (∀ uid, WaitOutcome.cmd [0x0F] ≠ .cmd (0x06 :: uid)) :=
  ⟨rfl, rfl, rfl, (fun _ h => by cases h), (fun _ h => by simp at h)⟩

theorem witness_ApplicationOutcomeIsLatched :
    (awaiting .app 1 knowing).rw.kind = .app ∧
    (knowing.params.role = .master ∧ WaitOutcome.data ≠ .timeout ∧ 1 ≤ (1 : Nibble).toNat ∧
      (1 : Nibble).toNat ≤ knowing.params.rosterSlots ∧ (slotAt knowing 0).addr = 1) ∧
    knowing.roster.slots.length = knowing.params.rosterSlots ∧
    ((awaiting .app 2 knowing).rw.kind = .app ∧ (slotAt knowing 1).addr ≠ 2) := by decide +kernel

theorem witness_FindIsAcknowledgedThenAdopted :
    HeldCommand [0x01, 0xAA, 0xBB, 0xCC, 0xDD, 0x01] (held [0xF0, 0x86, 0x01, 0xAA, 0xBB, 0xCC, 0xDD, 0x01, 0x90,
        0x07] (slaveIn .signalSent 0)) ∧
    HeldCommand [0x01, 0xAA, 0xBB, 0xCC, 0xDD, 0x0E] (held (framed [0xF0, 0x86] [0x01, 0xAA, 0xBB, 0xCC, 0xDD, 0x0E])
        (slaveIn .signalSent 0)) ∧
    (slaveIn .signalSent 0).params.role = .slave ∧
    (slaveIn .signalSent 0).sl.state = .signalSent ∧
    (0xAA : Byte) ++ (0xBB : Byte) ++ (0xCC : Byte) ++ (0xDD : Byte) = (slaveIn .signalSent 0).sl.nonce ∧
    (1 ≤ (0x01 : Byte).toNat ∧ (0x0E : Byte).toNat ≤ 14) := by
  and_intros <;> first | decide +kernel | exact heldBy (by decide +kernel)

theorem witness_GetUidAndPingAreAnswered :
    (slaveIn .addrSet 1).params.role = .slave ∧
    HeldCommand [0x02] (held (toOne [0x02]) (slaveIn .addrSet 1)) ∧
    HeldCommand [0x03] (held (toOne [0x03]) (slaveIn .uidSent 1)) ∧
    HeldCommand [0x03] (held (toOne [0x03]) connected) ∧
    (slaveIn .addrSet 1).sl.state = .addrSet ∧
    (slaveIn .uidSent 1).sl.state = .uidSent ∧
    connected.sl.state = .connected := by
  and_intros <;> first | decide +kernel | exact heldBy (by decide +kernel)

theorem witness_MasterTickSendsByPriority :
    Quiet (sending .sendGetUid) ∧
    Quiet (sending .sendPing) ∧
    Quiet (withEvent aTick pinging) ∧
    Quiet (withEvent aTick (queued 1 master)) ∧
    Quiet (withEvent aTick master) ∧
    (sending .sendPing).inputs = [.tick true false 1 0] ∧
    (sending .sendPing).params.role = .master ∧
    (legalDraw master 1 ∧ legalDraw master 4) ∧
    ((sending .sendGetUid).hs.state = .sendGetUid ∧ (sending .sendPing).hs.state = .sendPing) ∧
    (scan (liveness (withEvent aTick pinging))).2 ≠ 0 ∧
    ((scan (liveness (queued 1 master))).2 = 0 ∧ 0 < qcount (queued 1 master)) ∧
    qcount master = 0 ∧
    Quiet (sending .waitAddrAck) := by
  and_intros <;> first | decide +kernel | exact quietBy (by decide +kernel)

theorem witness_PresenceIsDebouncedAndItsLossResets :
    connected.params.role = .slave ∧
    connected.halted = false ∧
    IndicesOk { connected with sl := { connected.sl with absCnt := 2 } } ∧
    legalDraw connected 1 ∧
    ({ connected.sl with absCnt := 2 } : SlaveCtl).absCnt.toNat + 1 = connected.params.presenceDebounce ∧
    connected.sl.presCnt.toNat < 65535 ∧
    ({ connected.sl with presCnt := 65535 } : SlaveCtl).presCnt = 65535 ∧
    connected.params.presenceDebounce ≤ ({ connected.sl with absCnt := 3 } : SlaveCtl).absCnt.toNat ∧
    connected.sl.absCnt.toNat + 1 < connected.params.presenceDebounce := by
  and_intros <;> decide +kernel

theorem witness_SlaveTimersResetTheSlave :
    Quiet (withEvent aTick connected) ∧
    Quiet (withEvent aTick (slaveIn .signalSent 0)) ∧
    Quiet (withEvent aTick (slaveIn .addrSet 1)) ∧
    Quiet (withEvent aTick (slaveIn .uidSent 1)) ∧
    Quiet (withEvent aTick (queued 1 connected)) ∧
    connected.params.role = .slave ∧
    (legalDraw connected 1 ∧ legalDraw connected 4) ∧
    (tickGoesOn true connected ∧ tickGoesOn false connected ∧ tickGoesOn false (absentFor 3)) ∧
    connected.sl.backoff = 0 ∧
    ({ connected.sl with backoff := 1 } : SlaveCtl).backoff - 1 = 0 ∧
    ({ connected.sl with backoff := 2 } : SlaveCtl).backoff - 1 ≠ 0 ∧
    (0 < qcount (queued 1 connected) ∧ qcount connected = 0) ∧
    connected.sl.nopingCnt.toNat + 1 ≤ connected.params.nopingTimeout ∧
    ({ connected.sl with nopingCnt := 30 } : SlaveCtl).nopingCnt.toNat = connected.params.nopingTimeout ∧
    connected.sl.hsCnt.toNat + 1 ≤ connected.params.hsTimeout ∧
    ({ connected.sl with hsCnt := 20 } : SlaveCtl).hsCnt.toNat = connected.params.hsTimeout := by
  and_intros <;> first | decide +kernel | exact quietBy (by decide +kernel)

theorem witness_PluggedInSlaveSendsSignal :
    Quiet (withEvent aTick (slaveIn .pluggedIn 0)) ∧
    (withEvent aTick (slaveIn .pluggedIn 0)).inputs = [.tick true false 1 0] ∧
    (slaveIn .pluggedIn 0).params.role = .slave ∧
    (legalDraw (slaveIn .pluggedIn 0) 1 ∧ legalDraw (slaveIn .pluggedIn 0) 4) ∧
    (tickGoesOn true (slaveIn .pluggedIn 0) ∧ tickGoesOn false (slaveIn .pluggedIn 0)) ∧
    (slaveIn .pluggedIn 0).sl.state = .pluggedIn ∧
    (slaveIn .pluggedIn 0).sl.backoff = 0 ∧
    (Quiet (withEvent aTick (presentFor 2)) ∧ Quiet (withEvent aTick (presentFor 1))) ∧
    ((presentFor 2).sl.state = .disconnected ∧ (presentFor 1).sl.state = .disconnected) ∧
    (presentFor 2).params.presenceDebounce ≤ (supervisedSlave true 0 [] (presentFor 2)).sl.presCnt.toNat ∧
    ¬ (presentFor 1).params.presenceDebounce ≤ (supervisedSlave true 0 [] (presentFor 1)).sl.presCnt.toNat ∧
    tickGoesOn false (presentFor 2) ∧
    ({ connected.sl with backoff := 1 } : SlaveCtl).backoff - 1 = 0 ∧
    ({ connected.sl with backoff := 2 } : SlaveCtl).backoff - 1 ≠ 0 := by
  and_intros <;> first | decide +kernel | exact quietBy (by decide +kernel)

theorem witness_EngineTimersReleaseAndTimeOut :
    (Inv holding ∧ Inv partialFrame ∧ Inv (heldFor 10) ∧ Inv answered ∧ Inv (pendingFor 5) ∧ Inv (pendingFor 4)) ∧
    (∀ e ∈ List.replicate 11 aTick, ∃ presence busy bo nonce, e = .tick presence busy bo nonce ∧
      legalDraw holding bo ∧ legalDraw partialFrame bo) ∧
    ((holding.halted = false ∧ holding.fe.fstate = .processing) ∧
      (partialFrame.halted = false ∧ partialFrame.fe.rxActive = true) ∧
      (List.replicate 11 aTick).length = holding.params.busyTimeout + 1 - holding.fe.busyCnt.toNat ∧
      (List.replicate 11 aTick).length = partialFrame.params.busyTimeout + 1 - partialFrame.fe.busyCnt.toNat) ∧
    ((heldFor 10).fe.fstate = .processing ∧ (heldFor 10).fe.busyCnt.toNat = (heldFor 10).params.busyTimeout ∧
      holding.fe.busyCnt.toNat + 1 ≤ holding.params.busyTimeout ∧
      tickGoesOn true holding ∧ tickGoesOn false holding ∧ holding.inputs = [.tick true false 1 0]) ∧
    (answered.halted = false ∧ answered.fe.fstate ≠ .ready ∧ answered.rw.state = .received) ∧
    ((pendingFor 5).halted = false ∧ (pendingFor 5).fe.fstate = .idle ∧ (pendingFor 5).rw.state = .pending ∧
      (pendingFor 5).params.replyTimeout < (pendingFor 5).rw.cnt.toNat + 1 ∧
      (pendingFor 4).rw.cnt.toNat + 1 ≤ (pendingFor 4).params.replyTimeout ∧
      legalDraw (pendingFor 5) 1 ∧ tickGoesOn true (pendingFor 5)) :=
  ⟨⟨inv_holding, inv_partialFrame, inv_heldFor, inv_answered, inv_pendingFor, inv_pendingFor_less⟩,
    fun _ h => ⟨true, false, 1, 0, List.eq_of_mem_replicate h, by decide, by decide⟩, by decide +kernel⟩

theorem witness_NodeStatusWordFields :
    slave.params.role = .slave ∧
    master.params.role = .master := by decide +kernel

theorem witness_ReplyStatusReadsAndClears :
    haltedSlave.halted = true ∧
    master.halted = false ∧
    ({ st := .received, src := 1 } : AppLatch).st = .received ∧
    ({ st := .timedOut, src := 1 } : AppLatch).st = .timedOut ∧
    ((awaiting .app 1 master).app.st = .none ∧ (awaiting .app 1 master).rw.kind = .app ∧
      (awaiting .app 1 master).rw.state = .pending) ∧
    (¬ (master.rw.kind = .app ∧ (master.rw.state = .pending ∨ master.rw.state = .received))) := by
  and_intros <;> decide +kernel

theorem witness_HaltedCoreOnlyReports :
    haltedSlave.halted = true ∧
    (withEvent aTick haltedSlave).inputs = [aTick] ∧
    legalDraw haltedSlave 1 ∧
    (after (step (withEvent aTick haltedSlave))).isSome = true :=
  ⟨by decide +kernel,
    rfl,
    (by decide),
    by decide +kernel⟩

theorem witness_FailingOperationsChangeNothing :
    (Instr.read 0x01).format = .hostOp ∧
    (after (exec (.read 0x01) master)).map (·.result) = some (some ⟨.noFrame, .none⟩) ∧
    (after (exec (.send 0xFF (List.replicate 125 0)) (held frameAB connected))).map (·.result) =
      some (some ⟨.tooLong, .none⟩) := by decide +kernel

/-- What RESET leaves is said for every parameters and either validity, so those clauses need no state. -/
theorem witness_ResetLoadsTheConfiguration :
    (withEvent (.reset bootCfg 0xAABBCCDD) connected).inputs = [.reset bootCfg 0xAABBCCDD] ∧
    (slaveParams.role = .slave ∧ Config.resetParams.role = .master) ∧
    (bootCfg.uidPresent = true ∧ ({ bootCfg with uidPresent := false } : BootConfig).uidPresent = false) ∧
    ({ bootCfg with cfgOk := false } : BootConfig).cfgOk = false := by
  and_intros <;> decide +kernel

theorem witness_InvariantHoldsAfterReset :
    slaveParams.wf ∧
    Config.resetParams.wf := by decide +kernel

theorem witness_StepKeepsTheFrameEngine :
    EngineInv holding ∧
    (after (step holding)).isSome = true :=
  ⟨inv_holding.engine,
    holding_steps⟩

theorem witness_StepKeepsTheQueueRing :
    holding.params.wf ∧
    QueueInv holding ∧
    (after (step holding)).isSome = true :=
  ⟨inv_holding.params,
    inv_holding.queue,
    holding_steps⟩

theorem witness_StepKeepsTheRoster :
    holding.params.wf ∧
    RosterInv holding ∧
    (after (step holding)).isSome = true ∧
    RosterInv (shaking .waitUidAck .hsUid 1) :=
  ⟨inv_holding.params,
    inv_holding.roster,
    holding_steps,
    inv_shaking.roster⟩

theorem witness_StepKeepsTheSlaveAddress :
    SlaveInv holding ∧
    (after (step holding)).isSome = true :=
  ⟨inv_holding.slave,
    holding_steps⟩

theorem witness_StepKeepsTheCounters :
    holding.params.wf ∧
    CounterInv holding ∧
    (after (step holding)).isSome = true :=
  ⟨inv_holding.params,
    inv_holding.counters,
    holding_steps⟩

theorem witness_StepKeepsTheByteArrays :
    MemoryInv holding ∧
    (after (step holding)).isSome = true :=
  ⟨inv_holding.memory,
    holding_steps⟩

theorem witness_InvariantExcludesFaults :
    Inv holding ∧
    Inv (shaking .waitUidAck .hsUid 1) :=
  ⟨inv_holding,
    inv_shaking⟩

theorem witness_RoleAndHaltAreFixed :
    (after (step holding)).isSome = true ∧
    (after (step (withEvent (.reset { bootCfg with cfgOk := false } 0) connected))).map (·.halted) = some true :=
  ⟨holding_steps,
    by
    simp [after, step, withEvent, connected, slaveIn, slave, resetState, runEvent, beginEvent, resetEvent,
      Config.configValid, bootCfg, slaveParams]⟩

theorem witness_OwnAddressChangesOnlyByFindOrReset :
    master.params.role = .master ∧
    (withEvent aTick (received [0xF0, 0x86, 0x01, 0xAA, 0xBB, 0xCC, 0xDD, 0x01, 0x90, 0x07] (slaveIn .signalSent
        0))).params.wf ∧
    (after (step (withEvent aTick (received [0xF0, 0x86, 0x01, 0xAA, 0xBB, 0xCC, 0xDD, 0x01, 0x90, 0x07]
        (slaveIn .signalSent 0))))).map own = some 1 ∧
    own (withEvent aTick (received [0xF0, 0x86, 0x01, 0xAA, 0xBB, 0xCC, 0xDD, 0x01, 0x90, 0x07] (slaveIn .signalSent
        0))) ≠ 1 :=
  ⟨rfl,
    (by decide),
    by decide +kernel,
    by decide +kernel⟩

end Sys2Proof.Tests
end

section
/-! SUPPORT. The family 10_state.md: the four status words (10_state.md R46 to R49) and the operations that answer
them (R108, R116, R163, R164). -/

namespace Sys2Proof.Proofs.StatusWords

open Sys2Proof.Machine

/-! ### What the four operations answer -/

theorem exec_rxStatus (s : State) : exec .rxStatus s =
    if s.halted then .next (refuse .halted s) else .next (succeed (.word32 (rxStatusWord s)) s) := rfl

theorem exec_queueStatus (s : State) : exec .queueStatus s =
    if s.halted then .next (refuse .halted s) else .next (succeed (.word16 (queueStatusWord s)) s) := rfl

theorem exec_nodeStatus (s : State) : exec .nodeStatus s = .next (succeed (.word64 (nodeStatusWord s)) s) := rfl

theorem exec_replyStatus_halted {s : State} (h : s.halted = true) :
    exec .replyStatus s = .next (refuse .halted s) := if_pos h

section
variable {s : State} (h : s.halted = false)
include h

/-- An outcome is answered with its sender and cleared. -/
theorem exec_replyStatus_outcome (ho : s.app.st ≠ .none) :
    exec .replyStatus s = .next (succeed (.word8 (replyWord s.app.src (appStCode s.app.st)))
      { s with app := { s.app with st := .none } }) :=
  (if_neg (by simp [h])).trans (if_pos ho)

/-- An application wait whose outcome is open reads PENDING. -/
theorem exec_replyStatus_waiting (ho : s.app.st = .none)
    (hw : (s.rw.state = .pending ∨ s.rw.state = .received) ∧ s.rw.kind = .app) :
    exec .replyStatus s = .next (succeed (.word8 (replyWord s.rw.dst (rwStateCode .pending))) s) :=
  (if_neg (by simp [h])).trans ((if_neg (not_not.mpr ho)).trans (if_pos hw))

/-- With neither an outcome nor an application wait, the word is 0. -/
theorem exec_replyStatus_nothing (ho : s.app.st = .none)
    (hw : ¬ ((s.rw.state = .pending ∨ s.rw.state = .received) ∧ s.rw.kind = .app)) :
    exec .replyStatus s = .next (succeed (.word8 0#8) s) :=
  (if_neg (by simp [h])).trans ((if_neg (not_not.mpr ho)).trans (if_neg hw))

end

/-! ### The fields of the words

A word is its fields appended, so a slice at a field's offset skips the fields below it and drops those above it. The
library's lemmas on a slice of `x ++ y` say both once the word's width is shown as a sum, which `change` does. A flag is
read as a slice of width 1. -/

theorem getLsbD_of_extractLsb' {n i : Nat} {w : BitVec n} {b : Bool} (h : w.extractLsb' i 1 = BitVec.ofBool b) :
    w.getLsbD i = b := by
  simpa using congrArg (·.getLsbD 0) h

/-- RX_STATUS (R46), from bit 0 up. -/
theorem rxStatusWord_fields (s : State) :
    (rxStatusWord s).extractLsb' 0 2 = fstateCode s.fe.fstate ∧
    (rxStatusWord s).extractLsb' 2 2 = crcStCode s.fe.crcSt ∧
    (rxStatusWord s).extractLsb' 4 4 = s.fe.fSrc ∧
    (rxStatusWord s).extractLsb' 8 4 = s.fe.fDst ∧
    (rxStatusWord s).extractLsb' 12 1 = BitVec.ofBool s.fe.fMode ∧
    (rxStatusWord s).extractLsb' 13 7 = s.fe.fLen ∧
    (rxStatusWord s).extractLsb' 20 7 = s.fe.fLen - s.fe.rdIdx ∧
    (rxStatusWord s).extractLsb' 27 1 = BitVec.ofBool s.fe.rxEn ∧
    (rxStatusWord s).extractLsb' 28 1 = BitVec.ofBool s.fe.rxActive ∧
    (rxStatusWord s).extractLsb' 29 3 = 0#3 := by
  unfold rxStatusWord
  and_intros
  all_goals
    change (_ ++ _ : BitVec (_ + _)).extractLsb' _ _ = _
    simp (disch := omega) only [BitVec.extractLsb'_append_eq_of_le, BitVec.extractLsb'_append_eq_of_add_le]
    exact BitVec.extractLsb'_eq_self

/-- NODE_STATUS (R47), from bit 0 up. -/
theorem nodeStatusWord_fields (s : State) :
    (nodeStatusWord s).extractLsb' 0 1 = BitVec.ofBool (!isMaster s) ∧
    (nodeStatusWord s).extractLsb' 1 1 = BitVec.ofBool s.halted ∧
    (nodeStatusWord s).extractLsb' 2 4 = own s ∧
    (nodeStatusWord s).extractLsb' 6 3 =
      (if isMaster s then hsStateCode s.hs.state else slStateCode s.sl.state) ∧
    (nodeStatusWord s).extractLsb' 9 1 = BitVec.ofBool (!isMaster s && s.sl.pingRx) ∧
    (nodeStatusWord s).extractLsb' 10 2 = rwStateCode s.rw.state ∧
    (nodeStatusWord s).extractLsb' 12 3 = rwKindCode s.rw.kind ∧
    (nodeStatusWord s).extractLsb' 15 4 = s.rw.dst ∧
    (nodeStatusWord s).extractLsb' 19 5 = 0#5 ∧
    (nodeStatusWord s).extractLsb' 24 8 = (if isMaster s then 0#8 else s.sl.modeByte) ∧
    (nodeStatusWord s).extractLsb' 32 32 = (if isMaster s then s.hs.nonce else s.sl.nonce) := by
  unfold nodeStatusWord
  and_intros
  all_goals
    change (_ ++ _ : BitVec (_ + _)).extractLsb' _ _ = _
    simp (disch := omega) only [BitVec.extractLsb'_append_eq_of_le, BitVec.extractLsb'_append_eq_of_add_le]
    exact BitVec.extractLsb'_eq_self

/-- QUEUE_STATUS (R48): the count in the low byte, the capacity in the high byte. -/
theorem queueStatusWord_fields (s : State) :
    (queueStatusWord s).extractLsb' 0 8 = BitVec.ofNat 8 (qcount s) ∧
    (queueStatusWord s).extractLsb' 8 8 = BitVec.ofNat 8 (s.params.queueSlots - 1) :=
  ⟨BitVec.extractLsb'_append_eq_right, BitVec.extractLsb'_append_eq_left⟩

/-- REPLY_STATUS (R49): the address above two bits of state. -/
theorem replyWord_eq (a : Nibble) (st : BitVec 2) : replyWord a st = (a.setWidth 8 <<< 2) ||| st.setWidth 8 := by
  have h : ∀ (a : Nibble) (st : BitVec 2), replyWord a st = (a.setWidth 8 <<< 2) ||| st.setWidth 8 := by decide
  exact h a st

/-! ### The statements -/

/-- Settles O20: each field is the word's slice; the bytes left are a difference that does not wrap, since the read
index is at most the length. -/
theorem rxStatusWordFields : Obligations.RxStatusWordFields := by
  intro s
  refine ⟨fun h => (exec_rxStatus s).trans (if_pos h), fun h hle => ⟨rxStatusWord s, ?_⟩⟩
  obtain ⟨hstate, hcrc, hsrc, hdst, hmode, hlen, hleft, hen, hactive, hzero⟩ := rxStatusWord_fields s
  refine ⟨(exec_rxStatus s).trans (if_neg (by simp [h])), hstate.trans ?_, hcrc.trans ?_, hsrc, hdst,
    getLsbD_of_extractLsb' hmode, hlen, ?_, getLsbD_of_extractLsb' hen, getLsbD_of_extractLsb' hactive, hzero⟩
  · cases s.fe.fstate <;> rfl
  · cases s.fe.crcSt <;> rfl
  · rw [hleft, BitVec.toNat_sub_of_le (BitVec.le_def.mpr hle)]

/-- Settles O23: under legal parameters the count and the capacity are below 256, so a byte holds each. -/
theorem queueStatusWordFields : Obligations.QueueStatusWordFields := by
  rintro s ⟨⟨hslots, hslots'⟩, -⟩
  have hcount : qcount s < s.params.queueSlots := qcount_lt (by omega)
  obtain ⟨hlow, hhigh⟩ := queueStatusWord_fields s
  refine ⟨fun h => (exec_queueStatus s).trans (if_pos h), fun h => ⟨queueStatusWord s, ?_, ?_, ?_⟩⟩
  · exact (exec_queueStatus s).trans (if_neg (by simp [h]))
  · rw [hlow, BitVec.toNat_ofNat]
    exact Nat.mod_eq_of_lt (by omega)
  · rw [hhigh, BitVec.toNat_ofNat]
    exact Nat.mod_eq_of_lt (by omega)

/-- Settles O45: the fields common to the roles are the word's slices; the controller's fields follow the role. -/
theorem nodeStatusWordFields : Obligations.NodeStatusWordFields := by
  intro s
  obtain ⟨hrole, hhalt, hown, hctl, hping, hwait, hkind, hdst, hzero, hmode, hnonce⟩ := nodeStatusWord_fields s
  refine ⟨nodeStatusWord s, exec_nodeStatus s, (getLsbD_of_extractLsb' hrole).trans ?_,
    getLsbD_of_extractLsb' hhalt, hown, hwait.trans ?_, hkind.trans ?_, hdst, hzero, fun hslave => ?_, fun hmaster => ?_⟩
  · unfold isMaster
    cases s.params.role <;> rfl
  · cases s.rw.state <;> rfl
  · cases s.rw.kind <;> rfl
  · rw [(isMaster_eq_false_iff s).mpr hslave] at hctl hping hmode hnonce
    refine ⟨hctl.trans ?_, getLsbD_of_extractLsb' hping, hmode, hnonce⟩
    cases s.sl.state <;> rfl
  · rw [(isMaster_iff s).mpr hmaster] at hctl hping hmode hnonce
    refine ⟨hctl.trans ?_, getLsbD_of_extractLsb' hping, hmode, hnonce⟩
    cases s.hs.state <;> rfl

/-- Settles O46, by the cases of REPLY_STATUS: an outcome, an application wait, neither. -/
theorem replyStatusReadsAndClears : Obligations.ReplyStatusReadsAndClears := by
  intro s
  refine ⟨exec_replyStatus_halted, fun h => ⟨fun ho => ?received, fun ho => ?timedOut, fun ho hk hw => ?waiting,
    fun ho hw => ?nothing⟩⟩
  case received =>
    rw [exec_replyStatus_outcome h (by simp [ho]), ho, replyWord_eq]
    rfl
  case timedOut =>
    rw [exec_replyStatus_outcome h (by simp [ho]), ho, replyWord_eq]
    rfl
  case waiting =>
    rw [exec_replyStatus_waiting h ho ⟨hw, hk⟩, replyWord_eq]
    rfl
  case nothing => exact exec_replyStatus_nothing h ho (fun hc => hw hc.symm)

end Sys2Proof.Proofs.StatusWords
end

section
/-! SUPPORT. The family 30_encoding.md: reserved operation codes and the master's operations in a slave (30_encoding.md
R71, R74). -/

namespace Sys2Proof.Proofs.ReservedCodes

open Sys2Proof.Machine

/-! ### Reserved operations -/

/-- The reserved rows of the operation map (R71, R74). -/
inductive ReservedOp : Instr → Prop where
  | op06To07 (low : BitVec 1) : ReservedOp (.reservedOp06To07 low)
  | op08To0F (low : BitVec 3) : ReservedOp (.reservedOp08To0F low)
  | op15 : ReservedOp .reservedOp15
  | op16To17 (low : BitVec 1) : ReservedOp (.reservedOp16To17 low)
  | op18To1F (low : BitVec 3) : ReservedOp (.reservedOp18To1F low)
  | op23 : ReservedOp .reservedOp23
  | op24To27 (low : BitVec 2) : ReservedOp (.reservedOp24To27 low)
  | op28To2F (low : BitVec 3) : ReservedOp (.reservedOp28To2F low)
  | op32To33 (low : BitVec 1) : ReservedOp (.reservedOp32To33 low)
  | op34To37 (low : BitVec 2) : ReservedOp (.reservedOp34To37 low)
  | op38To3F (low : BitVec 3) : ReservedOp (.reservedOp38To3F low)
  | op42To43 (low : BitVec 1) : ReservedOp (.reservedOp42To43 low)
  | op44To47 (low : BitVec 2) : ReservedOp (.reservedOp44To47 low)
  | op48To4F (low : BitVec 3) : ReservedOp (.reservedOp48To4F low)
  | op50To5F (low : BitVec 4) : ReservedOp (.reservedOp50To5F low)
  | op60To7F (low : BitVec 5) : ReservedOp (.reservedOp60To7F low)
  | op80ToFF (low : BitVec 7) : ReservedOp (.reservedOp80ToFF low)

theorem exec_reservedOp {i : Instr} (h : ReservedOp i) (s : State) : exec i s = .next (refuse .badOpcode s) := by
  cases h <;> rfl

/-! ### The codes outside the map decode to them -/

/-- A decoder's answer is a reserved operation that takes no operand from `rest`. -/
def GivesReserved (rest : List Byte) (x : Except DecodeReject (Instr × List Byte)) : Prop :=
  ∃ i, ReservedOp i ∧ x = .ok (i, rest)

theorem GivesReserved.ok {i : Instr} {rest : List Byte} (h : ReservedOp i) : GivesReserved rest (.ok (i, rest)) :=
  ⟨i, h, rfl⟩

theorem GivesReserved.ite {c : Prop} [Decidable c] {rest : List Byte} {a b : Except DecodeReject (Instr × List Byte)}
    (ha : GivesReserved rest a) (hb : GivesReserved rest b) : GivesReserved rest (if c then a else b) := by
  split
  · exact ha
  · exact hb

/-- The operation codes with a meaning of their own (R71). -/
def opCodes : List Byte :=
  [0x00#8, 0x01#8, 0x02#8, 0x03#8, 0x04#8, 0x05#8, 0x10#8, 0x11#8, 0x12#8, 0x13#8, 0x14#8,
    0x20#8, 0x21#8, 0x22#8, 0x30#8, 0x31#8, 0x40#8, 0x41#8]

/-- Outside the map the decoder falls through to the reserved rows, one after the other. -/
theorem decodeOperation_reserved {op : Byte} (h : op ∉ opCodes) (rest : List Byte) :
    GivesReserved rest (decodeOperation op rest) := by
  simp only [opCodes, List.mem_cons, List.not_mem_nil, or_false, not_or] at h
  simp only [decodeOperation, h, if_false]
  exact .ite (.ok (.op06To07 _)) <| .ite (.ok (.op08To0F _)) <| .ite (.ok .op15) <| .ite (.ok (.op16To17 _)) <|
    .ite (.ok (.op18To1F _)) <| .ite (.ok .op23) <| .ite (.ok (.op24To27 _)) <| .ite (.ok (.op28To2F _)) <|
    .ite (.ok (.op32To33 _)) <| .ite (.ok (.op34To37 _)) <| .ite (.ok (.op38To3F _)) <| .ite (.ok (.op42To43 _)) <|
    .ite (.ok (.op44To47 _)) <| .ite (.ok (.op48To4F _)) <| .ite (.ok (.op50To5F _)) <| .ite (.ok (.op60To7F _)) <|
    .ok (.op80ToFF _)

/-! ### The step of a HOST_OP event -/

/-- A HOST_OP event is its decoded operation's meaning on the state the event starts from (R161). -/
theorem step_hostOp {s : State} {op : Byte} {operands tail : List Byte} {rest : List Event} {i : Instr}
    (hs : s.inputs = .hostOp op operands :: rest) (hd : decodeHostOp (op :: operands) = .ok (i, tail)) :
    step s = exec i (beginEvent rest s) := by
  simp only [step, hs, runEvent, hd]

theorem step_hostOp_reserved {s : State} {op : Byte} {operands : List Byte} {rest : List Event} (h : op ∉ opCodes)
    (hs : s.inputs = .hostOp op operands :: rest) : step s = .next (refuse .badOpcode (beginEvent rest s)) := by
  obtain ⟨i, hi, hd⟩ := decodeOperation_reserved h operands
  exact (step_hostOp hs hd).trans (exec_reservedOp hi _)

/-! ### The master's operations in a slave -/

section
variable {s : State} (hrole : s.params.role = .slave) (h : s.halted = false)
include hrole h

/-- The two checks a master's operation starts with end at the role's answer. -/
theorem roleCheck_slave {α : Type} (halted wrongRole rest : α) :
    (if s.halted then halted else if isMaster s = false then wrongRole else rest) = wrongRole :=
  (if_neg (by simp [h])).trans (if_pos ((isMaster_eq_false_iff s).mpr hrole))

theorem exec_pushUid_slave (uid : List Byte) (wait : Bool) (data : List Byte) :
    exec (.pushUid uid wait data) s = .next (refuse .wrongRole s) :=
  roleCheck_slave hrole h _ _ _

theorem exec_rosterRead_slave (slot : Byte) : exec (.rosterRead slot) s = .next (refuse .wrongRole s) :=
  roleCheck_slave hrole h _ _ _

theorem exec_resolveUid_slave (uid : List Byte) : exec (.resolveUid uid) s = .next (refuse .wrongRole s) :=
  roleCheck_slave hrole h _ _ _

end

/-! ### The statement -/

/-- Settles O8: a code outside the map decodes to a reserved row, and every reserved row refuses with BAD_OPCODE; a
slave's role check stands right after the halt check. -/
theorem reservedCodesAnswerBadOpcode : Obligations.ReservedCodesAnswerBadOpcode := by
  refine ⟨fun s op operands rest hop hs => ?event, fun s => ?instruction, fun s uid data wait slot hrole h => ?slave⟩
  case event => exact step_hostOp_reserved (fun hmem => hop (List.mem_map_of_mem hmem)) hs
  case instruction =>
    exact ⟨fun l => exec_reservedOp (.op06To07 l) s, fun l => exec_reservedOp (.op08To0F l) s,
      exec_reservedOp .op15 s, fun l => exec_reservedOp (.op16To17 l) s, fun l => exec_reservedOp (.op18To1F l) s,
      exec_reservedOp .op23 s, fun l => exec_reservedOp (.op24To27 l) s, fun l => exec_reservedOp (.op28To2F l) s,
      fun l => exec_reservedOp (.op32To33 l) s, fun l => exec_reservedOp (.op34To37 l) s,
      fun l => exec_reservedOp (.op38To3F l) s, fun l => exec_reservedOp (.op42To43 l) s,
      fun l => exec_reservedOp (.op44To47 l) s, fun l => exec_reservedOp (.op48To4F l) s,
      fun l => exec_reservedOp (.op50To5F l) s, fun l => exec_reservedOp (.op60To7F l) s,
      fun l => exec_reservedOp (.op80ToFF l) s⟩
  case slave =>
    exact ⟨exec_pushUid_slave hrole h uid wait data, exec_rosterRead_slave hrole h slot,
      exec_resolveUid_slave hrole h uid⟩

end Sys2Proof.Proofs.ReservedCodes
end

section
/-! SUPPORT. The family 40_codec.md: what the stateless operations of the codec answer (40_codec.md R77, R81 to R86;
NOP is R162's). -/

namespace Sys2Proof.Proofs.Codec

open Sys2Proof.Machine

/-! ### CRC_UPD as an iterate -/

theorem crcShifts_eq_iterate (n : Nat) (c : Half) : crcShifts n c = crcShift^[n] c := by
  induction n generalizing c with
  | zero => rfl
  | succ n ih => rw [crcShifts_succ, ih, Function.iterate_succ_apply]

/-- The top bit that a shift tests is bit 15 (R77). -/
theorem crcShift_eq (c : Half) : crcShift c = if c.getLsbD 15 then (c <<< 1) ^^^ 0x1021#16 else c <<< 1 := by
  rw [crcShift, BitVec.msb_eq_getLsbD_last]

/-! ### What the operations answer

None of them looks at `halted`: each succeeds in every state. -/

theorem exec_nop (s : State) : exec .nop s = .next (succeed .none s) := rfl

theorem exec_crcUpdate (crc : Half) (b : Byte) (s : State) :
    exec (.crcUpdate crc b) s = .next (succeed (.word16 (crcUpd crc b)) s) := rfl

theorem exec_hton16 (x : Half) (s : State) : exec (.hton16 x) s = .next (succeed (.word16 (hostSwap16 s x)) s) := rfl

theorem exec_hton32 (x : Wide) (s : State) : exec (.hton32 x) s = .next (succeed (.word32 (hostSwap32 s x)) s) := rfl

theorem exec_ntoh16 (x : Half) (s : State) : exec (.ntoh16 x) s = .next (succeed (.word16 (hostSwap16 s x)) s) := rfl

theorem exec_ntoh32 (x : Wide) (s : State) : exec (.ntoh32 x) s = .next (succeed (.word32 (hostSwap32 s x)) s) := rfl

/-- A success writes the result record and nothing else (R73). -/
theorem succeed_eq (f : ResultFields) (s : State) : succeed f s = { s with result := some ⟨.ok, f⟩ } := rfl

/-! ### Host order -/

/-- The identity on a big-endian host, `BSWAP16` on the others (R82, R83). -/
theorem hostSwap16_eq (s : State) (x : Half) : hostSwap16 s x =
    if s.params.hostBigEndian then x else x.extractLsb' 0 8 ++ x.extractLsb' 8 8 := rfl

/-- The identity on a big-endian host, `BSWAP32` on the others (R82, R84). -/
theorem hostSwap32_eq (s : State) (x : Wide) : hostSwap32 s x =
    if s.params.hostBigEndian then x
    else x.extractLsb' 0 8 ++ x.extractLsb' 8 8 ++ x.extractLsb' 16 8 ++ x.extractLsb' 24 8 := rfl

/-! ### The statements -/

/-- Settles O1: the eight shifts are an iterate of one shift, by induction on their number. -/
theorem crcUpdateReturnsEightShifts : Obligations.CrcUpdateReturnsEightShifts := by
  intro crc b s
  refine ⟨?eightShifts, ?answer⟩
  case eightShifts =>
    simp only [← crcShift_eq]
    exact crcShifts_eq_iterate 8 _
  case answer => rw [exec_crcUpdate, succeed_eq]

/-- Settles O4: each operation succeeds without a look at `halted`, and HTON and NTOH of a width answer the same number
in the host's order. -/
theorem nopAndByteOrderOperationsAnswerOk : Obligations.NopAndByteOrderOperationsAnswerOk := by
  intro x y s
  simp only [← hostSwap16_eq, ← hostSwap32_eq, ← succeed_eq]
  exact ⟨exec_nop s, exec_hton16 x s, exec_hton32 y s, exec_ntoh16 x s, exec_ntoh32 y s⟩

end Sys2Proof.Proofs.Codec
end

section
/-! SUPPORT. The family 41_frame_engine.md: reception byte by byte (41_frame_engine.md R88), READ (R96, R105), RELEASE
(R94) and TRANSMIT (R97). -/

namespace Sys2Proof.Proofs.FrameEngine

open Sys2Proof.Machine

/-! ### RX_BYTE (R88) -/

/-- An RX_BYTE event is its procedure on the state the event starts from. -/
theorem step_rxByte {s : State} {b : Byte} {mark : Bool} {rest : List Event} (hs : s.inputs = .rxByte b mark :: rest) :
    step s = rxByteEvent b mark (beginEvent rest s) := by
  simp only [step, hs, runEvent]

theorem rxByteEvent_deaf {b : Byte} {mark : Bool} {s : State} (h : s.halted = true ∨ s.fe.rxEn = false) :
    rxByteEvent b mark s = .next s := if_pos h

section
variable {s : State} (hrun : s.halted = false) (hen : s.fe.rxEn = true)
include hrun hen

/-- A node that hears the byte looks at the mark first, then for a frame under way. -/
theorem rxByteEvent_heard (b : Byte) (mark : Bool) : rxByteEvent b mark s =
    if mark then .next (startFrame b s) else if s.fe.rxActive = false then .next s else guarded s (appendByte b s) :=
  if_neg (by simp [hrun, hen])

theorem rxByteEvent_marked (b : Byte) : rxByteEvent b true s = .next (startFrame b s) :=
  (rxByteEvent_heard hrun hen b true).trans (if_pos rfl)

theorem rxByteEvent_outside (b : Byte) (ha : s.fe.rxActive = false) : rxByteEvent b false s = .next s :=
  (rxByteEvent_heard hrun hen b false).trans (if_pos ha)

theorem rxByteEvent_inside (b : Byte) (ha : s.fe.rxActive = true) (hi : IndicesOk s) :
    rxByteEvent b false s = .next (appendByte b s) := by
  rw [rxByteEvent_heard hrun hen, if_neg Bool.false_ne_true, if_neg (by simp [ha]), guarded_of_ok _ hi]

end

/-- The length field of the frame being accumulated, once `b` is stored. -/
abbrev lenWith (b : Byte) (s : State) : Nat := (metaLen ((s.fe.rxBuf.write s.fe.rxCnt.toNat b).read 1)).toNat

/-- What a byte of a frame does, by the count before it: the count does not wrap while it lies in the buffer. -/
theorem appendByte_eq (b : Byte) {s : State} (hcnt : s.fe.rxCnt.toNat ≤ 127) : appendByte b s =
    if s.fe.rxCnt = 1#8 ∧ (metaLen b).toNat > 124 then
      { s with fe := { s.fe with
          rxBuf := s.fe.rxBuf.write s.fe.rxCnt.toNat b, rxCnt := 0#8, rxActive := false } }
    else if 1 ≤ s.fe.rxCnt.toNat ∧ s.fe.rxCnt.toNat + 1 = lenWith b s + 4 then
      { s with fe := { s.fe with
          rxBuf := s.fe.rxBuf.write s.fe.rxCnt.toNat b, rxCnt := s.fe.rxCnt + 1#8
          fstate := .ready, rxEn := false, rxActive := false } }
    else
      { s with fe := { s.fe with
          rxBuf := s.fe.rxBuf.write s.fe.rxCnt.toNat b, rxCnt := s.fe.rxCnt + 1#8 } } := by
  have hsucc : (s.fe.rxCnt + 1#8).toNat = s.fe.rxCnt.toNat + 1 := by bv_omega
  have hmeta : s.fe.rxCnt + 1#8 = 2#8 ↔ s.fe.rxCnt = 1#8 := by bv_omega
  have htwo : s.fe.rxCnt.toNat + 1 ≥ 2 ↔ 1 ≤ s.fe.rxCnt.toNat := by omega
  simp only [appendByte, hmeta, hsucc, htwo]
  rfl

/-! ### READ (R96, R105) -/

/-- How many bytes a READ of `n` copies: what is asked for, or what is left. -/
abbrev readCount (n : Byte) (s : State) : Nat := min n.toNat (s.fe.fLen.toNat - s.fe.rdIdx.toNat)

/-- The bytes a READ of `n` copies. -/
abbrev readOut (n : Byte) (s : State) : List Byte := s.fe.rxBuf.readFrom (2 + s.fe.rdIdx.toNat) (readCount n s)

section
variable {n : Byte} {s : State}

theorem exec_read_halted (h : s.halted = true) : exec (.read n) s = .next (refuse .halted s) := if_pos h

theorem exec_read_noFrame (h : s.halted = false)
    (hno : s.fe.fstate ≠ .processing ∨ s.fe.fMode = true ∨ s.fe.crcSt ≠ .pending) :
    exec (.read n) s = .next (refuse .noFrame s) := (if_neg (by simp [h])).trans (if_pos hno)

/-- With a DATA frame held and its verdict open, READ answers the bytes and the verdict it leaves. -/
theorem exec_read_open (h : s.halted = false) (hp : s.fe.fstate = .processing) (hm : s.fe.fMode = false)
    (hc : s.fe.crcSt = .pending) (hi : IndicesOk s) : exec (.read n) s =
      .next (succeed (.bytes (BitVec.ofNat 8 (readCount n s)) (readOut n s) (readBytes n s).1.fe.crcSt)
        (readBytes n s).1) := by
  have hlen : (readBytes n s).2.length = readCount n s := Memory.length_readFrom _ _ _
  rw [← hlen]
  refine (if_neg (by simp [h])).trans ((if_neg (by simp [hp, hm, hc])).trans ?_)
  exact guarded_of_ok _ hi

/-- FINISH runs where the copied bytes bring the read index to the length. -/
theorem readBytes_state (n : Byte) (s : State) : (readBytes n s).1 =
    if s.fe.rdIdx + BitVec.ofNat 7 (readCount n s) = s.fe.fLen then
      (finish (foldBytes (readOut n s) (s.fe.rdIdx + BitVec.ofNat 7 (readCount n s)) s)).1
    else foldBytes (readOut n s) (s.fe.rdIdx + BitVec.ofNat 7 (readCount n s)) s := rfl

variable (hcounts : CountsOk s)
include hcounts

/-- The read index moves by the bytes copied and does not wrap. -/
theorem toNat_rdIdx_add_readCount :
    (s.fe.rdIdx + BitVec.ofNat 7 (readCount n s)).toNat = s.fe.rdIdx.toNat + readCount n s := by
  obtain ⟨-, hidx⟩ := hcounts
  have hleft : readCount n s ≤ s.fe.fLen.toNat - s.fe.rdIdx.toNat := Nat.min_le_right _ _
  have hwidth := s.fe.fLen.isLt
  rw [BitVec.toNat_add, BitVec.toNat_ofNat]
  omega

/-- READ with bytes left to copy folds what it copied. -/
theorem readBytes_partial (hk : readCount n s < s.fe.fLen.toNat - s.fe.rdIdx.toNat) :
    (readBytes n s).1 = foldBytes (readOut n s) (s.fe.rdIdx + BitVec.ofNat 7 (readCount n s)) s := by
  rw [readBytes_state, if_neg]
  intro hend
  have hmoved := toNat_rdIdx_add_readCount (n := n) hcounts
  rw [hend] at hmoved
  omega

/-- READ of the last byte folds what it copied and runs FINISH. -/
theorem readBytes_last (hk : readCount n s = s.fe.fLen.toNat - s.fe.rdIdx.toNat) :
    (readBytes n s).1 = (finish (foldBytes (readOut n s) s.fe.fLen s)).1 := by
  have hend : s.fe.rdIdx + BitVec.ofNat 7 (readCount n s) = s.fe.fLen :=
    BitVec.eq_of_toNat_eq (by rw [toNat_rdIdx_add_readCount hcounts, hk, Nat.add_sub_cancel' hcounts.2])
  rw [readBytes_state, if_pos hend, hend]

end

/-! ### RELEASE (R94) -/

/-- The drain folds what is left of the frame and its trailer, sets the verdict, and records a valid awaited reply. -/
theorem drain_eq (s : State) : drain s = { s with
    fe := { s.fe with
      crcAcc := crcFold s.fe.crcAcc (unread s ++ trailer s), rdIdx := s.fe.fLen
      crcSt := if crcFold s.fe.crcAcc (unread s ++ trailer s) = 0x0000#16 then .valid else .invalid }
    rw := { s.rw with
      state := if crcFold s.fe.crcAcc (unread s ++ trailer s) = 0x0000#16 ∧ isReply s = true then .received
        else s.rw.state } } := by
  have hreply : isReply (checkCrc (foldBytes (unread s) s.fe.fLen s)) = isReply s := rfl
  have htrail : trailer (foldBytes (unread s) s.fe.fLen s) = trailer s := rfl
  have hvalid : (checkCrc (foldBytes (unread s) s.fe.fLen s)).fe.crcSt = .valid ↔
      crcFold s.fe.crcAcc (unread s ++ trailer s) = 0x0000#16 := by
    simp [crcFold_append, htrail]
  simp only [drain, hvalid, hreply]
  rw [crcFold_append]
  split <;> rfl

/-! ### TRANSMIT (R97) -/

/-- Appended fields are the upper one shifted over the lower one. -/
theorem append_eq_shiftLeft_or {v w : Nat} (x : BitVec v) (y : BitVec w) :
    x ++ y = (x.setWidth (v + w) <<< w) ||| y.setWidth (v + w) := by
  rw [BitVec.append_def, BitVec.shiftLeftZeroExtend_eq, BitVec.setWidth'_eq]

/-- The ADDR byte as R97 forms it. -/
theorem addrByte_eq (src dst : Nibble) : addrByte src dst = (src.setWidth 8 <<< 4) ||| dst.setWidth 8 :=
  append_eq_shiftLeft_or src dst

/-- The META byte as R97 forms it: a legal length fits the seven bits below the mode. -/
theorem metaByte_eq (mode : Bool) {len : Nat} (h : len ≤ 124) :
    metaByte mode len = ((if mode then 1#8 else 0#8) <<< 7) ||| BitVec.ofNat 8 len := by
  have hlow : (BitVec.ofNat 7 len).setWidth 8 = BitVec.ofNat 8 len := by bv_omega
  have hhigh : (BitVec.ofBool mode).setWidth 8 = if mode then 1#8 else 0#8 := by cases mode <;> rfl
  rw [← hlow, ← hhigh]
  exact append_eq_shiftLeft_or _ _

/-- TRANSMIT mutes reception and appends its symbols, and changes nothing else. -/
theorem transmit_eq (d : Nibble) (mode : Bool) (p : List Byte) (s : State) : transmit d mode p s = { s with
    fe := { s.fe with rxEn := false }, txOut := s.txOut ++ transmission s d mode p } := rfl

/-- The transceiver is switched around the frame in the slave role. -/
theorem transmission_eq (s : State) (d : Nibble) (mode : Bool) (p : List Byte) : transmission s d mode p =
    if s.params.role = .slave then [.txen true] ++ frameSymbols (own s) d mode p ++ [.txen false]
    else frameSymbols (own s) d mode p := by
  unfold transmission
  cases h : isMaster s
  · rw [if_neg Bool.false_ne_true, if_pos ((isMaster_eq_false_iff s).mp h)]
    rfl
  · rw [if_pos rfl, if_neg (by simp [(isMaster_iff s).mp h])]

/-! ### The statements -/

/-- Settles O10, by the branches of RX_BYTE; inside a frame the count lies in the buffer, so it does not wrap. -/
theorem receivedByteAccumulates : Obligations.ReceivedByteAccumulates := by
  intro s b mark rest hs
  dsimp only
  rw [step_rxByte hs]
  refine ⟨rxByteEvent_deaf (s := beginEvent rest s), fun hrun hen => ⟨?marked, ?outside, ?inside⟩⟩
  case marked =>
    rintro rfl
    exact rxByteEvent_marked (s := beginEvent rest s) hrun hen b
  case outside =>
    rintro rfl ha
    exact rxByteEvent_outside (s := beginEvent rest s) hrun hen b ha
  case inside =>
    rintro rfl ha hi
    have ⟨_, _, hcnt, _⟩ := hi
    rw [rxByteEvent_inside (s := beginEvent rest s) hrun hen b ha hi,
      appendByte_eq b (s := beginEvent rest s) (hcnt ha)]
    refine ⟨fun hone hlong => congrArg _ ?reserved, fun hlegal => ⟨fun hone hfull => congrArg _ ?complete,
      fun hmore => congrArg _ ?counted⟩⟩
    case reserved => exact if_pos ⟨hone, hlong⟩
    case complete => exact (if_neg hlegal).trans (if_pos ⟨hone, hfull⟩)
    case counted => exact (if_neg hlegal).trans (if_neg hmore)

/-- Settles O15: bytes left are folded; with none left the outcome is FINISH's, by the frame's CRC. -/
theorem readCopiesAndChecks : Obligations.ReadCopiesAndChecks := by
  intro n s
  refine ⟨exec_read_halted, exec_read_noFrame, fun hrun hp hm hc hi => ?_⟩
  have hcounts := countsOk_of_indices hi
  dsimp only
  rw [exec_read_open hrun hp hm hc hi]
  refine ⟨fun hk => ?more, fun hk hbad => ?invalid, fun hk hok hb => ?broadcast, fun hk hok hb hr => ?reply,
    fun hk hok hb hr => ?held⟩
  case more =>
    rw [readBytes_partial hcounts hk, ← hc]
    rfl
  case invalid =>
    rw [readBytes_last hcounts hk, finish_foldBytes_invalid hbad]
    rfl
  case broadcast =>
    rw [readBytes_last hcounts hk, finish_foldBytes_valid hok, if_pos hb]
    rfl
  case reply =>
    rw [readBytes_last hcounts hk, finish_foldBytes_valid hok, if_neg hb, if_pos hr]
    rfl
  case held =>
    rw [readBytes_last hcounts hk, finish_foldBytes_valid hok, if_neg hb, if_neg (by simp [hr]), hok]
    rfl

/-- Settles O16: RELEASE is DISCARD, after the drain where the verdict is open. -/
theorem releaseDrainsTheHeldFrame : Obligations.ReleaseDrainsTheHeldFrame := by
  intro s
  refine ⟨fun h => ?consumed, fun hp hc _ => ?pending⟩
  case consumed => rw [release_of_consumed h, discard_eq]
  case pending =>
    rw [release_of_pending hp hc, drain_eq]
    rfl

/-- Settles O19: the frame's symbols with the header bytes as R97 forms them. -/
theorem transmissionSymbols : Obligations.TransmissionSymbols := by
  intro d mode p s hlen
  dsimp only
  rw [transmit_eq, transmission_eq, frameSymbols_eq, addrByte_eq, metaByte_eq mode hlen, List.map_append]
  rfl

end Sys2Proof.Proofs.FrameEngine
end

section
/-! SUPPORT. The family 42_request_queue.md: PUSH (42_request_queue.md R114) and PUSH_UID (R115), which both end in
ENQUEUE (R111). -/

namespace Sys2Proof.Proofs.RequestQueue

open Sys2Proof.Machine

/-! ### What ENQUEUE reports (R111)

With room for the request it is `report_enqueue_room`; the other two results leave the queue as it was. -/

section
variable {dst : Byte} {wait : Bool} {data : List Byte} {s : State}

theorem report_enqueue_long (h : 124 < data.length) : report (enqueue dst wait data s) = refuse .tooLong s :=
  congrArg report (enqueue_long h)

theorem report_enqueue_full (h : data.length ≤ 124) (hq : qcount s = s.params.queueSlots - 1) :
    report (enqueue dst wait data s) = refuse .queueFull s :=
  congrArg report (enqueue_full h hq)

/-! ### PUSH (R114) -/

theorem exec_push_halted (h : s.halted = true) : exec (.push dst wait data) s = .next (refuse .halted s) := if_pos h

theorem exec_push_badArg (h : s.halted = false) (hd : ¬ (dst.toNat ≤ 15 ∨ dst = 0xFF#8)) :
    exec (.push dst wait data) s = .next (refuse .badArg s) :=
  (if_neg (by simp [h])).trans (if_pos (Bool.eq_false_iff.mpr (hd ∘ (destOk_iff dst).mp)))

/-- A push for a legal destination is ENQUEUE. -/
theorem exec_push_legal (h : s.halted = false) (hd : dst.toNat ≤ 15 ∨ dst = 0xFF#8) (hi : IndicesOk s) :
    exec (.push dst wait data) s = .next (report (enqueue dst wait data s)) :=
  (if_neg (by simp [h])).trans ((if_neg (by simp [(destOk_iff dst).mpr hd])).trans (guarded_of_ok _ hi))

end

/-! ### The slots RESOLVE looks at (R125) -/

theorem holdsUid_eq_false {u : List Byte} {e : Slot}
    (h : ¬ (e.addr ≠ 0#4 ∧ e.uidLen.toNat = u.length ∧ e.uid.readFrom 0 u.length = u)) : holdsUid u e = false :=
  Bool.eq_false_iff.mpr (h ∘ (holdsUid_iff u e).mp)

theorem roster_length_of_indices {s : State} (hi : IndicesOk s) : s.roster.slots.length = s.params.rosterSlots := by
  obtain ⟨-, -, -, -, ⟨hlen, -⟩, -⟩ := hi
  exact hlen

/-! ### PUSH_UID (R115)

A slave's answer is `ReservedCodes.exec_pushUid_slave`. -/

section
variable {uid : List Byte} {wait : Bool} {data : List Byte} {s : State}

theorem exec_pushUid_halted (h : s.halted = true) :
    exec (.pushUid uid wait data) s = .next (refuse .halted s) := if_pos h

variable (h : s.halted = false) (hrole : s.params.role = .master)
include h hrole

/-- A running master looks at the identity's length, then for its slot. -/
theorem exec_pushUid_master : exec (.pushUid uid wait data) s =
    if uidLenOk uid = false then .next (refuse .badArg s)
    else if resolve uid s = 0#4 then guarded s (refuse .unknownUid s)
    else guarded s (report (enqueue (destOf (resolve uid s)) wait data s)) :=
  (if_neg (by simp [h])).trans (if_neg (by simp [(isMaster_iff s).mpr hrole]))

theorem exec_pushUid_badArg (hu : uid.length < 1 ∨ 12 < uid.length) :
    exec (.pushUid uid wait data) s = .next (refuse .badArg s) := by
  have hbad : uidLenOk uid = false := by
    rw [Bool.eq_false_iff, ne_eq, uidLenOk_iff]
    omega
  rw [exec_pushUid_master h hrole, if_pos hbad]

variable (hu : 1 ≤ uid.length ∧ uid.length ≤ 12) (hi : IndicesOk s)
include hu hi

theorem exec_pushUid_unknown (hr : resolve uid s = 0#4) :
    exec (.pushUid uid wait data) s = .next (refuse .unknownUid s) := by
  rw [exec_pushUid_master h hrole, if_neg (by simp [(uidLenOk_iff uid).mpr hu]), if_pos hr, guarded_of_ok _ hi]

/-- A push for an identity that resolves is ENQUEUE for its address. -/
theorem exec_pushUid_known {a : Nibble} (hr : resolve uid s = a) (ha : a ≠ 0#4) :
    exec (.pushUid uid wait data) s = .next (report (enqueue (destOf a) wait data s)) := by
  subst hr
  rw [exec_pushUid_master h hrole, if_neg (by simp [(uidLenOk_iff uid).mpr hu]), if_neg ha, guarded_of_ok _ hi]

end

/-! ### The statements -/

/-- Settles O21: after the halt check and the destination check PUSH is ENQUEUE, which checks the length before the
room. -/
theorem pushQueuesACopy : Obligations.PushQueuesACopy := by
  intro dst wait data s
  refine ⟨exec_push_halted, exec_push_badArg, fun h hd hi hlong => ?tooLong, fun h hd hi hlen hfull => ?queueFull,
    fun h hd hi hlen hroom => ?queued⟩
  case tooLong => exact (exec_push_legal h hd hi).trans (congrArg _ (report_enqueue_long hlong))
  case queueFull => exact (exec_push_legal h hd hi).trans (congrArg _ (report_enqueue_full hlen hfull))
  case queued => exact (exec_push_legal h hd hi).trans (congrArg _ (report_enqueue_room hlen hroom))

/-- Settles O22: a master's PUSH_UID of a legal identity turns on RESOLVE, which is 0 or the address of the lowest slot
that holds the identity; with an address it is ENQUEUE. -/
theorem pushUidResolvesWhenPushed : Obligations.PushUidResolvesWhenPushed := by
  intro uid wait data s
  refine ⟨exec_pushUid_halted, fun h hrole => ?slave, exec_pushUid_badArg,
    fun h hrole hmin hmax hi => ⟨fun hno => ?unknown, fun k hk hholds hlowest => ?known⟩⟩
  case slave => exact ReservedCodes.exec_pushUid_slave hrole h uid wait data
  case unknown =>
    have hr : resolve uid s = 0#4 :=
      resolve_none fun k hk => holdsUid_eq_false (hno k (roster_length_of_indices hi ▸ hk))
    exact exec_pushUid_unknown h hrole ⟨hmin, hmax⟩ hi hr
  case known =>
    have hr : resolve uid s = (slotAt s k).addr :=
      resolve_some (roster_length_of_indices hi ▸ hk) ((holdsUid_iff uid _).mpr hholds)
        fun j hj => holdsUid_eq_false (hlowest j hj)
    obtain ⟨hoccupied, -⟩ := hholds
    have hpush := exec_pushUid_known (wait := wait) (data := data) h hrole ⟨hmin, hmax⟩ hi hr hoccupied
    exact ⟨fun hlong => hpush.trans (congrArg _ (report_enqueue_long hlong)),
      fun hlen hfull => hpush.trans (congrArg _ (report_enqueue_full hlen hfull)),
      fun hlen hroom => hpush.trans (congrArg _ (report_enqueue_room hlen hroom))⟩

end Sys2Proof.Proofs.RequestQueue
end

section
/-! SUPPORT. The family 43_roster.md: ROSTER_READ (43_roster.md R127), RESOLVE_UID (R128), the round-robin SCAN (R122)
and the LIVENESS period (R121). -/

namespace Sys2Proof.Proofs.RosterRules

open Sys2Proof.Machine

/-! ### ROSTER_READ (R127)

A slave's answer is `ReservedCodes.exec_rosterRead_slave`. -/

/-- A running master passes the two checks its operations start with. -/
theorem roleCheck_master {α : Type} {s : State} (h : s.halted = false) (hrole : s.params.role = .master)
    (halted wrongRole rest : α) :
    (if s.halted then halted else if isMaster s = false then wrongRole else rest) = rest :=
  (if_neg (by simp [h])).trans (if_neg (by simp [(isMaster_iff s).mpr hrole]))

/-- R120 clears every field of a slot, so R127's record of it is all zeros. -/
theorem slotRecord_blank : slotRecord Slot.blank = .slot 0#4 0#4 (List.replicate 12 0x00#8) 0#16 0#16 false := rfl

section
variable {slot : Byte} {s : State}

theorem exec_rosterRead_halted (h : s.halted = true) : exec (.rosterRead slot) s = .next (refuse .halted s) := if_pos h

variable (h : s.halted = false) (hrole : s.params.role = .master)
include h hrole

theorem exec_rosterRead_badArg (hslot : s.params.rosterSlots ≤ slot.toNat) :
    exec (.rosterRead slot) s = .next (refuse .badArg s) :=
  (roleCheck_master h hrole _ _ _).trans (if_pos hslot)

theorem exec_rosterRead_slot (hslot : slot.toNat < s.params.rosterSlots) (hi : IndicesOk s) :
    exec (.rosterRead slot) s = .next (succeed (slotRecord (slotAt s slot.toNat)) s) :=
  (roleCheck_master h hrole _ _ _).trans ((if_neg (Nat.not_le.mpr hslot)).trans (guarded_of_ok _ hi))

end

/-- Under the roster's invariant a free slot has every field clear. -/
theorem slotAt_eq_blank_of_free {s : State} (hinv : RosterInv s) {k : Nat} (hk : k < s.params.rosterSlots)
    (hfree : (slotAt s k).addr = 0#4) : slotAt s k = Slot.blank := by
  have hmem : slotAt s k ∈ s.roster.slots := by
    rw [slotAt_eq_getElem (hinv.size ▸ hk)]
    exact List.getElem_mem _
  exact hinv.free _ hmem hfree

/-! ### RESOLVE_UID (R128)

A slave's answer is `ReservedCodes.exec_resolveUid_slave`; what RESOLVE finds is `resolve_none` and `resolve_some`. -/

theorem uidLenOk_eq_false {uid : List Byte} (h : uid.length < 1 ∨ 12 < uid.length) : uidLenOk uid = false := by
  rw [Bool.eq_false_iff, ne_eq, uidLenOk_iff]
  omega

section
variable {uid : List Byte} {s : State}

theorem exec_resolveUid_halted (h : s.halted = true) : exec (.resolveUid uid) s = .next (refuse .halted s) := if_pos h

variable (h : s.halted = false) (hrole : s.params.role = .master)
include h hrole

theorem exec_resolveUid_badArg (hu : uid.length < 1 ∨ 12 < uid.length) :
    exec (.resolveUid uid) s = .next (refuse .badArg s) :=
  (roleCheck_master h hrole _ _ _).trans (if_pos (uidLenOk_eq_false hu))

theorem exec_resolveUid_legal (hu : 1 ≤ uid.length ∧ uid.length ≤ 12) (hi : IndicesOk s) :
    exec (.resolveUid uid) s = .next (succeed (.address (resolve uid s)) s) :=
  (roleCheck_master h hrole _ _ _).trans
    ((if_neg (by simp [(uidLenOk_iff uid).mpr hu])).trans (guarded_of_ok _ hi))

end

/-! ### SCAN (R122) -/

theorem due_iff (s : State) (k : Nat) : due s k = true ↔ (slotAt s k).addr ≠ 0#4 ∧ (slotAt s k).needsPing = true := by
  simp [due]

/-- A full turn from any position visits exactly the slots of the roster. -/
theorem mem_scanOrder_iff (s : State) (k : Nat) : k ∈ scanOrder s ↔ k < s.params.rosterSlots := by
  have hturn := Finset.ext_iff.mp (Nat.image_Ico_mod s.roster.rrPos.toNat s.params.rosterSlots) k
  rw [Finset.mem_range, Finset.mem_image] at hturn
  rw [← hturn, scanOrder, List.mem_map]
  constructor
  · rintro ⟨i, hi, hmod⟩
    exact ⟨s.roster.rrPos.toNat + i, by simpa using hi, hmod⟩
  · rintro ⟨j, hj, hmod⟩
    obtain ⟨hle, hlt⟩ := Finset.mem_Ico.mp hj
    refine ⟨j - s.roster.rrPos.toNat, List.mem_range.mpr (by omega), ?_⟩
    rwa [Nat.add_sub_cancel' hle]

/-- With no slot due, SCAN answers 0 and moves nothing. -/
theorem scan_none {s : State} (h : ∀ k < s.params.rosterSlots, ¬ due s k = true) : scan s = (s, 0#4) := by
  have hfind : (scanOrder s).find? (due s) = none :=
    List.find?_eq_none.mpr fun k hk => h k ((mem_scanOrder_iff s k).mp hk)
  rw [scan, hfind]

/-- The slot SCAN visits after `i` others. -/
abbrev turnSlot (s : State) (i : Nat) : Nat := (s.roster.rrPos.toNat + i) % s.params.rosterSlots

/-- SCAN answers the first due slot of the turn and moves behind it. -/
theorem scan_first {s : State} {i : Nat} (hi : i < s.params.rosterSlots) (hdue : due s (turnSlot s i) = true)
    (hfirst : ∀ j < i, ¬ due s (turnSlot s j) = true) :
    scan s = ({ s with roster := { s.roster with
        rrPos := BitVec.ofNat 4 ((turnSlot s i + 1) % s.params.rosterSlots) } }, (slotAt s (turnSlot s i)).addr) := by
  have hturn : (List.range s.params.rosterSlots).find? (due s ∘ turnSlot s) = some i :=
    List.find?_range_eq_some.mpr ⟨hdue, List.mem_range.mpr hi, fun j hj => by simpa using hfirst j hj⟩
  have hfind : (scanOrder s).find? (due s) = some (turnSlot s i) :=
    List.find?_map.trans (congrArg (Option.map (turnSlot s)) hturn)
  rw [scan, hfind]

/-- SCAN answers 0 only when no slot is due, since a due slot is occupied. -/
theorem not_due_of_scan_zero {s : State} (h : (scan s).2 = 0#4) {k : Nat} (hk : k < s.params.rosterSlots) :
    ¬ due s k = true := by
  cases hfind : (scanOrder s).find? (due s) with
  | none => exact List.find?_eq_none.mp hfind k ((mem_scanOrder_iff s k).mpr hk)
  | some j =>
    obtain ⟨hoccupied, -⟩ := (due_iff s j).mp (List.find?_some hfind)
    rw [scan, hfind] at h
    exact absurd h hoccupied

/-! ### LIVENESS (R121) -/

/-- A free slot, and one whose countdown has stopped at 0, is left alone. -/
theorem liveSlot_of_rest {e : Slot} (h : e.addr = 0#4 ∨ e.pingCd = 0#16) : liveSlot e = e := by
  refine if_neg ?_
  rintro ⟨hoccupied, hrunning⟩
  rcases h with h | h
  · exact hoccupied h
  · simp [h] at hrunning

/-- A running countdown of an occupied slot falls; its last step marks the slot. -/
theorem liveSlot_of_running {e : Slot} (h : e.addr ≠ 0#4) (hcd : 0 < e.pingCd.toNat) :
    liveSlot e = { e with pingCd := e.pingCd - 1#16, needsPing := e.needsPing || e.pingCd == 1#16 } := if_pos ⟨h, hcd⟩

/-- The countdown that reaches 0 marks its slot. -/
theorem liveSlot_of_last {e : Slot} (h : e.addr ≠ 0#4) (hcd : e.pingCd = 1#16) :
    liveSlot e = { e with pingCd := 0#16, needsPing := true } := by
  rw [liveSlot_of_running h (by simp [hcd]), hcd]
  simp

/-- A countdown that stays above 0 leaves the mark as it was. -/
theorem liveSlot_of_more {e : Slot} (h : e.addr ≠ 0#4) (hcd : 2 ≤ e.pingCd.toNat) :
    liveSlot e = { e with pingCd := e.pingCd - 1#16 } := by
  have hmore : (e.pingCd == 1#16) = false := by
    rw [beq_eq_false_iff_ne]
    intro heq
    simp [heq] at hcd
  rw [liveSlot_of_running h (by omega), hmore, Bool.or_false]

section
variable {s : State}

/-- Before the period's end only the divider counts. -/
theorem liveness_between (h : s.roster.liveCnt.toNat + 1 < s.params.livenessDiv) :
    liveness s = { s with roster := { s.roster with liveCnt := s.roster.liveCnt + 1#16 } } :=
  if_neg (Nat.not_le.mpr h)

variable (h : s.roster.liveCnt.toNat + 1 = s.params.livenessDiv)
include h

/-- At the period's end the divider restarts and every slot lives one period. -/
theorem liveness_period :
    liveness s = { s with roster := { s.roster with liveCnt := 0#16, slots := s.roster.slots.map liveSlot } } :=
  if_pos h.ge

/-- A slot past the end of the roster reads as free, which `liveSlot` leaves alone. -/
theorem slotAt_liveness_period (k : Nat) : slotAt (liveness s) k = liveSlot (slotAt s k) := by
  rw [liveness_period h]
  exact List.getD_map s.roster.slots Slot.blank liveSlot

end

/-! ### The statements -/

/-- Settles O25: after the checks the answer is the slot's record, which of a cleared slot is all zeros. -/
theorem rosterReadReturnsTheSlot : Obligations.RosterReadReturnsTheSlot := by
  intro slot s
  refine ⟨exec_rosterRead_halted, fun h hrole => ?slave, exec_rosterRead_badArg,
    fun h hrole hslot hi => ⟨exec_rosterRead_slot h hrole hslot hi, fun hinv hfree => ?free⟩⟩
  case slave => exact ReservedCodes.exec_rosterRead_slave hrole h slot
  case free =>
    rw [exec_rosterRead_slot h hrole hslot hi, slotAt_eq_blank_of_free hinv hslot hfree, slotRecord_blank]
    rfl

/-- Settles O26: after the checks the answer is RESOLVE's, which is 0 or the address of the lowest slot that holds the
identity. -/
theorem resolveUidFindsTheLowestSlot : Obligations.ResolveUidFindsTheLowestSlot := by
  intro uid s
  refine ⟨exec_resolveUid_halted, fun h hrole => ?slave, exec_resolveUid_badArg,
    fun h hrole hmin hmax hi => ⟨fun hno => ?unknown, fun k hk hholds hlowest => ?known⟩⟩
  case slave => exact ReservedCodes.exec_resolveUid_slave hrole h uid
  case unknown =>
    have hr : resolve uid s = 0#4 := resolve_none fun k hk =>
      RequestQueue.holdsUid_eq_false (hno k (RequestQueue.roster_length_of_indices hi ▸ hk))
    rw [exec_resolveUid_legal h hrole ⟨hmin, hmax⟩ hi, hr]
    rfl
  case known =>
    have hr : resolve uid s = (slotAt s k).addr :=
      resolve_some (RequestQueue.roster_length_of_indices hi ▸ hk) ((holdsUid_iff uid _).mpr hholds)
        fun j hj => RequestQueue.holdsUid_eq_false (hlowest j hj)
    rw [exec_resolveUid_legal h hrole ⟨hmin, hmax⟩ hi, hr]
    rfl

/-- Settles O27: a turn of `scanOrder` visits every slot once, so the first due slot of the turn is SCAN's answer, and
without one no slot of the roster is due. -/
theorem scanIsRoundRobin : Obligations.ScanIsRoundRobin := by
  intro s _
  simp only [← due_iff]
  exact ⟨fun _ => scan_first, scan_none, fun hzero _ => not_due_of_scan_zero hzero⟩

/-- Settles O28: before the period only the divider moves; at the period each slot becomes its `liveSlot`, by the cases
of its countdown. -/
theorem livenessCountsDown : Obligations.LivenessCountsDown := by
  intro s _ _
  refine ⟨liveness_between, fun hperiod => ⟨?divider, ?size, ?frame, fun k => ?slot⟩⟩
  case divider => rw [liveness_period hperiod]
  case size => rw [liveness_period hperiod, List.length_map]
  case frame => rw [liveness_period hperiod]
  case slot =>
    dsimp only
    rw [slotAt_liveness_period hperiod]
    exact ⟨liveSlot_of_rest, liveSlot_of_last, liveSlot_of_more⟩

end Sys2Proof.Proofs.RosterRules
end

section
/-! SUPPORT. The family 45_slave_controller.md: the answers to GET_UID and PING (R147, R148), and presence supervision
with the reset it ends in (R139, R140). -/

namespace Sys2Proof.Proofs.SlaveController

open Sys2Proof.Machine

/-! ### A command that is answered (R145, R147, R148) -/

/-- A held command whose handler sends an answer and then changes the slave's registers: the answer releases the frame,
so the end of PARSE finds nothing held. -/
theorem exec_command_answered {i : Instr} {p : List Byte} {f : SlaveCtl → SlaveCtl} {s : State} (hf : i.format = .cmd)
    (h : HeldCommand (encode i) s) (hp : p.length ≤ maxPayload)
    (hans : handlerOf i (verified s) = modifySlave f (sendFrame (destOf s.fe.fSrc) true p (verified s)).1) :
    exec i s = .next { released s with
      sl := f s.sl, txOut := s.txOut ++ transmission s s.fe.fSrc true p } := by
  rw [exec_command hf h.indices, commandFrame_held h, hans, sendFrame_verified s.fe.fSrc p hp h.processing]
  exact congrArg _ (endCommand_of_answered rfl)

theorem handleGetUid_addressed {s : State} (hm : isMaster s = false) (hst : s.sl.state = .addrSet) :
    handleGetUid [] s = modifySlave (fun c => { c with state := .uidSent, hsCnt := 0#16 })
      (sendFrame (destOf s.fe.fSrc) true (codeAck :: s.sl.uid.readFrom 0 s.sl.uidLen.toNat) s).1 :=
  if_pos ⟨hm, rfl, hst⟩

theorem handlePing_identified {s : State} (hm : isMaster s = false)
    (hst : s.sl.state = .uidSent ∨ s.sl.state = .connected) :
    handlePing [] s = modifySlave (fun c => { c with state := .connected, nopingCnt := 0#16, pingRx := true })
      (sendFrame (destOf s.fe.fSrc) true [codeAck] s).1 :=
  if_pos ⟨hm, rfl, hst⟩

/-- The ACK with the slave's identity is one payload: an identity is 15 bytes at most by the width of its length. -/
theorem uidAnswer_fits (c : SlaveCtl) : (codeAck :: c.uid.readFrom 0 c.uidLen.toNat).length ≤ maxPayload := by
  have hlen : c.uidLen.toNat < 16 := c.uidLen.isLt
  rw [List.length_cons, Memory.length_readFrom, maxPayload]
  omega

/-! ### Presence supervision (R140) -/

section
variable {n : Wide} {s : State}

/-- A present sample, `c` being the presence count it leaves. -/
theorem presenceStep_present {c : Half}
    (hc : (if s.sl.presCnt.toNat < 65535 then s.sl.presCnt + 1#16 else s.sl.presCnt) = c) :
    presenceStep true n s = ({ s with sl := { s.sl with
      absCnt := 0#16, presCnt := c
      state := if s.sl.state = .disconnected ∧ s.params.presenceDebounce ≤ c.toNat
        then .pluggedIn else s.sl.state } }, false) := by
  subst hc
  rfl

/-- An absent sample, by the absence count before it. -/
theorem presenceStep_absent : presenceStep false n s =
    if s.sl.absCnt.toNat < s.params.presenceDebounce then
      let s1 : State := { s with sl := { s.sl with presCnt := 0#16, absCnt := s.sl.absCnt + 1#16 } }
      if s.sl.absCnt.toNat + 1 = s.params.presenceDebounce then (slaveReset n s1, true) else (s1, false)
    else ({ s with sl := { s.sl with presCnt := 0#16 } }, false) := rfl

theorem presenceStep_counted (h : s.sl.presCnt.toNat < 65535) :
    presenceStep true n s = ({ s with sl := { s.sl with
      absCnt := 0#16, presCnt := s.sl.presCnt + 1#16
      state := if s.sl.state = .disconnected ∧ s.params.presenceDebounce ≤ s.sl.presCnt.toNat + 1
        then .pluggedIn else s.sl.state } }, false) := by
  have hsucc : (s.sl.presCnt + 1#16).toNat = s.sl.presCnt.toNat + 1 := by bv_omega
  rw [presenceStep_present (if_pos h), hsucc]

theorem presenceStep_saturated (h : s.sl.presCnt = 65535#16) :
    presenceStep true n s = ({ s with sl := { s.sl with
      absCnt := 0#16
      state := if s.sl.state = .disconnected ∧ s.params.presenceDebounce ≤ 65535
        then .pluggedIn else s.sl.state } }, false) := by
  have hmax : s.sl.presCnt.toNat = 65535 := congrArg BitVec.toNat h
  rw [presenceStep_present (if_neg (by omega)), hmax]

theorem presenceStep_gone (h : s.params.presenceDebounce ≤ s.sl.absCnt.toNat) :
    presenceStep false n s = ({ s with sl := { s.sl with presCnt := 0#16 } }, false) := by
  rw [presenceStep_absent, if_neg (by omega)]

theorem presenceStep_leaving (h : s.sl.absCnt.toNat + 1 < s.params.presenceDebounce) :
    presenceStep false n s =
      ({ s with sl := { s.sl with presCnt := 0#16, absCnt := s.sl.absCnt + 1#16 } }, false) := by
  rw [presenceStep_absent, if_pos (by omega)]
  exact if_neg (by omega)

/-- The absent sample that completes the loss resets the slave and ends the tick; the reset clears the presence count
itself. -/
theorem presenceStep_lost (hrole : s.params.role = .slave) (h : s.sl.absCnt.toNat + 1 = s.params.presenceDebounce) :
    presenceStep false n s =
      (slaveAfterReset n { s with sl := { s.sl with absCnt := s.sl.absCnt + 1#16 } }, true) := by
  rw [presenceStep_absent, if_pos (by omega), if_pos h, slaveReset_eq (by exact hrole)]
  rfl

end

/-! ### The tick that loses presence (R140, R158) -/

/-- A TICK event of a running core with a legal draw is the tick on the state the event starts from. -/
theorem step_tick {presence busy : Bool} {bo : Half} {nonce : Wide} {rest : List Event} {s : State}
    (hrun : s.halted = false) (hi : IndicesOk s) (hdraw : legalDraw s bo)
    (hs : s.inputs = .tick presence busy bo nonce :: rest) :
    step s = .next (tick presence busy bo nonce (beginEvent rest s)) := by
  have hrun' : ¬ (beginEvent rest s).halted = true := by simp [beginEvent, hrun]
  have hi' : IndicesOk (beginEvent rest s) := hi
  have hdraw' : legalDraw (beginEvent rest s) bo := hdraw
  simp only [step, hs, runEvent]
  rw [tickEvent, if_neg (not_not.mpr hdraw'), if_neg hrun', guarded_of_ok _ hi']

/-- A tick that the presence supervision ends leaves what the supervision left. -/
theorem tick_ended {presence : Bool} {nonce : Wide} {s t : State} (hm : isMaster s = false)
    (h : presenceStep presence nonce s = (t, true)) (busy : Bool) (bo : Half) :
    tick presence busy bo nonce s = t := by
  rw [tick, if_neg (by simp [hm]), h]

/-! ### The statements -/

/-- Settles O39: each handler answers where its state allows, and an answered command is `exec_command_answered`. -/
theorem getUidAndPingAreAnswered : Obligations.GetUidAndPingAreAnswered := by
  intro s hrole
  have hm : isMaster (verified s) = false := (isMaster_eq_false_iff s).mpr hrole
  refine ⟨fun h hst => ?getUid, fun h hst => ?ping⟩
  case getUid =>
    exact exec_command_answered (i := .getUid []) rfl h (uidAnswer_fits s.sl) (handleGetUid_addressed hm hst)
  case ping =>
    have hfits : [codeAck].length ≤ maxPayload := by decide
    exact exec_command_answered (i := .ping []) rfl h hfits (handlePing_identified hm hst)

/-- Settles O41, by the sample and the count it meets; the sample that completes a loss ends the tick with the reset. -/
theorem presenceIsDebouncedAndItsLossResets : Obligations.PresenceIsDebouncedAndItsLossResets := by
  refine ⟨fun s busy bo nonce rest hrole hrun hi hdraw hlast hs => ?loss, fun presence n s =>
    ⟨?counted, ?saturated, ?gone, ?leaving⟩⟩
  case loss =>
    have hm : isMaster (beginEvent rest s) = false := (isMaster_eq_false_iff s).mpr hrole
    rw [step_tick hrun hi hdraw hs, tick_ended hm (presenceStep_lost hrole hlast)]
    rfl
  case counted => rintro rfl h; exact presenceStep_counted h
  case saturated => rintro rfl h; exact presenceStep_saturated h
  case gone => rintro rfl h; exact presenceStep_gone h
  case leaving => rintro rfl h; exact presenceStep_leaving h

end Sys2Proof.Proofs.SlaveController
end

section
/-! SUPPORT. The family 60_exceptions.md: the halted core (60_exceptions.md R167). -/

namespace Sys2Proof.Proofs.Exceptions

open Sys2Proof.Machine
open Sys2Proof.Proofs.StatusWords Sys2Proof.Proofs.Codec Sys2Proof.Proofs.FrameEngine
open Sys2Proof.Proofs.RequestQueue Sys2Proof.Proofs.RosterRules

/-- A step with an event to come runs it on the state the event starts from. -/
theorem step_event {e : Event} {rest : List Event} {s : State} (hs : s.inputs = e :: rest) :
    step s = runEvent e (beginEvent rest s) := by
  simp only [step, hs]

/-! ### What a halted core answers -/

section
variable {s : State} (h : s.halted = true)
include h

theorem exec_parse_halted : exec .parse s = .next (refuse .halted s) := if_pos h

theorem exec_send_halted (dst : Byte) (data : List Byte) :
    exec (.send dst data) s = .next (refuse .halted s) := if_pos h

theorem exec_cmdSend_halted (dst cmd : Byte) (args : List Byte) :
    exec (.cmdSend dst cmd args) s = .next (refuse .halted s) := if_pos h

theorem exec_rxStatus_halted : exec .rxStatus s = .next (refuse .halted s) := (exec_rxStatus s).trans (if_pos h)

theorem exec_queueStatus_halted : exec .queueStatus s = .next (refuse .halted s) :=
  (exec_queueStatus s).trans (if_pos h)

/-- NODE_STATUS shows the halt, in bit 1 (R47). -/
theorem nodeStatusWord_halted : (nodeStatusWord s).getLsbD 1 = true := by
  obtain ⟨-, hbit, -⟩ := nodeStatusWord_fields s
  exact (getLsbD_of_extractLsb' hbit).trans h

/-! ### What an event does to a halted core -/

theorem rxByteEvent_halted (b : Byte) (mark : Bool) : rxByteEvent b mark s = .next s := rxByteEvent_deaf (.inl h)

theorem tickEvent_halted {presence busy : Bool} {bo : Half} {nonce : Wide} (hdraw : legalDraw s bo) :
    tickEvent presence busy bo nonce s = .next s :=
  (if_neg (not_not.mpr hdraw)).trans (if_pos h)

/-- Every effect of a host operation but the record asks for a running core. -/
theorem hostEffect_halted {u : State} (hu : HostEffect s u) : u = s := by
  cases hu with
  | none => rfl
  | parse hrun | read _ hrun | send _ _ _ hrun | push _ _ _ hrun | replyRead hrun => simp [h] at hrun

/-- A host operation of a halted core, whichever it is, leaves a record and nothing else. -/
theorem exec_hostOp_halted {i : Instr} {t : State} (hf : i.format = .hostOp) (ht : exec i s = .next t) :
    ∃ r, t = answer r s := by
  obtain ⟨r, u, rfl, hu⟩ := exec_hostOp hf ht
  exact ⟨r, by rw [hostEffect_halted h hu]⟩

/-- No event but RESET starts a halted core again: the others leave it as it is, a record apart. -/
theorem runEvent_halted {e : Event} {t : State} (he : ∀ cfg nonce0, e ≠ .reset cfg nonce0)
    (ht : runEvent e s = .next t) : t.halted = true := by
  cases e with
  | reset cfg nonce0 => exact absurd rfl (he cfg nonce0)
  | rxByte b mark =>
    cases (rxByteEvent_halted h b mark).symm.trans ht
    exact h
  | tick presence busy bo nonce =>
    by_cases hdraw : legalDraw s bo
    · cases (tickEvent_halted h hdraw).symm.trans ht
      exact h
    · cases (if_pos hdraw : tickEvent presence busy bo nonce s = _).symm.trans ht
  | hostOp op operands =>
    simp only [runEvent] at ht
    split at ht
    · next hd =>
      obtain ⟨r, rfl⟩ := exec_hostOp_halted h (decodeHostOp_format hd) ht
      exact h
    · cases ht

end

/-! ### The statement -/

/-- Settles O47: a refused operation tests the halt first, an answered one does not look at it, and the events by what
each does to a halted core. -/
theorem haltedCoreOnlyReports : Obligations.HaltedCoreOnlyReports := by
  intro s h
  refine ⟨?refused, ?answered, ?ignored, ?stays⟩
  case refused =>
    exact ⟨exec_parse_halted h, fun _ => exec_read_halted h, exec_send_halted h, exec_cmdSend_halted h,
      exec_rxStatus_halted h, fun _ _ _ => exec_push_halted h, fun _ _ _ => exec_pushUid_halted h,
      exec_queueStatus_halted h, fun _ => exec_rosterRead_halted h, fun _ => exec_resolveUid_halted h,
      exec_replyStatus_halted h⟩
  case answered =>
    exact ⟨exec_nop s, ⟨nodeStatusWord s, exec_nodeStatus s, nodeStatusWord_halted h⟩,
      fun c b => exec_crcUpdate c b s,
      fun x => ⟨hostSwap16 s x, exec_hton16 x s, exec_ntoh16 x s, rfl⟩,
      fun x => ⟨hostSwap32 s x, exec_hton32 x s, exec_ntoh32 x s, rfl⟩⟩
  case ignored =>
    rintro e rest hs (⟨b, mark, rfl⟩ | ⟨presence, busy, bo, nonce, rfl, hdraw⟩)
    · exact (step_event hs).trans (rxByteEvent_halted (s := beginEvent rest s) h b mark)
    · exact (step_event hs).trans (tickEvent_halted (s := beginEvent rest s) h hdraw)
  case stays =>
    intro e rest t hs he ht
    exact runEvent_halted (s := beginEvent rest s) h he ((step_event hs).symm.trans ht)

end Sys2Proof.Proofs.Exceptions
end

section
/-! SUPPORT. The invariants of 10_state.md R50 and of the ranges of R19 to R44: a property that every part of a step
keeps is kept by the step, and each invariant is such a property. RESET establishes all of them. -/

namespace Sys2Proof.Proofs.Invariants

open Sys2Proof.Machine

/-! ### From the parts of a step to the step -/

/-- The parts an event is made of keep `P` (00_scope.md R8), each from the states in which it can run. -/
structure KeptByParts (P : State → Prop) : Prop where
  begin_ : ∀ rest s, P s → P (beginEvent rest s)
  answer : ∀ r s, P s → P (answer r s)
  reset : ∀ cfg nonce0 s, P s → P (resetEvent cfg nonce0 s)
  mark : ∀ b s, P s → s.halted = false → s.fe.rxEn = true → P (startFrame b s)
  byte : ∀ b s, P s → s.halted = false → s.fe.rxActive = true → IndicesOk s → P (appendByte b s)
  tick : ∀ presence busy bo nonce s, P s → s.halted = false → legalDraw s bo → IndicesOk s →
    P (tick presence busy bo nonce s)
  parse : ∀ s, P s → s.halted = false → IndicesOk s → P (parseFrame s).1
  read : ∀ n s, P s → s.halted = false → s.fe.fstate = .processing → IndicesOk s → P (readBytes n s).1
  send : ∀ dst mode p s, P s → s.halted = false → P (sendFrame dst mode p s).1
  push : ∀ dst wait p s, P s → P (enqueue dst wait p s).1
  replyRead : ∀ s, P s → P { s with app := { s.app with st := .none } }

section
variable {P : State → Prop} (k : KeptByParts P) {s t : State}
include k

theorem KeptByParts.hostEffect (h : P s) (ht : HostEffect s t) : P t := by
  cases ht with
  | none => exact h
  | parse hrun hi => exact k.parse s h hrun hi
  | read n hrun hi hp _ _ => exact k.read n s h hrun hp hi
  | send dst mode p hrun _ _ => exact k.send dst mode p s h hrun
  | push dst wait p _ _ => exact k.push dst wait p s h
  | replyRead _ => exact k.replyRead s h

theorem KeptByParts.eventEffect (h : P s) (ht : EventEffect s t) : P t := by
  cases ht with
  | ignored => exact h
  | reset cfg nonce0 => exact k.reset cfg nonce0 s h
  | mark b hrun hen => exact k.mark b s h hrun hen
  | byte b hrun _ ha hi => exact k.byte b s h hrun ha hi
  | tick presence busy bo nonce hrun hdraw hi => exact k.tick presence busy bo nonce s h hrun hdraw hi
  | hostOp r u hu => exact k.answer r u (k.hostEffect h hu)

/-- A property that every part keeps is kept by every step. -/
theorem KeptByParts.step (h : P s) (hstep : step s = .next t) : P t := by
  rcases step_next hstep with ⟨-, rfl⟩ | ⟨e, rest, -, ht⟩
  · exact h
  · exact k.eventEffect (k.begin_ rest s h) ht

end

/-! ### The frame engine -/

theorem engineInv_resetState (p : Params) (valid : Bool) (cfg : BootConfig) (nonce0 : Wide) :
    EngineInv (resetState p valid cfg nonce0) where
  muted h := absurd rfl h
  accumulating := nofun
  counted := nofun
  buffered := nofun
  counts := ⟨Nat.zero_le _, Nat.zero_le _, le_refl _⟩
  haltMutes h := congrArg (!·) h

/-- An address mark starts an idle engine's frame with a count of one byte. -/
theorem engineInv_startFrame (b : Byte) {s : State} (h : EngineInv s) (hrun : s.halted = false)
    (hen : s.fe.rxEn = true) : EngineInv (startFrame b s) := by
  have hidle : s.fe.fstate = .idle := by
    by_contra hbusy
    exact absurd (h.muted hbusy) (by simp [hen])
  exact ⟨fun hbusy => absurd hidle hbusy, fun _ => ⟨hidle, hen⟩, fun _ => ⟨by simp, by simp⟩,
    fun hready => by simp [hidle] at hready, ⟨by simp, h.counts.2⟩, fun hhalt => by simp [hrun] at hhalt⟩

/-- A held frame whose bytes are folded further is still held and muted. -/
theorem EngineInv.of_held {s t : State} (h : EngineInv s) (hp : t.fe.fstate = .processing)
    (hen : t.fe.rxEn = s.fe.rxEn) (hs : s.fe.fstate = .processing) (ha : t.fe.rxActive = s.fe.rxActive)
    (hc : t.fe.rxCnt = s.fe.rxCnt) (hcounts : CountsOk t) : EngineInv t := by
  have hmuted : t.fe.rxEn = false := hen.trans (h.muted (by simp [hs]))
  have hquiet : t.fe.rxActive = false := by
    cases hact : s.fe.rxActive with
    | false => rw [ha, hact]
    | true => simpa [hs] using (h.accumulating hact).1
  exact ⟨fun _ => hmuted, by simp [hquiet], by simp [hquiet], by simp [hp], ⟨hc ▸ h.counts.1, hcounts⟩,
    fun _ => hmuted⟩

/-- READ leaves the engine idle, or the frame held with its read index inside the payload. -/
theorem engineInv_readBytes (n : Byte) {s : State} (h : EngineInv s) (hrun : s.halted = false)
    (hp : s.fe.fstate = .processing) : EngineInv (readBytes n s).1 := by
  have hhalt : (readBytes n s).1.halted = false := by simpa using hrun
  rcases readBytes_cases n h.counts.2 with hidle | hheld | ⟨out, i, hmore, hi⟩
  · exact engineInv_of_idled hidle hhalt
  · rw [hheld]
    exact EngineInv.of_held h hp rfl hp rfl rfl ⟨h.counts.2.1, le_refl _⟩
  · rw [hmore]
    exact EngineInv.of_held h hp rfl hp rfl rfl ⟨h.counts.2.1, hi.le⟩

theorem engineInv_kept : KeptByParts EngineInv where
  begin_ _ _ h := h.of_fe rfl rfl
  answer _ _ h := h.of_fe rfl rfl
  reset cfg nonce0 s _ := (engineInv_resetState s.params (Config.configValid cfg) cfg nonce0).of_fe rfl rfl
  mark b _ h hrun hen := engineInv_startFrame b h hrun hen
  byte _ _ h hrun ha hi := by
    obtain ⟨-, -, hcnt, -⟩ := hi
    exact engineInv_appendByte h ha hrun (hcnt ha)
  tick _ _ _ _ _ h hrun _ _ := engineInv_tick h hrun
  parse _ h hrun _ := engineInv_parseFrame h hrun
  read n _ h hrun hp _ := engineInv_readBytes n h hrun hp
  send _ _ _ _ h hrun := engineInv_sendFrame h hrun
  push _ _ _ _ h := h.of_fe (by simp) (by simp)
  replyRead _ h := h.of_fe rfl rfl

/-- Settles O52: each part of a step keeps the engine's invariant. -/
theorem stepKeepsTheFrameEngine : Obligations.StepKeepsTheFrameEngine :=
  fun _ _ h hstep => engineInv_kept.step h hstep

/-! ### The ring of the queue -/

/-- The ring under legal parameters, which the index arithmetic needs. -/
abbrev RingOk (s : State) : Prop := s.params.wf ∧ QueueInv s

theorem RingOk.of_queue {s t : State} (h : RingOk s) (hq : t.queue = s.queue) (hp : t.params = s.params) : RingOk t :=
  ⟨hp ▸ h.1, h.2.of_queue hq hp⟩

theorem queueInv_resetState {p : Params} (hp : p.wf) (valid : Bool) (cfg : BootConfig) (nonce0 : Wide) :
    QueueInv (resetState p valid cfg nonce0) := by
  have hslots : 0 < p.queueSlots := by have := hp.1.1; omega
  exact ⟨List.length_replicate, hslots, hslots,
    fun e he => by rw [List.eq_of_mem_replicate he]; exact Nat.zero_le _⟩

/-- A tick pops at most one entry. -/
theorem ringOk_tick {presence busy : Bool} {bo : Half} {nonce : Wide} {s : State} (h : RingOk s) :
    RingOk (tick presence busy bo nonce s) := by
  rcases tick_queue presence busy bo nonce s with hq | hq
  · exact h.of_queue hq (by simp)
  · have hpop := queueInv_dispatchQueue h.1 h.2
    exact RingOk.of_queue (s := dispatchQueue s) ⟨by simpa using h.1, hpop⟩
      (by rw [hq, dispatchQueue_queue]) (by simp)

theorem ringOk_kept : KeptByParts RingOk where
  begin_ _ _ h := h.of_queue rfl rfl
  answer _ _ h := h.of_queue rfl rfl
  reset cfg nonce0 s h :=
    RingOk.of_queue (s := resetState s.params (Config.configValid cfg) cfg nonce0)
      ⟨h.1, queueInv_resetState h.1 _ _ _⟩ rfl rfl
  mark _ _ h _ _ := h.of_queue rfl rfl
  byte _ _ h _ _ _ := h.of_queue (by simp) (by simp)
  tick _ _ _ _ _ h _ _ _ := ringOk_tick h
  parse _ h _ _ := h.of_queue (by simp) (by simp)
  read _ _ h _ _ _ := h.of_queue (by simp) (by simp)
  send _ _ _ _ h _ := h.of_queue (by simp) (by simp)
  push dst wait p _ h := ⟨by simpa using h.1, queueInv_enqueue h.1 h.2 dst wait p⟩
  replyRead _ h := h.of_queue rfl rfl

/-- Settles O53: only ENQUEUE and DISPATCH_QUEUE move the ring, and both keep its shape. -/
theorem stepKeepsTheQueueRing : Obligations.StepKeepsTheQueueRing :=
  fun _ _ hw h hstep => (ringOk_kept.step ⟨hw, h⟩ hstep).2

/-! ### The roster and the handshake -/

theorem rosterOk_of_same {s t : State} (h : RosterOk s) (hp : t.params = s.params)
    (hr : t.roster.slots = s.roster.slots) (hh : t.hs = s.hs) (hw : t.rw = s.rw) : RosterOk t :=
  ⟨hp ▸ h.1, h.2.of_same hp hr hh (by rw [hw]) (by rw [hw])⟩

theorem rosterInv_resetState (p : Params) (valid : Bool) (cfg : BootConfig) (nonce0 : Wide) :
    RosterInv (resetState p valid cfg nonce0) := by
  have hblank : ∀ e ∈ (resetState p valid cfg nonce0).roster.slots, e = Slot.blank :=
    fun e he => List.eq_of_mem_replicate he
  have hsize : (resetState p valid cfg nonce0).roster.slots.length = p.rosterSlots := List.length_replicate
  refine ⟨hsize, fun k hk => .inl ?_, fun e he => ?_, fun e he _ => hblank e he, fun h => absurd rfl h, nofun,
    fun h => absurd rfl h, Nat.zero_le _, fun _ => rfl⟩
  · rw [slotAt_eq_getElem (hsize ▸ hk), hblank _ (List.getElem_mem _)]
    rfl
  · rw [hblank e he]
    exact Nat.zero_le _

theorem rosterOk_kept : KeptByParts RosterOk where
  begin_ _ _ h := rosterOk_of_same h rfl rfl rfl rfl
  answer _ _ h := rosterOk_of_same h rfl rfl rfl rfl
  reset cfg nonce0 s h :=
    rosterOk_of_same (s := resetState s.params (Config.configValid cfg) cfg nonce0)
      ⟨h.1, rosterInv_resetState _ _ _ _⟩ rfl rfl rfl rfl
  mark _ _ h _ _ := rosterOk_of_same h rfl rfl rfl rfl
  byte _ _ h _ _ _ := rosterOk_of_same h (by simp) (by simp) (by simp) (by simp)
  tick _ _ _ _ _ h _ _ _ := rosterOk_tick h
  parse _ h _ _ := rosterOk_parse h
  read n _ h _ _ _ := rosterOk_readBytes n h
  send _ _ _ _ h _ := ⟨by simpa using h.1, rosterInv_sendFrame h.2⟩
  push _ _ _ _ h := rosterOk_of_same h (by simp) (by simp) (by simp) (by simp)
  replyRead _ h := rosterOk_of_same h rfl rfl rfl rfl

/-- Settles O54: each part of a step keeps the roster, the handshake and its waits. -/
theorem stepKeepsTheRoster : Obligations.StepKeepsTheRoster :=
  fun _ _ hw h hstep => (rosterOk_kept.step ⟨hw, h⟩ hstep).2

/-! ### The slave's address -/

theorem slaveInv_resetState (p : Params) (valid : Bool) (cfg : BootConfig) (nonce0 : Wide) :
    SlaveInv (resetState p valid cfg nonce0) := by
  have hrole : isMaster (resetState p valid cfg nonce0) = false → p.role = .slave :=
    (isMaster_eq_false_iff _).mp
  refine ⟨fun hm _ => ?_, fun hm hst => ?_, ?_⟩
  · rw [own_eq_of_slave hm]
    simp [resetState, hrole hm]
  · by_cases hv : p.role = .slave ∧ valid = true <;>
      simp [resetState, hv, bootSlave, SlaveCtl.reset] at hst
  · by_cases hv : p.role = .slave ∧ valid = true <;> cases hu : cfg.uidPresent <;>
      simp [resetState, hv, bootSlave, SlaveCtl.reset, hu]

theorem slaveInv_kept : KeptByParts SlaveInv where
  begin_ _ _ h := h.of_same rfl rfl rfl rfl
  answer _ _ h := h.of_same rfl rfl rfl rfl
  reset cfg nonce0 s _ :=
    (slaveInv_resetState s.params (Config.configValid cfg) cfg nonce0).of_same rfl rfl rfl rfl
  mark _ _ h _ _ := h.of_same rfl rfl rfl rfl
  byte _ _ h _ _ _ := h.of_same (by simp) (by simp) (by simp) (by simp)
  tick _ _ _ _ _ h _ _ _ := slaveInv_tick h
  parse _ h _ _ := slaveInv_parse h
  read _ _ h _ _ _ := h.of_same (by simp) (by simp) (by simp) (by simp)
  send _ _ _ _ h _ := h.of_same (by simp) (by simp) (by simp) (by simp)
  push _ _ _ _ h := h.of_same (by simp) (by simp) (by simp) (by simp)
  replyRead _ h := h.of_same rfl rfl rfl rfl

/-- Settles O55: each part of a step keeps the join state and the address in agreement. -/
theorem stepKeepsTheSlaveAddress : Obligations.StepKeepsTheSlaveAddress :=
  fun _ _ h hstep => slaveInv_kept.step h hstep

/-! ### The counters -/

theorem countersOk_of_same {s t : State} (h : CountersOk s) (hp : t.params = s.params)
    (hb : t.fe.busyCnt.toNat ≤ s.params.busyTimeout) (hw : t.rw.cnt = s.rw.cnt) (hr : t.roster = s.roster)
    (hs : t.sl = s.sl) : CountersOk t :=
  ⟨h.1.of_same hp hb hr hs, by rw [hw, hp]; exact h.2⟩

theorem counterInv_resetState {p : Params} (hp : p.wf) (valid : Bool) (cfg : BootConfig) (nonce0 : Wide) :
    CounterInv (resetState p valid cfg nonce0) := by
  obtain ⟨-, ⟨hslots, -⟩, -, -, -, -, -, ⟨hlive, -⟩, ⟨herr, -⟩, -, -⟩ := hp
  have hblank : ∀ e ∈ (resetState p valid cfg nonce0).roster.slots, e = Slot.blank :=
    fun e he => List.eq_of_mem_replicate he
  have hsl : ∀ c : SlaveCtl, c = bootSlave cfg nonce0 ∨ c = SlaveCtl.reset →
      c.absCnt = 0#16 ∧ c.hsCnt = 0#16 ∧ c.nopingCnt = 0#16 ∧ c.backoff = 0#16 := by
    rintro c (rfl | rfl) <;> exact ⟨rfl, rfl, rfl, rfl⟩
  obtain ⟨habs, hhs, hno, hback⟩ := hsl (resetState p valid cfg nonce0).sl (ite_eq_or_eq _ _ _)
  exact ⟨Nat.zero_le _, Nat.zero_le _, hlive, hslots, fun e he => by rw [hblank e he]; exact Nat.zero_le _,
    fun e he => by rw [hblank e he]; exact herr, by simp [habs], by simp [hhs], by simp [hno], by simp [hback]⟩

/-- READ leaves the busy counter alone, or at 0 with the frame released. -/
theorem countersOk_readBytes (n : Byte) {s : State} (h : CountersOk s) (hc : CountsOk s) :
    CountersOk (readBytes n s).1 := by
  have hw : (readBytes n s).1.rw.cnt = s.rw.cnt := by
    unfold readBytes
    dsimp only
    split
    · exact finish_induct (P := fun t => t.rw.cnt = s.rw.cnt) (fun _ h => h) (fun _ h _ => h) (fun _ h => h) rfl
    · rfl
  refine countersOk_of_same h (by simp) ?_ hw (by simp) (by simp)
  rcases readBytes_cases n hc with hidle | hheld | ⟨out, i, hmore, -⟩
  · simp [hidle.busyCnt]
  · rw [hheld]; exact h.1.2.busy
  · rw [hmore]; exact h.1.2.busy

/-- No part of PARSE lets the counter of the wait grow. -/
theorem parseFrame_cnt {s : State} (h : s.rw.cnt.toNat ≤ s.params.replyTimeout) :
    (parseFrame s).1.rw.cnt.toNat ≤ (parseFrame s).1.params.replyTimeout := by
  refine parseFrame_induct (P := fun t => t.rw.cnt.toNat ≤ t.params.replyTimeout) (fun _ h _ => h) (fun _ h => h)
    (fun _ h => h) (fun s h => ?_)
    (fun q s h hp => ?_) h
  · exact finish_induct (P := fun t => t.rw.cnt.toNat ≤ t.params.replyTimeout) (fun _ h => h) (fun _ h _ => h)
      (fun _ h => h) h
  · exact runCommand_induct (P := fun t => t.rw.cnt.toNat ≤ t.params.replyTimeout) (decodeCommand_format q)
      (fun _ _ h => h) (fun _ h => h) (fun _ h _ => h) (fun _ h => h) (fun _ _ _ _ => by simp)
      (fun _ h _ => handlerOf_cnt h) hp h

theorem appendByte_busyCnt (b : Byte) (s : State) : (appendByte b s).fe.busyCnt = s.fe.busyCnt := by
  unfold appendByte
  dsimp only
  (repeat' split) <;> rfl

theorem countersOk_kept : KeptByParts CountersOk where
  begin_ _ _ h := countersOk_of_same h rfl h.1.2.busy rfl rfl rfl
  answer _ _ h := countersOk_of_same h rfl h.1.2.busy rfl rfl rfl
  reset cfg nonce0 s h := (countersOk_iff (s := resetEvent cfg nonce0 s) h.1.1).mpr (by
    obtain ⟨a, b, c, d, e, f, g, i, j, k⟩ := counterInv_resetState h.1.1 (Config.configValid cfg) cfg nonce0
    exact ⟨a, b, c, d, e, f, g, i, j, k⟩)
  mark _ _ h _ _ := countersOk_of_same h rfl (Nat.zero_le _) rfl rfl rfl
  byte b s h _ _ _ := countersOk_of_same h (by simp) (appendByte_busyCnt b s ▸ h.1.2.busy) (by simp) (by simp) (by simp)
  tick _ _ _ _ _ h _ hdraw _ := countersInTick_tick h hdraw
  parse _ h _ _ := ⟨(countersInTick_parse (CountersOk.inTick h)).1, parseFrame_cnt h.2⟩
  read n _ h _ _ hi := countersOk_readBytes n h (countsOk_of_indices hi)
  send _ _ _ _ h _ := countersOk_sendFrame h
  push _ _ _ s h := countersOk_of_same h (by simp) (by simpa using h.1.2.busy) (by simp) (by simp) (by simp)
  replyRead _ h := countersOk_of_same h rfl h.1.2.busy rfl rfl rfl

/-- Settles O56: each part of a step keeps every counter within its bound. -/
theorem stepKeepsTheCounters : Obligations.StepKeepsTheCounters := by
  intro s t hw h hstep
  have ht := countersOk_kept.step ((countersOk_iff hw).mpr h) hstep
  exact (countersOk_iff ht.1.1).mp ht

/-! ### The byte arrays -/

/-- The latched identity length a legal index needs (R36). -/
theorem hsUidLen_of_indices {s : State} (h : IndicesOk s) : s.hs.uidLen.toNat ≤ uidMax := by
  obtain ⟨-, -, -, -, -, ⟨hlen, -⟩, -⟩ := h
  exact hlen

theorem memoryInv_of_same {s t : State} (h : MemoryInv s) (hb : t.fe.rxBuf = s.fe.rxBuf)
    (hq : t.queue.slots = s.queue.slots) (hr : t.roster.slots = s.roster.slots) (hh : t.hs.uid = s.hs.uid)
    (hs : t.sl.uid = s.sl.uid) : MemoryInv t :=
  ⟨hb ▸ h.rxBuf, hq ▸ h.queue, hr ▸ h.roster, hh ▸ h.hs, hs ▸ h.sl⟩

/-- The identity a configuration loads fills the array of twelve bytes, or leaves it empty. -/
theorem good_bootUid (cfg : BootConfig) : Memory.good uidMax (bootUid cfg) := by
  unfold bootUid
  split
  · exact good_writeFrom (good_nil uidMax) (by simp [uidMax])
  · exact good_nil uidMax

theorem memoryInv_resetState (p : Params) (valid : Bool) (cfg : BootConfig) (nonce0 : Wide) :
    MemoryInv (resetState p valid cfg nonce0) where
  rxBuf := good_nil 128
  queue e he := by rw [List.eq_of_mem_replicate he]; exact good_nil maxPayload
  roster e he := by rw [List.eq_of_mem_replicate he]; exact good_nil uidMax
  hs := good_nil uidMax
  sl := by
    dsimp only [resetState]
    split
    · exact good_bootUid cfg
    · exact good_nil uidMax

/-- ENQUEUE copies a payload that fits into the entry's data. -/
theorem memoryInv_enqueue (dst : Byte) (wait : Bool) (p : List Byte) {s : State} (h : MemoryInv s) :
    MemoryInv (enqueue dst wait p s).1 := by
  by_cases hp : p.length ≤ maxPayload
  · by_cases hq : qcount s = s.params.queueSlots - 1
    · rw [enqueue_full hp hq]; exact h
    · rw [enqueue_room hp hq]
      have hfill := mem_modify_of (k := s.queue.tail.toNat) (f := fillEntry dst wait p) h.queue
        fun e he => good_writeFrom he (by omega)
      exact ⟨h.rxBuf, hfill, h.roster, h.hs, h.sl⟩
  · rw [enqueue_long (by omega)]; exact h

/-- A byte goes to the index its count says, inside the buffer. -/
theorem appendByte_rxBuf (b : Byte) (s : State) :
    (appendByte b s).fe.rxBuf = s.fe.rxBuf.write s.fe.rxCnt.toNat b := by
  unfold appendByte
  dsimp only
  (repeat' split) <;> rfl

theorem memoryInv_kept : KeptByParts MemoryInv where
  begin_ _ _ h := memoryInv_of_same h rfl rfl rfl rfl rfl
  answer _ _ h := memoryInv_of_same h rfl rfl rfl rfl rfl
  reset cfg nonce0 s _ :=
    memoryInv_of_same (memoryInv_resetState s.params (Config.configValid cfg) cfg nonce0) rfl rfl rfl rfl rfl
  mark b _ h _ _ := ⟨good_write h.rxBuf (by decide) b, h.queue, h.roster, h.hs, h.sl⟩
  byte b s h _ ha hi := by
    obtain ⟨-, -, hcnt, -⟩ := hi
    have hbuf := good_write h.rxBuf (i := s.fe.rxCnt.toNat) (by have := hcnt ha; omega) b
    exact ⟨appendByte_rxBuf b s ▸ hbuf, by simpa using h.queue, by simpa using h.roster, by simpa using h.hs,
      by simpa using h.sl⟩
  tick _ _ _ _ _ h _ _ hi := (arraysOk_tick ⟨h, hsUidLen_of_indices hi⟩).1
  parse _ h _ hi := (arraysOk_parse ⟨h, hsUidLen_of_indices hi⟩).1
  read n s h _ _ _ := by
    have hbuf : (readBytes n s).1.fe.rxBuf = s.fe.rxBuf := by
      unfold readBytes
      dsimp only
      split <;> simp
    exact memoryInv_of_same h hbuf (by simp) (by simp) (by simp) (by simp)
  send _ _ _ _ h _ := memoryInv_of_same h (by simp) (by simp) (by simp) (by simp) (by simp)
  push dst wait p _ h := memoryInv_enqueue dst wait p h
  replyRead _ h := memoryInv_of_same h rfl rfl rfl rfl rfl

/-- Settles O57: each part of a step keeps the arrays; where one copies an identity, the step has checked its length. -/
theorem stepKeepsTheByteArrays : Obligations.StepKeepsTheByteArrays :=
  fun _ _ h hstep => memoryInv_kept.step h hstep

/-! ### After RESET -/

/-- The state after RESET of a core with legal parameters has every part of the invariant (R178). -/
theorem inv_resetState {p : Params} (hp : p.wf) (valid : Bool) (cfg : BootConfig) (nonce0 : Wide) :
    Inv (resetState p valid cfg nonce0) where
  params := hp
  engine := engineInv_resetState p valid cfg nonce0
  queue := queueInv_resetState hp valid cfg nonce0
  roster := rosterInv_resetState p valid cfg nonce0
  slave := slaveInv_resetState p valid cfg nonce0
  counters := counterInv_resetState hp valid cfg nonce0
  memory := memoryInv_resetState p valid cfg nonce0

/-- State.reset is a master's state after RESET; a master ignores the configuration and the draw. -/
theorem reset_eq_resetState (cfg : BootConfig) (nonce0 : Wide) :
    State.reset = resetState Config.resetParams true cfg nonce0 := rfl

/-- Settles O51: what RESET leaves has the invariant, and State.reset is such a state. -/
theorem invariantHoldsAfterReset : Obligations.InvariantHoldsAfterReset := by
  refine ⟨?_, fun p valid cfg nonce0 hp => inv_resetState hp valid cfg nonce0⟩
  rw [reset_eq_resetState ⟨false, 0#8, 0#32, false, Vector.replicate 12 0#8⟩ 0#32]
  exact inv_resetState (by decide) _ _ _

/-! ### No faults -/

/-- Each index is in its array by the part of the invariant that bounds it; the slot of a commit exists because the
wait for it belongs to a handshake under way. -/
theorem indicesOk_of_parts {s : State} (he : EngineInv s) (hq : QueueInv s) (hr : RosterInv s) (hs : SlaveInv s) :
    IndicesOk s := by
  have huid : s.sl.uidLen.toNat ≤ uidMax := by
    rcases hs.uidLen with e | e <;> rw [e] <;> decide
  have hactive (ha : s.fe.rxActive = true) : s.fe.rxCnt.toNat ≤ 127 := by
    obtain ⟨-, hcnt⟩ := he.counted ha
    by_cases htwo : 2 ≤ s.fe.rxCnt.toNat
    · obtain ⟨hlen, hlt⟩ := hcnt htwo
      unfold maxPayload at hlen
      omega
    · omega
  have hcommit (hw : s.rw.state ≠ .none) (hk : s.rw.kind = .hsPing) :
      1 ≤ s.hs.addr.toNat ∧ s.hs.addr.toNat ≤ s.params.rosterSlots := by
    have hwait := hr.noOther hw (by rw [hk]; rfl)
    have hbusy : s.hs.state ≠ .idle := fun hidle => by rw [hidle] at hwait; cases hwait
    obtain ⟨hlow, hhigh, -⟩ := hr.allocated hbusy
    exact ⟨hlow, hhigh⟩
  exact ⟨he.counts.2, he.buffered, hactive, ⟨hq.size, hq.head, hq.tail, hq.lens⟩, ⟨hr.size, hr.uidLens⟩,
    ⟨hr.hsUidLen, huid⟩, hcommit⟩

theorem indicesOk_of_inv {s : State} (h : Inv s) : IndicesOk s :=
  indicesOk_of_parts h.engine h.queue h.roster h.slave

end Sys2Proof.Proofs.Invariants
end

section
/-! SUPPORT. What no step but RESET moves: the role and the parameters (00_scope.md R3, 60_exceptions.md R175), the halt
(10_state.md R45), the own address outside FIND and SLAVE_RESET (R29); and that a state with the invariant does not
fault. -/

namespace Sys2Proof.Proofs.StepFrame

open Sys2Proof.Machine
open Sys2Proof.Proofs.Exceptions Sys2Proof.Proofs.Invariants

/-! ### No faults -/

/-- The outcome is no fault. -/
abbrev NoFault (o : Host.Outcome State Fault Refusal) : Prop := ∀ f, o ≠ .fault f

theorem noFault_next (t : State) : NoFault (.next t) := nofun

theorem noFault_refused (r : Refusal) : NoFault (.refused r) := nofun

theorem noFault_guarded {s : State} (hi : IndicesOk s) (t : State) : NoFault (guarded s t) := by
  rw [guarded_of_ok t hi]
  exact noFault_next t

theorem noFault_ite {c : Prop} [Decidable c] {a b : Host.Outcome State Fault Refusal} (ha : NoFault a)
    (hb : NoFault b) : NoFault (if c then a else b) := by
  split
  · exact ha
  · exact hb

/-- Every operation refuses, succeeds, or guards its effect by the indices. -/
theorem exec_noFault {s : State} (hi : IndicesOk s) (i : Instr) : NoFault (exec i s) := by
  have next := noFault_next
  have guarded := noFault_guarded hi
  cases i with
  | parse => exact noFault_ite (next _) (guarded _)
  | read n => exact noFault_ite (next _) (noFault_ite (next _) (guarded _))
  | send dst data => exact noFault_ite (next _) (noFault_ite (next _) (noFault_ite (next _) (guarded _)))
  | cmdSend dst cmd args => exact noFault_ite (next _) (noFault_ite (next _) (noFault_ite (next _) (guarded _)))
  | rxStatus => exact noFault_ite (next _) (next _)
  | push dst wait data => exact noFault_ite (next _) (noFault_ite (next _) (guarded _))
  | pushUid uid wait data =>
    exact noFault_ite (next _) (noFault_ite (next _) (noFault_ite (next _) (noFault_ite (guarded _) (guarded _))))
  | queueStatus => exact noFault_ite (next _) (next _)
  | rosterRead slot => exact noFault_ite (next _) (noFault_ite (next _) (noFault_ite (next _) (guarded _)))
  | resolveUid uid => exact noFault_ite (next _) (noFault_ite (next _) (noFault_ite (next _) (guarded _)))
  | replyStatus => exact noFault_ite (next _) (noFault_ite (next _) (noFault_ite (next _) (next _)))
  | _ => first | exact next _ | exact guarded _

theorem runEvent_noFault {s : State} (hi : IndicesOk s) (e : Event) : NoFault (runEvent e s) := by
  cases e with
  | reset cfg nonce0 => exact noFault_next _
  | rxByte b mark =>
    exact noFault_ite (noFault_next _) (noFault_ite (noFault_next _)
      (noFault_ite (noFault_next _) (noFault_guarded hi _)))
  | tick presence busy bo nonce =>
    exact noFault_ite (noFault_refused _) (noFault_ite (noFault_next _) (noFault_guarded hi _))
  | hostOp op operands =>
    dsimp only [runEvent]
    split
    · exact exec_noFault hi _
    · exact noFault_refused _

/-- Settles O58: the invariant bounds every index, and the step guards its effects by nothing else. -/
theorem invariantExcludesFaults : Obligations.InvariantExcludesFaults := by
  intro s h
  have hi := indicesOk_of_inv h
  refine ⟨hi, ?_⟩
  cases hs : s.inputs with
  | nil => simp only [step, hs]; exact noFault_next s
  | cons e rest =>
    rw [step_event hs]
    exact runEvent_noFault (s := beginEvent rest s) hi e

/-! ### What an event does, by its kind -/

theorem rxByteEvent_keeps {α : Type} (f : State → α) {b : Byte} {mark : Bool} {s t : State}
    (h : rxByteEvent b mark s = .next t) (hstart : f (startFrame b s) = f s) (happend : f (appendByte b s) = f s) :
    f t = f s := by
  unfold rxByteEvent at h
  split at h
  · cases h; rfl
  · split at h
    · cases h; exact hstart
    · split at h
      · cases h; rfl
      · obtain ⟨-, rfl⟩ := guarded_next h
        exact happend

theorem tickEvent_next {presence busy : Bool} {bo : Half} {nonce : Wide} {s t : State}
    (h : tickEvent presence busy bo nonce s = .next t) : t = s ∨ t = tick presence busy bo nonce s := by
  unfold tickEvent at h
  split at h
  · cases h
  · split at h
    · cases h; exact .inl rfl
    · exact .inr (guarded_next h).2

theorem runEvent_hostOp_next {op : Byte} {operands : List Byte} {s t : State}
    (h : runEvent (.hostOp op operands) s = .next t) : ∃ r u, t = answer r u ∧ HostEffect s u := by
  simp only [runEvent] at h
  split at h
  · next hd => exact exec_hostOp (decodeHostOp_format hd) h
  · cases h

/-! ### The role, the parameters and the halt -/

theorem params_kept (p : Params) : KeptByParts (fun s => s.params = p) where
  begin_ _ _ h := h
  answer _ _ h := h
  reset _ _ _ h := h
  mark _ _ h _ _ := h
  byte _ _ h _ _ _ := by simpa using h
  tick _ _ _ _ _ h _ _ _ := by simpa using h
  parse _ h _ _ := by simpa using h
  read _ _ h _ _ _ := by simpa using h
  send _ _ _ _ h _ := by simpa using h
  push _ _ _ _ h := by simpa using h
  replyRead _ h := h

theorem step_params {s t : State} (h : step s = .next t) : t.params = s.params := (params_kept s.params).step rfl h

theorem hostEffect_haltFlag {s u : State} (h : HostEffect s u) : u.halted = s.halted := by
  cases h <;> simp

/-- No event but RESET moves the halt. -/
theorem runEvent_haltFlag {e : Event} {s t : State} (he : ∀ cfg nonce0, e ≠ .reset cfg nonce0)
    (h : runEvent e s = .next t) : t.halted = s.halted := by
  cases e with
  | reset cfg nonce0 => exact absurd rfl (he cfg nonce0)
  | rxByte b mark => exact rxByteEvent_keeps (·.halted) h rfl (by simp)
  | tick presence busy bo nonce =>
    rcases tickEvent_next h with rfl | rfl
    · rfl
    · simp
  | hostOp op operands =>
    obtain ⟨r, u, rfl, hu⟩ := runEvent_hostOp_next h
    exact hostEffect_haltFlag (u := u) hu

/-- An event is RESET or it is none. -/
theorem reset_or_not (e : Event) : (∃ cfg nonce0, e = .reset cfg nonce0) ∨ ∀ cfg nonce0, e ≠ .reset cfg nonce0 := by
  cases e with
  | reset cfg nonce0 => exact .inl ⟨cfg, nonce0, rfl⟩
  | rxByte | tick | hostOp => exact .inr nofun

/-- A step stays where it is without an event, runs RESET, or runs an event that is no RESET. -/
theorem step_cases {s t : State} (h : step s = .next t) :
    t = s ∨ (∃ cfg nonce0 rest, s.inputs = .reset cfg nonce0 :: rest) ∨
    ∃ e rest, (∀ cfg nonce0, e ≠ .reset cfg nonce0) ∧ runEvent e (beginEvent rest s) = .next t := by
  cases hs : s.inputs with
  | nil => simp only [step, hs] at h; cases h; exact .inl rfl
  | cons e rest =>
    rw [step_event hs] at h
    rcases reset_or_not e with ⟨cfg, nonce0, rfl⟩ | he
    · exact .inr (.inl ⟨cfg, nonce0, rest, rfl⟩)
    · exact .inr (.inr ⟨e, rest, he, h⟩)

/-- Settles O59: every part of a step keeps the parameters, and every event but RESET the halt. -/
theorem roleAndHaltAreFixed : Obligations.RoleAndHaltAreFixed := by
  refine fun s t h => ⟨step_params h, fun hne => ?_⟩
  rcases step_cases h with rfl | hreset | ⟨e, rest, he, hrun⟩
  · exact absurd rfl hne
  · exact hreset
  · exact absurd (runEvent_haltFlag he hrun) hne

/-! ### The own address -/

/-- What the own address and the join state depend on. -/
def node (s : State) : Params × Nibble × SlaveCtl := (s.params, s.ownAddr, s.sl)

theorem node_eq_iff {s t : State} : node t = node s ↔ t.params = s.params ∧ t.ownAddr = s.ownAddr ∧ t.sl = s.sl := by
  simp only [node, Prod.mk.injEq]

theorem own_congr {s t : State} (hp : t.params = s.params) (ho : t.ownAddr = s.ownAddr) : own t = own s := by
  unfold own isMaster
  rw [hp, ho]

theorem own_eq_of_node {s t : State} (h : node t = node s) : own t = own s := by
  obtain ⟨hp, ho, -⟩ := node_eq_iff.mp h
  exact own_congr hp ho

theorem sl_eq_of_node {s t : State} (h : node t = node s) : t.sl = s.sl := (node_eq_iff.mp h).2.2

/-- A FIND from the state `s` has been accepted (R146). -/
def Adopted (s t : State) : Prop :=
  isMaster s = false ∧ s.sl.state = .signalSent ∧ t.sl.state = .addrSet ∧ 1 ≤ (own t).toNat ∧ (own t).toNat ≤ 14

/-- A slave has been reset (R139). -/
def Vacated (t : State) : Prop := t.sl.state = .disconnected ∧ own t = 0#4

theorem Adopted.of_node {s s' t t' : State} (h : Adopted s t) (hs : node s = node s') (ht : node t' = node t) :
    Adopted s' t' := by
  obtain ⟨hm, hst, hst', hrange⟩ := h
  have hm' : isMaster s' = false := by
    rw [← hm]
    simp only [isMaster, (node_eq_iff.mp hs).1]
  exact ⟨hm', sl_eq_of_node hs ▸ hst, sl_eq_of_node ht ▸ hst', own_eq_of_node ht ▸ hrange⟩

/-- The only command that moves the address is FIND. -/
theorem handlerOf_address (i : Instr) (s : State) :
    own (handlerOf i s) = own s ∨ Adopted s (handlerOf i s) := by
  unfold handlerOf
  split
  · exact .inl (own_congr (by simp) (by simp))
  · next args =>
    rcases handleFind_cases args s with e | ⟨a, hm, hst, hlow, hhigh, e⟩ <;> rw [e]
    · exact .inl rfl
    · right
      have hm' : isMaster (sendFrame (destOf s.fe.fSrc) true [codeAck] s).1 = false := by
        rw [← hm]
        simp [isMaster]
      have hadopt : own (modifySlave (fun c => { c with state := .addrSet, hsCnt := 0#16 })
          (setOwn (a.setWidth 4) (sendFrame (destOf s.fe.fSrc) true [codeAck] s).1)) = a.setWidth 4 := by
        rw [own_modifySlave, setOwn, hm', own_eq_of_slave (by exact hm')]
        rfl
      have hval : (a.setWidth 4).toNat = a.toNat := by simp; omega
      exact ⟨hm, hst, rfl, by rw [hadopt, hval]; exact ⟨hlow, hhigh⟩⟩
  · exact .inl (own_congr (by simp) (by simp))
  · exact .inl (own_congr (by simp) (by simp))
  · exact .inl rfl

/-- A CMD frame touches the node through its handler only. -/
theorem commandFrame_node (p : List Byte) (handle : State → State) (s : State) :
    node (commandFrame p handle s) = node s ∨
    ∃ t, node t = node s ∧ node (commandFrame p handle s) = node (handle t) := by
  have hend : ∀ t, node (endCommand t) = node t := fun t => by simp [node]
  have hfin : node (finish (foldBytes p s.fe.fLen s)).1 = node s := by simp [node]
  unfold commandFrame
  split <;> rename_i he <;> rw [he] at hfin
  · left
    rw [hend, ← hfin]
    simp [node]
  · exact .inr ⟨_, hfin, hend _⟩
  · exact .inl ((hend _).trans hfin)

/-- PARSE moves the address by an accepted FIND only. -/
theorem parseFrame_address (s : State) : own (parseFrame s).1 = own s ∨ Adopted s (parseFrame s).1 := by
  by_cases hr : s.fe.fstate = .ready
  · by_cases hf : foreign (latchHeader s)
    · rw [parseFrame_foreign hr hf]; exact .inl rfl
    · cases hm : metaMode (s.fe.rxBuf.read 1)
      · rw [parseFrame_data hr hf hm]
        dsimp only
        split
        · exact .inl (own_eq_of_node (by simp [node]))
        · exact .inl rfl
      · rw [parseFrame_command hr hf hm, runCommand_eq (decodeCommand_format _)]
        rcases commandFrame_node (encode _) (handlerOf _) (noteSender (latchHeader s)) with h | ⟨t, ht, h⟩
        · exact .inl (own_eq_of_node h)
        · rcases handlerOf_address _ t with ho | ha
          · exact .inl ((own_eq_of_node h).trans (ho.trans (own_eq_of_node ht)))
          · exact .inr (ha.of_node ht h)
  · rw [parseFrame_notReady hr]; exact .inl rfl

theorem engineStep_address (s : State) : own (engineStep s) = own s ∨ Adopted s (engineStep s) := by
  have hnode : ∀ t, node (rwTick (busyTick t)) = node t := fun t => by simp [node]
  unfold engineStep
  split
  · rcases parseFrame_address s with ho | ha
    · exact .inl ((own_eq_of_node (hnode _)).trans ho)
    · exact .inr (ha.of_node rfl (hnode _))
  · exact .inl (own_eq_of_node (hnode s))

/-- SLAVE_RESET vacates the address. -/
theorem vacated_slaveReset (n : Wide) {s : State} (hm : isMaster s = false) : Vacated (slaveReset n s) := by
  have hrole := (isMaster_eq_false_iff s).mp hm
  rw [slaveReset_eq hrole]
  exact ⟨rfl, own_of_slave (s := slaveAfterReset n s) hrole⟩

/-- The timers vacate the address, or keep it and the join state. -/
theorem slaveTimers_address (n : Wide) {s : State} (hm : isMaster s = false) : Vacated (slaveTimers n s).1 ∨
    own (slaveTimers n s).1 = own s ∧ (slaveTimers n s).1.sl.state = s.sl.state := by
  unfold slaveTimers
  split <;> dsimp only
  iterate 4
    split
    · exact .inl (vacated_slaveReset n hm)
    · exact .inr ⟨rfl, rfl⟩
  all_goals exact .inr ⟨rfl, rfl⟩

/-- What a slave sends leaves its registers alone unless it is plugged in. -/
theorem slaveInitiate_state {s : State} (h : s.sl.state ≠ .pluggedIn) : (slaveInitiate s).sl.state = s.sl.state := by
  unfold slaveInitiate
  split
  · split <;> simp
  · rfl

theorem own_slaveInitiate (s : State) : own (slaveInitiate s) = own s := own_congr (by simp) (by simp)

/-- A slave's step: reset, or the address as it was with a join state other than PLUGGED_IN kept. -/
theorem slaveStep_address (n : Wide) {s : State} (hm : isMaster s = false) : Vacated (slaveStep n s) ∨
    own (slaveStep n s) = own s ∧ (s.sl.state ≠ .pluggedIn → (slaveStep n s).sl.state = s.sl.state) := by
  have htimers := slaveTimers_address n hm
  unfold slaveStep
  split <;> rename_i t he <;> rw [he] at htimers <;> rcases htimers with hv | ⟨ho, hst⟩
  · exact .inl hv
  · exact .inr ⟨ho, fun _ => hst⟩
  · obtain ⟨hdis, hzero⟩ := hv
    exact .inl ⟨(slaveInitiate_state (by rw [hdis]; simp)).trans hdis, (own_slaveInitiate t).trans hzero⟩
  · exact .inr ⟨(own_slaveInitiate t).trans ho, fun hne => (slaveInitiate_state (hst.symm ▸ hne)).trans hst⟩

/-- What a step may do with the own address. -/
def AddressMoves (s t : State) : Prop := own t = own s ∨ isMaster s = false ∧ (Vacated t ∨ Adopted s t)

/-- A master's address is the constant 15 whatever it stores (R29). -/
theorem addressMoves_of_master {s t : State} (hm : isMaster s = true) (hp : t.params = s.params) :
    AddressMoves s t := by
  have hrole := (isMaster_iff s).mp hm
  exact .inl ((own_of_master (hp ▸ hrole)).trans (own_of_master hrole).symm)

/-- A slave's tick runs PARSE before its step, so an address it adopts is still adopted at its end. -/
theorem tick_address (presence busy : Bool) (bo : Half) (n : Wide) (s : State) :
    AddressMoves s (tick presence busy bo n s) := by
  cases hm : isMaster s with
  | true => exact addressMoves_of_master hm (by simp)
  | false =>
    by_cases hgo : presence = true ∨ s.sl.absCnt.toNat + 1 ≠ s.params.presenceDebounce
    · rw [tick_goesOn hm busy bo n hgo]
      have hstate := (unseen_supervisedRegs s.params presence busy bo).state_iff s.sl
        (st := .signalSent) (by simp) (by simp)
      generalize hu : beside (supervisedRegs s.params presence busy bo) [] s.inputs s.result s = u
      have hown : own u = own s := by rw [← hu, own_beside]
      have hsl : u.sl.state = .signalSent ↔ s.sl.state = .signalSent := by rw [← hu]; exact hstate
      have hmu : isMaster (outcomeStep (engineStep u)) = false := by
        rw [← hm, ← hu]
        simp [isMaster]
      have hout : node (outcomeStep (engineStep u)) = node (engineStep u) := by simp [node]
      rcases slaveStep_address n hmu with hv | ⟨ho, hst⟩
      · exact .inr ⟨hm, .inl hv⟩
      · have hoe := ho.trans (own_eq_of_node hout)
        rcases engineStep_address u with he | ⟨-, hfrom, hto, hrange⟩
        · exact .inl (hoe.trans (he.trans hown))
        · have hto' : (outcomeStep (engineStep u)).sl.state = .addrSet := sl_eq_of_node hout ▸ hto
          exact .inr ⟨hm, .inr ⟨hm, hsl.mp hfrom, (hst (by rw [hto']; simp)).trans hto', hoe ▸ hrange⟩⟩
    · simp only [not_or, Bool.not_eq_true, not_not] at hgo
      obtain ⟨rfl, hlast⟩ := hgo
      have hrole := (isMaster_eq_false_iff s).mp hm
      rw [SlaveController.tick_ended hm (SlaveController.presenceStep_lost hrole hlast)]
      exact .inr ⟨hm, .inl ⟨rfl, own_of_slave (s := slaveAfterReset n _) hrole⟩⟩

theorem hostEffect_address {s u : State} (h : HostEffect s u) : AddressMoves s u := by
  cases h with
  | parse =>
    rcases parseFrame_address s with ho | ha
    · exact .inl ho
    · obtain ⟨hm, -⟩ := id ha
      exact .inr ⟨hm, .inr ha⟩
  | none | read | send | push | replyRead => exact .inl (own_congr (by simp) (by simp))

theorem runEvent_address {e : Event} {s t : State} (he : ∀ cfg nonce0, e ≠ .reset cfg nonce0)
    (h : runEvent e s = .next t) : AddressMoves s t := by
  cases e with
  | reset cfg nonce0 => exact absurd rfl (he cfg nonce0)
  | rxByte b mark => exact .inl (own_eq_of_node (rxByteEvent_keeps node h rfl (by simp [node])))
  | tick presence busy bo nonce =>
    rcases tickEvent_next h with rfl | rfl
    · exact .inl rfl
    · exact tick_address presence busy bo nonce s
  | hostOp op operands =>
    obtain ⟨r, u, rfl, hu⟩ := runEvent_hostOp_next h
    exact hostEffect_address (u := u) hu

/-- Settles O60: an event that is no RESET moves the address by an accepted FIND or by SLAVE_RESET. -/
theorem ownAddressChangesOnlyByFindOrReset : Obligations.OwnAddressChangesOnlyByFindOrReset := by
  refine ⟨fun s hrole => own_of_master hrole, fun s t _ h hne => ?_⟩
  rcases step_cases h with rfl | hreset | ⟨e, rest, he, hrun⟩
  · exact absurd rfl hne
  · exact .inl hreset
  · rcases runEvent_address he hrun with ho | ⟨hm, hmove⟩
    · exact absurd ho hne
    · refine .inr ⟨(isMaster_eq_false_iff s).mp hm, ?_⟩
      rcases hmove with hv | ⟨-, hadopted⟩
      · exact .inl hv
      · exact .inr hadopted

end Sys2Proof.Proofs.StepFrame
end

section
/-! SUPPORT. The family 30_encoding.md: the encoder and the decoder agree, for the host operations (30_encoding.md R71,
R74) and for the wire commands (R68, R69); and the step that runs a decoded operation (47_tick_schedule.md R161). -/

namespace Sys2Proof.Proofs.Encodings

open Sys2Proof.Machine
open Sys2Proof.Proofs.ReservedCodes

/-! ### The rows of the reserved operation codes

A reserved row reads its code byte only, so what it decodes to is a fact about single bytes. -/

/-- Outside the map, the bytes after the code are left over whatever they are. -/
theorem decodeOperation_leavesRest {op : Byte} (h : op ∉ opCodes) (rest : List Byte) :
    decodeOperation op rest = (decodeOperation op []).map fun x => (x.1, rest) := by
  simp only [opCodes, List.mem_cons, List.not_mem_nil, or_false, not_or] at h
  simp only [decodeOperation, h, if_false, apply_ite (Except.map _)]
  rfl

/-- The code byte stands in the reserved row of `i`. -/
def InRow (op : Byte) (i : Instr) : Prop := op ∉ opCodes ∧ (decodeOperation op []).toOption = some (i, [])

theorem InRow.decode {op : Byte} {i : Instr} (h : InRow op i) (rest : List Byte) :
    decodeHostOp (op :: rest) = .ok (i, rest) := by
  obtain ⟨hop, hd⟩ := h
  have hok : decodeOperation op [] = .ok (i, []) := by
    cases hx : decodeOperation op [] with
    | error e => rw [hx] at hd; cases hd
    | ok v => rw [hx] at hd; cases hd; rfl
  rw [decodeHostOp, decodeOperation_leavesRest hop, hok]
  rfl

theorem inRow_of_reserved {i : Instr} (h : ReservedOp i) : ∃ op, encode i = [op] ∧ InRow op i := by
  cases h with
  | op15 | op23 => exact ⟨_, rfl, by unfold InRow; decide⟩
  | op06To07 low | op08To0F low | op16To17 low | op18To1F low | op24To27 low | op28To2F low | op32To33 low
  | op34To37 low | op38To3F low | op42To43 low | op44To47 low | op48To4F low | op50To5F low | op60To7F low
  | op80ToFF low => exact ⟨_, rfl, by unfold InRow; revert low; decide⟩

theorem decodeHostOp_reserved {i : Instr} (h : ReservedOp i) (rest : List Byte) :
    decodeHostOp (encode i ++ rest) = .ok (i, rest) := by
  obtain ⟨op, he, hrow⟩ := inRow_of_reserved h
  rw [he]
  exact hrow.decode rest

/-! ### The operations with operands

Each reader takes back what the encoder wrote (`takeHalf_bytesOfHalf` and its like); an array that has an encoding is
one the 8-bit count can precede. -/

theorem length_of_countable {bs : List Byte} (h : countable bs = true) : bs.length ≤ 255 := of_decide_eq_true h

theorem except_ok_bind {α β : Type} (v : α) (f : α → Except DecodeReject β) : (Except.ok v >>= f) = f v := rfl

theorem except_map_ok {α β : Type} (f : α → β) (v : α) : (Except.ok v : Except DecodeReject α).map f = .ok (f v) := rfl

section
variable (rest : List Byte)

theorem decodeHostOp_crcUpdate (crc : Half) (b : Byte) :
    decodeHostOp (encode (.crcUpdate crc b) ++ rest) = .ok (.crcUpdate crc b, rest) := by
  change decodeOperation 0x01#8 (bytesOfHalf crc ++ b :: rest) = _
  simp [decodeOperation, except_ok_bind]

theorem decodeHostOp_hton16 (x : Half) : decodeHostOp (encode (.hton16 x) ++ rest) = .ok (.hton16 x, rest) := by
  change decodeOperation 0x02#8 (bytesOfHalf x ++ rest) = _
  simp [decodeOperation, except_map_ok]

theorem decodeHostOp_hton32 (x : Wide) : decodeHostOp (encode (.hton32 x) ++ rest) = .ok (.hton32 x, rest) := by
  change decodeOperation 0x03#8 (bytesOfWide x ++ rest) = _
  simp [decodeOperation, except_map_ok]

theorem decodeHostOp_ntoh16 (x : Half) : decodeHostOp (encode (.ntoh16 x) ++ rest) = .ok (.ntoh16 x, rest) := by
  change decodeOperation 0x04#8 (bytesOfHalf x ++ rest) = _
  simp [decodeOperation, except_map_ok]

theorem decodeHostOp_ntoh32 (x : Wide) : decodeHostOp (encode (.ntoh32 x) ++ rest) = .ok (.ntoh32 x, rest) := by
  change decodeOperation 0x05#8 (bytesOfWide x ++ rest) = _
  simp [decodeOperation, except_map_ok]

theorem decodeHostOp_send (dst : Byte) {data : List Byte} (h : countable data = true) :
    decodeHostOp (encode (.send dst data) ++ rest) = .ok (.send dst data, rest) := by
  change decodeOperation 0x12#8 (dst :: (counted data ++ rest)) = _
  simp [decodeOperation, except_ok_bind, takeCounted_counted, length_of_countable h]

theorem decodeHostOp_cmdSend (dst cmd : Byte) {args : List Byte} (h : countable args = true) :
    decodeHostOp (encode (.cmdSend dst cmd args) ++ rest) = .ok (.cmdSend dst cmd args, rest) := by
  change decodeOperation 0x13#8 (dst :: cmd :: (counted args ++ rest)) = _
  simp [decodeOperation, except_ok_bind, takeCounted_counted, length_of_countable h]

theorem decodeHostOp_push (dst : Byte) (wait : Bool) {data : List Byte} (h : countable data = true) :
    decodeHostOp (encode (.push dst wait data) ++ rest) = .ok (.push dst wait data, rest) := by
  change decodeOperation 0x20#8 (dst :: byteOfBit wait :: (counted data ++ rest)) = _
  simp [decodeOperation, except_ok_bind, takeCounted_counted, length_of_countable h]

theorem decodeHostOp_pushUid {uid : List Byte} (wait : Bool) {data : List Byte} (hu : countable uid = true)
    (h : countable data = true) :
    decodeHostOp (encode (.pushUid uid wait data) ++ rest) = .ok (.pushUid uid wait data, rest) := by
  have hbytes : encode (.pushUid uid wait data) ++ rest =
      0x21#8 :: (counted uid ++ byteOfBit wait :: (counted data ++ rest)) := by simp [encode]
  rw [hbytes]
  simp [decodeHostOp, decodeOperation, except_ok_bind, takeCounted_counted, length_of_countable hu,
    length_of_countable h]

theorem decodeHostOp_resolveUid {uid : List Byte} (h : countable uid = true) :
    decodeHostOp (encode (.resolveUid uid) ++ rest) = .ok (.resolveUid uid, rest) := by
  change decodeOperation 0x31#8 (counted uid ++ rest) = _
  simp [decodeOperation, except_map_ok, takeCounted_counted, length_of_countable h]

end

/-- Settles O5, by the rows of the operation map: the reserved ones are single bytes, the others read their operands
back. -/
theorem hostOperationDecodesFromItsEncoding : Obligations.HostOperationDecodesFromItsEncoding := by
  intro i rest hw hf
  change decodeHostOp (encode i ++ rest) = _
  cases i with
  | signal | find | getUid | ping | alert | ack | nack | reservedCmd05 | reservedCmd07 | reservedCmd08To0B
  | reservedCmd0CTo0D | reservedCmd0E | reservedCmd10To1F | reservedCmd20To3F | reservedCmd40To7F
  | reservedCmd80ToFF | reservedCmdEmpty => cases hf
  | nop | parse | rxStatus | queueStatus | nodeStatus | replyStatus | read | rosterRead => rfl
  | crcUpdate crc b => exact decodeHostOp_crcUpdate rest crc b
  | hton16 x => exact decodeHostOp_hton16 rest x
  | hton32 x => exact decodeHostOp_hton32 rest x
  | ntoh16 x => exact decodeHostOp_ntoh16 rest x
  | ntoh32 x => exact decodeHostOp_ntoh32 rest x
  | send dst data => exact decodeHostOp_send rest dst hw
  | cmdSend dst cmd args => exact decodeHostOp_cmdSend rest dst cmd hw
  | push dst wait data => exact decodeHostOp_push rest dst wait hw
  | pushUid uid wait data =>
    obtain ⟨hu, hd⟩ := Bool.and_eq_true_iff.mp hw
    exact decodeHostOp_pushUid rest wait hu hd
  | resolveUid uid => exact decodeHostOp_resolveUid rest hw
  | reservedOp06To07 low => exact decodeHostOp_reserved (.op06To07 low) rest
  | reservedOp08To0F low => exact decodeHostOp_reserved (.op08To0F low) rest
  | reservedOp15 => exact decodeHostOp_reserved .op15 rest
  | reservedOp16To17 low => exact decodeHostOp_reserved (.op16To17 low) rest
  | reservedOp18To1F low => exact decodeHostOp_reserved (.op18To1F low) rest
  | reservedOp23 => exact decodeHostOp_reserved .op23 rest
  | reservedOp24To27 low => exact decodeHostOp_reserved (.op24To27 low) rest
  | reservedOp28To2F low => exact decodeHostOp_reserved (.op28To2F low) rest
  | reservedOp32To33 low => exact decodeHostOp_reserved (.op32To33 low) rest
  | reservedOp34To37 low => exact decodeHostOp_reserved (.op34To37 low) rest
  | reservedOp38To3F low => exact decodeHostOp_reserved (.op38To3F low) rest
  | reservedOp42To43 low => exact decodeHostOp_reserved (.op42To43 low) rest
  | reservedOp44To47 low => exact decodeHostOp_reserved (.op44To47 low) rest
  | reservedOp48To4F low => exact decodeHostOp_reserved (.op48To4F low) rest
  | reservedOp50To5F low => exact decodeHostOp_reserved (.op50To5F low) rest
  | reservedOp60To7F low => exact decodeHostOp_reserved (.op60To7F low) rest
  | reservedOp80ToFF low => exact decodeHostOp_reserved (.op80ToFF low) rest

/-! ### The rows of the command codes -/

/-- The command of the same row with other arguments. -/
def withArgs (args : List Byte) : Instr → Instr
  | .signal _ => .signal args
  | .find _ => .find args
  | .getUid _ => .getUid args
  | .ping _ => .ping args
  | .alert _ => .alert args
  | .ack _ => .ack args
  | .nack _ => .nack args
  | .reservedCmd05 _ => .reservedCmd05 args
  | .reservedCmd07 _ => .reservedCmd07 args
  | .reservedCmd08To0B low _ => .reservedCmd08To0B low args
  | .reservedCmd0CTo0D low _ => .reservedCmd0CTo0D low args
  | .reservedCmd0E _ => .reservedCmd0E args
  | .reservedCmd10To1F low _ => .reservedCmd10To1F low args
  | .reservedCmd20To3F low _ => .reservedCmd20To3F low args
  | .reservedCmd40To7F low _ => .reservedCmd40To7F low args
  | .reservedCmd80ToFF low _ => .reservedCmd80ToFF low args
  | i => i

/-- The code byte alone says the row; the bytes after it are the arguments. -/
theorem decodeCommand_cons (code : Byte) (args : List Byte) :
    decodeCommand (code :: args) = withArgs args (decodeCommand [code]) := by
  simp only [decodeCommand, apply_ite (withArgs args)]
  rfl

theorem encode_decodeCommand_code : ∀ code : Byte, encode (decodeCommand [code]) = [code] := by decide

theorem decodeCommand_rangeCodes :
    (∀ low : BitVec 2, decodeCommand [codeOf 0x08#8 low] = .reservedCmd08To0B low []) ∧
    (∀ low : BitVec 1, decodeCommand [codeOf 0x0C#8 low] = .reservedCmd0CTo0D low []) ∧
    (∀ low : BitVec 4, decodeCommand [codeOf 0x10#8 low] = .reservedCmd10To1F low []) ∧
    (∀ low : BitVec 5, decodeCommand [codeOf 0x20#8 low] = .reservedCmd20To3F low []) ∧
    (∀ low : BitVec 6, decodeCommand [codeOf 0x40#8 low] = .reservedCmd40To7F low []) ∧
    (∀ low : BitVec 7, decodeCommand [codeOf 0x80#8 low] = .reservedCmd80ToFF low []) := by decide

/-- A command of one byte takes any arguments behind its code. -/
theorem encode_withArgs {i : Instr} {code : Byte} (h : encode i = [code]) (hf : i.format = .cmd) (args : List Byte) :
    encode (withArgs args i) = code :: args := by
  cases i <;> first
    | cases hf; done
    | exact congrArg (· :: args) (List.cons.inj h).1
    | cases h

/-- A command of a row decodes from its payload. -/
theorem decodeCommand_encode {i : Instr} (hf : i.format = .cmd) : decodeCommand (encode i) = i := by
  obtain ⟨h08, h0C, h10, h20, h40, h80⟩ := decodeCommand_rangeCodes
  cases i with
  | reservedCmd08To0B low args => rw [encode, decodeCommand_cons, h08]; rfl
  | reservedCmd0CTo0D low args => rw [encode, decodeCommand_cons, h0C]; rfl
  | reservedCmd10To1F low args => rw [encode, decodeCommand_cons, h10]; rfl
  | reservedCmd20To3F low args => rw [encode, decodeCommand_cons, h20]; rfl
  | reservedCmd40To7F low args => rw [encode, decodeCommand_cons, h40]; rfl
  | reservedCmd80ToFF low args => rw [encode, decodeCommand_cons, h80]; rfl
  | _ => first | rfl | cases hf

/-- Every payload is the encoding of the command it decodes to. -/
theorem encode_decodeCommand (p : List Byte) : encode (decodeCommand p) = p := by
  cases p with
  | nil => rfl
  | cons code args =>
    rw [decodeCommand_cons]
    exact encode_withArgs (encode_decodeCommand_code code) (decodeCommand_format [code]) args

/-- Settles O6: the code byte chooses the row, by the 256 codes, and the arguments are carried along. -/
theorem commandsAndPayloadsCorrespond : Obligations.CommandsAndPayloadsCorrespond :=
  ⟨fun _ hf => decodeCommand_encode hf, fun p => ⟨encode_decodeCommand p, decodeCommand_format p⟩⟩

/-! ### Words and the step -/

/-- Settles O7, by running the decoders. -/
theorem sampleWordsDecode : Obligations.SampleWordsDecode := by
  unfold Obligations.SampleWordsDecode
  and_intros <;> rfl

/-- Settles O9: the step runs what the event decodes to, and without an event it stays. -/
theorem stepRunsTheDecodedOperation : Obligations.StepRunsTheDecodedOperation :=
  ⟨fun _ _ _ _ _ _ hs hd => step_hostOp hs hd, fun s hs => by simp only [step, hs]⟩

end Sys2Proof.Proofs.Encodings
end

section
/-! SUPPORT. The family 40_codec.md: what a CRC16 detects (40_codec.md R79, R80). -/

namespace Sys2Proof.Proofs.CrcDetection

open Sys2Proof.Machine

/-- Folding a high byte into its own sum leaves the low byte, shifted up. -/
theorem crcUpd_highByte (c : Half) : crcUpd c (c.extractLsb' 8 8) = (c.extractLsb' 0 8).setWidth 16 <<< 8 := by
  have hlow : c ^^^ ((c.extractLsb' 8 8).setWidth 16 <<< 8) = (c.extractLsb' 0 8).setWidth 16 := by
    apply BitVec.eq_of_getLsbD_eq
    intro i hi
    by_cases h8 : i < 8
    · simp [h8, hi]
    · have hsub : i - 8 < 8 := by omega
      simp [h8, hi, hsub, show 8 + (i - 8) = i by omega]
  rw [crcUpd, hlow]
  exact crcShifts_small 8 _ (by simp; omega) (by decide)

/-- Folding a byte into itself shifted up leaves 0. -/
theorem crcUpd_self (b : Byte) : crcUpd (b.setWidth 16 <<< 8) b = 0#16 := by
  rw [crcUpd, BitVec.xor_self]
  rfl

/-- Settles O2: the high byte cancels against the sum, and then the low byte does. -/
theorem appendedCrcLeavesResidueZero : Obligations.AppendedCrcLeavesResidueZero := by
  intro x
  have hsum : crc16 (x ++ [(crc16 x).extractLsb' 8 8, (crc16 x).extractLsb' 0 8]) =
      crcUpd (crcUpd (crc16 x) ((crc16 x).extractLsb' 8 8)) ((crc16 x).extractLsb' 0 8) := crcFold_append _ _ _
  rw [hsum, crcUpd_highByte, crcUpd_self]

/-- Folding the same bytes into two sums keeps them apart. -/
theorem crcFold_injective_sum {c d : Half} (bs : List Byte) (h : crcFold c bs = crcFold d bs) : c = d := by
  induction bs generalizing c d with
  | nil => exact h
  | cons b bs ih => exact crcUpd_injective_sum b (ih h)

/-- One changed byte changes the sum, whatever stands before it and after it. -/
theorem crcFold_injective_middle {c : Half} {a b : Byte} {before after : List Byte}
    (h : crcFold c (before ++ a :: after) = crcFold c (before ++ b :: after)) : a = b := by
  rw [crcFold_append, crcFold_append, crcFold_cons, crcFold_cons] at h
  exact crcUpd_injective_byte _ (crcFold_injective_sum after h)

/-- Settles O3: with equal sums the two sequences would hold the same byte at the index. -/
theorem singleByteCorruptionIsDetected : Obligations.SingleByteCorruptionIsDetected := by
  intro x i v hi hzero hne hzero'
  have hsplit : x = x.take i ++ x[i] :: x.drop (i + 1) := by simp
  have hset : x.set i v = x.take i ++ v :: x.drop (i + 1) := List.set_eq_take_append_cons_drop.trans (if_pos hi)
  refine hne (crcFold_injective_middle (c := 0xFFFF#16) (before := x.take i) (after := x.drop (i + 1)) ?_)
  rw [← hset, ← hsplit]
  exact hzero'.trans hzero.symm

end Sys2Proof.Proofs.CrcDetection
end

section
/-! SUPPORT. The family 41_frame_engine.md: PARSE where it meets no command (41_frame_engine.md R95, R104), SEND and
CMD_SEND (R98, R106, R107); and what a failing operation leaves (60_exceptions.md R166). -/

namespace Sys2Proof.Proofs.FrameOperations

open Sys2Proof.Machine

/-! ### PARSE without a command (R95) -/

theorem exec_parse_notReady {s : State} (hh : s.halted = false) (hi : IndicesOk s) (hr : s.fe.fstate ≠ .ready) :
    exec .parse s = .next (succeed (.word8 notReady) s) := by
  rw [execParse_running hh hi, parseFrame_notReady hr]

section
variable {s : State} (hh : s.halted = false) (hi : IndicesOk s) (hr : s.fe.fstate = .ready)
include hh hi hr

theorem exec_parse_foreign (ho : addrDst (s.fe.rxBuf.read 0) ≠ own s) (hb : addrDst (s.fe.rxBuf.read 0) ≠ 0#4) :
    exec .parse s = .next (succeed (.word8 noBytes) (dropForeign (latchHeader s))) := by
  rw [execParse_running hh hi, parseFrame_foreign hr ⟨ho, hb⟩]

variable (hd : addrDst (s.fe.rxBuf.read 0) = own s ∨ addrDst (s.fe.rxBuf.read 0) = 0#4)
  (hm : metaMode (s.fe.rxBuf.read 1) = false)
include hd hm

/-- A DATA frame with a payload is left held with its header latched. -/
theorem exec_parse_data (hl : metaLen (s.fe.rxBuf.read 1) ≠ 0#7) :
    exec .parse s =
      .next (succeed (.word8 ((metaLen (s.fe.rxBuf.read 1)).setWidth 8)) (noteSender (latchHeader s))) := by
  rw [execParse_running hh hi, parseFrame_data hr ((not_foreign_latchHeader s).mpr hd) hm, if_neg hl]

/-- An empty DATA frame goes through FINISH at once. -/
theorem exec_parse_empty (hl : metaLen (s.fe.rxBuf.read 1) = 0#7) :
    exec .parse s = .next (succeed (.word8 0x00#8) (finish (noteSender (latchHeader s))).1) := by
  rw [execParse_running hh hi, parseFrame_data hr ((not_foreign_latchHeader s).mpr hd) hm, if_pos hl, hl]
  rfl

end

/-- Settles O12, by the arms of PARSE that run no command. -/
theorem parseLatchesDataFrames : Obligations.ParseLatchesDataFrames := fun _ hh hi =>
  ⟨fun hr => exec_parse_notReady hh hi hr, fun hr ho hb => exec_parse_foreign hh hi hr ho hb,
    fun hr hd hm hl => exec_parse_data hh hi hr hd hm hl⟩

/-- The sum FINISH checks of an empty frame: the header and the two bytes behind it. -/
abbrev emptySum (s : State) : Half :=
  crcFold 0xFFFF#16 [s.fe.rxBuf.read 0, s.fe.rxBuf.read 1, s.fe.rxBuf.read 2, s.fe.rxBuf.read 3]

section
variable {s : State} (hl : metaLen (s.fe.rxBuf.read 1) = 0#7)
include hl

theorem emptySum_eq :
    crcFold (noteSender (latchHeader s)).fe.crcAcc (trailer (noteSender (latchHeader s))) = emptySum s := by
  have htrail : trailer (noteSender (latchHeader s)) = [s.fe.rxBuf.read 2, s.fe.rxBuf.read 3] := by
    simp [trailer, hl, Memory.readFrom]
  rw [htrail]
  rfl

variable (hm : metaMode (s.fe.rxBuf.read 1) = false)
include hm

/-- The empty frame with its sum checked. -/
theorem checkCrc_empty : checkCrc (noteSender (latchHeader s)) = { s with
    lastAddr := addrSrc (s.fe.rxBuf.read 0)
    fe := { s.fe with
      fstate := .processing, fSrc := addrSrc (s.fe.rxBuf.read 0), fDst := addrDst (s.fe.rxBuf.read 0)
      fMode := false, fLen := 0#7, crcAcc := emptySum s, rdIdx := 0#7
      crcSt := if emptySum s = 0x0000#16 then .valid else .invalid } } := by
  unfold checkCrc
  dsimp only
  rw [emptySum_eq hl]
  simp only [noteSender, latchHeader, hl, hm]

end

/-- Settles O13: PARSE of an empty frame is FINISH, by its outcomes. -/
theorem parseChecksEmptyDataFrames : Obligations.ParseChecksEmptyDataFrames := by
  intro s hh hi hr
  dsimp only
  intro hm hl hd
  have hsum := emptySum_eq hl
  have hreply : isReply (noteSender (latchHeader s)) = true ↔
      s.rw.state = .pending ∧ s.rw.dst = addrSrc (s.fe.rxBuf.read 0) ∧ addrDst (s.fe.rxBuf.read 0) = own s := by
    rw [isReply_iff, eq_comm (a := s.rw.dst)]
    rfl
  rw [exec_parse_empty hh hi hr hd hm hl, finish_eq, hsum, checkCrc_empty hl hm]
  refine ⟨fun hbad => ?invalid, fun hok hforeign => ?broadcast, fun hok hawaited => ?reply, fun hok hmine hnot => ?held⟩
  case invalid => rw [if_pos hbad]; rfl
  case broadcast =>
    have hzero := hd.resolve_left hforeign
    rw [if_neg (not_not.mpr hok), if_pos ⟨hzero, fun ho => hforeign (hzero.trans ho.symm)⟩]
    rfl
  case reply =>
    obtain ⟨-, -, hmine⟩ := id hawaited
    rw [if_neg (not_not.mpr hok), if_neg (fun hb => hb.2 (hmine.symm.trans hb.1)),
      if_pos (hreply.mpr hawaited)]
    rfl
  case held =>
    rw [if_neg (not_not.mpr hok), if_neg (fun hb => hb.2 (hmine.symm.trans hb.1)), if_neg (hnot ∘ hreply.mp)]
    rfl

/-! ### SEND and CMD_SEND (R106, R107)

The two differ in the mode and the payload they hand to `sendFrame`. -/

/-- What both operations do with a mode and a payload. -/
def sendOperation (dst : Byte) (mode : Bool) (p : List Byte) (s : State) : Host.Outcome State Fault Refusal :=
  if s.halted then .next (refuse .halted s)
  else if destOk dst = false then .next (refuse .badArg s)
  else if ¬ mayWrite s then .next (refuse .busy s)
  else guarded s (report (sendFrame dst mode p s))

theorem exec_send_eq (dst : Byte) (data : List Byte) (s : State) :
    exec (.send dst data) s = sendOperation dst false data s := rfl

theorem exec_cmdSend_eq (dst cmd : Byte) (args : List Byte) (s : State) :
    exec (.cmdSend dst cmd args) s = sendOperation dst true (cmd :: args) s := rfl

theorem mayWrite_iff (s : State) : mayWrite s ↔
    s.fe.fstate = .processing ∨ s.fe.fstate = .idle ∧ s.fe.rxActive = false ∧ s.fe.rxEn = true := by
  rw [mayWrite, channelIdle_iff]

theorem report_endHeld_held {s : State} (h : s.fe.fstate = .processing) :
    report (endHeld s, .tooLong) = { release s with result := some ⟨.tooLong, .none⟩ } := by
  rw [endHeld_of_held h]
  rfl

theorem report_endHeld_none {s : State} (h : s.fe.fstate ≠ .processing) :
    report (endHeld s, .tooLong) = { s with result := some ⟨.tooLong, .none⟩ } := by
  rw [endHeld_of_none h]
  rfl

section
variable {dst : Byte} {mode : Bool} {p : List Byte} {s : State}

theorem sendOperation_halted (h : s.halted = true) : sendOperation dst mode p s = .next (refuse .halted s) := if_pos h

variable (h : s.halted = false)
include h

theorem sendOperation_badArg (hd : ¬ (dst.toNat ≤ 15 ∨ dst = 0xFF#8)) :
    sendOperation dst mode p s = .next (refuse .badArg s) :=
  (if_neg (by simp [h])).trans (if_pos (Bool.eq_false_iff.mpr (hd ∘ (destOk_iff dst).mp)))

variable (hd : dst.toNat ≤ 15 ∨ dst = 0xFF#8)
include hd

/-- A legal destination leaves the question whether the node may write. -/
theorem sendOperation_legal : sendOperation dst mode p s =
    if ¬ mayWrite s then .next (refuse .busy s) else guarded s (report (sendFrame dst mode p s)) :=
  (if_neg (by simp [h])).trans (if_neg (by simp [(destOk_iff dst).mpr hd]))

theorem sendOperation_busy
    (hw : ¬ (s.fe.fstate = .processing ∨ s.fe.fstate = .idle ∧ s.fe.rxActive = false ∧ s.fe.rxEn = true)) :
    sendOperation dst mode p s = .next (refuse .busy s) :=
  (sendOperation_legal h hd).trans (if_pos (hw ∘ (mayWrite_iff s).mp))

variable (hw : s.fe.fstate = .processing ∨ s.fe.fstate = .idle ∧ s.fe.rxActive = false ∧ s.fe.rxEn = true)
  (hi : IndicesOk s)
include hw hi

theorem sendOperation_reports : sendOperation dst mode p s = .next (report (sendFrame dst mode p s)) :=
  (sendOperation_legal h hd).trans ((if_neg (not_not.mpr ((mayWrite_iff s).mpr hw))).trans (guarded_of_ok _ hi))

theorem sendOperation_long (hp : 124 < p.length) :
    (s.fe.fstate = .processing →
      sendOperation dst mode p s = .next { release s with result := some ⟨.tooLong, .none⟩ }) ∧
    (s.fe.fstate ≠ .processing →
      sendOperation dst mode p s = .next { s with result := some ⟨.tooLong, .none⟩ }) := by
  rw [sendOperation_reports h hd hw hi, sendFrame_long hp]
  exact ⟨fun hheld => congrArg _ (report_endHeld_held hheld), fun hnone => congrArg _ (report_endHeld_none hnone)⟩

theorem sendOperation_sent (hp : p.length ≤ 124) : sendOperation dst mode p s = .next { release s with
    txOut := s.txOut ++ transmission s (resolveDest dst s.lastAddr) mode p, result := some ⟨.ok, .none⟩ } := by
  rw [sendOperation_reports h hd hw hi, report_sendFrame_fits hp]

end

/-- Settles O17: SEND is the operation in DATA mode. -/
theorem sendTransmitsOneFrame : Obligations.SendTransmitsOneFrame := by
  intro dst data s
  dsimp only
  rw [exec_send_eq]
  exact ⟨sendOperation_halted, sendOperation_badArg, sendOperation_busy,
    fun h hd hw hi hp => sendOperation_long h hd hw hi hp, fun h hd hw hi hp => sendOperation_sent h hd hw hi hp⟩

/-- Settles O18: CMD_SEND is the operation in CMD mode with the command byte before the arguments, which leaves 123 of
the 124 bytes for them. -/
theorem cmdSendTransmitsOneCommand : Obligations.CmdSendTransmitsOneCommand := by
  intro dst cmd args s
  dsimp only
  rw [exec_cmdSend_eq]
  exact ⟨sendOperation_halted, sendOperation_badArg, sendOperation_busy,
    fun h hd hw hi hp => sendOperation_long h hd hw hi (Nat.succ_lt_succ hp),
    fun h hd hw hi hp => sendOperation_sent h hd hw hi (Nat.succ_le_succ hp)⟩

/-! ### What a failing operation leaves (R166) -/

/-- The outcome answers a record, and one that is not OK changes nothing else. -/
def FailsCleanly (s : State) (o : Host.Outcome State Fault Refusal) : Prop :=
  ∀ t, o = .next t → ∃ r, t.result = some r ∧ (r.status ≠ .ok → r.fields = .none ∧ t = { s with result := some r })

theorem failsCleanly_refuse (st : Status) (s : State) : FailsCleanly s (.next (refuse st s)) := by
  rintro _ ⟨⟩
  exact ⟨⟨st, .none⟩, rfl, fun _ => ⟨rfl, rfl⟩⟩

theorem failsCleanly_succeed (f : ResultFields) (s t : State) : FailsCleanly s (.next (succeed f t)) := by
  rintro _ ⟨⟩
  exact ⟨⟨.ok, f⟩, rfl, fun h => absurd rfl h⟩

theorem failsCleanly_guarded {s t : State} (h : FailsCleanly s (.next t)) : FailsCleanly s (guarded s t) := by
  intro u hu
  obtain ⟨-, rfl⟩ := guarded_next hu
  exact h u rfl

theorem failsCleanly_ite {c : Prop} [Decidable c] {s : State} {a b : Host.Outcome State Fault Refusal}
    (ha : FailsCleanly s a) (hb : FailsCleanly s b) : FailsCleanly s (if c then a else b) := by
  split
  · exact ha
  · exact hb

/-- ENQUEUE answers OK, or leaves the queue alone. -/
theorem failsCleanly_enqueue (dst : Byte) (wait : Bool) (p : List Byte) (s : State) :
    FailsCleanly s (guarded s (report (enqueue dst wait p s))) := by
  refine failsCleanly_guarded ?_
  by_cases hp : p.length ≤ maxPayload
  · by_cases hq : qcount s = s.params.queueSlots - 1
    · rw [enqueue_full hp hq]; exact failsCleanly_refuse .queueFull s
    · rw [enqueue_room hp hq]; exact failsCleanly_succeed .none s _
  · rw [enqueue_long (by omega)]; exact failsCleanly_refuse .tooLong s

/-- Of the operations only SEND and CMD_SEND can change more than the record and fail. -/
theorem exec_failsCleanly {i : Instr} (hf : i.format = .hostOp) (s : State) (hsend : ∀ d p, i ≠ .send d p)
    (hcmd : ∀ d c p, i ≠ .cmdSend d c p) : FailsCleanly s (exec i s) := by
  have refused (st) := failsCleanly_refuse st s
  have succeeded (f t) := failsCleanly_succeed f s t
  have checked {t : State} := failsCleanly_guarded (s := s) (t := t)
  cases i with
  | send d p => exact absurd rfl (hsend d p)
  | cmdSend d c p => exact absurd rfl (hcmd d c p)
  | parse => exact failsCleanly_ite (refused _) (checked (succeeded _ _))
  | read n => exact failsCleanly_ite (refused _) (failsCleanly_ite (refused _) (checked (succeeded _ _)))
  | rxStatus => exact failsCleanly_ite (refused _) (succeeded _ _)
  | push dst wait data =>
    exact failsCleanly_ite (refused _) (failsCleanly_ite (refused _) (failsCleanly_enqueue dst wait data s))
  | pushUid uid wait data =>
    exact failsCleanly_ite (refused _) (failsCleanly_ite (refused _) (failsCleanly_ite (refused _)
      (failsCleanly_ite (checked (refused _)) (failsCleanly_enqueue _ wait data s))))
  | queueStatus => exact failsCleanly_ite (refused _) (succeeded _ _)
  | rosterRead slot =>
    exact failsCleanly_ite (refused _) (failsCleanly_ite (refused _) (failsCleanly_ite (refused _)
      (checked (succeeded _ _))))
  | resolveUid uid =>
    exact failsCleanly_ite (refused _) (failsCleanly_ite (refused _) (failsCleanly_ite (refused _)
      (checked (succeeded _ _))))
  | replyStatus =>
    exact failsCleanly_ite (refused _) (failsCleanly_ite (succeeded _ _) (failsCleanly_ite (succeeded _ _)
      (succeeded _ _)))
  | _ => first | cases hf; done | exact refused _ | exact succeeded _ _

/-- A send fails cleanly, or it is oversized and has ended a held frame. -/
theorem sendOperation_fails {dst : Byte} {mode : Bool} {p : List Byte} {s t : State}
    (h : sendOperation dst mode p s = .next t) : ∃ r, t.result = some r ∧ (r.status ≠ .ok → r.fields = .none ∧
      (t = { s with result := some r } ∨
        r.status = .tooLong ∧ s.fe.fstate = .processing ∧ t = { release s with result := some r })) := by
  have clean {o : Host.Outcome State Fault Refusal} (ho : FailsCleanly s o) (ht : o = .next t) :
      ∃ r, t.result = some r ∧ (r.status ≠ .ok → r.fields = .none ∧ (t = { s with result := some r } ∨
        r.status = .tooLong ∧ s.fe.fstate = .processing ∧ t = { release s with result := some r })) := by
    obtain ⟨r, hr, hfail⟩ := ho t ht
    exact ⟨r, hr, fun hne => ⟨(hfail hne).1, .inl (hfail hne).2⟩⟩
  unfold sendOperation at h
  split at h
  · exact clean (failsCleanly_refuse _ s) h
  · split at h
    · exact clean (failsCleanly_refuse _ s) h
    · split at h
      · exact clean (failsCleanly_refuse _ s) h
      · obtain ⟨-, rfl⟩ := guarded_next h
        by_cases hp : p.length ≤ maxPayload
        · rw [report_sendFrame_fits hp]
          exact ⟨⟨.ok, .none⟩, rfl, fun hne => absurd rfl hne⟩
        · rw [sendFrame_long (by omega)]
          refine ⟨⟨.tooLong, .none⟩, rfl, fun _ => ⟨rfl, ?_⟩⟩
          by_cases hheld : s.fe.fstate = .processing
          · exact .inr ⟨rfl, hheld, report_endHeld_held hheld⟩
          · exact .inl (report_endHeld_none hheld)

/-- Settles O48: SEND and CMD_SEND by `sendOperation_fails`, every other operation by `exec_failsCleanly`. -/
theorem failingOperationsChangeNothing : Obligations.FailingOperationsChangeNothing := by
  intro i s t hf h
  by_cases hsend : ∃ d p, i = .send d p
  · obtain ⟨d, p, rfl⟩ := hsend
    obtain ⟨r, hr, hfail⟩ := sendOperation_fails ((exec_send_eq d p s).symm.trans h)
    exact ⟨r, hr, fun hne => (hfail hne).imp_right (Or.imp_right fun ⟨hlong, hheld, ht⟩ =>
      ⟨hlong, hheld, .inl ⟨d, p, rfl⟩, ht⟩)⟩
  · by_cases hcmd : ∃ d c p, i = .cmdSend d c p
    · obtain ⟨d, c, p, rfl⟩ := hcmd
      obtain ⟨r, hr, hfail⟩ := sendOperation_fails ((exec_cmdSend_eq d c p s).symm.trans h)
      exact ⟨r, hr, fun hne => (hfail hne).imp_right (Or.imp_right fun ⟨hlong, hheld, ht⟩ =>
        ⟨hlong, hheld, .inr ⟨d, c, p, rfl⟩, ht⟩)⟩
    · obtain ⟨r, hr, hfail⟩ := exec_failsCleanly hf s (fun d p e => hsend ⟨d, p, e⟩)
        (fun d c p e => hcmd ⟨d, c, p, e⟩) t h
      exact ⟨r, hr, fun hne => ⟨(hfail hne).1, .inl (hfail hne).2⟩⟩

end Sys2Proof.Proofs.FrameOperations
end

section
/-! SUPPORT. The families 46_commands.md and 44_master_controller.md: what a CMD frame does by its command and its
receiver (46_commands.md R150 to R157, 45_slave_controller.md R145, R146), and what the outcome of a wait does
(47_tick_schedule.md R160, 44_master_controller.md R131 to R134, 43_roster.md R124). -/

namespace Sys2Proof.Proofs.WireCommands

open Sys2Proof.Machine
open Sys2Proof.Proofs.RequestQueue

/-! ### Whatever the command (R93, R95) -/

/-- Settles O30: FINISH ends these frames before any handler sees them. -/
theorem corruptOrBroadcastCommandIsNotHandled : Obligations.CorruptOrBroadcastCommandIsNotHandled := by
  intro i s hf hi
  rw [exec_command hf hi]
  exact ⟨fun h => congrArg _ (commandFrame_invalid h), fun h hd ho => congrArg _ (commandFrame_bcast h hd ho)⟩

/-- Settles O31: an awaited reply is consumed in place of being handled. -/
theorem awaitedCommandIsConsumed : Obligations.AwaitedCommandIsConsumed := by
  intro i s hf h
  rw [exec_command hf h.indices, commandFrame_reply h]

/-- Settles O32: the handler of each of these commands does nothing. -/
theorem ignoredCommandsReleaseTheChannel : Obligations.IgnoredCommandsReleaseTheChannel := by
  intro args s
  have ignored {i : Instr} (hf : i.format = .cmd) (hh : handlerOf i (verified s) = verified s)
      (h : HeldCommand (encode i) s) : exec i s = .next (released s) := exec_command_ignored hf h hh
  exact ⟨ignored (i := .alert args) rfl rfl, ignored (i := .ack args) rfl rfl, ignored (i := .nack args) rfl rfl,
    ignored (i := .reservedCmd05 args) rfl rfl, ignored (i := .reservedCmd07 args) rfl rfl,
    fun l => ignored (i := .reservedCmd08To0B l args) rfl rfl,
    fun l => ignored (i := .reservedCmd0CTo0D l args) rfl rfl, ignored (i := .reservedCmd0E args) rfl rfl,
    fun l => ignored (i := .reservedCmd10To1F l args) rfl rfl,
    fun l => ignored (i := .reservedCmd20To3F l args) rfl rfl,
    fun l => ignored (i := .reservedCmd40To7F l args) rfl rfl,
    fun l => ignored (i := .reservedCmd80ToFF l args) rfl rfl, ignored (i := .reservedCmdEmpty) rfl rfl⟩

/-- A held command is its handler's, and what that leaves held is released. -/
theorem exec_command_held {i : Instr} {s : State} (hf : i.format = .cmd) (h : HeldCommand (encode i) s) :
    exec i s = .next (endCommand (handlerOf i (verified s))) := by
  rw [exec_command hf h.indices, commandFrame_held h]

/-! ### Commands without a transition (R130, R145) -/

section
variable {args : List Byte} {s : State}

theorem handleSignal_slave (hm : isMaster s = false) : handleSignal args s = s := by
  rcases handleSignal_cases args s with h | ⟨-, -, -, hmaster, -⟩
  · exact h
  · simp [hm] at hmaster

theorem handleFind_master (hm : isMaster s = true) : handleFind args s = s := by
  rcases handleFind_cases args s with h | ⟨-, hslave, -⟩
  · exact h
  · simp [hm] at hslave

theorem handleGetUid_master (hm : isMaster s = true) : handleGetUid args s = s := by
  rcases handleGetUid_cases args s with h | ⟨-, hslave, -⟩
  · exact h
  · simp [hm] at hslave

theorem handlePing_master (hm : isMaster s = true) : handlePing args s = s := by
  rcases handlePing_cases args s with h | ⟨hslave, -⟩
  · exact h
  · simp [hm] at hslave

/-- ALLOC answers a slot that exists and is free. -/
theorem free_of_alloc {k : Nat} (h : alloc s = some k) : k < s.roster.slots.length ∧ (slotAt s k).addr = 0#4 := by
  obtain ⟨hk, hfree, -⟩ := List.findIdx?_eq_some_iff_getElem.mp h
  exact ⟨hk, by rw [slotAt_eq_getElem hk]; simpa using hfree⟩

/-- A SIGNAL the master does not accept. -/
theorem handleSignal_refused (hsize : s.roster.slots.length = s.params.rosterSlots)
    (h : ¬ masterActsOn s (.signal args)) : handleSignal args s = s := by
  unfold handleSignal
  split
  · next hal =>
    obtain ⟨hk, hfree⟩ := free_of_alloc hal
    exact if_neg fun ⟨hidle, hwait⟩ => h ⟨rfl, hidle, hwait, _, hsize ▸ hk, hfree⟩
  · rfl

/-- A FIND the slave does not accept. -/
theorem handleFind_refused (h : ¬ slaveActsOn s (.find args)) : handleFind args s = s := by
  unfold handleFind
  split
  · exact if_neg fun ⟨hst, hnonce, hlow, hhigh⟩ => h ⟨_, _, _, _, _, rfl, hst, hnonce, hlow, hhigh⟩
  · rfl

theorem handleGetUid_refused (h : ¬ slaveActsOn s (.getUid args)) : handleGetUid args s = s :=
  if_neg fun ⟨_, hargs, hst⟩ => h ⟨hargs, hst⟩

theorem handlePing_refused (h : ¬ slaveActsOn s (.ping args)) : handlePing args s = s :=
  if_neg fun ⟨_, hargs, hst⟩ => h ⟨hargs, hst⟩

end

theorem handlerOf_slave {i : Instr} {s : State} (hm : isMaster s = false) (h : ¬ slaveActsOn s i) :
    handlerOf i s = s := by
  cases i with
  | signal => exact handleSignal_slave hm
  | find => exact handleFind_refused h
  | getUid => exact handleGetUid_refused h
  | ping => exact handlePing_refused h
  | _ => rfl

theorem handlerOf_master {i : Instr} {s : State} (hm : isMaster s = true)
    (hsize : s.roster.slots.length = s.params.rosterSlots) (h : ¬ masterActsOn s i) : handlerOf i s = s := by
  cases i with
  | signal => exact handleSignal_refused hsize h
  | find => exact handleFind_master hm
  | getUid => exact handleGetUid_master hm
  | ping => exact handlePing_master hm
  | _ => rfl

/-- Settles O33: in each role the handlers with an effect test what `slaveActsOn` and `masterActsOn` say. -/
theorem commandsWithoutATransitionAreIgnored : Obligations.CommandsWithoutATransitionAreIgnored := by
  intro i s hf h
  refine ⟨fun hrole hno => ?slave, fun hrole hno => ?master⟩
  case slave =>
    have hm : isMaster (verified s) = false := (isMaster_eq_false_iff s).mpr hrole
    have hno' : ¬ slaveActsOn (verified s) i := hno
    exact exec_command_ignored hf h (handlerOf_slave hm hno')
  case master =>
    have hm : isMaster (verified s) = true := (isMaster_iff s).mpr hrole
    have hno' : ¬ masterActsOn (verified s) i := hno
    have hsize : (verified s).roster.slots.length = s.params.rosterSlots :=
      roster_length_of_indices (s := s) h.indices
    exact exec_command_ignored hf h (handlerOf_master hm hsize hno')

/-! ### An accepted SIGNAL (R130) -/

/-- The handshake's latches after an allocation of slot `k` for nonce `n`. -/
def allocated (k : Nat) (n : BitVec 32) (s : State) : State :=
  { s with hs := { s.hs with addr := BitVec.ofNat 4 (k + 1), nonce := n } }

theorem allocated_verified (k : Nat) (n : BitVec 32) (s : State) :
    allocated k n (verified s) = verified (allocated k n s) := rfl

/-- The FIND for slot `k`. -/
def findPayload (n3 n2 n1 n0 : Byte) (k : Nat) : List Byte :=
  [codeFind, n3, n2, n1, n0, destOf (BitVec.ofNat 4 (k + 1))]

theorem handleSignal_accepted {ver n3 n2 n1 n0 : Byte} {k : Nat} {s : State} (hm : isMaster s = true)
    (hal : alloc s = some k) (hidle : s.hs.state = .idle) (hwait : s.rw.state = .none) :
    handleSignal [ver, n3, n2, n1, n0] s = setHs .waitAddrAck (arm .hsFind s.fe.fSrc
      (sendFrame (destOf s.fe.fSrc) true (findPayload n3 n2 n1 n0 k) (allocated k (nonceOf n3 n2 n1 n0) s)).1) := by
  unfold handleSignal
  rw [hm, hal]
  exact if_pos ⟨hidle, hwait⟩

/-- An operational address is itself as a byte. -/
theorem destOf_ofNat {n : Nat} (h : n ≤ 15) : destOf (BitVec.ofNat 4 n) = BitVec.ofNat 8 n := by
  apply BitVec.eq_of_toNat_eq
  simp only [destOf, BitVec.toNat_setWidth, BitVec.toNat_ofNat]
  omega

theorem transmission_of_master {s : State} (hrole : s.params.role = .master) (d : Nibble) (mode : Bool)
    (p : List Byte) : transmission s d mode p = frameSymbols 15#4 d mode p := by
  rw [transmission, if_pos ((isMaster_iff s).mpr hrole), own_of_master hrole]

theorem handlerOf_signal (args : List Byte) (s : State) : handlerOf (.signal args) s = handleSignal args s := rfl

theorem verified_fSrc (s : State) : (verified s).fe.fSrc = s.fe.fSrc := rfl

/-- Settles O34: the handler's answer is sent from the latched handshake, and the wait is armed after it. -/
theorem signalIsAnsweredWithFind : Obligations.SignalIsAnsweredWithFind := by
  intro ver n3 n2 n1 n0 k s hw h hrole hidle hwait hk hfree hlow
  have hal : alloc (verified s) = some k :=
    alloc_some (s := verified s) (roster_length_of_indices h.indices ▸ hk) hfree hlow
  have hsmall : k + 1 ≤ 15 := by
    obtain ⟨-, ⟨-, hmax⟩, -⟩ := hw
    omega
  have hsent : (sendFrame (destOf s.fe.fSrc) true (findPayload n3 n2 n1 n0 k)
      (verified (allocated k (nonceOf n3 n2 n1 n0) s))).1 =
      { released (allocated k (nonceOf n3 n2 n1 n0) s) with
        txOut := s.txOut ++ frameSymbols 15#4 s.fe.fSrc true (findPayload n3 n2 n1 n0 k) } := by
    rw [sendFrame_verified (s := allocated k (nonceOf n3 n2 n1 n0) s) s.fe.fSrc (findPayload n3 n2 n1 n0 k)
      (by simp [findPayload, maxPayload]) h.processing, transmission_of_master (by exact hrole)]
    rfl
  rw [exec_command_held (i := .signal [ver, n3, n2, n1, n0]) rfl h, handlerOf_signal,
    handleSignal_accepted (s := verified s) ((isMaster_iff s).mpr hrole) hal hidle hwait, allocated_verified,
    verified_fSrc, hsent, findPayload, destOf_ofNat hsmall]
  exact congrArg _ (endCommand_of_answered rfl)

/-! ### An accepted FIND (R146) -/

theorem handleFind_accepted {n3 n2 n1 n0 a : Byte} {s : State} (hm : isMaster s = false)
    (hst : s.sl.state = .signalSent) (hnonce : n3 ++ n2 ++ n1 ++ n0 = s.sl.nonce) (hlow : 1 ≤ a.toNat)
    (hhigh : a.toNat ≤ 14) :
    handleFind [n3, n2, n1, n0, a] s = modifySlave (fun c => { c with state := .addrSet, hsCnt := 0#16 })
      (setOwn (a.setWidth 4) (sendFrame (destOf s.fe.fSrc) true [codeAck] s).1) := by
  unfold handleFind
  rw [hm]
  exact if_pos ⟨hst, hnonce, hlow, hhigh⟩

theorem setOwn_of_slave (a : Nibble) {s : State} (hm : isMaster s = false) : setOwn a s = { s with ownAddr := a } :=
  if_neg (by simp [hm])

/-- Settles O38: the ACK is sent before the address is written, so its symbols carry the old one. -/
theorem findIsAcknowledgedThenAdopted : Obligations.FindIsAcknowledgedThenAdopted := by
  intro n3 n2 n1 n0 a s hrole h hst hnonce hlow hhigh
  have hm := (isMaster_eq_false_iff s).mpr hrole
  rw [exec_command_held (i := .find [n3, n2, n1, n0, a]) rfl h]
  dsimp only [handlerOf]
  rw [handleFind_accepted (s := verified s) hm hst hnonce hlow hhigh]
  change Host.Outcome.next (endCommand (modifySlave _ (setOwn _ (sendFrame (destOf s.fe.fSrc) true _ _).1))) = _
  rw [sendFrame_verified s.fe.fSrc [codeAck] (by decide) h.processing, setOwn_of_slave _ (by exact hm)]
  exact congrArg _ (endCommand_of_answered rfl)

/-! ### The outcome of a wait (R160)

CONSUME_REPLY overwrites the state and the count of the wait, so what they were does not matter. -/

theorem consumeReply_anyWait (o : WaitOutcome) (st : WaitState) (c : Half) (s : State) :
    consumeReply o { s with rw := { s.rw with state := st, cnt := c } } = consumeReply o s := rfl

/-- An awaited ACK is consumed from the released state. -/
theorem exec_ack_awaited {uid : List Byte} {s : State} (h : AwaitedCommand (0x06#8 :: uid) s) :
    exec (.ack uid) s = .next (consumeReply (.cmd (codeAck :: uid)) (released s)) := by
  rw [exec_command (i := .ack uid) rfl h.indices, commandFrame_reply (by exact h)]
  exact congrArg _ (consumeReply_anyWait _ .received s.rw.cnt (released s))

theorem isAck_ack (uid : List Byte) : isAck (.cmd (codeAck :: uid)) = true := (isAck_iff _).mpr ⟨uid, rfl⟩

/-- An ACK at step 3 latches an identity that fits, the address standing in for an empty one (R132). -/
theorem consumeHsUid_ack (uid : List Byte) (s : State) : consumeHsUid (.cmd (codeAck :: uid)) s =
    if uid.length ≤ 12 then setHs .sendPing (latchUid (if uid = [] then [destOf s.hs.addr] else uid) s)
    else setHs .idle s := by
  simp only [consumeHsUid, true_and]
  rfl

/-- Settles O35, by the wait: FIND's, GET_UID's by the length of the identity, the ping's. -/
theorem ackMovesTheHandshake : Obligations.AckMovesTheHandshake := by
  intro uid s h
  dsimp only
  rw [exec_ack_awaited h]
  refine ⟨fun hk => congrArg _ ?find, fun hk hempty => congrArg _ ?stand_in, fun hk hlow hhigh => congrArg _ ?latch,
    fun hk hlong => congrArg _ ?tooLong, fun hk => congrArg _ ?ping⟩
  case find => rw [consumeReply_of_hsFind (by exact hk), consumeHsFind, isAck_ack]; rfl
  case stand_in =>
    subst hempty
    rw [consumeReply_of_hsUid (by exact hk), consumeHsUid_ack]
    rfl
  case latch =>
    have hne : uid ≠ [] := List.ne_nil_of_length_pos hlow
    rw [consumeReply_of_hsUid (by exact hk), consumeHsUid_ack, if_pos hhigh, if_neg hne]
    rfl
  case tooLong =>
    rw [consumeReply_of_hsUid (by exact hk), consumeHsUid_ack, if_neg (by omega)]
    rfl
  case ping =>
    have hwait : s.rw.state ≠ .none := by
      obtain ⟨hpend, -⟩ := (isReply_iff s).mp h.reply
      simp [hpend]
    have hslot : s.hs.addr.toNat - 1 < s.roster.slots.length := by
      obtain ⟨-, -, -, -, -, -, haddr⟩ := h.indices
      have hsize := roster_length_of_indices h.indices
      have := haddr hwait hk
      omega
    rw [consumeReply_of_hsPing (by exact hk), consumeHsPing, isAck_ack, if_pos rfl, ← modify_eq_set_slotAt _
      (fun e => { addr := s.hs.addr, uidLen := s.hs.uidLen
                  uid := e.uid.writeFrom 0 (s.hs.uid.readFrom 0 s.hs.uidLen.toNat)
                  pingCd := BitVec.ofNat 16 s.params.pingPeriod, pingErr := 0#16, needsPing := false }) s hslot]
    rfl

/-- Settles O36: every outcome of a handshake's wait that is no ACK is an abort. -/
theorem abortedHandshakeLeavesNoTrace : Obligations.AbortedHandshakeLeavesNoTrace := by
  intro o s hk ho
  have hkind : isHsKind s.rw.kind = true := by
    rcases hk with e | e | e <;> rw [e] <;> rfl
  have hack : isAck o = false := by
    rw [Bool.eq_false_iff, ne_eq, isAck_iff]
    exact fun ⟨uid, e⟩ => ho uid e
  rw [consumeReply_abort hkind hack]
  rfl

/-! ### Slots that a wait's outcome writes -/

/-- A slot that is occupied by an address exists. -/
theorem slot_lt_of_occupied {s : State} {d : Nibble} (h : occupiedBy s d)
    (hsize : s.roster.slots.length = s.params.rosterSlots) : d.toNat - 1 < s.roster.slots.length := by
  obtain ⟨hlow, hhigh, -⟩ := h
  omega

/-- Writing a slot of an occupied address, as setting it. -/
theorem modifySlot_of_occupied {s : State} {d : Nibble} (h : occupiedBy s d)
    (hsize : s.roster.slots.length = s.params.rosterSlots) (f : Slot → Slot) :
    s.roster.slots.modify (d.toNat - 1) f = s.roster.slots.set (d.toNat - 1) (f (slotAt s (d.toNat - 1))) :=
  modify_eq_set_slotAt _ f s (slot_lt_of_occupied h hsize)

/-- Settles O37: CONSUME_REPLY of an APP wait is the latch, and the slot's error count where a reply meets its slot. -/
theorem applicationOutcomeIsLatched : Obligations.ApplicationOutcomeIsLatched := by
  intro o s hk
  dsimp only
  rw [consumeReply_of_app hk]
  refine ⟨fun hno => ?kept, fun ⟨hrole, ho, hocc⟩ hsize => ?cleared⟩
  case kept =>
    refine if_neg fun ⟨hm, ho, hocc⟩ => hno ⟨(isMaster_iff s).mp hm, ho, hocc⟩
  case cleared =>
    rw [← modifySlot_of_occupied hocc hsize fun e => { e with pingErr := 0#16 }]
    exact if_pos ⟨(isMaster_iff s).mpr hrole, ho, hocc⟩

/-- Settles O29, by the outcome and, for a timeout, the error count against its ceiling. -/
theorem pingOutcomeCountsOrEvicts : Obligations.PingOutcomeCountsOrEvicts := by
  intro o s _ hk
  dsimp only
  rw [consumeReply_of_ping hk]
  refine ⟨fun hno => consumePing_absent hno, fun hocc hsize => ⟨fun ho => ?answered, fun ho hlt => ?missed,
    fun ho hge => ?evicted⟩⟩
  case answered =>
    rw [consumePing_answered (s := waitCleared s) hocc ho,
      ← modifySlot_of_occupied hocc hsize fun e => { e with pingErr := 0#16 }]
    rfl
  case missed =>
    subst ho
    rw [consumePing_missed (s := waitCleared s) hocc hlt,
      ← modifySlot_of_occupied hocc hsize fun e => { e with pingErr := e.pingErr + 1#16 }]
    rfl
  case evicted =>
    subst ho
    rw [consumePing_evicts (s := waitCleared s) hocc hge,
      ← modifySlot_of_occupied hocc hsize fun _ => ⟨0#4, 0#4, [], 0#16, 0#16, false⟩]
    rfl

end Sys2Proof.Proofs.WireCommands
end

section
/-! SUPPORT. The family 70_reset_and_hazards.md: what RESET leaves (R178) and the slave's configuration (R179). -/

namespace Sys2Proof.Proofs.Reset

open Sys2Proof.Machine
open Sys2Proof.Proofs.Exceptions

/-- Settles O49: State.reset is a closed term, and its roster repeats the free slot. -/
theorem resetStateValues : Obligations.ResetStateValues := by
  have hroster : ∀ e ∈ State.reset.roster.slots, e = ⟨0#4, 0#4, [], 0#16, 0#16, false⟩ :=
    fun _ he => List.eq_of_mem_replicate he
  exact ⟨rfl, rfl, rfl, rfl, rfl, rfl, rfl, rfl, rfl, rfl, rfl, rfl, rfl, rfl, rfl, rfl, rfl, rfl, hroster, rfl,
    rfl, rfl, rfl, rfl, rfl⟩

/-- A configuration without `cfg_ok` is not valid (R179). -/
theorem configValid_of_not_cfgOk {cfg : BootConfig} (h : cfg.cfgOk = false) : Config.configValid cfg = false := by
  rw [Config.configValid, h, Bool.false_and]

/-- The event RESET loads the configuration, whatever the state was. -/
theorem step_reset {s : State} {cfg : BootConfig} {nonce0 : Wide} {rest : List Event}
    (h : s.inputs = .reset cfg nonce0 :: rest) :
    step s = .next { resetState s.params (Config.configValid cfg) cfg nonce0 with inputs := rest } := step_event h

/-! ### What RESET leaves, by role -/

section
variable {p : Params} {valid : Bool} {cfg : BootConfig} {nonce0 : Wide}

theorem resetState_halted_eq :
    (resetState p valid cfg nonce0).halted = (decide (p.role = .slave) && !valid) := rfl

theorem resetState_rxEn_eq : (resetState p valid cfg nonce0).fe.rxEn = !(resetState p valid cfg nonce0).halted := rfl

theorem resetState_halted_master (h : p.role = .master) : (resetState p valid cfg nonce0).halted = false := by
  rw [resetState_halted_eq, h]
  rfl

theorem resetState_halted_slave (h : p.role = .slave) : (resetState p valid cfg nonce0).halted = !valid := by
  rw [resetState_halted_eq, h]
  rfl

theorem own_resetState_slave (h : p.role = .slave) : own (resetState p valid cfg nonce0) = 0#4 := by
  simp [own, isMaster, resetState, h]

theorem resetState_sl_eq : (resetState p valid cfg nonce0).sl =
    if p.role = .slave ∧ valid = true then bootSlave cfg nonce0 else SlaveCtl.reset := rfl

theorem resetState_sl_valid (h : p.role = .slave) : (resetState p true cfg nonce0).sl = bootSlave cfg nonce0 :=
  if_pos ⟨h, rfl⟩

theorem resetState_sl_invalid : (resetState p false cfg nonce0).sl = SlaveCtl.reset := if_neg (by simp)

/-- The registers that no configuration loads. -/
theorem resetState_sl_counters :
    let c := (resetState p valid cfg nonce0).sl
    c.state = .disconnected ∧ c.presCnt = 0#16 ∧ c.absCnt = 0#16 ∧ c.hsCnt = 0#16 ∧ c.nopingCnt = 0#16 ∧
      c.backoff = 0#16 ∧ c.pingRx = false := by
  dsimp only
  rw [resetState_sl_eq]
  split <;> exact ⟨rfl, rfl, rfl, rfl, rfl, rfl, rfl⟩

end

/-- An identity in the configuration is loaded whole. -/
theorem readFrom_bootUid {cfg : BootConfig} (h : cfg.uidPresent = true) :
    (bootUid cfg).readFrom 0 12 = cfg.uid.toList := by
  have hread := Memory.readFrom_writeFrom [] 0 cfg.uid.toList
  rw [Vector.length_toList] at hread
  rw [bootUid, if_pos h, hread]

/-- Settles O50: the role and the validity decide the halt and the slave's registers; all else is the same constant. -/
theorem resetLoadsTheConfiguration : Obligations.ResetLoadsTheConfiguration := by
  refine ⟨fun s cfg nonce0 rest hs => ⟨configValid_of_not_cfgOk, step_reset hs⟩, fun p valid cfg nonce0 => ?_⟩
  dsimp only
  refine ⟨⟨rfl, rfl, rfl⟩, ⟨rfl, rfl, rfl, rfl, rfl, rfl, rfl, rfl, rfl, rfl, rfl⟩,
    ⟨rfl, rfl, rfl, rfl, rfl, List.length_replicate⟩, fun hm => ?master, fun hsl => ?slave⟩
  case master =>
    have hhalt := resetState_halted_master (valid := valid) (cfg := cfg) (nonce0 := nonce0) hm
    exact ⟨own_of_master hm, hhalt, by rw [resetState_rxEn_eq, hhalt]; rfl, rfl, rfl, rfl, rfl⟩
  case slave =>
    obtain ⟨hst, hpres, habs, hhs, hnoping, hbackoff, hping⟩ :=
      resetState_sl_counters (p := p) (valid := valid) (cfg := cfg) (nonce0 := nonce0)
    have hhalt := resetState_halted_slave (valid := valid) (cfg := cfg) (nonce0 := nonce0) hsl
    refine ⟨own_resetState_slave hsl, hst, hpres, habs, hhs, hnoping, hbackoff, hping, ?invalid, ?valid⟩
    case invalid =>
      rintro rfl
      rw [resetState_rxEn_eq, hhalt, resetState_sl_invalid]
      exact ⟨rfl, rfl, rfl, rfl, rfl, rfl, rfl⟩
    case valid =>
      rintro rfl
      rw [resetState_rxEn_eq, hhalt, resetState_sl_valid hsl]
      exact ⟨rfl, rfl, rfl, rfl, rfl, fun hu => ⟨if_pos hu, readFrom_bootUid hu⟩, fun hu => if_neg (by simp [hu])⟩

end Sys2Proof.Proofs.Reset
end

section
/-! SUPPORT. The request queue as a list (42_request_queue.md R109 to R113): the ring's arithmetic, then what a push and
a dispatch do to the requests it holds. -/

namespace Sys2Proof.Proofs.QueueList

open Sys2Proof.Machine

/-! ### The ring's arithmetic -/

theorem mod_of_lt_two_mul {x n : Nat} (h : x < 2 * n) : x % n = if x < n then x else x - n := by
  split
  · next hx => exact Nat.mod_eq_of_lt hx
  · next hx => rw [Nat.mod_eq_sub_mod (by omega), Nat.mod_eq_of_lt (by omega)]

section
variable {n h t i : Nat} (hh : h < n) (ht : t < n)

include hh ht

/-- The entry behind the last one is the tail's. -/
theorem ring_tail : (h + (t + n - h) % n) % n = t := by
  rw [Nat.add_mod_mod, show h + (t + n - h) = t + n by omega, Nat.add_mod_right, Nat.mod_eq_of_lt ht]

theorem ring_ne_tail (hi : i < (t + n - h) % n) : (h + i) % n ≠ t := by
  have hlt : i < n := hi.trans (Nat.mod_lt _ (by omega))
  have hc := mod_of_lt_two_mul (show t + n - h < 2 * n by omega)
  rw [mod_of_lt_two_mul (by omega)]
  split_ifs at hc ⊢ <;> omega

theorem ring_count_push (hc : (t + n - h) % n < n - 1) : ((t + 1) % n + n - h) % n = (t + n - h) % n + 1 := by
  have hc' := mod_of_lt_two_mul (show t + n - h < 2 * n by omega)
  rw [mod_of_lt_two_mul (show t + 1 < 2 * n by omega)]
  split_ifs at hc' ⊢ <;> rw [mod_of_lt_two_mul (by omega)] <;> split_ifs <;> omega

theorem ring_count_pop (hc : 0 < (t + n - h) % n) : (t + n - (h + 1) % n) % n = (t + n - h) % n - 1 := by
  have hc' := mod_of_lt_two_mul (show t + n - h < 2 * n by omega)
  rw [mod_of_lt_two_mul (show h + 1 < 2 * n by omega)]
  split_ifs at hc' ⊢ <;> rw [mod_of_lt_two_mul (by omega)] <;> split_ifs <;> omega

end

/-! ### The requests -/

/-- The `i`-th request in the queue. -/
def requestAt (s : State) (i : Nat) : Request :=
  requestOf (s.queue.slots.getD ((s.queue.head.toNat + i) % s.params.queueSlots) QueueEntry.blank)

theorem queueContents_eq (s : State) : queueContents s = (List.range (qcount s)).map (requestAt s) := rfl

theorem length_queueContents (s : State) : (queueContents s).length = qcount s := by simp [queueContents_eq]

/-- A filled entry holds the request as it was pushed (R109). -/
theorem requestOf_fillEntry {dst : Byte} {wait : Bool} {p : List Byte} (e : QueueEntry) (h : p.length ≤ maxPayload) :
    requestOf (fillEntry dst wait p e) = (dst, wait, p) := by
  have hlen : (BitVec.ofNat 7 p.length).toNat = p.length := by
    have : p.length ≤ 124 := h
    rw [BitVec.toNat_ofNat, Nat.mod_eq_of_lt (by omega)]
  simp only [requestOf, entryPayload, fillEntry, hlen, Memory.readFrom_writeFrom]

section
variable {s : State} (hw : s.params.wf) (hq : QueueInv s)

include hw in
theorem queueSlots_bounds : 2 ≤ s.params.queueSlots ∧ s.params.queueSlots ≤ 256 := by
  obtain ⟨hslots, -⟩ := hw
  omega

include hw in
theorem next_toNat (i : Byte) : (nextIndex s i).toNat = (i.toNat + 1) % s.params.queueSlots := by
  obtain ⟨hlow, hhigh⟩ := queueSlots_bounds hw
  exact nextIndex_toNat hhigh (by omega) i

include hw in
theorem qcount_le : qcount s ≤ s.params.queueSlots - 1 := by
  obtain ⟨hlow, -⟩ := queueSlots_bounds hw
  have := qcount_lt (s := s) (by omega)
  omega

include hw hq

/-- A push fills the tail's entry and no other (R111). -/
theorem queueContents_enqueue {dst : Byte} {wait : Bool} {p : List Byte} (hp : p.length ≤ maxPayload)
    (hroom : qcount s < s.params.queueSlots - 1) :
    queueContents (enqueue dst wait p s).1 = queueContents s ++ [(dst, wait, p)] := by
  rw [enqueue_room hp (by omega)]
  set u : State := { s with queue := { s.queue with
    slots := s.queue.slots.modify s.queue.tail.toNat (fillEntry dst wait p)
    tail := nextIndex s s.queue.tail } } with hu
  have hcount : qcount u = qcount s + 1 := by
    have := ring_count_push hq.head hq.tail hroom
    rwa [← next_toNat hw] at this
  have hold : ∀ i < qcount s, requestAt u i = requestAt s i := by
    intro i hi
    have hne := ring_ne_tail hq.head hq.tail hi
    simp only [requestAt, hu, List.getD_eq_getElem?_getD, List.getElem?_modify, if_neg hne.symm]
    simp
  have hnew : requestAt u (qcount s) = (dst, wait, p) := by
    have hat : (s.queue.head.toNat + qcount s) % s.params.queueSlots = s.queue.tail.toNat := ring_tail hq.head hq.tail
    have hlt : s.queue.tail.toNat < s.queue.slots.length := hq.size ▸ hq.tail
    simp only [requestAt, hu, hat, List.getD_eq_getElem?_getD, List.getElem?_modify, List.getElem?_eq_getElem hlt]
    exact requestOf_fillEntry _ hp
  rw [queueContents_eq, hcount, List.range_succ, List.map_append, queueContents_eq]
  exact congrArg₂ _ (List.map_congr_left fun i hi => hold i (List.mem_range.mp hi)) (by rw [List.map_singleton, hnew])

/-- A dispatch takes the oldest request off (R112). -/
theorem queueContents_dispatch (hsome : 0 < qcount s) :
    queueContents s = requestOf (headEntry s) :: queueContents (dispatchQueue s) := by
  have hcount : qcount s = qcount (dispatchQueue s) + 1 := by
    have hpop := ring_count_pop hq.head hq.tail hsome
    have hnext : qcount (dispatchQueue s) = qcount s - 1 := by
      rw [← next_toNat hw] at hpop
      simpa only [qcount, dispatchQueue_queue, dispatchQueue_params] using hpop
    omega
  have hlater : ∀ i, requestAt s (i + 1) = requestAt (dispatchQueue s) i := by
    intro i
    simp only [requestAt, dispatchQueue_queue, dispatchQueue_params, next_toNat hw, Nat.mod_add_mod]
    rw [Nat.add_right_comm, Nat.add_assoc]
  have hfirst : requestAt s 0 = requestOf (headEntry s) := by
    rw [requestAt, Nat.add_zero, Nat.mod_eq_of_lt hq.head]
    rfl
  rw [queueContents_eq, hcount, List.range_succ_eq_map, List.map_cons, hfirst, List.map_map, queueContents_eq]
  exact congrArg _ (List.map_congr_left fun i _ => hlater i)

end

/-- The head's payload fits a frame (R33). -/
theorem headEntry_fits {s : State} (hq : QueueInv s) : (entryPayload (headEntry s)).length ≤ maxPayload := by
  have hlt : s.queue.head.toNat < s.queue.slots.length := hq.size ▸ hq.head
  rw [entryPayload, Memory.length_readFrom, headEntry, List.getD_eq_getElem _ _ hlt]
  exact hq.lens _ (List.getElem_mem hlt)

/-- What a dispatch from an idle channel sends and arms (R112). -/
theorem dispatchQueue_idle {s : State} (hidle : s.fe.fstate ≠ .processing)
    (hfits : (entryPayload (headEntry s)).length ≤ maxPayload) :
    let d := resolveDest (headEntry s).dst s.lastAddr
    dispatchQueue s = { s with
      fe := idleEngine s.fe
      queue := { s.queue with head := nextIndex s s.queue.head }
      txOut := s.txOut ++ transmission s d false (entryPayload (headEntry s))
      rw := if (headEntry s).wait then ⟨.pending, d, .app, 0#16⟩ else s.rw } := by
  unfold dispatchQueue
  dsimp only
  rw [sendFrame_idle hfits (s := { s with queue := { s.queue with head := nextIndex s s.queue.head } }) hidle,
    resolveDest_destOf]
  split <;> rfl

/-- Settles O24: push and dispatch on the list, the transmission by the request at its head. -/
theorem queueIsAFirstInFirstOutList : Obligations.QueueIsAFirstInFirstOutList := by
  intro s hw hq
  rw [length_queueContents]
  refine ⟨qcount_le hw, fun dst wait p hp hroom => ⟨?pushed, queueContents_enqueue hw hq hp hroom⟩,
    fun dst wait p hp hfull => enqueue_full hp hfull, fun dst wait p rest hcont hch => ?dispatched⟩
  case pushed => rw [enqueue_room hp (by omega)]
  case dispatched =>
    have hsome : 0 < qcount s := by
      rw [← length_queueContents, hcont]
      exact Nat.succ_pos _
    rw [queueContents_dispatch hw hq hsome] at hcont
    obtain ⟨hhead, hrest⟩ := List.cons_eq_cons.mp hcont
    have hhead : ((headEntry s).dst, (headEntry s).wait, entryPayload (headEntry s)) = (dst, wait, p) := hhead
    obtain ⟨rfl, hfields⟩ := Prod.mk.inj hhead
    obtain ⟨rfl, rfl⟩ := Prod.mk.inj hfields
    have hidle : s.fe.fstate ≠ .processing := by
      obtain ⟨hf, -⟩ := (channelIdle_iff s).mp hch
      simp [hf]
    refine ⟨hrest, ?_, ?_⟩ <;> rw [dispatchQueue_idle hidle (headEntry_fits hq)] <;> rfl

end Sys2Proof.Proofs.QueueList
end

section
/-! SUPPORT. The families 44_master_controller.md and 45_slave_controller.md: the tick of a quiet node
(47_tick_schedule.md R158), the master's choice of what to send (44_master_controller.md R135), the slave's timers,
backoff and SIGNAL (45_slave_controller.md R140 to R144). -/

namespace Sys2Proof.Proofs.QuietTicks

open Sys2Proof.Machine
open Sys2Proof.Proofs.SlaveController
open Sys2Proof.Proofs.WireCommands (transmission_of_master)

/-! ### Steps 4 to 6 of a quiet node's tick

There is no frame to parse or to count, and no wait to count or to consume. -/

section
variable {s : State}

theorem engineStep_quiet (hidle : s.fe.fstate = .idle) (hno : s.fe.rxActive = false) (hwait : s.rw.state = .none) :
    engineStep s = s := by
  have hbusy : busyTick s = s := if_neg (by simp [hidle, hno])
  have hrw : rwTick s = s := if_neg (by simp [hwait])
  rw [engineStep, if_neg (by simp [hidle]), hbusy, hrw]

theorem outcomeStep_quiet (hwait : s.rw.state = .none) : outcomeStep s = s := by
  rw [outcomeStep, if_neg (by simp [hwait]), if_neg (by simp [hwait])]

/-- A request sent from an idle channel, with its wait. -/
theorem sendRequest_idle (code : Byte) (kind : WaitKind) (d : Nibble) (h : s.fe.fstate ≠ .processing) :
    sendRequest code kind d s = { s with
      fe := idleEngine s.fe, rw := ⟨.pending, d, kind, 0#16⟩, txOut := s.txOut ++ transmission s d true [code] } := by
  rw [sendRequest, sendFrame_idle (by simp [maxPayload]) h, resolveDest_destOf]
  rfl

end

/-! ### What the master initiates (R135) -/

section
variable {s : State}

theorem masterInitiate_sendGetUid (h : s.hs.state = .sendGetUid) :
    masterInitiate s = setHs .waitUidAck (sendRequest codeGetUid .hsUid s.hs.addr s) := by rw [masterInitiate, h]

theorem masterInitiate_sendPing (h : s.hs.state = .sendPing) :
    masterInitiate s = setHs .waitPingAck (sendRequest codePing .hsPing s.hs.addr s) := by rw [masterInitiate, h]

theorem masterInitiate_waiting
    (h : s.hs.state = .waitAddrAck ∨ s.hs.state = .waitUidAck ∨ s.hs.state = .waitPingAck) : masterInitiate s = s := by
  rcases h with h | h | h <;> rw [masterInitiate, h]

theorem masterInitiate_due (h : s.hs.state = .idle) (ha : (scan s).2 ≠ 0#4) :
    masterInitiate s = pingSlot (scan s).2 (scan s).1 := by
  rw [masterInitiate, h]
  exact if_pos ha

theorem masterInitiate_noneDue (h : s.hs.state = .idle) (ha : (scan s).2 = 0#4) :
    masterInitiate s = if 0 < qcount s then dispatchQueue s else s := by
  rw [masterInitiate, h]
  exact if_neg (by simp [ha])

/-- The ping of a due slot, on an idle channel; `n` is the ping period. -/
theorem pingSlot_idle (a : Nibble) {n : Nat} (hn : s.params.pingPeriod = n) (h : s.fe.fstate ≠ .processing) :
    pingSlot a s = { s with
      fe := idleEngine s.fe, rw := ⟨.pending, a, .ping, 0#16⟩
      txOut := s.txOut ++ transmission s a true [codePing]
      roster := { s.roster with slots := s.roster.slots.modify (a.toNat - 1) (fun e =>
        { e with needsPing := false, pingCd := BitVec.ofNat 16 n }) } } := by
  subst hn
  rw [pingSlot, sendRequest_idle _ _ _ h]
  rfl

end

/-- SCAN moves its position only. -/
theorem scan_slots (s : State) : (scan s).1.roster.slots = s.roster.slots := by
  unfold scan
  split <;> rfl

/-- A quiet master's tick counts the roster down and initiates. -/
theorem step_quietMaster {s : State} {presence busy : Bool} {bo : Half} {nonce : Wide} {rest : List Event}
    (hrole : s.params.role = .master) (hq : Quiet s) (hdraw : legalDraw s bo)
    (hs : s.inputs = .tick presence busy bo nonce :: rest) :
    step s = .next (masterInitiate (liveness (beginEvent rest s))) := by
  obtain ⟨hind, hrun, hidle, hno, hopen, hwait⟩ := hq
  have hm : isMaster (beginEvent rest s) = true := (isMaster_iff s).mpr hrole
  have hch : channelIdle (liveness (beginEvent rest s)) = true := by
    rw [channelIdle_iff, liveness_fe]
    exact ⟨hidle, hno, hopen⟩
  have hfree : (liveness (beginEvent rest s)).rw.state ≠ .pending := by
    rw [liveness_rw]
    simp [beginEvent, hwait]
  rw [step_tick hrun hind hdraw hs, tick, if_pos hm, engineStep_quiet (by exact hidle) (by exact hno) (by exact hwait),
    outcomeStep_quiet (by exact hwait), masterStep, if_pos ⟨hch, hfree⟩]

/-- Settles O40, by the handshake's state and what is due. -/
theorem masterTickSendsByPriority : Obligations.MasterTickSendsByPriority := by
  intro s presence busy bo nonce rest hrole hq hdraw hs s0 s1 a
  refine ⟨masterInitiate s1, step_quietMaster hrole hq hdraw hs, ?_⟩
  have hfe : s1.fe = s.fe := liveness_fe s0
  have hhs : s1.hs = s.hs := liveness_hs s0
  have htx : s1.txOut = [] := liveness_txOut s0
  have hparams : s1.params = s.params := liveness_params s0
  have hcount : qcount s1 = qcount s := by
    rw [qcount, hparams, show s1.queue = s.queue from liveness_queue s0]
    rfl
  clear_value s1
  have hrole1 : s1.params.role = .master := hparams ▸ hrole
  have hheld : s1.fe.fstate ≠ .processing := by simp [hfe, hq.idle]
  refine ⟨fun h => ?getUid, fun h => ?ping, fun h ha => ?due, fun h ha hsome => ?dispatch, fun h ha hnone => ?nothing,
    fun h => masterInitiate_waiting (hhs ▸ h)⟩
  case getUid =>
    rw [masterInitiate_sendGetUid (hhs ▸ h), sendRequest_idle _ _ _ hheld, transmission_of_master hrole1, htx, hhs, hfe]
    rfl
  case ping =>
    rw [masterInitiate_sendPing (hhs ▸ h), sendRequest_idle _ _ _ hheld, transmission_of_master hrole1, htx, hhs, hfe]
    rfl
  case due =>
    have hscan : (scan s1).1.roster.slots = s1.roster.slots := scan_slots s1
    have hperiod : (scan s1).1.params.pingPeriod = s.params.pingPeriod := by rw [scan_params, hparams]
    rw [masterInitiate_due (hhs ▸ h) ha, pingSlot_idle _ hperiod (by rwa [scan_fe]),
      transmission_of_master (by rwa [scan_params]), scan_fe, scan_txOut, hscan, htx, hfe]
    rfl
  case dispatch => rw [masterInitiate_noneDue (hhs ▸ h) ha, if_pos (hcount ▸ hsome)]
  case nothing => rw [masterInitiate_noneDue (hhs ▸ h) ha, if_neg (by omega)]

/-! ### A quiet slave's tick -/

/-- The backoff after a tick (R141). -/
def backoffAfter (busy : Bool) (bo : Half) (s : State) : Half :=
  if busy then bo else if s.sl.backoff = 0#16 then 0#16 else s.sl.backoff - 1#16

/-- A slave after the supervision of a tick that goes on, the move to PLUGGED_IN with it. -/
def afterSupervision (presence busy : Bool) (bo : Half) (rest : List Event) (s : State) : State :=
  beside (supervisedRegs s.params presence busy bo) [] rest none (beginEvent rest s)

section
variable {presence busy : Bool} {bo : Half} {nonce : Wide} {rest : List Event} {s : State}

/-- A quiet slave's tick that goes on is the slave's step. -/
theorem step_quietSlave (hrole : s.params.role = .slave) (hq : Quiet s) (hdraw : legalDraw s bo)
    (hon : tickGoesOn presence s) (hs : s.inputs = .tick presence busy bo nonce :: rest) :
    step s = .next (slaveStep nonce (afterSupervision presence busy bo rest s)) := by
  obtain ⟨hind, hrun, hidle, hno, -, hwait⟩ := hq
  have hm : isMaster (beginEvent rest s) = false := (isMaster_eq_false_iff s).mpr hrole
  rw [step_tick hrun hind hdraw hs, tick_goesOn hm busy bo nonce (hon hrole),
    engineStep_quiet (by exact hidle) (by exact hno) (by exact hwait), outcomeStep_quiet (by exact hwait)]
  rfl

/-- The backoff of the supervision. -/
theorem supervisedRegs_backoff : (supervisedRegs s.params presence busy bo s.sl).backoff = backoffAfter busy bo s := by
  by_cases hzero : s.sl.backoff = 0#16
  · simp [supervisedRegs, backoffAfter, hzero]
  · have hpos : s.sl.backoff.toNat > 0 := Nat.pos_of_ne_zero fun h => hzero (BitVec.eq_of_toNat_eq h)
    simp only [supervisedRegs, backoffAfter, if_pos hpos, if_neg hzero]

/-- The supervision, `st` being the state it leaves the slave in. -/
theorem afterSupervision_eq {st : SlState} (hst : (supervisedRegs s.params presence busy bo s.sl).state = st) :
    afterSupervision presence busy bo rest s =
      { supervisedSlave presence (backoffAfter busy bo s) rest s with
        sl := { (supervisedSlave presence (backoffAfter busy bo s) rest s).sl with state := st } } := by
  subst hst
  rw [← supervisedRegs_backoff (presence := presence)]
  rfl

/-- Only a slave in DISCONNECTED is moved by its supervision. -/
theorem afterSupervision_kept
    (h : s.sl.state = .disconnected → ¬ (presence = true ∧ s.params.presenceDebounce ≤
      (supervisedSlave presence (backoffAfter busy bo s) rest s).sl.presCnt.toNat)) :
    afterSupervision presence busy bo rest s = supervisedSlave presence (backoffAfter busy bo s) rest s :=
  afterSupervision_eq (if_neg fun ⟨hst, hplugs⟩ => h hst hplugs)

theorem afterSupervision_pluggedIn
    (h : s.sl.state = .pluggedIn ∨ s.sl.state = .disconnected ∧ presence = true ∧ s.params.presenceDebounce ≤
      (supervisedSlave presence (backoffAfter busy bo s) rest s).sl.presCnt.toNat) :
    afterSupervision presence busy bo rest s =
      { supervisedSlave presence (backoffAfter busy bo s) rest s with
        sl := { (supervisedSlave presence (backoffAfter busy bo s) rest s).sl with state := .pluggedIn } } := by
  rcases h with hst | ⟨hst, hplugs⟩
  · exact afterSupervision_eq ((if_neg (by simp [hst])).trans hst)
  · exact afterSupervision_eq (if_pos ⟨hst, hplugs⟩)

end

/-! ### The slave's timers (R142) -/

section
variable {s : State} {n : Wide}

/-- A step of the slave's handshake within its time. -/
theorem slaveTimers_step (h : s.sl.state = .signalSent ∨ s.sl.state = .addrSet ∨ s.sl.state = .uidSent) :
    slaveTimers n s =
      let s1 := modifySlave (fun c => { c with hsCnt := c.hsCnt + 1#16 }) s
      if s.params.hsTimeout < s.sl.hsCnt.toNat + 1 then (slaveReset n s1, true) else (s1, false) := by
  rcases h with h | h | h <;> simp only [slaveTimers, h, gt_iff_lt]

theorem slaveTimers_connected (h : s.sl.state = .connected) :
    slaveTimers n s =
      let s1 := modifySlave (fun c => { c with nopingCnt := c.nopingCnt + 1#16 }) s
      if s.params.nopingTimeout < s.sl.nopingCnt.toNat + 1 then (slaveReset n s1, true) else (s1, false) := by
  simp only [slaveTimers, h, gt_iff_lt]

theorem slaveTimers_unconnected (h : s.sl.state = .disconnected ∨ s.sl.state = .pluggedIn) :
    slaveTimers n s = (s, false) := by
  rcases h with h | h <;> simp only [slaveTimers, h]

theorem slaveStep_ended {t : State} (h : slaveTimers n s = (t, true)) : slaveStep n s = t := by rw [slaveStep, h]

theorem slaveStep_goesOn {t : State} (h : slaveTimers n s = (t, false)) : slaveStep n s = slaveInitiate t := by
  rw [slaveStep, h]

/-! ### What the slave initiates (R143) -/

/-- A slave that may send. -/
structure MaySend (s : State) : Prop where
  channel : channelIdle s = true
  noWait : s.rw.state ≠ .pending
  backoff : s.sl.backoff = 0#16

theorem slaveInitiate_held (h : s.sl.backoff ≠ 0#16) : slaveInitiate s = s := if_neg fun ⟨_, _, hzero⟩ => h hzero

theorem slaveInitiate_nothing (hplug : s.sl.state ≠ .pluggedIn) (hconn : ¬ (s.sl.state = .connected ∧ 0 < qcount s)) :
    slaveInitiate s = s := by
  rw [slaveInitiate, if_neg hplug, if_neg hconn, ite_self]

theorem slaveInitiate_dispatch (h : MaySend s) (hconn : s.sl.state = .connected) (hsome : 0 < qcount s) :
    slaveInitiate s = dispatchQueue s := by
  rw [slaveInitiate, if_pos ⟨h.channel, h.noWait, h.backoff⟩, if_neg (by simp [hconn]), if_pos ⟨hconn, hsome⟩]

theorem slaveInitiate_signal (h : MaySend s) (hplug : s.sl.state = .pluggedIn) : slaveInitiate s = sendSignal s := by
  rw [slaveInitiate, if_pos ⟨h.channel, h.noWait, h.backoff⟩, if_pos hplug]

/-- SIGNAL from an idle slave (R144). -/
theorem sendSignal_idle (hrole : s.params.role = .slave) (h : s.fe.fstate ≠ .processing) :
    sendSignal s = { s with
      fe := idleEngine s.fe
      sl := { s.sl with state := .signalSent, hsCnt := 0#16 }
      txOut := s.txOut ++ (.txen true :: frameSymbols s.ownAddr 15#4 true
        (codeSignal :: hsVersion :: nonceBytes s.sl.nonce) ++ [.txen false]) } := by
  have hfits : (codeSignal :: hsVersion :: nonceBytes s.sl.nonce).length ≤ maxPayload := by
    simp [nonceBytes, maxPayload]
  rw [sendSignal, sendFrame_idle hfits h, resolveDest_destOf, transmission,
    if_neg (by simp [(isMaster_eq_false_iff s).mpr hrole]), own_of_slave hrole]
  rfl

end

/-! ### The statements on the slave -/

section
variable {s : State} (presence : Bool) (b : Half) (rest : List Event)

/-- The supervision leaves the channel and the wait as they were. -/
theorem maySend_supervisedSlave (hq : Quiet s) (hb : b = 0#16) : MaySend (supervisedSlave presence b rest s) :=
  ⟨(channelIdle_iff s).mpr ⟨hq.idle, hq.noFrame, hq.open_⟩, by simp [supervisedSlave, hq.noWait], hb⟩

/-- The reset of a slave whose timer has run out overwrites the timer. -/
theorem slaveReset_supervisedSlave (hrole : s.params.role = .slave) (n : Wide) (h k : Half) :
    slaveReset n (modifySlave (fun c => { c with hsCnt := h, nopingCnt := k }) (supervisedSlave presence b rest s)) =
      slaveAfterReset n (supervisedSlave presence b rest s) := slaveReset_eq (by exact hrole) n

end

/-- Settles O42, by the timer the state runs and where it stands. -/
theorem slaveTimersResetTheSlave : Obligations.SlaveTimersResetTheSlave := by
  intro s presence busy bo nonce rest hrole hq hdraw hon hs b s1 step1 noPing1
  have hstep := step_quietSlave (nonce := nonce) hrole hq hdraw hon hs
  have hsup (h : s.sl.state ≠ .disconnected) : afterSupervision presence busy bo rest s = s1 :=
    afterSupervision_kept fun hd => absurd hd h
  refine ⟨fun hst => ?handshake, fun hst => ?connected⟩
  case handshake =>
    have htimers := slaveTimers_step (s := s1) (n := nonce) hst
    have hlater : s.sl.state ≠ .disconnected ∧ s.sl.state ≠ .pluggedIn ∧ s.sl.state ≠ .connected := by
      rcases hst with h | h | h <;> simp [h]
    obtain ⟨hdisc, hplug, hconn⟩ := hlater
    rw [hstep, hsup hdisc]
    refine ⟨fun hle => congrArg _ ?counted, fun hlast => congrArg _ ?reset⟩
    case counted =>
      have hgo : slaveTimers nonce s1 = (step1, false) := htimers.trans (if_neg (Nat.not_lt.mpr hle))
      rw [slaveStep_goesOn hgo]
      exact slaveInitiate_nothing hplug fun h => hconn h.1
    case reset =>
      have hlate : s1.params.hsTimeout < s1.sl.hsCnt.toNat + 1 := Nat.lt_succ_of_le hlast.ge
      rw [slaveStep_ended (htimers.trans (if_pos hlate))]
      exact slaveReset_supervisedSlave presence b rest hrole nonce (s.sl.hsCnt + 1#16) s.sl.nopingCnt
  case connected =>
    have htimers := slaveTimers_connected (s := s1) (n := nonce) hst
    rw [hstep, hsup (by simp [hst])]
    refine ⟨fun hle => ?counted, fun hlast => congrArg _ ?reset⟩
    case counted =>
      have hgo : slaveTimers nonce s1 = (noPing1, false) := htimers.trans (if_neg (Nat.not_lt.mpr hle))
      have hplug : noPing1.sl.state ≠ .pluggedIn := by
        rw [show noPing1.sl.state = .connected from hst]
        simp
      rw [slaveStep_goesOn hgo]
      refine ⟨fun hb hsome => congrArg _ ?dispatch, fun hno => congrArg _ ?nothing⟩
      case dispatch =>
        obtain ⟨hch, hwait, hback⟩ := maySend_supervisedSlave presence b rest hq hb
        exact slaveInitiate_dispatch ⟨hch, hwait, hback⟩ hst hsome
      case nothing =>
        rcases hno with hb | hnone
        · exact slaveInitiate_held hb
        · exact slaveInitiate_nothing hplug fun h => absurd hnone h.2.ne'
    case reset =>
      have hlate : s1.params.nopingTimeout < s1.sl.nopingCnt.toNat + 1 := Nat.lt_succ_of_le hlast.ge
      rw [slaveStep_ended (htimers.trans (if_pos hlate))]
      exact slaveReset_supervisedSlave presence b rest hrole nonce s.sl.hsCnt (s.sl.nopingCnt + 1#16)

/-- Settles O43, by the backoff the supervision leaves. -/
theorem pluggedInSlaveSendsSignal : Obligations.PluggedInSlaveSendsSignal := by
  intro s presence busy bo nonce rest hrole hq hdraw hon hs b s1 plugs
  have hstep := step_quietSlave (nonce := nonce) hrole hq hdraw hon hs
  refine ⟨fun hin => ?plugged, fun hst hno => ?disconnected⟩
  case plugged =>
    set u : State := { s1 with sl := { s1.sl with state := .pluggedIn } } with hu
    have hsup : afterSupervision presence busy bo rest s = u := afterSupervision_pluggedIn hin
    rw [hstep, hsup, slaveStep_goesOn (slaveTimers_unconnected (.inr rfl))]
    refine ⟨fun hb => congrArg _ (slaveInitiate_held hb), fun hb => congrArg _ ?signal⟩
    obtain ⟨hch, hwait, hback⟩ := maySend_supervisedSlave presence b rest hq hb
    have hmay : MaySend u := ⟨hch, hwait, hback⟩
    have hheld : u.fe.fstate ≠ .processing := by
      rw [show u.fe.fstate = .idle from hq.idle]
      simp
    rw [slaveInitiate_signal hmay rfl, sendSignal_idle (by exact hrole) hheld]
    rfl
  case disconnected =>
    have hsup : afterSupervision presence busy bo rest s = s1 := afterSupervision_kept fun _ => hno
    have hplug : s1.sl.state ≠ .pluggedIn := by
      rw [show s1.sl.state = .disconnected from hst]
      simp
    have hconn : s1.sl.state ≠ .connected := by
      rw [show s1.sl.state = .disconnected from hst]
      simp
    rw [hstep, hsup, slaveStep_goesOn (slaveTimers_unconnected (s := s1) (.inl hst)),
      slaveInitiate_nothing hplug fun h => hconn h.1]

end Sys2Proof.Proofs.QuietTicks
end

section
/-! SUPPORT. E1 of 95_test_vectors.md: a DATA frame from its symbols to READ. The bytes are accumulated one by one
(41_frame_engine.md R88), PARSE latches them (R95), READ copies the payload and checks the sum (R93, R96). -/

namespace Sys2Proof.Proofs.DeliveredFrame

open Sys2Proof.Machine
open Sys2Proof.Proofs.FrameEngine
open Sys2Proof.Proofs.FrameOperations
open Sys2Proof.Proofs.ReservedCodes (step_hostOp)

/-! ### The buffer as the string written into it -/

theorem writeFrom_append (m : Memory) (i : Nat) (bs cs : List Byte) :
    m.writeFrom i (bs ++ cs) = (m.writeFrom i bs).writeFrom (i + bs.length) cs := by
  induction bs generalizing m i with
  | nil => rfl
  | cons b bs ih => rw [List.cons_append, Memory.writeFrom, ih, Memory.writeFrom, List.length_cons, Nat.add_right_comm,
      Nat.add_assoc]

/-- One more byte of the string is one write. -/
theorem writeFrom_snoc (m : Memory) (bs : List Byte) (b : Byte) :
    (m.writeFrom 0 bs).write bs.length b = m.writeFrom 0 (bs ++ [b]) := by
  rw [writeFrom_append, Nat.zero_add]
  rfl

theorem read_writeFrom (m : Memory) (bs : List Byte) {k : Nat} (hk : k < bs.length) :
    (m.writeFrom 0 bs).read k = bs[k] := by
  have hread := Memory.getElem_readFrom (m.writeFrom 0 bs) 0 bs.length k (by rwa [Memory.length_readFrom])
  rw [Nat.zero_add] at hread
  rw [← hread]
  simp only [Memory.readFrom_writeFrom]

/-- A part of the string is read back from where it stands. -/
theorem readFrom_writeFrom_middle (m : Memory) (xs ys zs : List Byte) :
    (m.writeFrom 0 (xs ++ ys ++ zs)).readFrom xs.length ys.length = ys := by
  have hall := Memory.readFrom_writeFrom m 0 (xs ++ ys ++ zs)
  rw [List.length_append, List.length_append, Memory.readFrom_append, Memory.readFrom_append, Nat.zero_add] at hall
  obtain ⟨hfront, -⟩ := List.append_inj hall (by simp)
  exact (List.append_inj hfront (by simp)).2

/-! ### A frame being received -/

/-- The node that has received the bytes `bs` of a frame, `rest` being the events to come. -/
def accumulated (bs : List Byte) (rest : List Event) (s : State) : State :=
  { s with
    fe := { s.fe with
      rxBuf := s.fe.rxBuf.writeFrom 0 bs, rxCnt := BitVec.ofNat 8 bs.length, rxActive := true, busyCnt := 0#16 }
    inputs := rest, txOut := [], result := none }

/-- The node that has received the whole frame `bs`. -/
def arrived (bs : List Byte) (rest : List Event) (s : State) : State :=
  { s with
    fe := { s.fe with
      rxBuf := s.fe.rxBuf.writeFrom 0 bs, rxCnt := BitVec.ofNat 8 bs.length, rxActive := false, busyCnt := 0#16
      fstate := .ready, rxEn := false }
    inputs := rest, txOut := [], result := none }

/-- A node between frames that can receive one. -/
structure Listening (s : State) : Prop where
  indices : IndicesOk s
  running : s.halted = false
  open_ : s.fe.rxEn = true
  idle : s.fe.fstate = .idle

section
variable {s : State}

/-- The first byte, with the address mark. -/
theorem step_firstByte {a : Byte} {rest : List Event} (hs : Listening s) (hin : s.inputs = .rxByte a true :: rest) :
    step s = .next (accumulated [a] rest s) := by
  rw [step_rxByte hin, rxByteEvent_marked (by exact hs.running) (by exact hs.open_)]
  rfl

/-- The count of a frame that fits the buffer does not wrap. -/
theorem toNat_rxCnt_accumulated {bs : List Byte} (rest : List Event) (h : bs.length ≤ 127) :
    (accumulated bs rest s).fe.rxCnt.toNat = bs.length := by
  rw [accumulated, BitVec.toNat_ofNat, Nat.mod_eq_of_lt (by omega)]

theorem indicesOk_accumulated {bs : List Byte} (rest : List Event) (hs : Listening s) (h : bs.length ≤ 127) :
    IndicesOk (accumulated bs rest s) := by
  obtain ⟨hcounts, -, -, hqueue, hroster, huids, hwait⟩ := hs.indices
  have hnotReady : (accumulated bs rest s).fe.fstate ≠ .ready := by simp [accumulated, hs.idle]
  exact ⟨hcounts, fun hready => absurd hready hnotReady, fun _ => (toNat_rxCnt_accumulated rest h).trans_le h, hqueue,
    hroster, huids, hwait⟩

/-- A byte of a frame under way: `bs` stands before it. -/
theorem step_nextByte {bs : List Byte} {b : Byte} {rest : List Event} (hs : Listening s) (hlen : bs.length ≤ 127) :
    step (accumulated bs (.rxByte b false :: rest) s) = .next (appendByte b (accumulated bs rest s)) := by
  have hbegin : beginEvent rest (accumulated bs (.rxByte b false :: rest) s) = accumulated bs rest s := rfl
  rw [step_rxByte rfl, hbegin, rxByteEvent_inside (by exact hs.running) (by exact hs.open_) b rfl
    (indicesOk_accumulated _ hs hlen)]

/-- The bytes of a frame: a legal length in the second one, and as many bytes as it asks for. -/
structure FrameOf (a m : Byte) (tail : List Byte) : Prop where
  legal : (metaLen m).toNat ≤ 124
  whole : tail.length = (metaLen m).toNat + 2

/-- What the next byte of a frame does: it completes the frame where nothing is left behind it. -/
theorem appendByte_accumulated {a m b : Byte} {tail bs after : List Byte} (rest : List Event) (hf : FrameOf a m tail)
    (hbs : bs ≠ []) (hall : bs ++ b :: after = a :: m :: tail) :
    appendByte b (accumulated bs rest s) =
      if after = [] then arrived (bs ++ [b]) rest s else accumulated (bs ++ [b]) rest s := by
  obtain ⟨hlegal, hwhole⟩ := hf
  have hpos : 1 ≤ bs.length := List.length_pos_iff.mpr hbs
  have hcount : bs.length + 1 + after.length = (metaLen m).toNat + 4 := by
    have := congrArg List.length hall
    simp only [List.length_append, List.length_cons] at this
    omega
  have hcnt := toNat_rxCnt_accumulated (s := s) (bs := bs) rest (by omega)
  have hsecond : bs.length = 1 → b = m := by
    intro hone
    obtain ⟨x, rfl⟩ := List.length_eq_one_iff.mp hone
    simp_all
  have hreserved : ¬ ((accumulated bs rest s).fe.rxCnt = 1#8 ∧ (metaLen b).toNat > 124) := by
    rintro ⟨hone, hbig⟩
    rw [hone] at hcnt
    rw [hsecond hcnt.symm] at hbig
    omega
  have hfield : lenWith b (accumulated bs rest s) = (metaLen m).toNat := by
    have hwrite : (accumulated bs rest s).fe.rxBuf.write (accumulated bs rest s).fe.rxCnt.toNat b =
        s.fe.rxBuf.writeFrom 0 (bs ++ [b]) := by
      rw [hcnt]
      exact writeFrom_snoc _ bs b
    have hlt : 1 < (bs ++ [b]).length := by
      rw [List.length_append, List.length_singleton]
      omega
    have hat : (bs ++ [b])[1] = m := by
      have hsame : (bs ++ [b] ++ after)[1]? = some m := by
        rw [List.append_assoc, List.singleton_append, hall]
        rfl
      rw [List.getElem?_append_left hlt, List.getElem?_eq_getElem hlt] at hsame
      exact Option.some.inj hsame
    rw [lenWith, hwrite, read_writeFrom _ _ hlt, hat]
  have hnext : (accumulated bs rest s).fe.rxCnt + 1#8 = BitVec.ofNat 8 (bs ++ [b]).length := by
    rw [List.length_append, List.length_singleton, BitVec.ofNat_add]
    rfl
  have hlast : 1 ≤ bs.length ∧ bs.length + 1 = (metaLen m).toNat + 4 ↔ after = [] := by
    rw [← List.length_eq_zero_iff]
    omega
  rw [appendByte_eq b (by omega), if_neg hreserved, hcnt, hfield, hnext]
  simp only [hlast]
  rw [show (accumulated bs rest s).fe.rxBuf = s.fe.rxBuf.writeFrom 0 bs from rfl, writeFrom_snoc]
  rfl

/-- One step and the rest of a run. -/
theorem run_succ {s t : State} (k : Nat) (h : step s = .next t) :
    Host.Core.run core (k + 1) s = Host.Core.run core k t := by
  have hcore : core.step s = .next t := h
  simp only [Host.Core.run, hcore]

/-- The unmarked bytes of a frame, as events. -/
def unmarked (bs : List Byte) : List Event := bs.map fun b => .rxByte b false

/-- The rest of a frame's bytes bring it to READY. -/
theorem run_unmarked {a m : Byte} {tail after : List Byte} (rest : List Event) (hs : Listening s)
    (hf : FrameOf a m tail) (bs : List Byte) (hbs : bs ≠ []) (hafter : after ≠ [])
    (hall : bs ++ after = a :: m :: tail) :
    Host.Core.run core after.length (accumulated bs (unmarked after ++ rest) s) =
      .next (arrived (a :: m :: tail) rest s) := by
  induction after generalizing bs with
  | nil => exact absurd rfl hafter
  | cons b after ih =>
    have hlen : bs.length ≤ 127 := by
      have hcount := congrArg List.length hall
      have := hf.legal
      have := hf.whole
      simp only [List.length_append, List.length_cons] at hcount
      omega
    have hmore : bs ++ [b] ++ after = a :: m :: tail := by rw [List.append_assoc, List.singleton_append, hall]
    refine (run_succ _ (step_nextByte hs hlen)).trans ?_
    rw [appendByte_accumulated _ hf hbs hall]
    by_cases hend : after = []
    · rw [List.append_assoc, hend] at hmore
      rw [if_pos hend, hend, ← hmore]
      rfl
    · rw [if_neg hend]
      exact ih (bs ++ [b]) (by simp) hend hmore

/-- The whole frame, from its marked byte on. -/
theorem run_frame {a m : Byte} {tail : List Byte} (rest : List Event) (hs : Listening s) (hf : FrameOf a m tail)
    (hin : s.inputs = .rxByte a true :: unmarked (m :: tail) ++ rest) :
    Host.Core.run core (tail.length + 2) s = .next (arrived (a :: m :: tail) rest s) :=
  (run_succ _ (step_firstByte hs hin)).trans (run_unmarked rest hs hf [a] (by simp) (by simp) rfl)

/-! ### The frame that arrives -/

/-- The bytes a DATA frame puts behind its header. -/
def dataTail (src d : Nibble) (p : List Byte) : List Byte :=
  p ++ crcBytes (crc16 (addrByte src d :: metaByte false p.length :: p))

theorem metaLen_toNat {p : List Byte} (hp : p.length ≤ 124) : (metaLen (metaByte false p.length)).toNat = p.length := by
  rw [metaLen_metaByte, BitVec.toNat_ofNat, Nat.mod_eq_of_lt (by omega)]

theorem frameOf_data (src d : Nibble) {p : List Byte} (hp : p.length ≤ 124) :
    FrameOf (addrByte src d) (metaByte false p.length) (dataTail src d p) :=
  ⟨by rwa [metaLen_toNat hp], by rw [metaLen_toNat hp, dataTail, List.length_append]; rfl⟩

theorem rxEvents_bytes (bs : List Byte) : rxEvents (bs.map fun b => .byte b false) = unmarked bs := by
  induction bs with
  | nil => rfl
  | cons b bs ih => exact congrArg (Event.rxByte b false :: ·) ih

/-- The events of a DATA frame's symbols. -/
theorem rxEvents_data (src d : Nibble) (p : List Byte) : rxEvents (frameSymbols src d false p) =
    .rxByte (addrByte src d) true :: unmarked (metaByte false p.length :: dataTail src d p) := by
  rw [frameSymbols_eq]
  exact congrArg (fun es => Event.rxByte _ true :: Event.rxByte _ false :: es) (rxEvents_bytes _)

/-- A DATA frame has arrived whole: its header, its payload and its sum lie in the buffer. -/
structure Delivered (src d : Nibble) (p : List Byte) (s : State) : Prop where
  addr : s.fe.rxBuf.read 0 = addrByte src d
  header : s.fe.rxBuf.read 1 = metaByte false p.length
  payload : s.fe.rxBuf.readFrom 2 p.length = p
  sum : s.fe.rxBuf.readFrom (2 + p.length) 2 = crcBytes (crc16 (addrByte src d :: metaByte false p.length :: p))

theorem delivered_arrived (src d : Nibble) (p : List Byte) (rest : List Event) (s : State) :
    Delivered src d p (arrived (addrByte src d :: metaByte false p.length :: dataTail src d p) rest s) where
  addr := read_writeFrom _ _ (by simp)
  header := read_writeFrom _ _ (by simp)
  payload := readFrom_writeFrom_middle _ [addrByte src d, metaByte false p.length] p _
  sum := by
    have hread := readFrom_writeFrom_middle s.fe.rxBuf ([addrByte src d, metaByte false p.length] ++ p)
      (crcBytes (crc16 (addrByte src d :: metaByte false p.length :: p))) []
    rw [List.append_nil, List.length_append, List.append_assoc] at hread
    exact hread

theorem indicesOk_arrived_data {src d : Nibble} {p : List Byte} (rest : List Event) (hs : Listening s)
    (hp : p.length ≤ 124) :
    IndicesOk (arrived (addrByte src d :: metaByte false p.length :: dataTail src d p) rest s) := by
  obtain ⟨hcounts, -, -, hqueue, hroster, huids, hwait⟩ := hs.indices
  refine ⟨hcounts, fun _ => ?_, fun hactive => absurd hactive Bool.false_ne_true, hqueue, hroster, huids, hwait⟩
  rw [(delivered_arrived src d p rest s).header, metaLen_toNat hp]
  exact hp

/-- FINISH of a frame with a right sum leaves the verdict VALID, whatever else it does. -/
theorem finish_crcSt {p : List Byte} (h : FrameValid p s) : (finish (foldBytes p s.fe.fLen s)).1.fe.crcSt = .valid := by
  rw [finish_foldBytes_valid h]
  split_ifs <;> rfl

end

/-! ### PARSE and READ of the frame -/

/-- The frame a PARSE has latched lies in its buffer. -/
theorem indicesOk_latched {s : State} (hi : IndicesOk s) (hready : s.fe.fstate = .ready) :
    IndicesOk (noteSender (latchHeader s)) := by
  obtain ⟨-, hlegal, hcount, hqueue, hroster, huids, hwait⟩ := hi
  have hheld : (noteSender (latchHeader s)).fe.fstate ≠ .ready := by simp
  exact ⟨⟨hlegal hready, Nat.zero_le _⟩, fun h => absurd h hheld, hcount, hqueue, hroster, huids, hwait⟩

/-- An arrived frame that this node is to parse. -/
structure Awaiting (src d : Nibble) (p : List Byte) (s : State) : Prop where
  delivered : Delivered src d p s
  fits : p.length ≤ 124
  running : s.halted = false
  indices : IndicesOk s
  ready : s.fe.fstate = .ready
  mine : d = own s ∨ d = 0#4

section
variable {src d : Nibble} {p : List Byte} {s : State} (h : Awaiting src d p s)
include h

theorem latched_fLen : (noteSender (latchHeader s)).fe.fLen = BitVec.ofNat 7 p.length := by
  rw [noteSender_fe, latchHeader_fe, ← metaLen_metaByte false p.length, ← h.delivered.header]

theorem latched_fLen_toNat : (noteSender (latchHeader s)).fe.fLen.toNat = p.length := by
  have hfits := h.fits
  rw [latched_fLen h, BitVec.toNat_ofNat, Nat.mod_eq_of_lt (by omega)]

/-- The sum over the whole frame is 0 (R79). -/
theorem frameValid_latched : FrameValid p (noteSender (latchHeader s)) := by
  have hacc : (noteSender (latchHeader s)).fe.crcAcc =
      crcFold 0xFFFF#16 [addrByte src d, metaByte false p.length] := by
    rw [noteSender_fe, latchHeader_fe, h.delivered.addr, h.delivered.header]
  have htrail : trailer (noteSender (latchHeader s)) =
      crcBytes (crc16 (addrByte src d :: metaByte false p.length :: p)) := by
    rw [trailer, latched_fLen_toNat h]
    exact h.delivered.sum
  have hzero := CrcDetection.appendedCrcLeavesResidueZero (addrByte src d :: metaByte false p.length :: p)
  rw [FrameValid, hacc, htrail]
  exact hzero

theorem latched_lastAddr : (noteSender (latchHeader s)).lastAddr = src := by
  rw [noteSender_lastAddr, latchHeader_fe, h.delivered.addr, addrSrc_addrByte]

theorem header_data : metaMode (s.fe.rxBuf.read 1) = false := by rw [h.delivered.header, metaMode_metaByte]

theorem header_mine : addrDst (s.fe.rxBuf.read 0) = own s ∨ addrDst (s.fe.rxBuf.read 0) = 0#4 := by
  rw [h.delivered.addr, addrDst_addrByte]
  exact h.mine

/-- PARSE of an arrived frame with a payload. -/
theorem exec_parse_payload (hne : p ≠ []) :
    exec .parse s = .next (succeed (.word8 (BitVec.ofNat 8 p.length)) (noteSender (latchHeader s))) := by
  have hlen : metaLen (s.fe.rxBuf.read 1) = BitVec.ofNat 7 p.length := latched_fLen h
  have hpos := List.length_pos_iff.mpr hne
  have hfits := h.fits
  have hwide : (BitVec.ofNat 7 p.length).setWidth 8 = BitVec.ofNat 8 p.length := by bv_omega
  rw [exec_parse_data h.running h.indices h.ready (header_mine h) (header_data h) (by rw [hlen]; bv_omega), hlen, hwide]

/-- PARSE of an arrived frame without a payload. -/
theorem exec_parse_noPayload (hempty : p = []) :
    exec .parse s = .next (succeed (.word8 (BitVec.ofNat 8 p.length)) (finish (noteSender (latchHeader s))).1) := by
  have hlen : metaLen (s.fe.rxBuf.read 1) = BitVec.ofNat 7 p.length := latched_fLen h
  subst hempty
  exact exec_parse_empty h.running h.indices h.ready (header_mine h) (header_data h) hlen

/-- The sum of a frame without a payload is right. -/
theorem finish_noPayload (hempty : p = []) : (finish (noteSender (latchHeader s))).1.fe.crcSt = .valid := by
  have hlen := latched_fLen h
  have hvalid := finish_crcSt (frameValid_latched h)
  subst hempty
  rw [hlen] at hvalid
  exact hvalid

/-- READ of the whole payload, from the latched frame. -/
theorem exec_read_latched {n : Byte} (hn : p.length ≤ n.toNat) :
    ∃ t, exec (.read n) (beginEvent [] (noteSender (latchHeader s))) =
      .next (succeed (.bytes (BitVec.ofNat 8 p.length) p .valid) t) := by
  set u := beginEvent [] (noteSender (latchHeader s)) with hu
  have hlen : u.fe.fLen.toNat = p.length := latched_fLen_toNat h
  have hleft : u.fe.fLen.toNat - u.fe.rdIdx.toNat = p.length := hlen
  have hcount : readCount n u = p.length := by rw [readCount, hleft, Nat.min_eq_right hn]
  have hout : readOut n u = p := by
    rw [readOut, hcount]
    exact h.delivered.payload
  have hindices : IndicesOk u := indicesOk_latched h.indices h.ready
  have hverdict : (readBytes n u).1.fe.crcSt = .valid := by
    rw [readBytes_last hindices.1 (hcount.trans hleft.symm), hout]
    exact finish_crcSt (by exact frameValid_latched h)
  rw [exec_read_open (by exact h.running) rfl (by exact header_data h) rfl hindices, hcount, hout, hverdict]
  exact ⟨_, rfl⟩

end

/-- Settles O11: the bytes by induction over them, then PARSE and READ of the frame that has arrived. -/
theorem transmittedDataFrameIsReadBack : Obligations.TransmittedDataFrameIsReadBack := by
  intro src d p s n hp hn hi hrun hch hmine hin
  obtain ⟨hidle, -, hopen⟩ := (channelIdle_iff s).mp hch
  have hs : Listening s := ⟨hi, hrun, hopen, hidle⟩
  have hdeliver := run_frame [.hostOp 0x10#8 [], .hostOp 0x11#8 [n]] hs (frameOf_data src d hp)
    (by rw [hin, rxEvents_data])
  rw [(frameOf_data src d hp).whole, metaLen_toNat hp] at hdeliver
  set t1 := arrived (addrByte src d :: metaByte false p.length :: dataTail src d p)
    [.hostOp 0x10#8 [], .hostOp 0x11#8 [n]] s with ht1
  set v := beginEvent [.hostOp 0x11#8 [n]] t1 with hv
  have hwait : Awaiting src d p v :=
    ⟨delivered_arrived src d p _ s, hp, hrun, indicesOk_arrived_data _ hs hp, rfl, hmine⟩
  have hparse : step t1 = exec .parse v := step_hostOp (tail := []) rfl rfl
  by_cases hempty : p = []
  · refine ⟨t1, _, hdeliver, rfl, rfl, rfl, hparse.trans (exec_parse_noPayload hwait hempty), rfl, ?_, fun _ => ?_,
      fun hne => absurd hempty hne⟩
    · exact (finish_lastAddr _).trans (latched_lastAddr hwait)
    · exact finish_noPayload hwait hempty
  · refine ⟨t1, _, hdeliver, rfl, rfl, rfl, hparse.trans (exec_parse_payload hwait hempty), rfl, latched_lastAddr hwait,
      fun he => absurd he hempty, fun _ => ?_⟩
    obtain ⟨t, hread⟩ := exec_read_latched hwait hn
    exact ⟨_, (step_hostOp (tail := []) rfl rfl).trans hread, rfl⟩

end Sys2Proof.Proofs.DeliveredFrame
end

section
/-! SUPPORT. PARSE where it meets a command (41_frame_engine.md R95, 30_encoding.md R68), and as step 4 of the tick
(47_tick_schedule.md R158). -/

namespace Sys2Proof.Proofs.ParseInTick

open Sys2Proof.Machine
open Sys2Proof.Proofs.Invariants
open Sys2Proof.Proofs.SlaveController
open Sys2Proof.Proofs.DeliveredFrame (indicesOk_latched)

/-! ### The whole invariant is kept -/

/-- Two properties that the parts of a step keep are kept together. -/
theorem keptByParts_and {P Q : State → Prop} (hP : KeptByParts P) (hQ : KeptByParts Q) :
    KeptByParts fun s => P s ∧ Q s where
  begin_ rest s h := ⟨hP.begin_ rest s h.1, hQ.begin_ rest s h.2⟩
  answer r s h := ⟨hP.answer r s h.1, hQ.answer r s h.2⟩
  reset cfg nonce0 s h := ⟨hP.reset cfg nonce0 s h.1, hQ.reset cfg nonce0 s h.2⟩
  mark b s h hr he := ⟨hP.mark b s h.1 hr he, hQ.mark b s h.2 hr he⟩
  byte b s h hr ha hi := ⟨hP.byte b s h.1 hr ha hi, hQ.byte b s h.2 hr ha hi⟩
  tick p b bo n s h hr hd hi := ⟨hP.tick p b bo n s h.1 hr hd hi, hQ.tick p b bo n s h.2 hr hd hi⟩
  parse s h hr hi := ⟨hP.parse s h.1 hr hi, hQ.parse s h.2 hr hi⟩
  read n s h hr hp hi := ⟨hP.read n s h.1 hr hp hi, hQ.read n s h.2 hr hp hi⟩
  send d m p s h hr := ⟨hP.send d m p s h.1 hr, hQ.send d m p s h.2 hr⟩
  push d w p s h := ⟨hP.push d w p s h.1, hQ.push d w p s h.2⟩
  replyRead s h := ⟨hP.replyRead s h.1, hQ.replyRead s h.2⟩

theorem inv_iff (s : State) : Inv s ↔
    EngineInv s ∧ RingOk s ∧ RosterOk s ∧ SlaveInv s ∧ CountersOk s ∧ MemoryInv s := by
  constructor
  · rintro ⟨hw, he, hq, hr, hs, hc, hm⟩
    exact ⟨he, ⟨hw, hq⟩, ⟨hw, hr⟩, hs, (countersOk_iff hw).mpr hc, hm⟩
  · rintro ⟨he, ⟨hw, hq⟩, ⟨-, hr⟩, hs, hc, hm⟩
    exact ⟨hw, he, hq, hr, hs, (countersOk_iff hw).mp hc, hm⟩

theorem inv_kept : KeptByParts Machine.Inv := by
  rw [show Machine.Inv = fun s => EngineInv s ∧ RingOk s ∧ RosterOk s ∧ SlaveInv s ∧ CountersOk s ∧ MemoryInv s from
    funext fun s => propext (inv_iff s)]
  exact keptByParts_and engineInv_kept (keptByParts_and ringOk_kept (keptByParts_and rosterOk_kept
    (keptByParts_and slaveInv_kept (keptByParts_and countersOk_kept memoryInv_kept))))

/-! ### PARSE of a CMD frame -/

/-- PARSE of a CMD frame for this node is the meaning of its command. -/
theorem exec_parse_command {s : State} (hrun : s.halted = false) (hi : IndicesOk s) (hr : s.fe.fstate = .ready)
    (hm : metaMode (s.fe.rxBuf.read 1) = true)
    (hd : addrDst (s.fe.rxBuf.read 0) = own s ∨ addrDst (s.fe.rxBuf.read 0) = 0#4) :
    ∃ t, exec (decodeCommand (framePayload (noteSender (latchHeader s)))) (noteSender (latchHeader s)) = .next t ∧
      exec .parse s = .next (succeed (.word8 noBytes) t) := by
  have hf := decodeCommand_format (framePayload (noteSender (latchHeader s)))
  refine ⟨_, exec_command hf (indicesOk_latched hi hr), ?_⟩
  rw [execParse_running hrun hi, parseFrame_command hr ((not_foreign_latchHeader s).mpr hd) hm, runCommand_eq hf]

/-! ### PARSE as a part of the tick -/

/-- PARSE leaves no frame ready. -/
theorem parseFrame_fstate {s : State} (hi : IndicesOk s) : (parseFrame s).1.fe.fstate ≠ .ready := by
  obtain ⟨-, hlegal, -⟩ := hi
  rcases parseFrame_cases hlegal with ⟨hno, e⟩ | ⟨-, hidle | e | e⟩
  · rwa [e]
  · simp [hidle.fstate]
  · simp [e]
  · simp [e, verified]

/-- Steps 4 and 5 of the tick are those of what PARSE leaves. -/
theorem engineStep_parsed {s : State} (hi : IndicesOk s) (hr : s.fe.fstate = .ready) :
    engineStep s = engineStep (parseFrame s).1 := by
  rw [engineStep, if_pos hr, engineStep, if_neg (parseFrame_fstate hi)]

/-- Fixing the absence count is a change that no command sees. -/
theorem unseen_absCnt (c : Half) : Unseen fun r => { r with absCnt := c } where
  state _ _ := rfl
  early _ h := .inl h
  nonce _ := rfl
  uid _ := ⟨rfl, rfl⟩
  move _ _ _ _ _ _ _ := rfl
  keep _ := ⟨rfl, rfl, rfl⟩

/-- PARSE leaves the absence count alone: it commutes with fixing it at what it is. -/
theorem parseFrame_absCnt (s : State) : (parseFrame s).1.sl.absCnt = s.sl.absCnt := by
  have hfixed := parseFrame_beside (fun r => { r with absCnt := s.sl.absCnt }) [] s.inputs s.result s
    (unseen_absCnt s.sl.absCnt)
  exact congrArg (fun t => t.sl.absCnt) hfixed

/-- A tick that goes on and finds a frame ready is the tick of what PARSE leaves. -/
theorem tick_parsed {presence : Bool} (busy : Bool) (bo : Half) (n : Wide) {s : State} (hi : IndicesOk s)
    (hr : s.fe.fstate = .ready) (hon : tickGoesOn presence s) :
    tick presence busy bo n s = tick presence busy bo n (parseFrame s).1 := by
  have hm' : isMaster (parseFrame s).1 = isMaster s := by rw [isMaster, isMaster, parseFrame_params]
  cases hm : isMaster s
  · have hslave := (isMaster_eq_false_iff s).mp hm
    have hon' : presence = true ∨ (parseFrame s).1.sl.absCnt.toNat + 1 ≠ (parseFrame s).1.params.presenceDebounce := by
      rw [parseFrame_absCnt, parseFrame_params]
      exact hon hslave
    rw [tick_goesOn hm busy bo n (hon hslave), tick_goesOn (hm'.trans hm) busy bo n hon', engineStep_parsed
      (by exact hi) (by exact hr), parseFrame_beside _ _ _ _ _ (unseen_supervisedRegs _ _ _ _), parseFrame_params,
      parseFrame_inputs, parseFrame_result]
  · rw [tick, if_pos hm, engineStep_parsed hi hr, tick, if_pos (hm'.trans hm)]

/-- What PARSE leaves from a state with the invariant has its indices in range. -/
theorem indicesOk_parsed {s : State} (h : Machine.Inv s) (hrun : s.halted = false) :
    IndicesOk (parseFrame s).1 :=
  indicesOk_of_inv (inv_kept.parse s h hrun (indicesOk_of_inv h))

/-- A state is what it is beside nothing, under its own outputs, events and record. -/
theorem eq_beside {s : State} {es : List Event} {r : Option HostResult} (hin : s.inputs = es) (hr : s.result = r) :
    s = beside id s.txOut es r (beginEvent es s) := by
  subst hin hr
  rw [beside, beginEvent, List.append_nil]
  rfl

/-- Settles O14: the command's meaning is `exec_parse_command`; the tick's part is `tick_parsed`, with the outputs put
back by `tick_beside`. -/
theorem parseRunsTheDecodedCommand : Obligations.ParseRunsTheDecodedCommand := by
  refine ⟨fun s hrun hi hr => exec_parse_command hrun hi hr,
    fun s presence busy bo nonce rest h hrun hr hdraw hon hs => ?_⟩
  have hi := indicesOk_of_inv h
  set b := beginEvent rest s with hb
  set w := (parseFrame b).1 with hw
  have hparse : (parseFrame { s with txOut := [] }).1 = beside id [] s.inputs s.result w :=
    parseFrame_beside id [] s.inputs s.result b unseen_id
  set u := succeed (.word8 (parseFrame { s with txOut := [] }).2) (parseFrame { s with txOut := [] }).1 with hu
  have hu_next : exec .parse { s with txOut := [] } = .next u := execParse_running (by exact hrun) (by exact hi)
  have hu_begin : beginEvent rest u = beginEvent rest w := (congrArg (beginEvent rest) hparse :)
  have hu_txOut : u.txOut = w.txOut := (congrArg State.txOut hparse :)
  have hu_indices : IndicesOk u := by
    have hw_indices : IndicesOk w := indicesOk_parsed (inv_kept.begin_ rest s h) hrun
    have hparsed : IndicesOk (parseFrame { s with txOut := [] }).1 := by rwa [hparse]
    exact hparsed
  have hu_run : u.halted = false := (parseFrame_halted _).trans hrun
  have hu_params : u.params = s.params := parseFrame_params _
  have hu_inputs : u.inputs = .tick presence busy bo nonce :: rest := (parseFrame_inputs _).trans hs
  have hu_step := step_tick hu_run hu_indices (show legalDraw u bo by rwa [legalDraw, hu_params]) hu_inputs
  have hw_beside : w = beside id w.txOut rest none (beginEvent rest w) :=
    eq_beside (parseFrame_inputs b) (parseFrame_result b)
  have hw_on : tickGoesOn presence (beginEvent rest w) := by
    have hparams : (beginEvent rest w).params = s.params := parseFrame_params b
    have habs : (beginEvent rest w).sl.absCnt = s.sl.absCnt := parseFrame_absCnt b
    rwa [tickGoesOn, hparams, habs]
  refine ⟨u, _, hu_next, parseFrame_fstate hi, hu_step, ?_⟩
  have htick : tick presence busy bo nonce b =
      beside id w.txOut rest none (tick presence busy bo nonce (beginEvent rest w)) := by
    rw [tick_parsed busy bo nonce (by exact hi) (by exact hr) (by exact hon), ← hw,
      ← tick_beside busy bo nonce _ _ _ hw_on, ← hw_beside]
  rw [step_tick hrun hi hdraw hs, ← hb, htick, hu_begin, hu_txOut]
  have hinputs : (tick presence busy bo nonce (beginEvent rest w)).inputs = rest := tick_inputs ..
  have hresult : (tick presence busy bo nonce (beginEvent rest w)).result = none := tick_result ..
  generalize tick presence busy bo nonce (beginEvent rest w) = t at hinputs hresult
  subst hinputs
  rw [beside, ← hresult]
  rfl

end Sys2Proof.Proofs.ParseInTick
end

section
/-! SUPPORT. The two timers of the frame engine in the tick (41_frame_engine.md R100, R101, 47_tick_schedule.md R158),
and the wait they resolve (R160). -/

namespace Sys2Proof.Proofs.EngineTimers

open Sys2Proof.Machine
open Sys2Proof.Proofs.Invariants
open Sys2Proof.Proofs.SlaveController
open Sys2Proof.Proofs.FrameEngine (drain_eq)
open Sys2Proof.Proofs.QuietTicks
open Sys2Proof.Proofs.ParseInTick (inv_kept)
open Sys2Proof.Proofs.DeliveredFrame (run_succ)
open Sys2Proof.Proofs.WireCommands (consumeReply_anyWait)

/-! ### BUSY_TICK as a change of the frame engine

RELEASE writes the wait only to record an awaited reply, so without a pending wait BUSY_TICK changes the engine alone,
by what the engine is. -/

theorem unread_congr {s t : State} (h : s.fe = t.fe) : unread s = unread t := by rw [unread, unread, h]

theorem release_fe_congr {s t : State} (h : s.fe = t.fe) : (release s).fe = (release t).fe := by
  by_cases hp : s.fe.fstate = .processing ∧ s.fe.crcSt = .pending
  · obtain ⟨hproc, hcrc⟩ := hp
    rw [release_of_pending hproc hcrc, release_of_pending (h ▸ hproc) (h ▸ hcrc), discard_eq, discard_eq]
    dsimp only
    rw [drain_fe, drain_fe, unread_congr h, trailer_congr (congrArg _ h) (congrArg _ h), h]
  · rw [release_of_consumed hp, release_of_consumed (h ▸ hp), discard_eq, discard_eq]
    exact congrArg idleEngine h

theorem release_withEngine {s : State} (h : s.rw.state ≠ .pending) : release s = { s with fe := (release s).fe } := by
  by_cases hp : s.fe.fstate = .processing ∧ s.fe.crcSt = .pending
  · have hno : isReply s = false := Bool.eq_false_iff.mpr fun hr => h ((isReply_iff s).mp hr).1
    rw [release_of_pending hp.1 hp.2, drain_eq]
    simp only [hno, Bool.false_eq_true, and_false, if_false]
    rfl
  · rw [release_of_consumed hp, discard_eq]

/-- The engine with one more tick counted. -/
def counted (s : State) : State := { s with fe := { s.fe with busyCnt := s.fe.busyCnt + 1#16 } }

theorem busyTick_eq (s : State) : busyTick s =
    if s.fe.fstate ≠ .idle ∨ s.fe.rxActive = true then
      if s.params.busyTimeout < s.fe.busyCnt.toNat + 1 then
        if s.fe.fstate = .processing then release (counted s) else discard (counted s)
      else counted s
    else s := rfl

theorem busyTick_fe_congr {s t : State} (h : s.fe = t.fe) (hp : s.params = t.params) :
    (busyTick s).fe = (busyTick t).fe := by
  have hcount : (counted s).fe = (counted t).fe := by rw [counted, counted, h]
  rw [busyTick_eq, busyTick_eq, h, hp]
  split_ifs
  · exact release_fe_congr hcount
  · exact congrArg idleEngine hcount
  · exact hcount
  · exact h

theorem busyTick_withEngine {s : State}
    (h : s.rw.state ≠ .pending ∨ ¬ (s.fe.fstate = .processing ∧ s.params.busyTimeout < s.fe.busyCnt.toNat + 1)) :
    busyTick s = { s with fe := (busyTick s).fe } := by
  rw [busyTick_eq]
  split_ifs with hbusy hlate hproc
  · have hwait : (counted s).rw.state ≠ .pending := h.resolve_right (not_not.mpr ⟨hproc, hlate⟩)
    exact release_withEngine hwait
  · rfl
  · rfl
  · rfl

/-! ### Steps 4 to 6 of a tick that finds no frame ready -/

theorem engineStep_notReady {s : State} (h : s.fe.fstate ≠ .ready) : engineStep s = rwTick (busyTick s) := by
  rw [engineStep, if_neg h]

theorem rwTick_notPending {s : State} (h : s.rw.state ≠ .pending) : rwTick s = s := if_neg h

theorem rwTick_late {s : State} (h : s.rw.state = .pending) (hlate : s.params.replyTimeout < s.rw.cnt.toNat + 1) :
    rwTick s = { s with rw := { s.rw with state := .timedOut, cnt := s.rw.cnt + 1#16 } } := by
  rw [rwTick, if_pos h, if_pos hlate]

theorem rwTick_early {s : State} (h : s.rw.state = .pending) (hearly : s.rw.cnt.toNat + 1 ≤ s.params.replyTimeout) :
    rwTick s = { s with rw := { s.rw with cnt := s.rw.cnt + 1#16 } } := by
  rw [rwTick, if_pos h, if_neg (by omega), ← h]

/-- The steps up to the outcome are those of the state in which the wait has been consumed, where BUSY_TICK changes the
engine alone and the outcome is `o`. -/
theorem outcome_consumed {o : WaitOutcome} {s : State} (hno : s.fe.fstate ≠ .ready)
    (hbusy : busyTick s = { s with fe := (busyTick s).fe })
    (ho : outcomeStep (rwTick { s with fe := (busyTick s).fe }) = consumeReply o { s with fe := (busyTick s).fe }) :
    outcomeStep (engineStep s) = outcomeStep (engineStep (consumeReply o s)) := by
  have hnone : (consumeReply o s).rw.state = .none := by rw [consumeReply_rw]
  have hfe : (busyTick (consumeReply o s)).fe = (busyTick s).fe :=
    busyTick_fe_congr (consumeReply_fe o s) (consumeReply_params o s)
  have hafter : busyTick (consumeReply o s) = { consumeReply o s with fe := (busyTick s).fe } := by
    rw [← hfe]
    exact busyTick_withEngine (.inl (by simp))
  rw [engineStep_notReady hno, hbusy, ho, consumeReply_withEngine, engineStep_notReady (by rwa [consumeReply_fe]),
    hafter, rwTick_notPending (by simp), outcomeStep_quiet (by exact hnone)]

/-- A received wait is consumed as a DATA reply. -/
theorem outcome_received {s : State} (hno : s.fe.fstate ≠ .ready) (hw : s.rw.state = .received) :
    outcomeStep (engineStep s) = outcomeStep (engineStep (consumeReply .data s)) := by
  refine outcome_consumed hno (busyTick_withEngine (.inl (by simp [hw]))) ?_
  rw [rwTick_notPending (by simp [hw]), outcomeStep, if_pos (by exact hw)]

/-- A pending wait is consumed as timed out on the tick past REPLY_TIMEOUT. -/
theorem outcome_timedOut {s : State} (hno : s.fe.fstate ≠ .ready)
    (hheld : ¬ (s.fe.fstate = .processing ∧ s.params.busyTimeout < s.fe.busyCnt.toNat + 1)) (hw : s.rw.state = .pending)
    (hlate : s.params.replyTimeout < s.rw.cnt.toNat + 1) :
    outcomeStep (engineStep s) = outcomeStep (engineStep (consumeReply .timeout s)) := by
  refine outcome_consumed hno (busyTick_withEngine (.inr hheld)) ?_
  rw [rwTick_late (by exact hw) (by exact hlate), outcomeStep, if_neg (by simp), if_pos rfl]
  exact consumeReply_anyWait .timeout .timedOut (s.rw.cnt + 1#16) { s with fe := (busyTick s).fe }

/-- The state after the two timers, the wait one tick older. -/
def waited (s : State) : State := { s with fe := (busyTick s).fe, rw := { s.rw with cnt := s.rw.cnt + 1#16 } }

/-- A pending wait within REPLY_TIMEOUT is counted. -/
theorem outcome_waiting {s : State} (hno : s.fe.fstate ≠ .ready)
    (hheld : ¬ (s.fe.fstate = .processing ∧ s.params.busyTimeout < s.fe.busyCnt.toNat + 1)) (hw : s.rw.state = .pending)
    (hearly : s.rw.cnt.toNat + 1 ≤ s.params.replyTimeout) :
    outcomeStep (engineStep s) = waited s := by
  rw [engineStep_notReady hno, busyTick_withEngine (.inr hheld), rwTick_early (by exact hw) (by exact hearly),
    outcomeStep, if_neg (by simp [hw]), if_neg (by simp [hw])]
  rfl

/-- The tick past BUSY_TIMEOUT is that of the released frame. -/
theorem engineStep_released {s : State} (h : s.fe.fstate = .processing ∨ s.fe.fstate = .idle ∧ s.fe.rxActive = true)
    (hlate : s.params.busyTimeout < s.fe.busyCnt.toNat + 1) : engineStep s = engineStep (release s) := by
  have hfreed : busyTick (release s) = release s := if_neg (by simp)
  have hbusy : busyTick s = release s := by
    rcases h with hproc | ⟨hidle, hactive⟩
    · rw [busyTick_eq, if_pos (.inl (by simp [hproc])), if_pos hlate, if_pos hproc]
      by_cases hcrc : s.fe.crcSt = .pending
      · rw [release_of_pending hproc hcrc, release_of_pending (s := counted s) hproc hcrc, drain_eq, drain_eq]
        rfl
      · rw [release_of_consumed fun hp => hcrc hp.2, release_of_consumed (s := counted s) fun hp => hcrc hp.2]
        rfl
    · rw [busyTick_eq, if_pos (.inr hactive), if_pos hlate, if_neg (by simp [hidle]),
        release_of_consumed (by simp [hidle])]
      rfl
  have hno : s.fe.fstate ≠ .ready := by rcases h with hp | ⟨hp, -⟩ <;> simp [hp]
  rw [engineStep_notReady hno, engineStep_notReady (by simp), hbusy, hfreed]

/-! ### Ticks that agree from the outcome of the wait on -/

/-- The rest of a tick reads the engine only through steps 4 to 6. -/
theorem tick_congr {presence busy : Bool} {bo : Half} {n : Wide} {s t : State} (hon : tickGoesOn presence s)
    (hp : t.params = s.params) (hsl : t.sl = s.sl) (hin : t.inputs = s.inputs) (hr : t.result = s.result)
    (h : outcomeStep (engineStep s) = outcomeStep (engineStep t)) :
    tick presence busy bo n s = tick presence busy bo n t := by
  have hm' : isMaster t = isMaster s := by rw [isMaster, isMaster, hp]
  cases hm : isMaster s
  · have hslave := (isMaster_eq_false_iff s).mp hm
    have hunseen := unseen_supervisedRegs s.params presence busy bo
    rw [tick_goesOn hm busy bo n (hon hslave), tick_goesOn (hm'.trans hm) busy bo n (by rw [hp, hsl]; exact hon hslave),
      engineStep_beside _ _ _ _ _ hunseen, outcomeStep_beside, h, hp, hin, hr, engineStep_beside _ _ _ _ _ hunseen,
      outcomeStep_beside]
  · rw [tick, if_pos hm, h, tick, if_pos (hm'.trans hm)]

/-- A procedure that leaves the outputs, the events and the record alone commutes with the start of an event. -/
theorem beginEvent_commutes {g : State → State} (hg : ∀ x es r t, g (beside id x es r t) = beside id x es r (g t))
    (hout : ∀ t, (g t).txOut = t.txOut) (rest : List Event) (s : State) :
    beginEvent rest (g s) = g (beginEvent rest s) := by
  have hs : s = beside id s.txOut s.inputs s.result (beginEvent rest s) := by
    rw [beside, beginEvent, List.append_nil]
    rfl
  have hb : g (beginEvent rest s) = beside id [] rest none (g (beginEvent rest s)) :=
    hg [] rest none (beginEvent rest s)
  have hin : (g (beginEvent rest s)).inputs = rest := congrArg State.inputs hb
  have hr : (g (beginEvent rest s)).result = none := congrArg State.result hb
  have htx : (g (beginEvent rest s)).txOut = [] := hout (beginEvent rest s)
  rw [hs, hg, ← hs]
  generalize g (beginEvent rest s) = t at hin hr htx
  subst hin
  rw [beside, beginEvent, ← hr, ← htx]
  rfl

theorem beginEvent_release (rest : List Event) (s : State) :
    beginEvent rest (release s) = release (beginEvent rest s) :=
  beginEvent_commutes (fun x es r t => release_beside id x es r t) (fun t => release_txOut t) rest s

theorem beginEvent_consumeReply (o : WaitOutcome) (rest : List Event) (s : State) :
    beginEvent rest (consumeReply o s) = consumeReply o (beginEvent rest s) :=
  beginEvent_commutes (fun x es r t => consumeReply_beside id x es r t o) (fun t => consumeReply_txOut o t) rest s

/-! ### The invariant where the wait is consumed or the frame released -/

theorem indicesOk_release {s : State} (h : Machine.Inv s) (hrun : s.halted = false) : IndicesOk (release s) :=
  indicesOk_of_parts (engineInv_of_idled (idled_release h.engine.counts.2) (by simpa using hrun))
    (h.queue.of_queue (by simp) (by simp)) (rosterInv_release h.roster)
    (h.slave.of_same (by simp) (by simp) (by simp) (by simp))

theorem indicesOk_consumeReply (o : WaitOutcome) {s : State} (h : Machine.Inv s) (hw : s.rw.state ≠ .none) :
    IndicesOk (consumeReply o s) :=
  indicesOk_of_parts (h.engine.of_fe (by simp) (by simp)) (h.queue.of_queue (by simp) (by simp))
    (rosterInv_consumeReply o h.roster hw) (h.slave.of_same (by simp) (by simp) (by simp) (by simp))

/-! ### The tick as a step -/

section
variable {presence busy : Bool} {bo : Half} {nonce : Wide} {rest : List Event} {s : State}

/-- The step of a tick that goes on is that of any state it agrees with from the outcome of the wait on. -/
theorem step_congr {t : State} (hi : IndicesOk s) (hrun : s.halted = false) (hdraw : legalDraw s bo)
    (hon : tickGoesOn presence s) (hs : s.inputs = .tick presence busy bo nonce :: rest) (hit : IndicesOk t)
    (hp : t.params = s.params) (hsl : t.sl = s.sl) (hin : t.inputs = s.inputs) (hh : t.halted = s.halted)
    (h : outcomeStep (engineStep (beginEvent rest s)) = outcomeStep (engineStep (beginEvent rest t))) :
    step s = step t := by
  rw [step_tick hrun hi hdraw hs, step_tick (hh.trans hrun) hit (by rwa [legalDraw, hp]) (hin.trans hs)]
  exact congrArg _ (tick_congr hon hp hsl rfl rfl h)

/-- What the slave's timers leave: a reset that ends the tick, or a change of the slave's registers. -/
theorem slaveTimers_cases (n : Wide) (s : State) :
    (∃ f, slaveTimers n s = (slaveReset n (modifySlave f s), true)) ∨
      ∃ f, slaveTimers n s = (modifySlave f s, false) := by
  by_cases hstep : s.sl.state = .signalSent ∨ s.sl.state = .addrSet ∨ s.sl.state = .uidSent
  · rw [slaveTimers_step hstep]
    dsimp only
    split
    · exact .inl ⟨_, rfl⟩
    · exact .inr ⟨_, rfl⟩
  by_cases hconn : s.sl.state = .connected
  · rw [slaveTimers_connected hconn]
    dsimp only
    split
    · exact .inl ⟨_, rfl⟩
    · exact .inr ⟨_, rfl⟩
  · have hrest : s.sl.state = .disconnected ∨ s.sl.state = .pluggedIn := by
      cases h : s.sl.state <;> simp_all
    rw [slaveTimers_unconnected hrest]
    exact .inr ⟨id, rfl⟩

/-- A slave that waits for a reply initiates nothing. -/
theorem slaveInitiate_waiting (h : s.rw.state = .pending) : slaveInitiate s = s := if_neg fun hc => hc.2.1 h

/-- The slave's step where a reply is awaited: its registers only, or a reset. -/
theorem slaveStep_waiting (n : Wide) (h : s.rw.state = .pending) :
    (∃ f, slaveStep n s = modifySlave f s) ∨ ∃ f, slaveStep n s = slaveReset n (modifySlave f s) := by
  rcases slaveTimers_cases n s with ⟨f, e⟩ | ⟨f, e⟩
  · exact .inr ⟨f, slaveStep_ended e⟩
  · exact .inl ⟨f, (slaveStep_goesOn e).trans (slaveInitiate_waiting (by exact h))⟩

/-- A master that waits for a reply initiates nothing. -/
theorem masterStep_waiting (h : s.rw.state = .pending) : masterStep s = liveness s :=
  if_neg fun hc => hc.2 (by rwa [liveness_rw])

/-- A tick that counts a pending wait. -/
theorem tick_waiting (hon : tickGoesOn presence s) (hno : s.fe.fstate ≠ .ready)
    (hheld : ¬ (s.fe.fstate = .processing ∧ s.params.busyTimeout < s.fe.busyCnt.toNat + 1)) (hw : s.rw.state = .pending)
    (hearly : s.rw.cnt.toNat + 1 ≤ s.params.replyTimeout) :
    let t := tick presence busy bo nonce s
    (t.rw = { s.rw with cnt := s.rw.cnt + 1#16 } ∧ t.app = s.app ∧ t.hs = s.hs ∧ t.queue = s.queue ∧
        t.txOut = s.txOut) ∨
      s.params.role = .slave ∧ t.rw.state = .none ∧ t.sl.state = .disconnected := by
  dsimp only
  cases hm : isMaster s
  · have hslave := (isMaster_eq_false_iff s).mp hm
    rw [tick_goesOn hm busy bo nonce (hon hslave), outcome_waiting (by exact hno) (by exact hheld) (by exact hw)
      (by exact hearly)]
    rcases slaveStep_waiting nonce (s := waited
      (beside (supervisedRegs s.params presence busy bo) [] s.inputs s.result s)) hw with ⟨f, e⟩ | ⟨f, e⟩
    · refine .inl ?_
      rw [e]
      exact ⟨rfl, rfl, rfl, rfl, rfl⟩
    · refine .inr ⟨hslave, ?_⟩
      rw [e]
      exact ⟨rfl, rfl⟩
  · refine .inl ?_
    rw [tick, if_pos hm, outcome_waiting hno hheld hw hearly, masterStep_waiting (s := waited s) hw]
    simp [waited]

/-! ### The wait and the release in one tick (R158, steps 5 and 6) -/

variable (h : Machine.Inv s) (hrun : s.halted = false) (hdraw : legalDraw s bo) (hon : tickGoesOn presence s)
  (hs : s.inputs = .tick presence busy bo nonce :: rest)
include h hrun hdraw hon hs

/-- The tick past BUSY_TIMEOUT is the tick of the released state. -/
theorem step_released (hheld : s.fe.fstate = .processing ∨ s.fe.rxActive = true)
    (hlast : s.fe.busyCnt.toNat = s.params.busyTimeout) : step s = step (release s) := by
  have hcase : s.fe.fstate = .processing ∨ s.fe.fstate = .idle ∧ s.fe.rxActive = true :=
    hheld.imp_right fun ha => ⟨(h.engine.accumulating ha).1, ha⟩
  refine step_congr (indicesOk_of_inv h) hrun hdraw hon hs (indicesOk_release h hrun) (by simp) (by simp) (by simp)
    (by simp) ?_
  rw [beginEvent_release, engineStep_released (s := beginEvent rest s) hcase (Nat.lt_succ_of_le hlast.ge)]

/-- The tick that consumes the wait, whatever the outcome. -/
theorem step_consumed {o : WaitOutcome} (hw : s.rw.state ≠ .none)
    (ho : outcomeStep (engineStep (beginEvent rest s)) =
      outcomeStep (engineStep (consumeReply o (beginEvent rest s)))) : step s = step (consumeReply o s) := by
  refine step_congr (indicesOk_of_inv h) hrun hdraw hon hs (indicesOk_consumeReply o h hw) (by simp) (by simp) (by simp)
    (by simp) ?_
  rw [beginEvent_consumeReply, ho]

end

/-- The second half of O44: what one tick does with the wait and with a frame held too long. -/
theorem tick_resolves (s : State) (presence busy : Bool) (bo : Half) (nonce : Wide) (rest : List Event)
    (h : Machine.Inv s) (hrun : s.halted = false) (hdraw : legalDraw s bo) (hon : tickGoesOn presence s)
    (hs : s.inputs = .tick presence busy bo nonce :: rest) :
    (s.fe.fstate = .processing ∨ s.fe.rxActive = true → s.fe.busyCnt.toNat = s.params.busyTimeout →
      step s = step (release s)) ∧
    (s.fe.fstate ≠ .ready → s.rw.state = .received → step s = step (consumeReply .data s)) ∧
    (s.fe.fstate = .idle ∨ s.fe.fstate = .processing ∧ s.fe.busyCnt.toNat + 1 ≤ s.params.busyTimeout →
      s.rw.state = .pending →
      (s.params.replyTimeout < s.rw.cnt.toNat + 1 → step s = step (consumeReply .timeout s)) ∧
      (s.rw.cnt.toNat + 1 ≤ s.params.replyTimeout → ∃ t, step s = .next t ∧
        (t.rw = { s.rw with cnt := s.rw.cnt + 1#16 } ∧ t.app = s.app ∧ t.hs = s.hs ∧ t.queue = s.queue ∧
            t.txOut = [] ∨
          s.params.role = .slave ∧ t.rw.state = .none ∧ t.sl.state = .disconnected))) := by
  refine ⟨fun hheld hlast => step_released h hrun hdraw hon hs hheld hlast, fun hno hw => ?received,
    fun hcase hw => ?pending⟩
  case received =>
    exact step_consumed h hrun hdraw hon hs (by simp [hw]) (outcome_received (s := beginEvent rest s) hno hw)
  case pending =>
    have hno : s.fe.fstate ≠ .ready := by rcases hcase with e | ⟨e, -⟩ <;> simp [e]
    have hheld : ¬ (s.fe.fstate = .processing ∧ s.params.busyTimeout < s.fe.busyCnt.toNat + 1) := by
      rcases hcase with e | ⟨-, hle⟩
      · simp [e]
      · exact fun hc => absurd hc.2 (Nat.not_lt.mpr hle)
    refine ⟨fun hlate => ?timedOut, fun hearly => ⟨_, step_tick hrun (indicesOk_of_inv h) hdraw hs, ?waiting⟩⟩
    case timedOut =>
      exact step_consumed h hrun hdraw hon hs (by simp [hw])
        (outcome_timedOut (s := beginEvent rest s) hno hheld hw hlate)
    case waiting => exact tick_waiting (s := beginEvent rest s) hon hno hheld hw hearly

/-! ### A frame held or under way ends (R100) -/

/-- The engine is as DISCARD leaves it. -/
def Freed (s : State) : Prop := s.fe = idleEngine s.fe

/-- A frame is held or under way. -/
def Holding (s : State) : Prop := s.fe.fstate = .processing ∨ s.fe.rxActive = true

theorem freed_of_idleEngine {s : State} {e : FrameEngine} (h : s.fe = idleEngine e) : Freed s := by
  rw [Freed, h]
  rfl

theorem Freed.of_fe {s t : State} (h : Freed s) (e : t.fe = s.fe) : Freed t := by
  rw [Freed, e]
  exact h

theorem Freed.fstate {s : State} (h : Freed s) : s.fe.fstate ≠ .processing := by
  have hidle : s.fe.fstate = .idle := congrArg FrameEngine.fstate h
  simp [hidle]

/-- SEND from a freed engine leaves it freed. -/
theorem freed_sendFrame (dst : Byte) (mode : Bool) (p : List Byte) {s : State} (h : Freed s) :
    Freed (sendFrame dst mode p s).1 := by
  by_cases hp : p.length ≤ maxPayload
  · rw [sendFrame_idle hp h.fstate]
    exact freed_of_idleEngine rfl
  · rw [sendFrame_long (Nat.lt_of_not_le hp), endHeld_of_none h.fstate]
    exact h

theorem freed_sendRequest (code : Byte) (kind : WaitKind) (d : Nibble) {s : State} (h : Freed s) :
    Freed (sendRequest code kind d s) := (freed_sendFrame _ _ _ h).of_fe rfl

theorem freed_dispatchQueue {s : State} (h : Freed s) : Freed (dispatchQueue s) := by
  have hsent (d : Byte) (mode : Bool) (p : List Byte) :=
    freed_sendFrame d mode p (s := { s with queue := { s.queue with head := nextIndex s s.queue.head } }) h
  unfold dispatchQueue
  dsimp only
  split
  · exact (hsent _ _ _).of_fe rfl
  · exact hsent _ _ _

theorem freed_slaveReset (n : Wide) (s : State) : Freed (slaveReset n s) := by
  refine freed_of_idleEngine (e := { s.fe with crcSt := .none }) ?_
  simp [slaveReset, idleEngine]

theorem channelIdle_of_holding {s : State} (h : Holding s) : ¬ channelIdle s = true := by
  intro hch
  obtain ⟨hidle, hno, -⟩ := (channelIdle_iff s).mp hch
  rcases h with hp | ha
  · rw [hidle] at hp
    cases hp
  · rw [hno] at ha
    cases ha

section
variable {s : State}

theorem freed_masterInitiate (h : Freed s) : Freed (masterInitiate s) := by
  by_cases hidle : s.hs.state = .idle
  · by_cases hdue : (scan s).2 = 0#4
    · rw [masterInitiate_noneDue hidle hdue]
      split
      · exact freed_dispatchQueue h
      · exact h
    · rw [masterInitiate_due hidle hdue, pingSlot]
      exact (freed_sendRequest codePing .ping _ (h.of_fe (scan_fe s))).of_fe rfl
  · cases hst : s.hs.state with
    | idle => exact absurd hst hidle
    | sendGetUid => rw [masterInitiate_sendGetUid hst]; exact (freed_sendRequest codeGetUid .hsUid _ h).of_fe rfl
    | sendPing => rw [masterInitiate_sendPing hst]; exact (freed_sendRequest codePing .hsPing _ h).of_fe rfl
    | waitAddrAck => rw [masterInitiate_waiting (.inl hst)]; exact h
    | waitUidAck => rw [masterInitiate_waiting (.inr (.inl hst))]; exact h
    | waitPingAck => rw [masterInitiate_waiting (.inr (.inr hst))]; exact h

theorem freed_masterStep (h : Freed s) : Freed (masterStep s) := by
  unfold masterStep
  dsimp only
  split
  · exact freed_masterInitiate (h.of_fe (liveness_fe s))
  · exact h.of_fe (liveness_fe s)

/-- A master whose channel is taken only counts the roster down. -/
theorem masterStep_holding (h : Holding s) : (masterStep s).fe = s.fe := by
  have hheld : Holding (liveness s) := by rwa [Holding, liveness_fe]
  rw [masterStep, if_neg fun hc => channelIdle_of_holding hheld hc.1, liveness_fe]

theorem freed_slaveInitiate (h : Freed s) : Freed (slaveInitiate s) := by
  unfold slaveInitiate
  split
  · split
    · exact (freed_sendFrame _ _ _ h).of_fe rfl
    · split
      · exact freed_dispatchQueue h
      · exact h
  · exact h

theorem freed_slaveStep (n : Wide) (h : Freed s) : Freed (slaveStep n s) := by
  rcases slaveTimers_cases n s with ⟨f, e⟩ | ⟨f, e⟩
  · rw [slaveStep_ended e]
    exact freed_slaveReset n _
  · rw [slaveStep_goesOn e]
    exact freed_slaveInitiate (h.of_fe rfl)

/-- A slave whose channel is taken sends nothing, but its timers may reset it. -/
theorem slaveStep_holding (n : Wide) (h : Holding s) :
    (slaveStep n s).fe = s.fe ∨ Freed (slaveStep n s) ∧ (slaveStep n s).sl.state = .disconnected := by
  rcases slaveTimers_cases n s with ⟨f, e⟩ | ⟨f, e⟩
  · rw [slaveStep_ended e]
    exact .inr ⟨freed_slaveReset n _, rfl⟩
  · have hheld : ¬ channelIdle (modifySlave f s) = true := channelIdle_of_holding (s := modifySlave f s) h
    rw [slaveStep_goesOn e, slaveInitiate, if_neg fun hc => hheld hc.1]
    exact .inl rfl

/-! ### One tick of a frame held or under way -/

/-- The frame is not for PARSE. -/
theorem Holding.not_ready (h : Holding s) (he : EngineInv s) : s.fe.fstate ≠ .ready := by
  rcases h with hp | ha
  · simp [hp]
  · simp [(he.accumulating ha).1]

theorem Holding.counts (h : Holding s) : s.fe.fstate ≠ .idle ∨ s.fe.rxActive = true :=
  h.imp_left fun hp => by simp [hp]

/-- The timer within BUSY_TIMEOUT counts. -/
theorem outcome_counted (hno : s.fe.fstate ≠ .ready) (h : Holding s)
    (hle : s.fe.busyCnt.toNat + 1 ≤ s.params.busyTimeout) :
    (outcomeStep (engineStep s)).fe = { s.fe with busyCnt := s.fe.busyCnt + 1#16 } := by
  rw [outcomeStep_fe, engineStep_notReady hno, rwTick_fe, busyTick_eq, if_pos h.counts, if_neg (Nat.not_lt.mpr hle)]
  rfl

/-- The timer past BUSY_TIMEOUT frees the engine. -/
theorem outcome_freed (hno : s.fe.fstate ≠ .ready) (h : Holding s)
    (hlate : s.params.busyTimeout < s.fe.busyCnt.toNat + 1) : Freed (outcomeStep (engineStep s)) := by
  have hfree : Freed (busyTick s) := by
    rw [busyTick_eq, if_pos h.counts, if_pos hlate]
    split
    · exact freed_of_idleEngine (e := (release (counted s)).fe) rfl
    · exact freed_of_idleEngine rfl
  rw [engineStep_notReady hno]
  exact hfree.of_fe (by rw [outcomeStep_fe, rwTick_fe])

/-- The engine goes on holding the frame, one tick older. -/
def Older (s t : State) : Prop :=
  s.fe.busyCnt.toNat + 1 ≤ s.params.busyTimeout ∧ t.fe = { s.fe with busyCnt := s.fe.busyCnt + 1#16 }

/-- The engine is freed, by its timer or with a reset of the slave. -/
def Ended (s t : State) : Prop :=
  Freed t ∧ (s.params.busyTimeout < s.fe.busyCnt.toNat + 1 ∨ s.params.role = .slave ∧ t.sl.state = .disconnected)

theorem masterTick_holding (hno : s.fe.fstate ≠ .ready) (h : Holding s) :
    Older s (masterStep (outcomeStep (engineStep s))) ∨ Ended s (masterStep (outcomeStep (engineStep s))) := by
  rcases Nat.lt_or_ge s.params.busyTimeout (s.fe.busyCnt.toNat + 1) with hlate | hle
  · exact .inr ⟨freed_masterStep (outcome_freed hno h hlate), .inl hlate⟩
  · have hcounted := outcome_counted hno h hle
    have hheld : Holding (outcomeStep (engineStep s)) := by
      rw [Holding, hcounted]
      exact h
    exact .inl ⟨hle, (masterStep_holding hheld).trans hcounted⟩

theorem slaveTick_holding (n : Wide) (hrole : s.params.role = .slave) (hno : s.fe.fstate ≠ .ready) (h : Holding s) :
    Older s (slaveStep n (outcomeStep (engineStep s))) ∨ Ended s (slaveStep n (outcomeStep (engineStep s))) := by
  rcases Nat.lt_or_ge s.params.busyTimeout (s.fe.busyCnt.toNat + 1) with hlate | hle
  · exact .inr ⟨freed_slaveStep n (outcome_freed hno h hlate), .inl hlate⟩
  · have hcounted := outcome_counted hno h hle
    have hheld : Holding (outcomeStep (engineStep s)) := by
      rw [Holding, hcounted]
      exact h
    rcases slaveStep_holding n hheld with e | ⟨hfree, hdisc⟩
    · exact .inl ⟨hle, e.trans hcounted⟩
    · exact .inr ⟨hfree, .inr ⟨hrole, hdisc⟩⟩

/-- One tick of a frame held or under way, whatever it carries. -/
theorem tick_holding (presence busy : Bool) (bo : Half) (n : Wide) (hno : s.fe.fstate ≠ .ready) (h : Holding s) :
    Older s (tick presence busy bo n s) ∨ Ended s (tick presence busy bo n s) := by
  cases hm : isMaster s
  · have hrole := (isMaster_eq_false_iff s).mp hm
    by_cases hon : presence = true ∨ s.sl.absCnt.toNat + 1 ≠ s.params.presenceDebounce
    · rw [tick_goesOn hm busy bo n hon]
      exact slaveTick_holding n (s := beside (supervisedRegs s.params presence busy bo) [] s.inputs s.result s)
        hrole hno h
    · obtain ⟨hpres, hlast⟩ := not_or.mp hon
      rw [Bool.eq_false_iff.mpr hpres, tick_ended hm (presenceStep_lost hrole (not_not.mp hlast))]
      exact .inr ⟨freed_of_idleEngine (e := { s.fe with crcSt := .none }) rfl, .inr ⟨hrole, rfl⟩⟩
  · rw [tick, if_pos hm]
    exact masterTick_holding hno h

end

/-! ### The ticks up to BUSY_TIMEOUT -/

/-- Within `n` ticks the engine is freed, on the last of them or with a reset of the slave, and until then only the
busy counter moves. -/
def FreedWithin (n : Nat) (s : State) : Prop :=
  ∃ k t, 1 ≤ k ∧ k ≤ n ∧ Host.Core.run core k s = .next t ∧ t.fe = idleEngine t.fe ∧
    (k = n ∨ s.params.role = .slave ∧ t.sl.state = .disconnected) ∧
    ∀ j < k, ∃ u, Host.Core.run core j s = .next u ∧ u.fe = { s.fe with busyCnt := s.fe.busyCnt + BitVec.ofNat 16 j }

/-- Before the first tick. -/
theorem run_zero_fe (s : State) : ∃ u, Host.Core.run core 0 s = .next u ∧
    u.fe = { s.fe with busyCnt := s.fe.busyCnt + BitVec.ofNat 16 0 } :=
  ⟨s, rfl, by rw [BitVec.add_zero]⟩

/-- A tick that frees the engine. -/
theorem freedWithin_of_ended {n : Nat} {s t : State} (hn : n = s.params.busyTimeout + 1 - s.fe.busyCnt.toNat)
    (hpos : 1 ≤ n) (hstep : step s = .next t) (hend : Ended s t) : FreedWithin n s := by
  obtain ⟨hfree, hwhy⟩ := hend
  refine ⟨1, t, le_refl 1, hpos, run_succ 0 hstep, hfree, hwhy.imp_left fun hlate => by omega, fun j hj => ?_⟩
  rw [Nat.lt_one_iff.mp hj]
  exact run_zero_fe s

/-- A tick before the one that frees the engine. -/
theorem freedWithin_of_older {n : Nat} {s t : State} (hstep : step s = .next t) (hp : t.params = s.params)
    (hold : Older s t) (h : FreedWithin n t) : FreedWithin (n + 1) s := by
  obtain ⟨-, hfe⟩ := hold
  obtain ⟨k, v, hlow, hhigh, hrun, hfree, hwhy, hbefore⟩ := h
  refine ⟨k + 1, v, Nat.succ_pos k, Nat.succ_le_succ hhigh, (run_succ k hstep).trans hrun, hfree,
    hwhy.imp (fun e => by rw [e]) fun hs => ⟨hp ▸ hs.1, hs.2⟩, fun j hj => ?_⟩
  cases j with
  | zero => exact run_zero_fe s
  | succ j =>
    obtain ⟨u, hu, hufe⟩ := hbefore j (Nat.lt_of_succ_lt_succ hj)
    refine ⟨u, (run_succ j hstep).trans hu, ?_⟩
    rw [hufe, hfe]
    dsimp only
    rw [BitVec.add_assoc, ← BitVec.ofNat_add, Nat.add_comm 1 j]

theorem Older.holding {s t : State} (hold : Older s t) (h : Holding s) : Holding t := by
  rw [Holding, hold.2]
  exact h

/-- One tick older, one tick less to go. -/
theorem Older.ticksLeft {n : Nat} {s t : State} (hold : Older s t) (hw : s.params.wf) (hp : t.params = s.params)
    (hn : n + 1 = s.params.busyTimeout + 1 - s.fe.busyCnt.toNat) :
    n = t.params.busyTimeout + 1 - t.fe.busyCnt.toNat := by
  obtain ⟨hle, hfe⟩ := hold
  obtain ⟨-, -, ⟨-, hmax⟩, -⟩ := hw
  have hsucc : (s.fe.busyCnt + 1#16).toNat = s.fe.busyCnt.toNat + 1 := by bv_omega
  have hcnt : t.fe.busyCnt.toNat = s.fe.busyCnt.toNat + 1 := by
    rw [hfe]
    exact hsucc
  rw [hcnt, hp]
  omega

/-- The step of a tick, whatever it carries, where a frame is held or under way. -/
theorem step_holding {presence busy : Bool} {bo : Half} {nonce : Wide} {rest : List Event} {s : State}
    (h : Machine.Inv s) (hrun : s.halted = false) (hheld : Holding s) (hdraw : legalDraw s bo)
    (hs : s.inputs = .tick presence busy bo nonce :: rest) :
    ∃ t, step s = .next t ∧ t.halted = false ∧ t.inputs = rest ∧ (Older s t ∨ Ended s t) :=
  ⟨_, step_tick hrun (indicesOk_of_inv h) hdraw hs, (tick_halted ..).trans hrun, tick_inputs ..,
    tick_holding presence busy bo nonce (s := beginEvent rest s) (hheld.not_ready h.engine) hheld⟩

/-- The first half of O44, by induction on the ticks left. -/
theorem freedWithin_ticks (n : Nat) : ∀ (s : State) (ticks rest : List Event), Machine.Inv s → s.halted = false →
    Holding s → n = s.params.busyTimeout + 1 - s.fe.busyCnt.toNat → s.inputs = ticks ++ rest → ticks.length = n →
    (∀ e ∈ ticks, ∃ presence busy bo nonce, e = .tick presence busy bo nonce ∧ legalDraw s bo) → FreedWithin n s := by
  induction n with
  | zero =>
    intro s ticks rest h _ _ hn
    have hbusy := h.counters.busy
    omega
  | succ n ih =>
    intro s ticks rest h hrun hheld hn hin hlen hticks
    obtain ⟨e, ticks, rfl⟩ := List.exists_cons_of_length_eq_add_one hlen
    obtain ⟨presence, busy, bo, nonce, rfl, hdraw⟩ := hticks e List.mem_cons_self
    obtain ⟨t, hstep, hrun', hin', hold | hend⟩ := step_holding h hrun hheld hdraw hin
    · have hparams := StepFrame.step_params hstep
      have hlater : ∀ e ∈ ticks, ∃ presence busy bo nonce, e = .tick presence busy bo nonce ∧ legalDraw t bo := by
        intro e he
        simp only [legalDraw, hparams]
        exact hticks e (List.mem_cons_of_mem _ he)
      exact freedWithin_of_older hstep hparams hold (ih t ticks rest (inv_kept.step h hstep) hrun' (hold.holding hheld)
        (hold.ticksLeft h.params hparams hn) hin' (Nat.succ.inj hlen) hlater)
    · exact freedWithin_of_ended hn (Nat.succ_pos n) hstep hend

/-- Settles O44: the ticks that count, and the one that resolves. -/
theorem engineTimersReleaseAndTimeOut : Obligations.EngineTimersReleaseAndTimeOut :=
  ⟨fun s ticks rest h hrun hheld hin hlen hticks => freedWithin_ticks _ s ticks rest h hrun hheld rfl hin hlen hticks,
    tick_resolves⟩

end Sys2Proof.Proofs.EngineTimers
end
